-- ==== Sys2Proof/Word.lean ====
section
/-! DEFINITION. The machine's words (R5, R6): bit 0 is the least significant bit of a value, a byte is
8 bits, a word 16, a doubleword 32; a physical address has at most 36 bits (R63). -/

namespace Sys2Proof

/-- A byte: 8 bits (R6). -/
abbrev Byte := BitVec 8

/-- A word: 16 bits (R6). A segment selector is one (R90). -/
abbrev Word16 := BitVec 16

/-- A doubleword: 32 bits (R6). Offsets and linear addresses are doublewords (R61, R62). -/
abbrev DWord := BitVec 32

/-- A physical address, at the widest the architecture has: 36 bits (R63). -/
abbrev PhysAddr := BitVec 36

/-- A privilege level, 0 (most privileged) to 3 (R317). -/
abbrev Level := BitVec 2

end Sys2Proof
end

