-- ==== Sys2Proof/Syntax.lean ====
section
/-! DEFINITION. The instructions: one constructor of `Instr` per row of spec/opcode_table.json (R113 and the
prefixes of R109, R110). An operand keeps the form of its encoding, so that an instruction determines its bytes. -/

namespace Sys2Proof

/-- The general registers, numbers 0 to 7 in this order (R35). -/
inductive Reg where
  | eax | ecx | edx | ebx | esp | ebp | esi | edi
deriving DecidableEq, Repr

/-- The segment registers, numbers 0 to 5 in this order (R20, R112). -/
inductive SReg where
  | es | cs | ss | ds | fs | gs
deriving DecidableEq, Repr

/-- The register sums of 16-bit addressing, numbers 0 to 7 in this order (PRESUMED: the family's, log entry 14). -/
inductive Base16 where
  | bxSi | bxDi | bpSi | bpDi | si | di | bp | bx
deriving DecidableEq, Repr

/-- A memory operand with 16-bit addressing, by its ModRM form (R111, R116; log entry 14). -/
inductive Ea16 where
  | direct (disp : Word16)
  | ind (b : Base16)
  | ind8 (b : Base16) (disp : Byte)
  | ind16 (b : Base16) (disp : Word16)
deriving DecidableEq, Repr

/-- A memory operand with 32-bit addressing, by its ModRM and SIB form (R111, R116; log entry 14). In a SIB
form the index ESP means "no index". -/
inductive Ea32 where
  | direct (disp : DWord)
  | ind (b : Reg)
  | ind8 (b : Reg) (disp : Byte)
  | ind32 (b : Reg) (disp : DWord)
  | sib (b x : Reg) (scale : BitVec 2)
  | sibDirect (x : Reg) (scale : BitVec 2) (disp : DWord)
  | sib8 (b x : Reg) (scale : BitVec 2) (disp : Byte)
  | sib32 (b x : Reg) (scale : BitVec 2) (disp : DWord)
deriving DecidableEq, Repr

/-- A memory operand's effective address form, by the address size (R163). -/
inductive Ea where
  | a16 (e : Ea16)
  | a32 (e : Ea32)
deriving DecidableEq, Repr

/-- The operand that `mod` and `rm` name: a general register (`mod` = 3) or memory (R111). -/
inductive RM where
  | reg (r : Reg)
  | mem (e : Ea)
deriving DecidableEq, Repr

/-- The sizes in force for one instruction (R109): operand size 32 or 16, address size 32 or 16. -/
structure Mode where
  op32 : Bool
  addr32 : Bool
deriving DecidableEq, Repr

/-- The instructions of spec/opcode_table.json. -/
inductive Instr where
  /-- MOV Sreg, r/m16 (R199); `sreg` is the ModRM `reg` field, 1, 6 and 7 raise #UD (R112). -/
  | movToSreg (sreg : BitVec 3) (src : RM)
  /-- MOV r/m16, Sreg (R200); `sreg` 6 and 7 raise #UD (R112). -/
  | movFromSreg (sreg : BitVec 3) (dst : RM)
  | popEs
  | popSs
  | popDs
  | popFs
  | popGs
  /-- LDS r, m16:16/32 (R202); a register source raises #UD (R114), as for the next four. -/
  | lds (r : Reg) (src : RM)
  | les (r : Reg) (src : RM)
  | lss (r : Reg) (src : RM)
  | lfs (r : Reg) (src : RM)
  | lgs (r : Reg) (src : RM)
  /-- CALL ptr16:16/32 (R207). -/
  | callPtr (off : DWord) (sel : Word16)
  /-- CALL m16:16/32 (R207); a register operand raises #UD (R114). -/
  | callMem (src : RM)
  /-- JMP ptr16:16/32 (R208). -/
  | jmpPtr (off : DWord) (sel : Word16)
  /-- JMP m16:16/32 (R208); a register operand raises #UD (R114). -/
  | jmpMem (src : RM)
  /-- RET far (R209). -/
  | retFar
  /-- RET far with bytes of stack to release (R209). -/
  | retFarImm (imm : Word16)
  /-- SYSENTER (R210). -/
  | sysenter
  /-- SYSEXIT (R211). -/
  | sysexit
  /-- IRET, IRETD (R212). -/
  | iret
  /-- INT n (R213). -/
  | int (n : Byte)
  /-- INTO (R214). -/
  | into
  /-- INT3 (R215). -/
  | int3
  /-- SLDT r/m16 (R255). -/
  | sldt (dst : RM)
  /-- STR r/m16 (R252). -/
  | str (dst : RM)
  /-- LLDT r/m16 (R258). -/
  | lldt (src : RM)
  /-- LTR r/m16 (R251). -/
  | ltr (src : RM)
  /-- SGDT m (R253); a register operand raises #UD (R114), as for the next three. -/
  | sgdt (dst : RM)
  | sidt (dst : RM)
  | lgdt (src : RM)
  | lidt (src : RM)
  /-- The prefix byte 66H (R109). -/
  | prefixOperandSize
  /-- The prefix byte 67H (R109). -/
  | prefixAddressSize
  /-- The segment-override prefix bytes (R110). -/
  | prefixCs
  | prefixEs
  | prefixSs
  | prefixDs
  | prefixFs
  | prefixGs
deriving DecidableEq, Repr

end Sys2Proof
end

