-- ==== Sys2Proof/WellFormed.lean ====
section
/-! DEFINITION. Which instructions have an encoding under given sizes. An operand whose encoding raises #UD
(R114) is well formed: it decodes, and its meaning raises the exception. -/

namespace Sys2Proof

/-- [BP] without displacement has no encoding: its place is the direct form's (log entry 14). -/
def Ea16.wf : Ea16 → Bool
  | .ind b => b != .bp
  | _ => true

/-- [ESP] needs a SIB byte, and [EBP] without displacement has no encoding, with or without SIB (log entry 14). -/
def Ea32.wf : Ea32 → Bool
  | .ind b => b != .esp && b != .ebp
  | .ind8 b _ => b != .esp
  | .ind32 b _ => b != .esp
  | .sib b _ _ => b != .ebp
  | _ => true

/-- An address form belongs to one address size (R116). -/
def Ea.wf (m : Mode) : Ea → Bool
  | .a16 e => !m.addr32 && e.wf
  | .a32 e => m.addr32 && e.wf

def RM.wf (m : Mode) : RM → Bool
  | .reg _ => true
  | .mem e => e.wf m

/-- An immediate far pointer's offset has 2 bytes with a 16-bit operand size (R108). -/
def farOffsetWf (m : Mode) (off : DWord) : Bool :=
  m.op32 || decide (off.toNat < 65536)

def Instr.wf (m : Mode) : Instr → Bool
  | .movToSreg _ rm | .movFromSreg _ rm => rm.wf m
  | .lds _ rm | .les _ rm | .lss _ rm | .lfs _ rm | .lgs _ rm => rm.wf m
  | .callMem rm | .jmpMem rm => rm.wf m
  | .sldt rm | .str rm | .lldt rm | .ltr rm => rm.wf m
  | .sgdt rm | .sidt rm | .lgdt rm | .lidt rm => rm.wf m
  | .callPtr off _ | .jmpPtr off _ => farOffsetWf m off
  | .popEs | .popSs | .popDs | .popFs | .popGs => true
  | .retFar | .retFarImm _ => true
  | .sysenter | .sysexit | .iret | .int _ | .into | .int3 => true
  | .prefixOperandSize | .prefixAddressSize => true
  | .prefixCs | .prefixEs | .prefixSs | .prefixDs | .prefixFs | .prefixGs => true

end Sys2Proof
end

