-- ==== Sys2Proof/Decode.lean ====
section
/-! DEFINITION. From bytes to instructions and back. Opcodes, fields and immediates are those of
30_encoding.md R108 to R113 and of spec/opcode_table.json; the ModRM and SIB addressing forms are the family's
(PRESUMED, log entry 14). -/

namespace Sys2Proof

/-! ### Register numbers (R35, R20, R112) -/

def Reg.ofBits (b : BitVec 3) : Reg :=
  match b.toNat with
  | 0 => .eax
  | 1 => .ecx
  | 2 => .edx
  | 3 => .ebx
  | 4 => .esp
  | 5 => .ebp
  | 6 => .esi
  | _ => .edi

def Reg.toBits : Reg → BitVec 3
  | .eax => 0
  | .ecx => 1
  | .edx => 2
  | .ebx => 3
  | .esp => 4
  | .ebp => 5
  | .esi => 6
  | .edi => 7

/-- The segment register of a ModRM `reg` field; 6 and 7 name none (R112). -/
def SReg.ofBits (b : BitVec 3) : Option SReg :=
  match b.toNat with
  | 0 => some .es
  | 1 => some .cs
  | 2 => some .ss
  | 3 => some .ds
  | 4 => some .fs
  | 5 => some .gs
  | _ => none

def SReg.toBits : SReg → BitVec 3
  | .es => 0
  | .cs => 1
  | .ss => 2
  | .ds => 3
  | .fs => 4
  | .gs => 5

/-- The 16-bit addressing register sums by `rm` (log entry 14). -/
def Base16.ofBits (b : BitVec 3) : Base16 :=
  match b.toNat with
  | 0 => .bxSi
  | 1 => .bxDi
  | 2 => .bpSi
  | 3 => .bpDi
  | 4 => .si
  | 5 => .di
  | 6 => .bp
  | _ => .bx

def Base16.toBits : Base16 → BitVec 3
  | .bxSi => 0
  | .bxDi => 1
  | .bpSi => 2
  | .bpDi => 3
  | .si => 4
  | .di => 5
  | .bp => 6
  | .bx => 7

/-! ### Little-endian pieces (R71) -/

def byteOf (w : Nat) (v : BitVec w) (k : Nat) : Byte := v.extractLsb' (8 * k) 8

def bytes16 (v : Word16) : List Byte := [byteOf 16 v 0, byteOf 16 v 1]

def bytes32 (v : DWord) : List Byte := [byteOf 32 v 0, byteOf 32 v 1, byteOf 32 v 2, byteOf 32 v 3]

def word16 (b0 b1 : Byte) : Word16 := b1 ++ b0

def dword (b0 b1 b2 b3 : Byte) : DWord := b3 ++ b2 ++ b1 ++ b0

/-! ### The decoder -/

/-- Why bytes are no instruction of this model. -/
inductive DecodeError where
  /-- The bytes end before the instruction does: it has at least `missing` more (R111). -/
  | short (missing : Nat)
  /-- The opcode is not in spec/opcode_table.json (R10: the rest of the instruction set is out of scope). -/
  | notInTable
deriving DecidableEq, Repr

/-- A decoder of a piece: it consumes bytes from the front. -/
abbrev Dec (α : Type) := StateT (List Byte) (Except DecodeError) α

/-- The instruction has `n` more bytes at least. -/
def need (n : Nat) : Dec Unit := fun bs =>
  if bs.length < n then .error (.short (n - bs.length)) else .ok ((), bs)

/-- The next byte of the instruction. -/
def next8 : Dec Byte := fun bs =>
  match bs with
  | [] => .error (.short 1)
  | b :: rest => .ok (b, rest)

def next16 : Dec Word16 := do
  need 2
  let b0 ← next8
  let b1 ← next8
  pure (word16 b0 b1)

def next32 : Dec DWord := do
  need 4
  let b0 ← next8
  let b1 ← next8
  let b2 ← next8
  let b3 ← next8
  pure (dword b0 b1 b2 b3)

def notInTable {α : Type} : Dec α := fun _ => .error .notInTable

/-- The memory operand of 16-bit addressing (log entry 14). -/
def decodeEa16 (md : BitVec 2) (rm : BitVec 3) : Dec Ea16 :=
  match md.toNat with
  | 0 => if rm = 6 then .direct <$> next16 else pure (.ind (.ofBits rm))
  | 1 => .ind8 (.ofBits rm) <$> next8
  | _ => .ind16 (.ofBits rm) <$> next16

/-- How many bytes `mod` alone asks for behind a ModRM byte with a SIB byte. -/
def sibBytes (md : BitVec 2) : Nat :=
  match md.toNat with
  | 0 => 1
  | 1 => 2
  | _ => 5

/-- The memory operand behind a SIB byte: scale 7:6, index 5:3, base 2:0 (log entry 14). -/
def decodeSib (md : BitVec 2) : Dec Ea32 := do
  need (sibBytes md)
  let s ← next8
  let scale := s.extractLsb' 6 2
  let x := Reg.ofBits (s.extractLsb' 3 3)
  let b := Reg.ofBits (s.extractLsb' 0 3)
  match md.toNat with
  | 0 => if b = .ebp then .sibDirect x scale <$> next32 else pure (.sib b x scale)
  | 1 => .sib8 b x scale <$> next8
  | _ => .sib32 b x scale <$> next32

/-- The memory operand of 32-bit addressing (log entry 14). -/
def decodeEa32 (md : BitVec 2) (rm : BitVec 3) : Dec Ea32 :=
  if rm = 4 then decodeSib md
  else
    match md.toNat with
    | 0 => if rm = 5 then .direct <$> next32 else pure (.ind (.ofBits rm))
    | 1 => .ind8 (.ofBits rm) <$> next8
    | _ => .ind32 (.ofBits rm) <$> next32

/-- The operand that `mod` and `rm` name (R111). -/
def decodeRm (m : Mode) (md : BitVec 2) (rm : BitVec 3) : Dec RM :=
  if md = 3 then pure (.reg (.ofBits rm))
  else if m.addr32 then (fun e => .mem (.a32 e)) <$> decodeEa32 md rm
  else (fun e => .mem (.a16 e)) <$> decodeEa16 md rm

/-- A ModRM byte (mod 7:6, reg 5:3, rm 2:0, R111) and what follows it: the `reg` field and the operand. -/
def decodeModRm (m : Mode) : Dec (BitVec 3 × RM) := do
  let b ← next8
  let o ← decodeRm m (b.extractLsb' 6 2) (b.extractLsb' 0 3)
  pure (b.extractLsb' 3 3, o)

/-- The offset of an immediate far pointer, before the selector (R108). -/
def decodeFarOffset (m : Mode) : Dec DWord :=
  if m.op32 then next32 else (fun v => v.setWidth 32) <$> next16

/-- An immediate far pointer: the offset, then the selector (R108). -/
def decodeFarPointer (m : Mode) (f : DWord → Word16 → Instr) : Dec Instr := do
  need (if m.op32 then 6 else 4)
  let off ← decodeFarOffset m
  let sel ← next16
  pure (f off sel)

/-- Opcodes FF /3 and FF /5 (R113). -/
def decodeFF (m : Mode) : Dec Instr := do
  let (reg, rm) ← decodeModRm m
  match reg.toNat with
  | 3 => pure (.callMem rm)
  | 5 => pure (.jmpMem rm)
  | _ => notInTable

/-- Opcodes 0F 00 /0 to /3 (R113). -/
def decode0F00 (m : Mode) : Dec Instr := do
  let (reg, rm) ← decodeModRm m
  match reg.toNat with
  | 0 => pure (.sldt rm)
  | 1 => pure (.str rm)
  | 2 => pure (.lldt rm)
  | 3 => pure (.ltr rm)
  | _ => notInTable

/-- Opcodes 0F 01 /0 to /3 (R113). -/
def decode0F01 (m : Mode) : Dec Instr := do
  let (reg, rm) ← decodeModRm m
  match reg.toNat with
  | 0 => pure (.sgdt rm)
  | 1 => pure (.sidt rm)
  | 2 => pure (.lgdt rm)
  | 3 => pure (.lidt rm)
  | _ => notInTable

/-- An instruction whose ModRM `reg` field is a general register and whose operand is a far pointer. -/
def decodeLoadPointer (m : Mode) (f : Reg → RM → Instr) : Dec Instr := do
  let (reg, rm) ← decodeModRm m
  pure (f (.ofBits reg) rm)

/-- The opcodes behind the escape byte 0F (R113). -/
def decode0F (m : Mode) : Dec Instr := do
  let b ← next8
  match b.toNat with
  | 0x00 => decode0F00 m
  | 0x01 => decode0F01 m
  | 0x34 => pure .sysenter
  | 0x35 => pure .sysexit
  | 0xA1 => pure .popFs
  | 0xA9 => pure .popGs
  | 0xB2 => decodeLoadPointer m .lss
  | 0xB4 => decodeLoadPointer m .lfs
  | 0xB5 => decodeLoadPointer m .lgs
  | _ => notInTable

/-- The opcode map of R113 and the prefixes of R109 and R110. -/
def decodeInstr (m : Mode) : Dec Instr := do
  let b ← next8
  match b.toNat with
  | 0x07 => pure .popEs
  | 0x0F => decode0F m
  | 0x17 => pure .popSs
  | 0x1F => pure .popDs
  | 0x26 => pure .prefixEs
  | 0x2E => pure .prefixCs
  | 0x36 => pure .prefixSs
  | 0x3E => pure .prefixDs
  | 0x64 => pure .prefixFs
  | 0x65 => pure .prefixGs
  | 0x66 => pure .prefixOperandSize
  | 0x67 => pure .prefixAddressSize
  | 0x8C => do
      let (reg, rm) ← decodeModRm m
      pure (.movFromSreg reg rm)
  | 0x8E => do
      let (reg, rm) ← decodeModRm m
      pure (.movToSreg reg rm)
  | 0x9A => decodeFarPointer m .callPtr
  | 0xC4 => decodeLoadPointer m .les
  | 0xC5 => decodeLoadPointer m .lds
  | 0xCA => .retFarImm <$> next16
  | 0xCB => pure .retFar
  | 0xCC => pure .int3
  | 0xCD => .int <$> next8
  | 0xCE => pure .into
  | 0xCF => pure .iret
  | 0xEA => decodeFarPointer m .jmpPtr
  | 0xFF => decodeFF m
  | _ => notInTable

/-- Decoding: the instruction at the front of `bs` under the sizes `m`, and the bytes after it. Total: every
byte list gives an instruction or an error by name. -/
def decode (m : Mode) (bs : List Byte) : Except DecodeError (Instr × List Byte) := decodeInstr m bs

/-! ### The encoder -/

/-- The byte with fields 7:6, 5:3 and 2:0 (ModRM and SIB, R111). -/
def byte233 (hi : BitVec 2) (mid lo : BitVec 3) : Byte := hi ++ mid ++ lo

def encodeEa16 (reg : BitVec 3) : Ea16 → List Byte
  | .direct d => byte233 0 reg 6 :: bytes16 d
  | .ind b => [byte233 0 reg b.toBits]
  | .ind8 b d => [byte233 1 reg b.toBits, d]
  | .ind16 b d => byte233 2 reg b.toBits :: bytes16 d

def encodeEa32 (reg : BitVec 3) : Ea32 → List Byte
  | .direct d => byte233 0 reg 5 :: bytes32 d
  | .ind b => [byte233 0 reg b.toBits]
  | .ind8 b d => [byte233 1 reg b.toBits, d]
  | .ind32 b d => byte233 2 reg b.toBits :: bytes32 d
  | .sib b x s => [byte233 0 reg 4, byte233 s x.toBits b.toBits]
  | .sibDirect x s d => byte233 0 reg 4 :: byte233 s x.toBits 5 :: bytes32 d
  | .sib8 b x s d => [byte233 1 reg 4, byte233 s x.toBits b.toBits, d]
  | .sib32 b x s d => byte233 2 reg 4 :: byte233 s x.toBits b.toBits :: bytes32 d

/-- The ModRM byte with `reg` in its middle field, and what follows it. -/
def encodeModRm (reg : BitVec 3) : RM → List Byte
  | .reg r => [byte233 3 reg r.toBits]
  | .mem (.a16 e) => encodeEa16 reg e
  | .mem (.a32 e) => encodeEa32 reg e

def encodeFarOffset (m : Mode) (off : DWord) : List Byte :=
  if m.op32 then bytes32 off else bytes16 (off.setWidth 16)

/-- The bytes of an instruction, prefixes excluded (R113). -/
def encode (m : Mode) : Instr → List Byte
  | .movToSreg sreg src => 0x8E :: encodeModRm sreg src
  | .movFromSreg sreg dst => 0x8C :: encodeModRm sreg dst
  | .popEs => [0x07]
  | .popSs => [0x17]
  | .popDs => [0x1F]
  | .popFs => [0x0F, 0xA1]
  | .popGs => [0x0F, 0xA9]
  | .lds r src => 0xC5 :: encodeModRm r.toBits src
  | .les r src => 0xC4 :: encodeModRm r.toBits src
  | .lss r src => 0x0F :: 0xB2 :: encodeModRm r.toBits src
  | .lfs r src => 0x0F :: 0xB4 :: encodeModRm r.toBits src
  | .lgs r src => 0x0F :: 0xB5 :: encodeModRm r.toBits src
  | .callPtr off sel => 0x9A :: (encodeFarOffset m off ++ bytes16 sel)
  | .callMem src => 0xFF :: encodeModRm 3 src
  | .jmpPtr off sel => 0xEA :: (encodeFarOffset m off ++ bytes16 sel)
  | .jmpMem src => 0xFF :: encodeModRm 5 src
  | .retFar => [0xCB]
  | .retFarImm imm => 0xCA :: bytes16 imm
  | .sysenter => [0x0F, 0x34]
  | .sysexit => [0x0F, 0x35]
  | .iret => [0xCF]
  | .int n => [0xCD, n]
  | .into => [0xCE]
  | .int3 => [0xCC]
  | .sldt dst => 0x0F :: 0x00 :: encodeModRm 0 dst
  | .str dst => 0x0F :: 0x00 :: encodeModRm 1 dst
  | .lldt src => 0x0F :: 0x00 :: encodeModRm 2 src
  | .ltr src => 0x0F :: 0x00 :: encodeModRm 3 src
  | .sgdt dst => 0x0F :: 0x01 :: encodeModRm 0 dst
  | .sidt dst => 0x0F :: 0x01 :: encodeModRm 1 dst
  | .lgdt src => 0x0F :: 0x01 :: encodeModRm 2 src
  | .lidt src => 0x0F :: 0x01 :: encodeModRm 3 src
  | .prefixOperandSize => [0x66]
  | .prefixAddressSize => [0x67]
  | .prefixCs => [0x2E]
  | .prefixEs => [0x26]
  | .prefixSs => [0x36]
  | .prefixDs => [0x3E]
  | .prefixFs => [0x64]
  | .prefixGs => [0x65]

/-- How many bytes an instruction has, prefixes excluded. -/
def Instr.length (m : Mode) (i : Instr) : Nat := (encode m i).length

/-- The longest byte string of one instruction, prefixes included (R111). -/
def maxInstrBytes : Nat := 15

/-- The bytes of a table row's word: byte `k` is bits `8k+7` to `8k`, and every bit from `nbits` on is 0, up to
the longest instruction. -/
def tableBytes (nbits w : Nat) : List Byte :=
  (List.range maxInstrBytes).map fun k => BitVec.ofNat 8 ((w % 2 ^ nbits) / 2 ^ (8 * k))

/-- The sizes in force right after reset: CS.D is 0, so both are 16 (R109, log entry 2). -/
def resetMode : Mode := ⟨false, false⟩

/-- The instruction the decoder reads from a table row's word, under the sizes in force after reset. -/
def decodeTableWord (nbits w : Nat) : Option Instr :=
  match decode resetMode (tableBytes nbits w) with
  | .ok (i, _) => some i
  | .error _ => none

end Sys2Proof
end

