-- ==== Sys2Proof/Config.lean ====
section
/-! DEFINITION. What an implementation or a platform fixes: the parameters of R4 as plain data (they stand
in the state's field `cfg`, which no step changes), and the two free values of the model, which are constants
without a body so that no proof can rest on a value of theirs. -/

namespace Sys2Proof

/-- The kind of an access (R67, R169). -/
inductive AccessKind where
  | read
  | write
  | execute
deriving DecidableEq, Repr, Inhabited

/-- What stands at a physical address (R63, R80, R81). -/
inductive MemKind where
  | ram
  | rom
  | io
  | absent
deriving DecidableEq, Repr

/-- One region of the physical address map (R80): `size` bytes from `base` on. -/
structure Region where
  base : Nat
  size : Nat
  kind : MemKind
deriving DecidableEq, Repr

/-- What a program's own store to ROM outside the descriptor tables does: "a platform matter"
(R347, D16; log entry 7). -/
inductive RomStorePolicy where
  /-- The store changes nothing and the program goes on. -/
  | ignored
  /-- The machine stops. -/
  | stuck
deriving DecidableEq, Repr

/-- What an access to a physical address with no memory does (R81): the two treatments the rule allows
(log entry 8). -/
inductive AbsentPolicy where
  /-- A read draws a free byte, a write changes nothing. -/
  | drawn
  /-- No step. -/
  | stuck
deriving DecidableEq, Repr

/-- How far the model carries out the transfers that R295 lists and D25 leaves out (log entry 9). -/
inductive TransferPolicy where
  /-- R295, D25 and U14 to the letter: call gates, returns to an outer level, INT n, INT3, SYSENTER and SYSEXIT are
  refused by name, INTO ends in the fault outcome #OF (R306). -/
  | named
  /-- Those transfers are carried out as R106, R209, R212 to R215, R281 to R293, R307 and R313 describe
  them; an exception the processor detects is the fault outcome (R7, R326). -/
  | performed
  /-- As `performed`, and an exception the processor detects is delivered through the IDT
  (R260, R307, R308, R312, R313). -/
  | delivered
deriving DecidableEq, Repr

/-- Which page walk is used while paging is enabled (R67, D5; log entry 10). -/
inductive WalkKind where
  /-- The parameter `PageWalk` of R67: the free function `Config.pageWalk`. -/
  | parameter
  /-- The 32-bit two-level walk of 93_implementation_defined.md G20, used while CR4.PAE is 0. -/
  | twoLevel
deriving DecidableEq, Repr

/-- What a page walk answers (R67): the bytes it writes ("it may write memory"), and either a physical
address or a page fault; `protection` says of a fault that the page was present (R304). -/
structure WalkAnswer where
  writes : List (PhysAddr × Byte)
  result : Option PhysAddr
  protection : Bool
deriving DecidableEq, Repr, Inhabited

/-- The parameters of R4. -/
structure Config where
  /-- `EXPAND_DOWN_LIMIT_INCLUSIVE` (R4, R167, D7). -/
  expandDownLimitInclusive : Bool
  /-- `SYSSEG_LIMIT_BITS` is 16 rather than 32 (R4, R251, D17). -/
  sysSegLimit16 : Bool
  /-- `SS_NOT_PRESENT_IS_SS` (R4, R193, D26). -/
  ssNotPresentIsSs : Bool
  /-- `FETCH_SEES_STORES` (R4, R77, D30). -/
  fetchSeesStores : Bool
  /-- `NUM_PROCESSORS` (R4, R75, D13). -/
  numProcessors : Nat
  /-- The processor reports the PSE-36 feature (R30, R70). -/
  pse36 : Bool
  /-- The physical address map (R4, R80): the first region that holds an address gives its kind. -/
  map : List Region
  romStores : RomStorePolicy
  absentAccess : AbsentPolicy
  transfers : TransferPolicy
  walk : WalkKind
deriving DecidableEq, Repr

/-- The spec's defaults where R4 gives them; the rest are the model's choices (log entries 7 to 11): RAM below
FFFF0000H and ROM in the 64 KB above it, as R80 says is usual. The processor of R2 has PSE-36. -/
def Config.default : Config where
  expandDownLimitInclusive := false
  sysSegLimit16 := false
  ssNotPresentIsSs := true
  fetchSeesStores := true
  numProcessors := 1
  pse36 := true
  map := [⟨0, 0xFFFF0000, .ram⟩, ⟨0xFFFF0000, 0x10000, .rom⟩]
  romStores := .ignored
  absentAccess := .drawn
  transfers := .performed
  walk := .parameter

/-- The free byte that the `n`-th read of an address with no memory returns (R81; log entry 8). It has no
body: a claim that holds, holds for every value of it. -/
opaque Config.freeByte (n : Nat) : Byte

/-- The parameter `PageWalk` of R67: "a function of its arguments and of the current contents of memory".
CR4 is an argument because PAE and PSE-36 are properties of the page walk (R70). It has no body. -/
opaque Config.pageWalk (root cr4 la : DWord) (kind : AccessKind) (cpl : Level)
    (memory : List Host.Cell) : WalkAnswer

end Sys2Proof
end

