-- ==== Sys2Proof/Machine/State.lean ====
section
/-! DEFINITION. The machine's state as plain data: every piece of state of 10_state.md, the registers the other
files name, and the model's own fields (the pending prefix bytes, the counter of free bytes, the list of stored
addresses). The reasons a step can stop, and the state after reset (R40, R41). -/

namespace Sys2Proof.Machine

/-- One segment register (R22): the visible selector and the hidden part. -/
structure SegCache where
  /-- The selector last loaded (visible). -/
  sel : Word16
  /-- False while the register holds a null selector loaded by software (R23). -/
  valid : Bool
  base : DWord
  /-- The limit field, unscaled (R94). -/
  limit : BitVec 20
  g : Bool
  db : Bool
  type : BitVec 4
  s : Bool
  dpl : Level
  p : Bool
  avl : Bool
deriving DecidableEq, Repr

/-- GDTR or IDTR (R25, R27). -/
structure TableReg where
  base : DWord
  limit : Word16
deriving DecidableEq, Repr

/-- LDTR or TR (R26, R28): the visible selector, and the hidden base, limit and attributes. -/
structure SysReg where
  sel : Word16
  valid : Bool
  base : DWord
  /-- The byte limit, `SysLimit` of R251. -/
  limit : DWord
  g : Bool
  db : Bool
  type : BitVec 4
  s : Bool
  dpl : Level
  p : Bool
  avl : Bool
deriving DecidableEq, Repr

/-- The general registers (R35). -/
structure Gprs where
  eax : DWord
  ecx : DWord
  edx : DWord
  ebx : DWord
  esp : DWord
  ebp : DWord
  esi : DWord
  edi : DWord
deriving DecidableEq, Repr

/-- Physical memory: the bytes that differ from what an unlisted address reads as, addresses strictly rising
(R80, R81). -/
abbrev Memory := List Host.Cell

/-- What is known of the instruction that is being decoded or run: its prefix bytes (R109, R110). The model's own
field: a prefix byte is a step of its own (log entry 12). -/
structure Prefixes where
  /-- 66H was read. -/
  opSize : Bool
  /-- 67H was read. -/
  addrSize : Bool
  /-- The segment override read last. -/
  seg : Option SReg
  /-- How many prefix bytes were read; the instruction starts at `pc`, its next byte is at `pc + count`. -/
  count : Nat
  /-- While an instruction runs with paging on: memory as it was before it, without the writes that the page walks of
  its own fetch made (R67, R326; log entry 30). -/
  before : Option Memory
deriving DecidableEq, Repr

/-- No prefix byte read. -/
def Prefixes.none : Prefixes := ⟨false, false, Option.none, 0, Option.none⟩

/-- An exception with its error information (R300, R304, R307, R308). -/
inductive Exn where
  /-- #DE, divide error: named only (R306); no rule raises it. -/
  | de
  /-- #BP, vector 3: the breakpoint trap that INT3 takes (R215, R307); never a fault outcome, since R300 does not list
  it. -/
  | bp
  /-- #OF: INTO with OF = 1 under the policy `named` (R214, R306). -/
  | of
  /-- #UD, invalid opcode (R112, R114). -/
  | ud
  /-- #NP with an error code (R303). -/
  | np (code : Word16)
  /-- #SS with an error code (R302). -/
  | ss (code : Word16)
  /-- #GP with an error code (R301). -/
  | gp (code : Word16)
  /-- #PF: the linear address, the kind of access, the privilege it was made with, and whether the page was
  present (R67, R304). -/
  | pf (la : DWord) (kind : AccessKind) (cpl : Level) (protection : Bool)
  /-- #AC, error code 0 (R305). -/
  | ac
deriving DecidableEq, Repr

/-- Why a step stops with a fault: an exception of R300, or the outcome Hang (R7). -/
inductive Fault where
  /-- The fault outcome of `raise #XX(e)` (R7, R326), raised by every check of the spec. Safe: the spec ends the
  step here, where a processor goes on in a handler. -/
  | exception (e : Exn)
  /-- The outcome Hang (R7, R347): the processor's own write to a descriptor in ROM, or a program's store to a
  descriptor byte in ROM. Safe: the processor makes no further progress. -/
  | hang
deriving DecidableEq, Repr

/-- The transfers that R295 lists, for the refusal by name under the policy `named`. -/
inductive Transfer where
  | callGate
  | outerReturn
  | throughIdt
  | sysenter
  | sysexit
deriving DecidableEq, Repr

/-- Why a step is refused. -/
inductive Refusal where
  /-- The instruction has no meaning in this model; raised by an arm of `exec` only. Safe. -/
  | notModelled (mnemonic : String)
  /-- The bytes fetched are no instruction of spec/opcode_table.json (R10); raised by the fetch. Safe. -/
  | notInTable
  /-- The byte string is longer than 15 bytes (R111); raised by the fetch. Safe. -/
  | instructionTooLong
  /-- A task switch: a task gate, a TSS descriptor, or IRET with NT = 1 (R194, R212, R286, R295). Safe. -/
  | taskSwitch
  /-- A transfer of R295, refused under the policy `named`. Safe. -/
  | transfer (t : Transfer)
  /-- A descriptor with bit 21 = 1 (R102, R196, R350). Safe. -/
  | reservedDescriptorBit
  /-- An access to I/O memory, whose behaviour the spec does not give (R63, R322). Safe. -/
  | ioMemory (pa : PhysAddr)
  /-- More than one processor (R75). Safe. -/
  | multiprocessor
  /-- The stack of an inner level is needed and TR holds no TSS that has it; the spec names no exception for this
  (R313, log entry 15). Safe. -/
  | noInnerStack
  /-- A fetch of a byte that was stored to, while FETCH_SEES_STORES is false (R77). Safe. -/
  | fetchAfterStore (pa : PhysAddr)
  /-- An access to a physical address with no memory, under the policy `stuck` (R81, "no step"). Safe. -/
  | noMemory (pa : PhysAddr)
  /-- A program's store to ROM outside the descriptor tables, under the policy `stuck` (R347, D16). Safe. -/
  | romStore (pa : PhysAddr)
  /-- The exception `second` arose while `first` was being delivered: a double fault "is not in the source" (R315).
  Raised by the delivery of an exception under the policy `delivered`. Safe. -/
  | duringDelivery (first second : Exn)
deriving DecidableEq, Repr

/-- The whole machine. -/
structure State where
  /- Segment registers (R20). -/
  es : SegCache
  cs : SegCache
  ss : SegCache
  ds : SegCache
  fs : SegCache
  gs : SegCache
  /- System-table registers (R25 to R28). -/
  gdtr : TableReg
  idtr : TableReg
  ldtr : SysReg
  tr : SysReg
  /-- General registers (R34, R35). -/
  gpr : Gprs
  /-- The instruction pointer (R36): the offset of the instruction, its prefixes included. -/
  pc : DWord
  /-- EFLAGS, with IF as bit 9 (R32). -/
  eflags : DWord
  /-- CR0 bit 18, AM (R33). -/
  alignMask : Bool
  /-- `paging_enabled` (R30). -/
  pagingEnabled : Bool
  /-- `paging_root` (R30). -/
  pagingRoot : DWord
  /-- CR2, the linear address of the last delivered page fault (R304). -/
  cr2 : DWord
  /-- CR4, with PAE as bit 5 (R29) and PSE as bit 4 (R30). -/
  cr4 : DWord
  /-- Model-specific registers 174H, 175H, 176H (R210). -/
  sysenterCs : DWord
  sysenterEsp : DWord
  sysenterEip : DWord
  /-- Physical memory. -/
  mem : Memory
  /-- The parameters of R4. -/
  cfg : Config
  /-- The model's own: the prefix bytes read so far, and memory before the instruction that runs. -/
  pfx : Prefixes
  /-- The model's own: how many free bytes were drawn (R81). -/
  freeCount : Nat
  /-- The model's own: the physical addresses stored to, kept while FETCH_SEES_STORES is false (R77). -/
  stored : List Nat
deriving DecidableEq, Repr

/-- A segment register that right after reset holds present, accessed, byte-granular 16-bit attributes
(R41, last column; log entry 2). -/
def SegCache.atReset (sel : Word16) (base : DWord) (type : BitVec 4) : SegCache where
  sel := sel
  valid := true
  base := base
  limit := 0x0FFFF
  g := false
  db := false
  type := type
  s := true
  dpl := 0
  p := true
  avl := false

/-- LDTR or TR right after reset (R41, R249; log entry 2). -/
def SysReg.atReset (type : BitVec 4) : SysReg where
  sel := 0
  valid := false
  base := 0
  limit := 0xFFFF
  g := false
  db := false
  type := type
  s := false
  dpl := 0
  p := true
  avl := false

/-- The machine right after reset. From the source: the first fetch is at physical FFFFFFF0H and the base of DS
is 0 (R40, R340, R341). The rest is R41's last column (PRESUMED, log entry 2) or 0 (DESIGN CHOICE, log entry 5). -/
def State.reset : State where
  es := .atReset 0 0 0b0011
  cs := .atReset 0xF000 0xFFFF0000 0b1011
  ss := .atReset 0 0 0b0011
  ds := .atReset 0 0 0b0011
  fs := .atReset 0 0 0b0011
  gs := .atReset 0 0 0b0011
  gdtr := ⟨0, 0xFFFF⟩
  idtr := ⟨0, 0xFFFF⟩
  ldtr := .atReset 0b0010
  tr := .atReset 0b1011
  gpr := ⟨0, 0, 0x00000673, 0, 0, 0, 0, 0⟩
  pc := 0x0000FFF0
  eflags := 0x00000002
  alignMask := false
  pagingEnabled := false
  pagingRoot := 0
  cr2 := 0
  cr4 := 0
  sysenterCs := 0
  sysenterEsp := 0
  sysenterEip := 0
  mem := []
  cfg := .default
  pfx := .none
  freeCount := 0
  stored := []

end Sys2Proof.Machine
end

