-- ==== Sys2Proof/Machine/Descriptor.lean ====
section
/-! DEFINITION. Selectors, descriptors, the type field, gates, the effective limit, and the hidden parts that a
load makes from a descriptor (30_encoding.md R90 to R106, 41_address_translation.md R165). -/

namespace Sys2Proof.Machine

/-! ### Selectors (R90, R91) -/

/-- Index, bits 15:3. -/
def selIndex (sel : Word16) : Nat := (sel.extractLsb' 3 13).toNat

/-- TI, bit 2: the LDT is used. -/
def selTI (sel : Word16) : Bool := sel.getLsbD 2

/-- RPL, bits 1:0. -/
def selRPL (sel : Word16) : Level := sel.extractLsb' 0 2

/-- `IsNull`: Index 0 and TI 0, any RPL (R91). -/
def isNull (sel : Word16) : Bool := sel.extractLsb' 2 14 == 0

/-- The error code of a selector fault, the selector with RPL cleared (R308). -/
def selCode (sel : Word16) : Word16 := sel &&& 0xFFFC

/-- A selector with its RPL field set (R194). -/
def withRPL (sel : Word16) (l : Level) : Word16 := sel.extractLsb' 2 14 ++ l

/-! ### Type field predicates (R104) -/

def isCode (t : BitVec 4) : Bool := t.getLsbD 3
def isData (t : BitVec 4) : Bool := !t.getLsbD 3
def writable (t : BitVec 4) : Bool := isData t && t.getLsbD 1
def readable (t : BitVec 4) : Bool := isData t || t.getLsbD 1
def expandDown (t : BitVec 4) : Bool := isData t && t.getLsbD 2
def conforming (t : BitVec 4) : Bool := isCode t && t.getLsbD 2
def accessed (t : BitVec 4) : Bool := t.getLsbD 0

/-! ### System types (R105) -/

/-- The kinds of system descriptor (R105, R240). -/
inductive SystemKind where
  | reserved
  | ldt
  | tss
  | callGate
  | taskGate
  | interruptGate
  | trapGate
deriving DecidableEq, Repr

/-- The system type table (R105). -/
def systemKind (t : BitVec 4) : SystemKind :=
  match t.toNat with
  | 1 | 3 | 9 | 11 => .tss
  | 2 => .ldt
  | 4 | 12 => .callGate
  | 5 => .taskGate
  | 6 | 14 => .interruptGate
  | 7 | 15 => .trapGate
  | _ => .reserved

/-- An available TSS, types 0001 and 1001 (R105, R251). -/
def availableTss (t : BitVec 4) : Bool := t == 0b0001 || t == 0b1001

/-! ### Descriptors (R93) -/

/-- The two doublewords of a descriptor (R93). -/
structure Descriptor where
  dw0 : DWord
  dw1 : DWord
deriving DecidableEq, Repr

/-- R94: limit = dw1[19:16] ++ dw0[15:0]. -/
def Descriptor.limit (d : Descriptor) : BitVec 20 := d.dw1.extractLsb' 16 4 ++ d.dw0.extractLsb' 0 16

/-- R95: base = dw1[31:24] ++ dw1[7:0] ++ dw0[31:16]. -/
def Descriptor.base (d : Descriptor) : DWord :=
  d.dw1.extractLsb' 24 8 ++ d.dw1.extractLsb' 0 8 ++ d.dw0.extractLsb' 16 16

/-- Bits 11:8 (R96). -/
def Descriptor.type (d : Descriptor) : BitVec 4 := d.dw1.extractLsb' 8 4

/-- Bit 12 (R97). -/
def Descriptor.s (d : Descriptor) : Bool := d.dw1.getLsbD 12

/-- Bits 14:13 (R98). -/
def Descriptor.dpl (d : Descriptor) : Level := d.dw1.extractLsb' 13 2

/-- Bit 15 (R99). -/
def Descriptor.p (d : Descriptor) : Bool := d.dw1.getLsbD 15

/-- Bit 20 (R102). -/
def Descriptor.avl (d : Descriptor) : Bool := d.dw1.getLsbD 20

/-- Bit 21, reserved (R102). -/
def Descriptor.bit21 (d : Descriptor) : Bool := d.dw1.getLsbD 21

/-- Bit 22 (R100). -/
def Descriptor.db (d : Descriptor) : Bool := d.dw1.getLsbD 22

/-- Bit 23 (R101). -/
def Descriptor.g (d : Descriptor) : Bool := d.dw1.getLsbD 23

/-- The descriptor is a gate, whose bits 31:16 of the second doubleword are an offset (R105, R106). -/
def Descriptor.isGate (d : Descriptor) : Bool :=
  !d.s && (match systemKind d.type with
    | .callGate | .taskGate | .interruptGate | .trapGate => true
    | _ => false)

/-- Bit 21 is 1 where it is the reserved bit and the descriptor is used: not in a gate, whose bit 21 belongs to its
offset (R106), and not when P = 0, when the processor does not use the rest of the descriptor (R99)
(DEDUCED, log entry 16). -/
def Descriptor.reservedBitSet (d : Descriptor) : Bool := d.bit21 && d.p && !d.isGate

/-! ### Gates (R106) -/

/-- The selector a gate holds. -/
def Descriptor.gateSelector (d : Descriptor) : Word16 := d.dw0.extractLsb' 16 16

/-- type[3], the gate's size: 1 for a 32-bit gate (R105, D19). -/
def Descriptor.gate32 (d : Descriptor) : Bool := d.type.getLsbD 3

/-- The entry offset a gate holds; a 16-bit gate's offset is its low half (PRESUMED, log entry 17). -/
def Descriptor.gateOffset (d : Descriptor) : DWord :=
  if d.gate32 then d.dw1.extractLsb' 16 16 ++ d.dw0.extractLsb' 0 16
  else (d.dw0.extractLsb' 0 16).setWidth 32

/-- The parameter count of a call gate, bits 4:0. Bits 7:5, which R106 gives as 0, are not looked at, nor are bits 4:0 of
an interrupt or trap gate (DESIGN CHOICE, log entry 36). -/
def Descriptor.gateParams (d : Descriptor) : Nat := (d.dw1.extractLsb' 0 5).toNat

/-- How many bytes a push through a gate has (R313; 2 through a 16-bit gate is PRESUMED, log entry 17). -/
def Descriptor.gateBytes (d : Descriptor) : Nat := if d.gate32 then 4 else 2

/-! ### The effective limit and the hidden parts -/

/-- `EffLimit` (R165). -/
def effLimit (g : Bool) (limit : BitVec 20) : DWord :=
  if g then limit ++ (0xFFF : BitVec 12) else limit.setWidth 32

/-- `EffLimit` of a segment register. -/
def SegCache.effLimit (c : SegCache) : DWord := Sys2Proof.Machine.effLimit c.g c.limit

/-- `EffLimit` of a descriptor. -/
def Descriptor.effLimit (d : Descriptor) : DWord := Sys2Proof.Machine.effLimit d.g d.limit

/-- What a segment register receives from a descriptor: all its fields, with the accessed bit set (R196). -/
def SegCache.load (sel : Word16) (d : Descriptor) : SegCache where
  sel := sel
  valid := true
  base := d.base
  limit := d.limit
  g := d.g
  db := d.db
  type := d.type ||| 1
  s := d.s
  dpl := d.dpl
  p := d.p
  avl := d.avl

/-- `SysLimit` (R251): the effective limit, or its low 16 field bits when SYSSEG_LIMIT_BITS is 16. -/
def sysLimit (cfg : Config) (d : Descriptor) : DWord :=
  if cfg.sysSegLimit16 then (d.limit.extractLsb' 0 16).setWidth 32 else d.effLimit

/-- What LDTR or TR receives from a descriptor; `type` is the type with the busy bit for TR (R251, R258). -/
def SysReg.load (cfg : Config) (sel : Word16) (d : Descriptor) (type : BitVec 4) : SysReg where
  sel := sel
  valid := true
  base := d.base
  limit := sysLimit cfg d
  g := d.g
  db := d.db
  type := type
  s := d.s
  dpl := d.dpl
  p := d.p
  avl := d.avl

end Sys2Proof.Machine
end

