-- ==== Sys2Proof/Machine/Flags.lean ====
section
/-! DEFINITION. The bits of EFLAGS this machine reads or writes. IF is bit 9 (R32) and AC bit 18 (R33); the places
of TF, OF, NT, RF and VM are the family's (PRESUMED, log entry 3). No instruction of the table writes an
arithmetic flag. -/

namespace Sys2Proof.Machine

/-- TF, cleared by delivery (R313). -/
def flagTF : Nat := 8
/-- IF (R32). -/
def flagIF : Nat := 9
/-- OF, read by INTO (R214). -/
def flagOF : Nat := 11
/-- NT, read by IRET (R212). -/
def flagNT : Nat := 14
/-- RF, cleared by delivery (R313). -/
def flagRF : Nat := 16
/-- VM, cleared by delivery (R313). -/
def flagVM : Nat := 17
/-- AC, half of `align_check_enabled` (R33). -/
def flagAC : Nat := 18

/-- `v` with bit `k` cleared. -/
def clearBit (v : DWord) (k : Nat) : DWord := v &&& ~~~(BitVec.ofNat 32 (2 ^ k))

/-- EFLAGS on entry to a handler: TF, NT, RF and VM are cleared (R313), and IF through an interrupt gate (R284),
not through a trap gate (R285). -/
def entryFlags (interruptGate : Bool) (fl : DWord) : DWord :=
  let cleared := clearBit (clearBit (clearBit (clearBit fl flagTF) flagNT) flagRF) flagVM
  if interruptGate then clearBit cleared flagIF else cleared

/-- EFLAGS after IRET pops an image of `n` bytes: the whole register, or with a 16-bit operand size its low half
(R212, R314). -/
def poppedFlags (n : Nat) (old : DWord) (image : Nat) : DWord :=
  if n = 4 then BitVec.ofNat 32 image
  else old.extractLsb' 16 16 ++ BitVec.ofNat 16 image

/-- IF. -/
def State.interruptFlag (s : State) : Bool := s.eflags.getLsbD flagIF

/-- OF. -/
def State.overflowFlag (s : State) : Bool := s.eflags.getLsbD flagOF

/-- NT. -/
def State.nestedTask (s : State) : Bool := s.eflags.getLsbD flagNT

end Sys2Proof.Machine
end

