-- ==== Sys2Proof/Machine/Memory.lean ====
section
/-! DEFINITION. Physical memory as a canonical list of cells: reading and writing one byte, the canonical form,
and little-endian assembly (R71, R80, R81). -/

namespace Sys2Proof.Machine

/-- What an address reads as that no cell lists: R41 leaves memory unspecified at reset, the model takes 00H
(DESIGN CHOICE, log entry 6). -/
def unlistedByte : Byte := 0

/-- The byte at an address. -/
def Memory.read (m : Memory) (a : PhysAddr) : Byte :=
  match m with
  | [] => unlistedByte
  | c :: rest => if c.1 = a.toNat then c.2 else Memory.read rest a

/-- The memory after one byte is written: the canonical form is kept. -/
def Memory.write (m : Memory) (a : PhysAddr) (b : Byte) : Memory :=
  match m with
  | [] => if b = unlistedByte then [] else [(a.toNat, b)]
  | c :: rest =>
    if a.toNat < c.1 then (if b = unlistedByte then c :: rest else (a.toNat, b) :: c :: rest)
    else if a.toNat = c.1 then (if b = unlistedByte then rest else (a.toNat, b) :: rest)
    else c :: Memory.write rest a b

/-- The cells from address `lo` on are in canonical form. -/
def Memory.wfFrom (lo : Nat) (m : Memory) : Bool :=
  match m with
  | [] => true
  | c :: rest =>
    decide (lo ≤ c.1) && decide (c.1 < 2 ^ 36) && (c.2 != unlistedByte) && Memory.wfFrom (c.1 + 1) rest

/-- The canonical form: addresses strictly rising and below 2^36, no cell equal to what an unlisted address reads
as. -/
def Memory.wf (m : Memory) : Bool := Memory.wfFrom 0 m

/-- The value of bytes in increasing address order, the least significant first (R71). -/
def leValue : List Byte → Nat
  | [] => 0
  | b :: rest => b.toNat + 256 * leValue rest

/-- The `n` low bytes of a value, the least significant first (R71). -/
def leBytes (n v : Nat) : List Byte :=
  match n with
  | 0 => []
  | n + 1 => BitVec.ofNat 8 v :: leBytes n (v / 256)

end Sys2Proof.Machine
end

