-- ==== Sys2Proof/Machine/Access.lean ====
section
/-! DEFINITION. The operations below the instructions: reading and writing registers, physical, linear and segment
accesses, the paging step, and the checks of one memory reference (R20 to R37, R65 to R84, R160 to R179). An
operation that raises, faults or is refused has no state: whatever it had done is undone (R326). -/

namespace Sys2Proof.Machine

/-! ### Operations and how they stop -/

/-- Why an operation stops: an exception is raised, the machine stops, or the step is refused (R7). -/
inductive Stop where
  | exn (e : Exn)
  | fault (f : Fault)
  | refused (r : Refusal)
deriving DecidableEq, Repr

/-- An operation on the machine. -/
abbrev Op (α : Type) := StateT State (Except Stop) α

/-- `raise #XX(e)` (R8). -/
def raise {α : Type} (e : Exn) : Op α := fun _ => .error (.exn e)

def stopWith {α : Type} (f : Fault) : Op α := fun _ => .error (.fault f)

def refuse {α : Type} (r : Refusal) : Op α := fun _ => .error (.refused r)

/-- `if c: raise #XX(e)`. -/
def raiseIf (c : Bool) (e : Exn) : Op Unit := if c then raise e else pure ()

def refuseIf (c : Bool) (r : Refusal) : Op Unit := if c then refuse r else pure ()

/-- A check of the segment step, which changes nothing (R171). -/
def check {α : Type} (r : Except Exn α) : Op α :=
  match r with
  | .ok a => pure a
  | .error e => raise e

/-! ### Registers -/

/-- `x[i]` (R35). -/
def State.reg (s : State) (r : Reg) : DWord :=
  match r with
  | .eax => s.gpr.eax
  | .ecx => s.gpr.ecx
  | .edx => s.gpr.edx
  | .ebx => s.gpr.ebx
  | .esp => s.gpr.esp
  | .ebp => s.gpr.ebp
  | .esi => s.gpr.esi
  | .edi => s.gpr.edi

/-- `x16[i]` (R35). -/
def State.reg16 (s : State) (r : Reg) : Word16 := (s.reg r).extractLsb' 0 16

/-- `x[i] <- v` (R35). -/
def State.setReg (s : State) (r : Reg) (v : DWord) : State :=
  match r with
  | .eax => { s with gpr := { s.gpr with eax := v } }
  | .ecx => { s with gpr := { s.gpr with ecx := v } }
  | .edx => { s with gpr := { s.gpr with edx := v } }
  | .ebx => { s with gpr := { s.gpr with ebx := v } }
  | .esp => { s with gpr := { s.gpr with esp := v } }
  | .ebp => { s with gpr := { s.gpr with ebp := v } }
  | .esi => { s with gpr := { s.gpr with esi := v } }
  | .edi => { s with gpr := { s.gpr with edi := v } }

/-- `x16[i] <- v`: the upper half keeps its value (R35). -/
def State.setReg16 (s : State) (r : Reg) (v : Word16) : State :=
  s.setReg r ((s.reg r).extractLsb' 16 16 ++ v)

/-- `Seg[s]` (R22). -/
def State.seg (s : State) (r : SReg) : SegCache :=
  match r with
  | .es => s.es
  | .cs => s.cs
  | .ss => s.ss
  | .ds => s.ds
  | .fs => s.fs
  | .gs => s.gs

/-- `Seg[s] <- c`. -/
def State.setSeg (s : State) (r : SReg) (c : SegCache) : State :=
  match r with
  | .es => { s with es := c }
  | .cs => { s with cs := c }
  | .ss => { s with ss := c }
  | .ds => { s with ds := c }
  | .fs => { s with fs := c }
  | .gs => { s with gs := c }

/-- CPL is bits 1:0 of the CS selector (R31, D32). -/
def State.cpl (s : State) : Level := selRPL s.cs.sel

/-- `align_check_enabled`: AM and AC (R33). -/
def State.alignCheckEnabled (s : State) : Bool := s.alignMask && s.eflags.getLsbD flagAC

/-- CR4.PAE, bit 5 (R29). -/
def State.pae (s : State) : Bool := s.cr4.getLsbD 5

/-- CR4.PSE, bit 4 (R30). -/
def State.pse (s : State) : Bool := s.cr4.getLsbD 4

/-- `PHYS_BITS` is 36: PAE or PSE-36 is used (R4, R63, R70). -/
def State.phys36 (s : State) : Bool := s.pae || (s.pse && s.cfg.pse36)

/-- The sizes in force for the instruction being decoded (R37, R109). -/
def State.mode (s : State) : Mode := ⟨s.cs.db != s.pfx.opSize, s.cs.db != s.pfx.addrSize⟩

/-- An offset in the code segment: with D = 0 only its low 16 bits are used (R36). -/
def State.maskPc (s : State) (v : DWord) : DWord :=
  if s.cs.db then v else (v.extractLsb' 0 16).setWidth 32

/-- The offset the instruction pointer stands for (R36). -/
def State.pcOffset (s : State) : DWord := s.maskPc s.pc

/-! ### Physical memory (R80, R81, R347) -/

/-- What stands at a physical address: the first region of the map that holds it (R80). -/
def kindIn (map : List Region) (pa : PhysAddr) : MemKind :=
  match map with
  | [] => .absent
  | r :: rest =>
    if r.base ≤ pa.toNat ∧ pa.toNat < r.base + r.size then r.kind else kindIn rest pa

def State.kindAt (s : State) (pa : PhysAddr) : MemKind := kindIn s.cfg.map pa

/-- One byte into memory; while FETCH_SEES_STORES is false the address is kept (R77). -/
def State.storeByte (s : State) (pa : PhysAddr) (b : Byte) : State :=
  { s with
    mem := s.mem.write pa b
    stored := if s.cfg.fetchSeesStores then s.stored else s.stored.insert pa.toNat }

/-- A read of one byte (`MemRead`, R8). -/
def readPhys (pa : PhysAddr) : Op Byte := fun s =>
  match s.kindAt pa with
  | .ram | .rom => .ok (s.mem.read pa, s)
  | .io => .error (.refused (.ioMemory pa))
  | .absent =>
    match s.cfg.absentAccess with
    | .drawn => .ok (Config.freeByte s.freeCount, { s with freeCount := s.freeCount + 1 })
    | .stuck => .error (.refused (.noMemory pa))

/-- Who writes a byte: the processor itself, into a descriptor, or an instruction's own store (R83, R347). -/
inductive Writer where
  | processor
  | program
deriving DecidableEq, Repr

/-- The linear address is a byte of the table at `base` with byte limit `limit` (R245). -/
def inTable (base limit la : DWord) : Bool := decide ((la - base).toNat ≤ limit.toNat)

/-- The linear address is a byte of the GDT or of the LDT in force: a descriptor byte (R245, R347). -/
def State.descriptorByte (s : State) (la : DWord) : Bool :=
  inTable s.gdtr.base (s.gdtr.limit.setWidth 32) la ||
    (s.ldtr.valid && inTable s.ldtr.base s.ldtr.limit la)

/-- A write of one byte of a linear address `la` at physical `pa` (`MemWrite`, R8). Into ROM: the processor's own
write hangs, and so does a program's store to a descriptor byte (R347); any other store is the platform's (D16). -/
def writePhys (who : Writer) (la : DWord) (pa : PhysAddr) (b : Byte) : Op Unit := fun s =>
  match s.kindAt pa with
  | .ram => .ok ((), s.storeByte pa b)
  | .rom =>
    if who = .processor || s.descriptorByte la then .error (.fault .hang)
    else
      match s.cfg.romStores with
      | .ignored => .ok ((), s)
      | .stuck => .error (.refused (.romStore pa))
  | .io => .error (.refused (.ioMemory pa))
  | .absent =>
    match s.cfg.absentAccess with
    | .drawn => .ok ((), s)
    | .stuck => .error (.refused (.noMemory pa))

/-! ### The paging step (R65 to R70) -/

/-- A physical address cut to `PHYS_BITS` (R63). -/
def State.cutPhys (s : State) (pa : PhysAddr) : PhysAddr :=
  if s.phys36 then pa else (pa.extractLsb' 0 32).setWidth 36

/-- A byte that the page walk itself writes, be the walk the parameter `PageWalk` or the two-level one (R67): it reaches
RAM only, and a write of the walk to ROM, I/O memory or an absent address is dropped, on which the spec is silent
(DESIGN CHOICE, log entry 10). -/
def State.walkWrite (s : State) (pa : PhysAddr) (b : Byte) : State :=
  if s.kindAt pa = .ram then s.storeByte pa b else s

/-- The bytes a page walk writes (R67). -/
def State.walkWrites (s : State) (ws : List (PhysAddr × Byte)) : State :=
  match ws with
  | [] => s
  | w :: rest => (s.walkWrite (s.cutPhys w.1) w.2).walkWrites rest

/-- The parameter `PageWalk` (R67, D5). -/
def parameterWalk (la : DWord) (kind : AccessKind) (cpl : Level) : Op PhysAddr := fun s =>
  let answer := Config.pageWalk s.pagingRoot s.cr4 la kind cpl s.mem
  match answer.result with
  | some pa => .ok (s.cutPhys pa, s.walkWrites answer.writes)
  | none => .error (.exn (.pf la kind cpl answer.protection))

/-- A page-directory or page-table entry, 4 bytes (93 G20). -/
def readEntry (pa : PhysAddr) : Op DWord := do
  let b0 ← readPhys pa
  let b1 ← readPhys (pa + 1)
  let b2 ← readPhys (pa + 2)
  let b3 ← readPhys (pa + 3)
  pure (dword b0 b1 b2 b3)

/-- The A bit of an entry, and the D bit on a write, in its low byte (93 G20, R83). -/
def markEntry (pa : PhysAddr) (entry : DWord) (dirty : Bool) : Op Unit := fun s =>
  let old : Byte := entry.extractLsb' 0 8
  let new : Byte := old ||| 0x20 ||| (if dirty then 0x40 else 0)
  .ok ((), if new = old then s else s.walkWrite pa new)

/-- A user access is CPL 3 (R68, R320). -/
def userAccess (cpl : Level) : Bool := cpl == 3

/-- The access is a protection violation of the two entries (93 G20): a user access with U/S = 0, or a user write
with R/W = 0, at either level. -/
def pageProtection (cpl : Level) (kind : AccessKind) (de te : DWord) : Bool :=
  userAccess cpl &&
    (!(de.getLsbD 2 && te.getLsbD 2) || (kind == .write && !(de.getLsbD 1 && te.getLsbD 1)))

/-- The 32-bit two-level page walk of 93 G20 (log entry 10). The P bits of both entries are tested before the protection
of either, so that a missing table entry is reported as a missing page whatever the directory entry forbids; 93 G20 and
R304 give no order (PRESUMED, log entry 10). A write through a 4 MB entry sets its D bit: 93 G20 gives D to table entries
and R83 to an entry written through (PRESUMED, log entry 10). -/
def twoLevelWalk (la : DWord) (kind : AccessKind) (cpl : Level) : Op PhysAddr := do
  let s ← get
  let deAddr : PhysAddr := ((s.pagingRoot.extractLsb' 12 20 ++ la.extractLsb' 22 10 ++ 0#2 : DWord)).setWidth 36
  let de ← readEntry deAddr
  raiseIf (!de.getLsbD 0) (.pf la kind cpl false)
  if s.pse && de.getLsbD 7 then do
    raiseIf (pageProtection cpl kind de de) (.pf la kind cpl true)
    markEntry deAddr de (kind == .write)
    pure ((de.extractLsb' 22 10 ++ la.extractLsb' 0 22 : DWord).setWidth 36)
  else do
    let teAddr : PhysAddr := ((de.extractLsb' 12 20 ++ la.extractLsb' 12 10 ++ 0#2 : DWord)).setWidth 36
    let te ← readEntry teAddr
    raiseIf (!te.getLsbD 0) (.pf la kind cpl false)
    raiseIf (pageProtection cpl kind de te) (.pf la kind cpl true)
    markEntry deAddr de false
    markEntry teAddr te (kind == .write)
    pure ((te.extractLsb' 12 20 ++ la.extractLsb' 0 12 : DWord).setWidth 36)

/-- `PageWalk` (R67). How PAE and PSE-36 change the page structures is not in the source (R70): while either is in use the
setting `twoLevel` too takes the parameter, whose answer may have 36 bits (DESIGN CHOICE, log entry 10). -/
def pageWalk (la : DWord) (kind : AccessKind) (cpl : Level) : Op PhysAddr := fun s =>
  match s.cfg.walk with
  | .parameter => parameterWalk la kind cpl s
  | .twoLevel => if s.phys36 then parameterWalk la kind cpl s else twoLevelWalk la kind cpl s

/-- `Phys` (R65): the linear address itself without paging (R66), the page walk with it (R67). -/
def phys (la : DWord) (kind : AccessKind) (cpl : Level) : Op PhysAddr := fun s =>
  if s.pagingEnabled then pageWalk la kind cpl s else .ok (la.setWidth 36, s)

/-! ### Linear accesses (`LinRead`, `LinWrite`, R8) -/

/-- The physical addresses of `n` bytes from `la` on, each linear address modulo 2^32 (R65, R170, R176): the lowest
address that faults is the one reported. -/
def physBytes (la : DWord) (n : Nat) (kind : AccessKind) (cpl : Level) : Op (List PhysAddr) :=
  match n with
  | 0 => pure []
  | n + 1 => do
    let pa ← phys la kind cpl
    let rest ← physBytes (la + 1) n kind cpl
    pure (pa :: rest)

/-- The reads of one access, the lowest address first: the spec leaves the order open (R72, 93 U16; DESIGN CHOICE, log
entry 35), and it shows only in which address a refusal names. -/
def readBytes (pas : List PhysAddr) : Op (List Byte) :=
  match pas with
  | [] => pure []
  | pa :: rest => do
    let b ← readPhys pa
    let bs ← readBytes rest
    pure (b :: bs)

/-- The writes of one access, the lowest address first (R72, 93 U16; DESIGN CHOICE, log entry 35). -/
def writeBytes (who : Writer) (la : DWord) (pas : List PhysAddr) (bs : List Byte) : Op Unit :=
  match pas, bs with
  | pa :: pas, b :: bs => do
    writePhys who la pa b
    writeBytes who (la + 1) pas bs
  | _, _ => pure ()

/-- `LinRead(la, n)` with the rights of `cpl`: the little-endian value of `n` bytes. -/
def linRead (la : DWord) (n : Nat) (cpl : Level) : Op Nat := do
  let pas ← physBytes la n .read cpl
  let bs ← readBytes pas
  pure (leValue bs)

/-- `LinWrite(la, n, v)` with the rights of `cpl`: every byte is translated before one is written (R176). -/
def linWrite (who : Writer) (la : DWord) (n v : Nat) (cpl : Level) : Op Unit := do
  let pas ← physBytes la n .write cpl
  writeBytes who la pas (leBytes n v)

/-- The privilege of the processor's own table accesses: supervisor whatever the CPL. R84 says so of the descriptor reads
from the GDT and an LDT; that the other ones have it too is the model's (PRESUMED, log entry 40). -/
def supervisor : Level := 0

/-! ### The segment step (R164 to R171) -/

/-- `LimitFault` and `TypeFault`: #SS(0) through SS, else #GP(0) (R168, R169). -/
def segFault (r : SReg) : Exn := if r = .ss then .ss 0 else .gp 0

/-- The limit check of an expand-up segment (R166). -/
def expandUpOk (c : SegCache) (off n : Nat) : Bool := decide (off + (n - 1) ≤ c.effLimit.toNat)

/-- The limit check of an expand-down segment (R167). -/
def expandDownOk (cfg : Config) (c : SegCache) (off n : Nat) : Bool :=
  let upper := if c.db then 0xFFFFFFFF else 0x0000FFFF
  let lowerOk :=
    if cfg.expandDownLimitInclusive then
      (if c.g then decide (c.limit.toNat ≤ off / 4096) else decide (c.limit.toNat ≤ off))
    else decide (c.effLimit.toNat < off)
  lowerOk && decide (off + (n - 1) ≤ upper)

/-- The limit check of one reference of `n` bytes at offset `off`, on unbounded integers (R166, R167, R179). -/
def limitOk (cfg : Config) (c : SegCache) (off n : Nat) : Bool :=
  if expandDown c.type then expandDownOk cfg c off n else expandUpOk c off n

/-- `TypeCheck` (R169). -/
def typeOk (c : SegCache) (kind : AccessKind) : Bool :=
  match kind with
  | .write => writable c.type
  | .read => readable c.type
  | .execute => true

/-- `Translate(s, off, n, kind)` on the contents `c` of segment register `r` (R171): null segment, limit, type,
then base plus offset modulo 2^32 (R170). -/
def translate (cfg : Config) (r : SReg) (c : SegCache) (off n : Nat) (kind : AccessKind) : Except Exn DWord :=
  if !c.valid then .error (.gp 0)
  else if !limitOk cfg c off n then .error (segFault r)
  else if !typeOk c kind then .error (segFault r)
  else .ok (c.base + BitVec.ofNat 32 off)

/-- The alignment check of a data access (R72, R305): after the segment checks, before the page walk (R311). -/
def misaligned (enabled : Bool) (cpl : Level) (la : DWord) (n : Nat) : Bool :=
  enabled && cpl == 3 && (n == 2 || n == 4) && la.toNat % n != 0

/-- `SegRead(s, off, n)` with the rights of `cpl` (R8, R65). -/
def segRead (r : SReg) (off n : Nat) (cpl : Level) : Op Nat := do
  let s ← get
  let la ← check (translate s.cfg r (s.seg r) off n .read)
  raiseIf (misaligned s.alignCheckEnabled cpl la n) .ac
  linRead la n cpl

/-- `SegWrite(s, off, n, v)` with the rights of `cpl` (R8, R65). -/
def segWrite (r : SReg) (off n v : Nat) (cpl : Level) : Op Unit := do
  let s ← get
  let la ← check (translate s.cfg r (s.seg r) off n .write)
  raiseIf (misaligned s.alignCheckEnabled cpl la n) .ac
  linWrite .program la n v cpl

end Sys2Proof.Machine
end

