-- ==== Sys2Proof/Machine/Segments.lean ====
section
/-! DEFINITION. The shared operations of 42_segment_register_load.md: the descriptor fetch (R191), the loads of
data segment registers (R192), of SS (R193) and of CS (R194), the accessed bit (R195). -/

namespace Sys2Proof.Machine

/-- The table a selector names, and whether it may be used: GDTR, or LDTR where TI = 1 (R191, R249). -/
def State.table (s : State) (sel : Word16) : DWord × DWord × Bool :=
  if selTI sel then (s.ldtr.base, s.ldtr.limit, s.ldtr.valid)
  else (s.gdtr.base, s.gdtr.limit.setWidth 32, true)

/-- The linear address of the descriptor a selector names (R117). -/
def State.descriptorAddr (s : State) (sel : Word16) : DWord :=
  (s.table sel).1 + BitVec.ofNat 32 (selIndex sel * 8)

/-- The 8 bytes at a linear address, as two doubleword reads with supervisor rights (R73, R84). -/
def readDescriptor (addr : DWord) : Op Descriptor := do
  let dw0 ← linRead addr 4 supervisor
  let dw1 ← linRead (addr + 4) 4 supervisor
  pure ⟨BitVec.ofNat 32 dw0, BitVec.ofNat 32 dw1⟩

/-- `FetchDescriptor` (R191), with the refusal of a descriptor whose reserved bit is set (R102, R196). -/
def fetchDescriptor (sel : Word16) : Op (Descriptor × DWord) := do
  let s ← get
  raiseIf (!(s.table sel).2.2) (.gp (selCode sel))
  raiseIf (decide (selIndex sel * 8 + 7 > (s.table sel).2.1.toNat)) (.gp (selCode sel))
  let d ← readDescriptor (s.descriptorAddr sel)
  refuseIf d.reservedBitSet .reservedDescriptorBit
  pure (d, s.descriptorAddr sel)

/-- The processor's write of descriptor byte 5 with the bits of `bits` set (R195, R251). The byte is read and written with
supervisor rights: R84 gives them to the descriptor read only, and R195 and R251 name none (PRESUMED, log entry 40). -/
def setAccessByte (addr : DWord) (bits : Byte) : Op Unit := do
  let b ← linRead (addr + 5) 1 supervisor
  linWrite .processor (addr + 5) 1 (b ||| bits.toNat) supervisor

/-- `SetAccessed` (R195): the write is made only when the bit is 0. -/
def setAccessed (d : Descriptor) (addr : DWord) : Op Unit :=
  if accessed d.type then pure () else setAccessByte addr 1

/-- `Seg[r] <- c` as an operation. -/
def putSeg (r : SReg) (c : SegCache) : Op Unit := modify fun s => s.setSeg r c

/-- What a null selector leaves in a data segment register: the selector and `valid` = 0 (R192). -/
def SegCache.loadNull (c : SegCache) (sel : Word16) : SegCache := { c with sel := sel, valid := false }

/-- The numerically greater of two privilege levels. -/
def maxLevel (a b : Level) : Level := if a ≤ b then b else a

/-- The privilege formula of a data segment load: a conforming code segment, or max(CPL, RPL) <= DPL (R197). -/
def dataPrivilegeOk (cpl : Level) (sel : Word16) (d : Descriptor) : Bool :=
  conforming d.type || decide (maxLevel cpl (selRPL sel) ≤ d.dpl)

/-- The checks on the descriptor of a data segment load, in the order of R192 and R198. -/
def checkDataDescriptor (cpl : Level) (sel : Word16) (d : Descriptor) : Op Unit := do
  raiseIf (!d.s) (.gp (selCode sel))
  raiseIf (isCode d.type && !readable d.type) (.gp (selCode sel))
  raiseIf (!dataPrivilegeOk cpl sel d) (.gp (selCode sel))
  raiseIf (!d.p) (.np (selCode sel))

/-- `LoadDataSeg` for DS, ES, FS, GS (R192). -/
def loadDataSeg (r : SReg) (sel : Word16) : Op Unit := do
  let s ← get
  if isNull sel then putSeg r ((s.seg r).loadNull sel)
  else do
    let (d, addr) ← fetchDescriptor sel
    checkDataDescriptor s.cpl sel d
    setAccessed d addr
    putSeg r (.load sel d)

/-- `NotPresentSS` (R193, D26). -/
def notPresentSs (cfg : Config) (sel : Word16) : Exn :=
  if cfg.ssNotPresentIsSs then .ss (selCode sel) else .np (selCode sel)

/-- The checks on the descriptor of a load of SS at the level `cpl`, in the order of R193. -/
def checkStackDescriptor (cfg : Config) (cpl : Level) (sel : Word16) (d : Descriptor) : Op Unit := do
  raiseIf (selRPL sel != cpl) (.gp (selCode sel))
  raiseIf (!d.s || isCode d.type || !writable d.type) (.gp (selCode sel))
  raiseIf (d.dpl != cpl) (.gp (selCode sel))
  raiseIf (!d.p) (notPresentSs cfg sel)

/-- `LoadSS` at the level `cpl`: the CPL, or the new level of a transfer that changes it (R193, R212). -/
def loadSs (cpl : Level) (sel : Word16) : Op Unit := do
  let s ← get
  raiseIf (isNull sel) (.gp 0)
  let (d, addr) ← fetchDescriptor sel
  checkStackDescriptor s.cfg cpl sel d
  setAccessed d addr
  putSeg .ss (.load sel d)

/-- The load that MOV, POP and the far-pointer loads make: SS by R193, the data segment registers by R192. -/
def loadSeg (r : SReg) (sel : Word16) : Op Unit := do
  let s ← get
  if r = .ss then loadSs s.cpl sel else loadDataSeg r sel

/-- `PrivilegeCheckCode` (R294): a conforming target with DPL <= CPL, or a nonconforming one with DPL = CPL and
RPL <= CPL. -/
def codePrivilegeOk (cpl : Level) (sel : Word16) (d : Descriptor) : Bool :=
  if conforming d.type then decide (d.dpl ≤ cpl)
  else d.dpl == cpl && decide (selRPL sel ≤ cpl)

/-- The limit check of a transfer's target (R194). -/
def targetInLimit (d : Descriptor) (newPc : DWord) : Bool := decide (newPc.toNat ≤ d.effLimit.toNat)

/-- The checks of `LoadCS` after the descriptor is known to be no system descriptor, in the order of R194. -/
def checkCodeDescriptor (cpl : Level) (sel : Word16) (d : Descriptor) (newPc : DWord) : Op Unit := do
  raiseIf (isData d.type) (.gp (selCode sel))
  raiseIf (!codePrivilegeOk cpl sel d) (.gp (selCode sel))
  raiseIf (!d.p) (.np (selCode sel))
  raiseIf (!targetInLimit d newPc) (.gp 0)

/-- The last lines of `LoadCS`: the accessed bit, CS with its RPL field set to the level the code runs at, and the
instruction pointer (R194). -/
def commitCs (cpl : Level) (sel : Word16) (d : Descriptor) (addr newPc : DWord) : Op Unit := do
  setAccessed d addr
  modify fun s =>
    { s with
      cs := .load (withRPL sel cpl) d
      pc := newPc
      pfx := .none }

end Sys2Proof.Machine
end

