-- ==== Sys2Proof/Machine/Operands.lean ====
section
/-! DEFINITION. Operands: effective addresses, the default segment and the override (R110, R162, R163), the
register-or-memory operand, the far pointer in memory (R108), and the advance of the instruction pointer (R36). -/

namespace Sys2Proof.Machine

/-! ### Effective addresses (R163; the forms are the family's, PRESUMED, log entry 14) -/

/-- The register sum of a 16-bit addressing form. -/
def Base16.value (s : State) : Base16 → Word16
  | .bxSi => s.reg16 .ebx + s.reg16 .esi
  | .bxDi => s.reg16 .ebx + s.reg16 .edi
  | .bpSi => s.reg16 .ebp + s.reg16 .esi
  | .bpDi => s.reg16 .ebp + s.reg16 .edi
  | .si => s.reg16 .esi
  | .di => s.reg16 .edi
  | .bp => s.reg16 .ebp
  | .bx => s.reg16 .ebx

/-- The 16-bit sum, modulo 2^16; a displacement of 8 bits is sign-extended (R111). -/
def Ea16.offset (s : State) : Ea16 → Word16
  | .direct d => d
  | .ind b => Base16.value s b
  | .ind8 b d => Base16.value s b + d.signExtend 16
  | .ind16 b d => Base16.value s b + d

/-- The scaled index of a SIB form; ESP means no index. -/
def scaledIndex (s : State) (x : Reg) (scale : BitVec 2) : DWord :=
  if x = .esp then 0 else s.reg x <<< scale.toNat

/-- The 32-bit sum, modulo 2^32; a displacement of 8 bits is sign-extended (R111). -/
def Ea32.offset (s : State) : Ea32 → DWord
  | .direct d => d
  | .ind b => s.reg b
  | .ind8 b d => s.reg b + d.signExtend 32
  | .ind32 b d => s.reg b + d
  | .sib b x k => s.reg b + scaledIndex s x k
  | .sibDirect x k d => scaledIndex s x k + d
  | .sib8 b x k d => s.reg b + scaledIndex s x k + d.signExtend 32
  | .sib32 b x k d => s.reg b + scaledIndex s x k + d

/-- The offset of a memory operand; a 16-bit effective address is zero-extended (R163). -/
def Ea.offset (s : State) : Ea → DWord
  | .a16 e => (Ea16.offset s e).setWidth 32
  | .a32 e => Ea32.offset s e

/-- A 16-bit form with BP in it. -/
def Ea16.baseIsBp : Ea16 → Bool
  | .direct _ => false
  | .ind b | .ind8 b _ | .ind16 b _ =>
    match b with
    | .bpSi | .bpDi | .bp => true
    | .bxSi | .bxDi | .si | .di | .bx => false

/-- A 32-bit form whose base register is ESP or EBP. -/
def Ea32.baseIsStack : Ea32 → Bool
  | .direct _ | .sibDirect _ _ _ => false
  | .ind b | .ind8 b _ | .ind32 b _ | .sib b _ _ | .sib8 b _ _ _ | .sib32 b _ _ _ => b == .esp || b == .ebp

/-- The default segment register: SS where the base is ESP, EBP or BP, DS otherwise (R162). -/
def Ea.defaultSeg : Ea → SReg
  | .a16 e => if Ea16.baseIsBp e then .ss else .ds
  | .a32 e => if Ea32.baseIsStack e then .ss else .ds

/-- The segment register of a memory operand: an override replaces the default (R110). -/
def Ea.segReg (s : State) (e : Ea) : SReg := s.pfx.seg.getD (Ea.defaultSeg e)

/-! ### Register-or-memory operands -/

/-- A 16-bit source operand (R199, R251, R258): the low half of a register, or a word read through the segment. -/
def readRm16 (o : RM) : Op Word16 := do
  let s ← get
  match o with
  | .reg r => pure (s.reg16 r)
  | .mem e => do
    let v ← segRead (Ea.segReg s e) (Ea.offset s e).toNat 2 s.cpl
    pure (BitVec.ofNat 16 v)

/-- A selector stored to an operand (R200, R252, R255): a memory destination has 16 bits; a register destination is
zero-extended with a 32-bit operand size, and keeps its upper half with a 16-bit one. -/
def writeSelector (o : RM) (v : Word16) : Op Unit := do
  let s ← get
  match o with
  | .reg r => set (if s.mode.op32 then s.setReg r (v.setWidth 32) else s.setReg16 r v)
  | .mem e => segWrite (Ea.segReg s e) (Ea.offset s e).toNat 2 v.toNat s.cpl

/-- The memory operand of an instruction that has no register form: a register raises #UD (R114). -/
def memOperand (o : RM) : Op Ea :=
  match o with
  | .reg _ => raise .ud
  | .mem e => pure e

/-- How many bytes an operand of the operand size has (R109). -/
def State.opBytes (s : State) : Nat := if s.mode.op32 then 4 else 2

/-- A far pointer in memory: the offset, then the selector (R108). -/
def readFarPointer (e : Ea) : Op (DWord × Word16) := do
  let s ← get
  let off := (Ea.offset s e).toNat
  let o ← segRead (Ea.segReg s e) off s.opBytes s.cpl
  let sel ← segRead (Ea.segReg s e) (off + s.opBytes) 2 s.cpl
  pure (BitVec.ofNat 32 o, BitVec.ofNat 16 sel)

/-- `x[r] <- off`, 16 or 32 bits by the operand size (R202). -/
def writeOffset (r : Reg) (off : DWord) : Op Unit := modify fun s =>
  if s.mode.op32 then s.setReg r off else s.setReg16 r (off.extractLsb' 0 16)

/-! ### The instruction pointer -/

/-- The offset of the next instruction: past the prefix bytes and the instruction's own bytes; with D = 0 only its
low 16 bits are used (R36). -/
def State.nextPc (s : State) (i : Instr) : DWord :=
  s.maskPc (s.pcOffset + BitVec.ofNat 32 (s.pfx.count + i.length s.mode))

/-- The next instruction follows; the prefixes applied to one instruction only (R36, R109). -/
def State.advance (s : State) (i : Instr) : State := { s with pc := s.nextPc i, pfx := .none }

def advance (i : Instr) : Op Unit := modify fun s => s.advance i

end Sys2Proof.Machine
end

