-- ==== Sys2Proof/Machine/Ops.lean ====
section
/-! DEFINITION. The operations the instructions share: the implicit stack references (R172), far transfers and
returns (R194, R207 to R209, R281 to R295), taking an exception or an interrupt gate (R260, R284, R285, R312, R313)
and the return from one (R212, R314), and how an operation's end becomes the outcome of a step (R7, R326). -/

namespace Sys2Proof.Machine

/-! ### The stack (R34, R172) -/

/-- The offset of an implicit stack reference: ESP, or SP zero-extended when SS.B is 0 (R172). -/
def State.stackPtr (s : State) : DWord :=
  if s.ss.db then s.gpr.esp else (s.gpr.esp.extractLsb' 0 16).setWidth 32

/-- A new stack pointer: all of ESP, or only SP when `wide` is false (R172). -/
def State.setStackPtr (s : State) (wide : Bool) (v : DWord) : State :=
  if wide then s.setReg .esp v else s.setReg16 .esp (v.extractLsb' 0 16)

/-- The stack pointer moved by `k` bytes, modulo 2^32 or 2^16 (R172). -/
def State.stackMoved (s : State) (k : DWord) : DWord :=
  if s.ss.db then s.stackPtr + k else ((s.stackPtr + k).extractLsb' 0 16).setWidth 32

/-- `k` bytes of stack are released, with the width that SS.B gives. -/
def release (k : DWord) : Op Unit := modify fun s => s.setStackPtr s.ss.db (s.stackMoved k)

/-- A push of `n` bytes with the rights of `cpl`: decrement, then write (R172). -/
def push (cpl : Level) (n v : Nat) : Op Unit := do
  let s ← get
  let sp := s.stackMoved (-(BitVec.ofNat 32 n))
  segWrite .ss sp.toNat n v cpl
  modify fun s => s.setStackPtr s.ss.db sp

/-- The `n` bytes at the top of the stack. -/
def stackTop (n : Nat) : Op Nat := do
  let s ← get
  segRead .ss s.stackPtr.toNat n s.cpl

/-- A pop of `n` bytes: read, then increment (R172). -/
def pop (n : Nat) : Op Nat := do
  let v ← stackTop n
  release (BitVec.ofNat 32 n)
  pure v

/-! ### The stack of an inner level (R313; where it lies in the TSS is PRESUMED, log entry 15) -/

/-- Where a TSS keeps the stack pointer and the stack selector of level `l`, and how wide the pointer is: ESPn at
4 + 8n and SSn at 8 + 8n in a 32-bit TSS, SPn at 2 + 4n and SSn at 4 + 4n in a 16-bit one. -/
def tssStackPlace (tss32 : Bool) (l : Level) : Nat × Nat × Nat :=
  if tss32 then (4 + 8 * l.toNat, 8 + 8 * l.toNat, 4) else (2 + 4 * l.toNat, 4 + 4 * l.toNat, 2)

/-- The stack selector and pointer of level `l` in the current TSS (R313), read with supervisor rights (PRESUMED, log
entry 40). -/
def readInnerStack (l : Level) : Op (Word16 × DWord) := do
  let s ← get
  let place := tssStackPlace (s.tr.type.getLsbD 3) l
  refuseIf (!s.tr.valid || decide (place.2.1 + 1 > s.tr.limit.toNat)) .noInnerStack
  let sp ← linRead (s.tr.base + BitVec.ofNat 32 place.1) place.2.2 supervisor
  let sel ← linRead (s.tr.base + BitVec.ofNat 32 place.2.1) 2 supervisor
  pure (BitVec.ofNat 16 sel, BitVec.ofNat 32 sp)

/-- The switch to the stack of level `l`, and the push of the old SS and ESP on it (R313), with the rights of that level
for the page walk and the alignment check although CS still holds the old one (PRESUMED, log entry 39). A new SS with
B = 0 takes only SP from the TSS, and bits 31:16 of ESP stay (PRESUMED, log entry 34). The old SS selector fills a push
of 4 bytes zero-extended, as R207 and R313 say of CS (PRESUMED, log entry 41). -/
def switchStack (l : Level) (n : Nat) : Op Unit := do
  let s ← get
  let (sel, sp) ← readInnerStack l
  loadSs l sel
  modify fun t => t.setStackPtr t.ss.db sp
  push l n s.ss.sel.toNat
  push l n s.gpr.esp.toNat

/-- `k` values of `n` bytes each from offset `off` of the stack, in increasing address order. The offset of each is taken
modulo 2^32 with SS.B = 1 and modulo 2^16 with SS.B = 0, as the stack pointer of a pop is (R172; PRESUMED, log entry
18). -/
def readParams (off : DWord) (n k : Nat) : Op (List Nat) :=
  match k with
  | 0 => pure []
  | k + 1 => do
    let s ← get
    let v ← segRead .ss (if s.ss.db then off else (off.extractLsb' 0 16).setWidth 32).toNat n s.cpl
    let rest ← readParams (off + BitVec.ofNat 32 n) n k
    pure (v :: rest)

def pushAll (cpl : Level) (n : Nat) (vs : List Nat) : Op Unit :=
  match vs with
  | [] => pure ()
  | v :: rest => do
    push cpl n v
    pushAll cpl n rest

/-! ### Code targets -/

/-- The first lines of `LoadCS` (R194): a null selector raises #GP(0), then the descriptor is fetched. -/
def fetchTarget (sel : Word16) : Op (Descriptor × DWord) := do
  raiseIf (isNull sel) (.gp 0)
  fetchDescriptor sel

/-- CS and the return address on the stack, `n` bytes each (R207, R313). -/
def pushReturn (cpl : Level) (n : Nat) (retPc : DWord) : Op Unit := do
  let s ← get
  push cpl n s.cs.sel.toNat
  push cpl n retPc.toNat

/-- The outcome `Refused` of R295, where the policy asks for it (log entry 9). -/
def refuseTransfer (t : Transfer) : Op Unit := do
  let s ← get
  refuseIf (s.cfg.transfers == .named) (.transfer t)

/-- The target of a call gate: a code segment of DPL at most CPL (R290), and for a JMP to a nonconforming one DPL
equal to CPL (R289; PRESUMED for a JMP through a gate, log entry 18). -/
def checkGateTarget (isCall : Bool) (cpl : Level) (sel : Word16) (d : Descriptor) : Op Unit := do
  raiseIf (!d.s || isData d.type) (.gp (selCode sel))
  raiseIf (decide (d.dpl > cpl)) (.gp (selCode sel))
  raiseIf (!isCall && !conforming d.type && d.dpl != cpl) (.gp (selCode sel))
  raiseIf (!d.p) (.np (selCode sel))

/-- The level the target of a gate runs at: a conforming segment keeps the CPL (R288), any other runs at its DPL. -/
def targetLevel (cpl : Level) (d : Descriptor) : Level := if conforming d.type then cpl else d.dpl

/-- A far CALL or JMP through the call gate `gate` that `gateSel` names (R281, R282, R287, R290, R293). The offset of
the instruction is ignored. A CALL to an inner level switches the stack and copies the gate's parameters: these are read
with the rights of the old CPL, and every push on the inner stack has the new level's (PRESUMED, log entry 39). -/
def callGate (isCall : Bool) (gateSel : Word16) (gate : Descriptor) (retPc : DWord) : Op Unit := do
  refuseTransfer .callGate
  let s ← get
  raiseIf (decide (maxLevel s.cpl (selRPL gateSel) > gate.dpl)) (.gp (selCode gateSel))
  raiseIf (!gate.p) (.np (selCode gateSel))
  let sel := gate.gateSelector
  let (d, addr) ← fetchTarget sel
  checkGateTarget isCall s.cpl sel d
  raiseIf (!targetInLimit d gate.gateOffset) (.gp 0)
  let l := targetLevel s.cpl d
  if isCall then do
    if l = s.cpl then pure ()
    else do
      let params ← readParams s.stackPtr gate.gateBytes gate.gateParams
      switchStack l gate.gateBytes
      pushAll l gate.gateBytes params.reverse
    pushReturn l gate.gateBytes retPc
    commitCs l sel d addr gate.gateOffset
  else commitCs l sel d addr gate.gateOffset

/-- A far CALL or JMP to the logical address `sel:off` (R194, R207, R208, R294). A CALL checks the target, pushes CS
and the return address, then commits. -/
def farTransfer (isCall : Bool) (sel : Word16) (off retPc : DWord) : Op Unit := do
  let s ← get
  let (d, addr) ← fetchTarget sel
  if d.s then do
    checkCodeDescriptor s.cpl sel d off
    if isCall then pushReturn s.cpl s.opBytes retPc else pure ()
    commitCs s.cpl sel d addr off
  else
    match systemKind d.type with
    | .callGate => callGate isCall sel d retPc
    | .taskGate | .tss => refuse .taskSwitch
    | .ldt | .interruptGate | .trapGate | .reserved => raise (.gp (selCode sel))

/-! ### Returns (R209, R212, R314) -/

/-- The checks on the code descriptor of a return to level `l`: those of `LoadCS` at that level; a system descriptor
is no return target (DEDUCED, log entry 19). -/
def checkReturnDescriptor (l : Level) (sel : Word16) (d : Descriptor) (newPc : DWord) : Op Unit := do
  raiseIf (!d.s) (.gp (selCode sel))
  checkCodeDescriptor l sel d newPc

/-- A data segment register after a return to level `l`: null where that level may not hold its segment (R209,
R212, by the formula of R197). -/
def SegCache.afterReturn (l : Level) (c : SegCache) : SegCache :=
  if conforming c.type || decide (l ≤ c.dpl) || !c.valid then c else c.loadNull 0

def State.nullOuter (s : State) (l : Level) : State :=
  { s with
    ds := s.ds.afterReturn l
    es := s.es.afterReturn l
    fs := s.fs.afterReturn l
    gs := s.gs.afterReturn l }

/-- A return to the outer level `l`: ESP and SS are popped too, SS is loaded at the new level, `k` bytes of the new
stack are released, and the data segment registers the level may not hold are nulled (R209, R212). The order is the
model's: ESP and SS are read before the code descriptor is checked, and that is checked before SS is loaded (PRESUMED,
log entry 19). An outer SS with B = 0 takes only SP from the popped value (PRESUMED, log entry 34). The SS selector is the
low 16 bits of what is popped (PRESUMED, log entry 41). -/
def returnOuter (l : Level) (n : Nat) (sel : Word16) (newPc : DWord) (k : DWord) : Op Unit := do
  refuseTransfer .outerReturn
  let sp ← pop n
  let ssSel ← pop n
  let (d, addr) ← fetchTarget sel
  checkReturnDescriptor l sel d newPc
  loadSs l (BitVec.ofNat 16 ssSel)
  modify fun s => s.setStackPtr s.ss.db (BitVec.ofNat 32 sp)
  release k
  commitCs l sel d addr newPc
  modify fun s => s.nullOuter l

/-- The rest of a far return or IRET once `sel:newPc` is popped: to the same level, or to an outer one (R209, R212). An
RPL below CPL raises #GP(sel), as R209 says of RET; of IRET R212 does not (DEDUCED, log entry 37). -/
def returnTo (n : Nat) (sel : Word16) (newPc : DWord) (k : DWord) : Op Unit := do
  let s ← get
  raiseIf (decide (selRPL sel < s.cpl)) (.gp (selCode sel))
  if selRPL sel = s.cpl then do
    let (d, addr) ← fetchTarget sel
    checkReturnDescriptor s.cpl sel d newPc
    commitCs s.cpl sel d addr newPc
  else returnOuter (selRPL sel) n sel newPc k

/-- Far RET, releasing `k` bytes of stack after the pops (R209). -/
def farReturn (k : DWord) : Op Unit := do
  let s ← get
  let newPc ← pop s.opBytes
  let sel ← pop s.opBytes
  release k
  returnTo s.opBytes (BitVec.ofNat 16 sel) (BitVec.ofNat 32 newPc) k

/-- The return from an exception (R212, R314): the instruction pointer, CS and EFLAGS are popped; NT = 1 asks for a
task switch. -/
def interruptReturn : Op Unit := do
  let s ← get
  refuseIf s.nestedTask .taskSwitch
  let newPc ← pop s.opBytes
  let sel ← pop s.opBytes
  let image ← pop s.opBytes
  returnTo s.opBytes (BitVec.ofNat 16 sel) (BitVec.ofNat 32 newPc) 0
  modify fun t => { t with eflags := poppedFlags s.opBytes t.eflags image }

/-! ### Taking an exception (R260, R284, R285, R312, R313) -/

/-- The vector of an exception (R307). -/
def Exn.vector : Exn → Byte
  | .de => 0
  | .bp => 3
  | .of => 4
  | .ud => 6
  | .np _ => 11
  | .ss _ => 12
  | .gp _ => 13
  | .pf _ _ _ _ => 14
  | .ac => 17

/-- The error code of a page fault: bit 0 a protection violation, bit 1 a write, bit 2 user mode (R304). -/
def pageFaultCode (kind : AccessKind) (cpl : Level) (protection : Bool) : Nat :=
  protection.toNat + 2 * (kind == .write).toNat + 4 * (userAccess cpl).toNat

/-- The error code an exception pushes, if it pushes one (R307, R308). -/
def Exn.errorCode : Exn → Option Nat
  | .de | .bp | .of | .ud => none
  | .np code | .ss code | .gp code => some code.toNat
  | .pf _ kind cpl protection => some (pageFaultCode kind cpl protection)
  | .ac => some 0

/-- The error code that names an IDT entry: the vector's index with the IDT bit set (R213, R260, R308). -/
def idtCode (vector : Byte) : Word16 := BitVec.ofNat 16 (8 * vector.toNat + 2)

/-- A descriptor the IDT may hold: an interrupt, trap or task gate (R260, R283). -/
def Descriptor.isIdtGate (d : Descriptor) : Bool :=
  !d.s && (match systemKind d.type with
    | .interruptGate | .trapGate | .taskGate => true
    | _ => false)

/-- The gate of a vector, at IDTR.base + 8 * vector (R260), with the checks an instruction's use of it adds: the
gate's DPL is at least the CPL for a software interrupt (R213, R293). The gate is read as a descriptor is, with supervisor
rights (PRESUMED, log entry 40). -/
def fetchGate (vector : Byte) (software : Bool) : Op Descriptor := do
  let s ← get
  raiseIf (decide (8 * vector.toNat + 7 > s.idtr.limit.toNat)) (.gp (idtCode vector))
  let gate ← readDescriptor (s.idtr.base + BitVec.ofNat 32 (8 * vector.toNat))
  raiseIf (!gate.isIdtGate) (.gp (idtCode vector))
  raiseIf (software && decide (gate.dpl < s.cpl)) (.gp (idtCode vector))
  raiseIf (!gate.p) (.np (idtCode vector))
  refuseIf (systemKind gate.type == .taskGate) .taskSwitch
  pure gate

/-- The checks on the handler's code descriptor (R290, R313): a present code segment of DPL at most CPL. -/
def checkHandler (cpl : Level) (sel : Word16) (d : Descriptor) (off : DWord) : Op Unit := do
  raiseIf (!d.s || isData d.type) (.gp (selCode sel))
  raiseIf (decide (d.dpl > cpl)) (.gp (selCode sel))
  raiseIf (!d.p) (.np (selCode sel))
  raiseIf (!targetInLimit d off) (.gp 0)

/-- The error code, if there is one, zero-extended to the size of the push (R313; PRESUMED, log entry 41). -/
def pushErrorCode (cpl : Level) (n : Nat) : Option Nat → Op Unit
  | none => pure ()
  | some code => push cpl n code

/-- TAKING AN EXCEPTION: control passes through the gate of `vector` (R312). The handler's level is that of its code
segment; on a change of level the stack is switched and the old SS and ESP pushed; EFLAGS, CS and the return address
are pushed, then the error code (R313), all with the rights of the handler's level, before CS is loaded (PRESUMED, log
entry 39); CS and the instruction pointer come from the gate; IF is cleared through an interrupt gate (R284) and not
through a trap gate (R285), and TF, NT, RF and VM are cleared (R313). -/
def takeEvent (vector : Byte) (software : Bool) (code : Option Nat) (retPc : DWord) : Op Unit := do
  let gate ← fetchGate vector software
  let s ← get
  let sel := gate.gateSelector
  let (d, addr) ← fetchTarget sel
  checkHandler s.cpl sel d gate.gateOffset
  let l := targetLevel s.cpl d
  if l = s.cpl then pure () else switchStack l gate.gateBytes
  push l gate.gateBytes s.eflags.toNat
  pushReturn l gate.gateBytes retPc
  pushErrorCode l gate.gateBytes code
  commitCs l sel d addr gate.gateOffset
  modify fun t => { t with eflags := entryFlags (systemKind gate.type == .interruptGate) s.eflags }

/-- CR2 receives the linear address of a page fault (R304). -/
def State.noteFault (s : State) (e : Exn) : State :=
  match e with
  | .pf la _ _ _ => { s with cr2 := la }
  | _ => s

/-! ### The outcome of a step (R7, R326) -/

/-- The outcome of a step on this machine. -/
abbrev Outcome := Host.Outcome State Fault Refusal

/-- The state whose memory is as it was before the instruction: without the writes of its fetch's page walks (R326). -/
def State.undone (s : State) : State := { s with mem := s.pfx.before.getD s.mem }

/-- An exception ends the step: the fault outcome (R7, R326), or under the policy `delivered` its delivery from the
state before the instruction, whose offset is the saved instruction pointer (R313). An exception that this delivery
meets is refused by name (R315). -/
def raised (s : State) (e : Exn) : Outcome :=
  match s.cfg.transfers with
  | .named | .performed => .fault (.exception e)
  | .delivered =>
    match takeEvent e.vector false e.errorCode s.pcOffset (s.undone.noteFault e) with
    | .ok (_, t) => .next t
    | .error (.exn second) => .refused (.duringDelivery e second)
    | .error (.fault f) => .fault f
    | .error (.refused r) => .refused r

/-- How a step that stops ends. -/
def stopped (s : State) : Stop → Outcome
  | .exn e => raised s e
  | .fault f => .fault f
  | .refused r => .refused r

/-- The outcome of an operation as a step from `s`: what it had done before it stopped is undone (R326). -/
def conclude (s : State) (op : Op Unit) : Outcome :=
  match op s with
  | .ok (_, t) => .next t
  | .error e => stopped s e

end Sys2Proof.Machine
end

