-- ==== Sys2Proof/Machine/FarTransfer.lean ====
section
/-! DEFINITION. The far transfers: CALL, JMP and RET (42_segment_register_load.md R207 to R209), SYSENTER and SYSEXIT
(R210, R211). -/

namespace Sys2Proof.Machine

/-- The immediate offset of a far pointer has the operand size (R108). -/
def State.immOffset (s : State) (off : DWord) : DWord :=
  if s.mode.op32 then off else (off.extractLsb' 0 16).setWidth 32

/-- CALL ptr16:16/32 (R207). -/
def execCallPtr (off : DWord) (sel : Word16) (s : State) : Outcome :=
  conclude s (farTransfer true sel (s.immOffset off) (s.nextPc (.callPtr off sel)))

/-- CALL m16:16/32 (R207). -/
def execCallMem (src : RM) (s : State) : Outcome :=
  conclude s do
    let e ← memOperand src
    let (off, sel) ← readFarPointer e
    farTransfer true sel off (s.nextPc (.callMem src))

/-- JMP ptr16:16/32 (R208). -/
def execJmpPtr (off : DWord) (sel : Word16) (s : State) : Outcome :=
  conclude s (farTransfer false sel (s.immOffset off) (s.nextPc (.jmpPtr off sel)))

/-- JMP m16:16/32 (R208). -/
def execJmpMem (src : RM) (s : State) : Outcome :=
  conclude s do
    let e ← memOperand src
    let (off, sel) ← readFarPointer e
    farTransfer false sel off (s.nextPc (.jmpMem src))

/-- RET far (R209). -/
def execRetFar (s : State) : Outcome := conclude s (farReturn 0)

/-- RET far with `imm` bytes of stack to release, unsigned (R111, R209). -/
def execRetFarImm (imm : Word16) (s : State) : Outcome := conclude s (farReturn (imm.setWidth 32))

/-- A flat segment register that SYSENTER and SYSEXIT set without reading a descriptor (R210, R211). -/
def SegCache.flat (sel : Word16) (type : BitVec 4) (dpl : Level) : SegCache where
  sel := sel
  valid := true
  base := 0
  limit := 0xFFFFF
  g := true
  db := true
  type := type
  s := true
  dpl := dpl
  p := true
  avl := false

/-- The selectors SYSENTER sets: IA32_SYSENTER_CS with bits 1:0 cleared, and that plus 8 (R210). -/
def State.sysenterSelectors (s : State) : Word16 × Word16 :=
  let cs := withRPL (s.sysenterCs.extractLsb' 0 16) 0
  (cs, cs + 8)

/-- The state SYSENTER leaves (R210). -/
def State.enterSystem (s : State) : State :=
  { s with
    cs := .flat s.sysenterSelectors.1 0b1011 0
    ss := .flat s.sysenterSelectors.2 0b0011 0
    pc := s.sysenterEip
    gpr := { s.gpr with esp := s.sysenterEsp }
    eflags := clearBit s.eflags flagIF
    pfx := .none }

/-- SYSENTER (R210): #GP(0) if bits 15:2 of IA32_SYSENTER_CS are 0; refused under the policy `named` (R295). -/
def execSysenter (s : State) : Outcome :=
  conclude s do
    refuseTransfer .sysenter
    raiseIf (isNull (s.sysenterCs.extractLsb' 0 16)) (.gp 0)
    set s.enterSystem

/-- The state SYSEXIT leaves (R211). -/
def State.exitSystem (s : State) : State :=
  { s with
    cs := .flat ((s.sysenterCs.extractLsb' 0 16 + 16) ||| 3) 0b1011 3
    ss := .flat ((s.sysenterCs.extractLsb' 0 16 + 24) ||| 3) 0b0011 3
    pc := s.gpr.edx
    gpr := { s.gpr with esp := s.gpr.ecx }
    pfx := .none }

/-- SYSEXIT (R211): allowed at CPL 0 only; refused under the policy `named` (R295). -/
def execSysexit (s : State) : Outcome :=
  conclude s do
    refuseTransfer .sysexit
    raiseIf (s.cpl != 0) (.gp 0)
    set s.exitSystem

end Sys2Proof.Machine
end

