-- ==== Sys2Proof/Machine/Interrupts.lean ====
section
/-! DEFINITION. IRET, INT n, INTO and INT3 (42_segment_register_load.md R212 to R215): the return from an exception
and the software interrupts, over the shared operations of Ops. -/

namespace Sys2Proof.Machine

/-- IRET and IRETD (R212). -/
def execIret (s : State) : Outcome := conclude s interruptReturn

/-- INT n (R213): through the gate of vector `n`; the saved instruction pointer is the next instruction's (R313). -/
def execInt (n : Byte) (s : State) : Outcome :=
  conclude s do
    refuseTransfer .throughIdt
    takeEvent n true none (s.nextPc (.int n))

/-- #OF raised by INTO: the interrupt of its vector (R214), or under the policy `named` the fault outcome (R295,
R306). -/
def overflowTrap (retPc : DWord) : Op Unit := do
  let s ← get
  raiseIf (s.cfg.transfers == .named) .of
  takeEvent Exn.of.vector true none retPc

/-- INTO (R214): INT 4 if OF is 1, else nothing. -/
def execInto (s : State) : Outcome :=
  conclude s (if s.overflowFlag then overflowTrap (s.nextPc .into) else advance .into)

/-- INT3 (R215): INT 3, the breakpoint trap, in one byte. -/
def execInt3 (s : State) : Outcome :=
  conclude s do
    refuseTransfer .throughIdt
    takeEvent Exn.bp.vector true none (s.nextPc .int3)

end Sys2Proof.Machine
end

