-- ==== Sys2Proof/Machine/MoveSeg.lean ====
section
/-! DEFINITION. The instructions that load or store a segment register directly: MOV, POP, LDS, LES, LSS, LFS, LGS
(42_segment_register_load.md R199 to R206). -/

namespace Sys2Proof.Machine

/-- MOV Sreg, r/m16 (R199): the source is read, then a `reg` field that names CS or no register raises #UD (R112). -/
def execMovToSreg (sreg : BitVec 3) (src : RM) (s : State) : Outcome :=
  conclude s do
    let sel ← readRm16 src
    match SReg.ofBits sreg with
    | none | some .cs => raise .ud
    | some r => loadSeg r sel
    advance (.movToSreg sreg src)

/-- MOV r/m16, Sreg (R200): the visible part of any of the six registers; 6 and 7 raise #UD (R112). -/
def execMovFromSreg (sreg : BitVec 3) (dst : RM) (s : State) : Outcome :=
  conclude s do
    match SReg.ofBits sreg with
    | none => raise .ud
    | some r => writeSelector dst (s.seg r).sel
    advance (.movFromSreg sreg dst)

/-- POP Sreg (R201): the selector is the low word of the operand at the top of the stack, the register is loaded, and
the stack pointer moves by the operand size with the width the stack had when it was read. -/
def popSeg (r : SReg) (i : Instr) : Op Unit := do
  let s ← get
  let v ← stackTop s.opBytes
  loadSeg r (BitVec.ofNat 16 v)
  modify fun t => t.setStackPtr s.ss.db (s.stackMoved (BitVec.ofNat 32 s.opBytes))
  advance i

/-- POP ES (R201). -/
def execPopEs (s : State) : Outcome := conclude s (popSeg .es .popEs)

/-- POP SS (R201). -/
def execPopSs (s : State) : Outcome := conclude s (popSeg .ss .popSs)

/-- POP DS (R201). -/
def execPopDs (s : State) : Outcome := conclude s (popSeg .ds .popDs)

/-- POP FS (R201). -/
def execPopFs (s : State) : Outcome := conclude s (popSeg .fs .popFs)

/-- POP GS (R201). -/
def execPopGs (s : State) : Outcome := conclude s (popSeg .gs .popGs)

/-- A far pointer from memory: the selector into `sr`, then the offset into `r` (R202 to R206). -/
def loadPointer (sr : SReg) (r : Reg) (src : RM) (i : Instr) : Op Unit := do
  let e ← memOperand src
  let (off, sel) ← readFarPointer e
  loadSeg sr sel
  writeOffset r off
  advance i

/-- LDS (R202). -/
def execLds (r : Reg) (src : RM) (s : State) : Outcome := conclude s (loadPointer .ds r src (.lds r src))

/-- LES (R203). -/
def execLes (r : Reg) (src : RM) (s : State) : Outcome := conclude s (loadPointer .es r src (.les r src))

/-- LSS (R204). -/
def execLss (r : Reg) (src : RM) (s : State) : Outcome := conclude s (loadPointer .ss r src (.lss r src))

/-- LFS (R205). -/
def execLfs (r : Reg) (src : RM) (s : State) : Outcome := conclude s (loadPointer .fs r src (.lfs r src))

/-- LGS (R206). -/
def execLgs (r : Reg) (src : RM) (s : State) : Outcome := conclude s (loadPointer .gs r src (.lgs r src))

end Sys2Proof.Machine
end

