-- ==== Sys2Proof/Machine/PrefixBytes.lean ====
section
/-! DEFINITION. The prefix bytes (30_encoding.md R109, R110). A prefix byte is a step of its own that is remembered
until the instruction it precedes has run; `pc` stays at the first prefix byte (log entry 12). -/

namespace Sys2Proof.Machine

/-- The prefix bytes (R109, R110). -/
def isPrefix : Instr → Bool
  | .prefixOperandSize | .prefixAddressSize => true
  | .prefixCs | .prefixEs | .prefixSs | .prefixDs | .prefixFs | .prefixGs => true
  | _ => false

/-- One more prefix byte is read. -/
def State.notePrefix (s : State) (f : Prefixes → Prefixes) : State :=
  { s with pfx := f { s.pfx with count := s.pfx.count + 1 } }

/-- A segment override: the last one read is in force (R110; PRESUMED where several are read, log entry 12). -/
def overrideWith (r : SReg) (p : Prefixes) : Prefixes := { p with seg := some r }

/-- The byte 66H: the other operand size for one instruction (R109). -/
def execPrefixOperandSize (s : State) : Outcome :=
  .next (s.notePrefix fun p => { p with opSize := true })

/-- The byte 67H: the other address size for one instruction (R109). -/
def execPrefixAddressSize (s : State) : Outcome :=
  .next (s.notePrefix fun p => { p with addrSize := true })

/-- The byte 2EH: CS for the memory operand (R110). -/
def execPrefixCs (s : State) : Outcome := .next (s.notePrefix (overrideWith .cs))

/-- The byte 26H: ES for the memory operand (R110). -/
def execPrefixEs (s : State) : Outcome := .next (s.notePrefix (overrideWith .es))

/-- The byte 36H: SS for the memory operand (R110). -/
def execPrefixSs (s : State) : Outcome := .next (s.notePrefix (overrideWith .ss))

/-- The byte 3EH: DS for the memory operand (R110). -/
def execPrefixDs (s : State) : Outcome := .next (s.notePrefix (overrideWith .ds))

/-- The byte 64H: FS for the memory operand (R110). -/
def execPrefixFs (s : State) : Outcome := .next (s.notePrefix (overrideWith .fs))

/-- The byte 65H: GS for the memory operand (R110). -/
def execPrefixGs (s : State) : Outcome := .next (s.notePrefix (overrideWith .gs))

end Sys2Proof.Machine
end

