-- ==== Sys2Proof/Machine/SystemRegs.lean ====
section
/-! DEFINITION. The instructions that store and load GDTR, IDTR, LDTR and TR
(43_system_descriptors_and_tables.md R251 to R258, R262). -/

namespace Sys2Proof.Machine

/-- SLDT r/m16 (R255), at any privilege level. -/
def execSldt (dst : RM) (s : State) : Outcome :=
  conclude s do
    writeSelector dst s.ldtr.sel
    advance (.sldt dst)

/-- STR r/m16 (R252), at any privilege level. -/
def execStr (dst : RM) (s : State) : Outcome :=
  conclude s do
    writeSelector dst s.tr.sel
    advance (.str dst)

/-- The checks LLDT makes on its selector's descriptor, in the order of R258. -/
def checkLdtDescriptor (sel : Word16) (d : Descriptor) : Op Unit := do
  raiseIf (d.s || systemKind d.type != .ldt) (.gp (selCode sel))
  raiseIf (!d.p) (.np (selCode sel))

/-- The load of LDTR: a null selector marks it invalid (R258). -/
def loadLdtr (sel : Word16) : Op Unit := do
  if isNull sel then modify fun s => { s with ldtr := { s.ldtr with sel := sel, valid := false } }
  else do
    raiseIf (selTI sel) (.gp (selCode sel))
    let (d, _) ← fetchDescriptor sel
    checkLdtDescriptor sel d
    modify fun s => { s with ldtr := .load s.cfg sel d d.type }

/-- LLDT r/m16 (R258), at CPL 0 only. -/
def execLldt (src : RM) (s : State) : Outcome :=
  conclude s do
    raiseIf (s.cpl != 0) (.gp 0)
    let sel ← readRm16 src
    loadLdtr sel
    advance (.lldt src)

/-- The checks LTR makes on its selector's descriptor, in the order of R251. -/
def checkTssDescriptor (sel : Word16) (d : Descriptor) : Op Unit := do
  raiseIf (d.s || !availableTss d.type) (.gp (selCode sel))
  raiseIf (!d.p) (.np (selCode sel))

/-- The load of TR: the TSS is marked busy in memory and in the register (R251). -/
def loadTr (sel : Word16) : Op Unit := do
  raiseIf (isNull sel) (.gp 0)
  raiseIf (selTI sel) (.gp (selCode sel))
  let (d, addr) ← fetchDescriptor sel
  checkTssDescriptor sel d
  setAccessByte addr 2
  modify fun s => { s with tr := .load s.cfg sel d (d.type ||| 2) }

/-- LTR r/m16 (R251), at CPL 0 only. -/
def execLtr (src : RM) (s : State) : Outcome :=
  conclude s do
    raiseIf (s.cpl != 0) (.gp 0)
    let sel ← readRm16 src
    loadTr sel
    advance (.ltr src)

/-- The 48-bit pseudo-descriptor is stored: the limit, then the base (R107, R253). -/
def storeTable (t : TableReg) (dst : RM) : Op Unit := do
  let e ← memOperand dst
  let s ← get
  let off := (Ea.offset s e).toNat
  segWrite (Ea.segReg s e) off 2 t.limit.toNat s.cpl
  segWrite (Ea.segReg s e) (off + 2) 4 t.base.toNat s.cpl

/-- SGDT m (R253), at any privilege level; GDTR is unchanged. -/
def execSgdt (dst : RM) (s : State) : Outcome :=
  conclude s do
    storeTable s.gdtr dst
    advance (.sgdt dst)

/-- SIDT m (R254), at any privilege level; IDTR is unchanged. -/
def execSidt (dst : RM) (s : State) : Outcome :=
  conclude s do
    storeTable s.idtr dst
    advance (.sidt dst)

/-- The base a pseudo-descriptor gives: all 32 bits, or with a 16-bit operand size only bits 23:0 (R256). -/
def tableBase (op32 : Bool) (v : Nat) : DWord :=
  if op32 then BitVec.ofNat 32 v else ((BitVec.ofNat 32 v).extractLsb' 0 24).setWidth 32

/-- A pseudo-descriptor read at CPL 0 only (R256). A register operand raises #UD before the privilege is checked
(DEDUCED, log entry 20). -/
def readTable (src : RM) : Op TableReg := do
  let e ← memOperand src
  let s ← get
  raiseIf (s.cpl != 0) (.gp 0)
  let off := (Ea.offset s e).toNat
  let limit ← segRead (Ea.segReg s e) off 2 s.cpl
  let base ← segRead (Ea.segReg s e) (off + 2) 4 s.cpl
  pure ⟨tableBase s.mode.op32 base, BitVec.ofNat 16 limit⟩

/-- LGDT m (R256), at CPL 0 only. -/
def execLgdt (src : RM) (s : State) : Outcome :=
  conclude s do
    let t ← readTable src
    modify fun u => { u with gdtr := t }
    advance (.lgdt src)

/-- LIDT m (R257), at CPL 0 only. -/
def execLidt (src : RM) (s : State) : Outcome :=
  conclude s do
    let t ← readTable src
    modify fun u => { u with idtr := t }
    advance (.lidt src)

end Sys2Proof.Machine
end

