-- ==== Sys2Proof/Machine/Dispatch.lean ====
section
/-! DEFINITION. One arm per constructor of `Instr`, each a direct call of the instruction's meaning. -/

namespace Sys2Proof.Machine

def exec (i : Instr) (s : State) : Host.Outcome State Fault Refusal :=
  match i with
  | .movToSreg sreg src => Sys2Proof.Machine.execMovToSreg sreg src s
  | .movFromSreg sreg dst => Sys2Proof.Machine.execMovFromSreg sreg dst s
  | .popEs => Sys2Proof.Machine.execPopEs s
  | .popSs => Sys2Proof.Machine.execPopSs s
  | .popDs => Sys2Proof.Machine.execPopDs s
  | .popFs => Sys2Proof.Machine.execPopFs s
  | .popGs => Sys2Proof.Machine.execPopGs s
  | .lds r src => Sys2Proof.Machine.execLds r src s
  | .les r src => Sys2Proof.Machine.execLes r src s
  | .lss r src => Sys2Proof.Machine.execLss r src s
  | .lfs r src => Sys2Proof.Machine.execLfs r src s
  | .lgs r src => Sys2Proof.Machine.execLgs r src s
  | .callPtr off sel => Sys2Proof.Machine.execCallPtr off sel s
  | .callMem src => Sys2Proof.Machine.execCallMem src s
  | .jmpPtr off sel => Sys2Proof.Machine.execJmpPtr off sel s
  | .jmpMem src => Sys2Proof.Machine.execJmpMem src s
  | .retFar => Sys2Proof.Machine.execRetFar s
  | .retFarImm imm => Sys2Proof.Machine.execRetFarImm imm s
  | .sysenter => Sys2Proof.Machine.execSysenter s
  | .sysexit => Sys2Proof.Machine.execSysexit s
  | .iret => Sys2Proof.Machine.execIret s
  | .int n => Sys2Proof.Machine.execInt n s
  | .into => Sys2Proof.Machine.execInto s
  | .int3 => Sys2Proof.Machine.execInt3 s
  | .sldt dst => Sys2Proof.Machine.execSldt dst s
  | .str dst => Sys2Proof.Machine.execStr dst s
  | .lldt src => Sys2Proof.Machine.execLldt src s
  | .ltr src => Sys2Proof.Machine.execLtr src s
  | .sgdt dst => Sys2Proof.Machine.execSgdt dst s
  | .sidt dst => Sys2Proof.Machine.execSidt dst s
  | .lgdt src => Sys2Proof.Machine.execLgdt src s
  | .lidt src => Sys2Proof.Machine.execLidt src s
  | .prefixOperandSize => Sys2Proof.Machine.execPrefixOperandSize s
  | .prefixAddressSize => Sys2Proof.Machine.execPrefixAddressSize s
  | .prefixCs => Sys2Proof.Machine.execPrefixCs s
  | .prefixEs => Sys2Proof.Machine.execPrefixEs s
  | .prefixSs => Sys2Proof.Machine.execPrefixSs s
  | .prefixDs => Sys2Proof.Machine.execPrefixDs s
  | .prefixFs => Sys2Proof.Machine.execPrefixFs s
  | .prefixGs => Sys2Proof.Machine.execPrefixGs s

end Sys2Proof.Machine
end

