-- ==== Sys2Proof/Machine/Fetch.lean ====
section
/-! DEFINITION. Fetching the bytes of the instruction through CS (R36, R162, R174) and decoding them under the sizes
in force (R37, R109, R116); and the placement of an instruction's bytes where the fetch reads them. -/

namespace Sys2Proof.Machine

/-- While FETCH_SEES_STORES is false, a byte that was stored to is not fetched (R77). -/
def refuseStored (pas : List PhysAddr) : Op Unit := fun s =>
  match pas.find? fun pa => !s.cfg.fetchSeesStores && s.stored.contains pa.toNat with
  | some pa => .error (.refused (.fetchAfterStore pa))
  | none => .ok ((), s)

/-- `SegRead(CS, pc, k + m)` of kind execute: the limit is checked over all these bytes of the instruction before one is
paged (R36, R65, R174, R311), then every byte from the `walked`-th on is translated, and the last `m` are read. -/
def fetchBytes (walked k m : Nat) : Op (List Byte) := do
  let s ← get
  refuseIf (decide (k + m > maxInstrBytes)) .instructionTooLong
  let la ← check (translate s.cfg .cs s.cs s.pcOffset.toNat (k + m) .execute)
  let pas ← physBytes (la + BitVec.ofNat 32 walked) (k + m - walked) .execute s.cpl
  refuseStored pas
  readBytes (pas.drop (k - walked))

/-- LOCK, F0H, and REP, F2H and F3H: prefix bytes of an instruction (R111) without effect on those of the table. Every
access of the one processor takes effect before the next one anyway (R75, R76), and no instruction of the table is a
string instruction (PRESUMED, log entry 38). -/
def isLockOrRep (b : Byte) : Bool := b == 0xF0 || b == 0xF2 || b == 0xF3

/-- The first byte of the instruction behind the prefix bytes read so far: LOCK and REP bytes are counted and passed over
(R111, log entry 38). The pages of the first `walked` bytes are translated already. -/
def fetchFirst (fuel walked : Nat) : Op Byte :=
  match fuel with
  | 0 => refuse .instructionTooLong
  | fuel + 1 => do
    let s ← get
    let bs ← fetchBytes walked s.pfx.count 1
    let b := bs.headD 0
    if isLockOrRep b then do
      modify fun t => t.notePrefix id
      fetchFirst fuel (s.pfx.count + 1)
    else pure b

/-- The instruction that begins with the bytes `bs`: while it has more bytes for certain, these are fetched as one
reference that covers the instruction from its first prefix byte on (R111, R174, log entry 33). -/
def gather (fuel : Nat) (bs : List Byte) : Op Instr :=
  match fuel with
  | 0 => refuse .instructionTooLong
  | fuel + 1 => do
    let s ← get
    match decode s.mode bs with
    | .ok (i, _) => pure i
    | .error .notInTable => refuse .notInTable
    | .error (.short m) => do
      let more ← fetchBytes (s.pfx.count + bs.length) (s.pfx.count + bs.length) m
      gather fuel (bs ++ more)

/-- The instruction at the instruction pointer: its first byte, the prefix bytes' pages translated with it, then the
rest. -/
def fetchAll : Op Instr := do
  let b ← fetchFirst maxInstrBytes 0
  gather maxInstrBytes [b]

/-- The state in which the fetched instruction runs, `t` being the state after its bytes are read. What the fetch of a
prefix byte wrote is undone, since the fetch of the instruction translates its page again; with paging on the memory
before the fetch is kept until the instruction ends (R326, log entry 30). -/
def State.settled (s t : State) (i : Instr) : State :=
  if isPrefix i then { s with pfx := t.pfx, freeCount := t.freeCount }
  else if s.pagingEnabled then { t with pfx := { t.pfx with before := some s.mem } }
  else t

/-- The instruction at the instruction pointer, and the state in which it runs. -/
def fetchInstr (s : State) : Except Stop (Instr × State) :=
  match fetchAll s with
  | .ok (i, t) => .ok (i, s.settled t i)
  | .error e => .error e

/-- One byte where the fetch reads the byte `k` bytes behind the instruction's first byte. -/
def State.placeByte (s : State) (k : Nat) (b : Byte) : State :=
  match phys (s.cs.base + BitVec.ofNat 32 (s.pcOffset.toNat + k)) .execute s.cpl s with
  | .ok (pa, _) => { s with mem := s.mem.write pa b }
  | .error _ => s

/-- Bytes where the fetch reads them, from the byte `k` bytes behind the instruction's first byte on. -/
def State.placeBytes (s : State) (k : Nat) (bs : List Byte) : State :=
  match bs with
  | [] => s
  | b :: rest => (s.placeByte k b).placeBytes (k + 1) rest

end Sys2Proof.Machine
end

