-- ==== Sys2Proof/Machine/Step.lean ====
section
/-! DEFINITION. One step: fetch and decode the instruction at the instruction pointer, and run it (R7, R36, R75). -/

namespace Sys2Proof.Machine

/-- One step. More than one processor is refused (R75); a fetch that stops ends the step as R7 says. -/
def step (s : State) : Host.Outcome State Fault Refusal :=
  if s.cfg.numProcessors ≠ 1 then .refused .multiprocessor
  else
    match fetchInstr s with
    | .ok (i, t) => exec i t
    | .error e => stopped s e

/-- The instruction whose bits are `w` (a table row's word of `nbits` bits, zeros above, up to the longest
instruction) where `step` fetches its next instruction. -/
def State.withFetchWord (s : State) (nbits w : Nat) : State :=
  s.placeBytes s.pfx.count (tableBytes nbits w)

end Sys2Proof.Machine
end

