-- ==== Sys2Proof/Safety.lean ====
section
/-! DEFINITION. The terms the statements use: the invariant of the machine, and, for a machine with paging off, what
a reference, a descriptor load, a push and the passage through a gate need and what they leave, as plain functions of
the state. Nothing of the machine is defined by them. -/

namespace Sys2Proof.Machine

/-! ### The invariant -/

/-- A data segment register is null, or holds a present, accessed code or data segment that may be read (R22, R23,
R192). -/
def SegCache.dataInv (c : SegCache) : Bool :=
  if c.valid then c.s && c.p && accessed c.type && readable c.type else isNull c.sel

/-- CS holds a present, accessed code segment: a nonconforming one of DPL = CPL or a conforming one of DPL <= CPL
(R20, R194, R294). -/
def State.codeInv (s : State) : Bool :=
  s.cs.valid && s.cs.s && s.cs.p && accessed s.cs.type && isCode s.cs.type &&
    (if conforming s.cs.type then decide (s.cs.dpl ≤ s.cpl) else s.cs.dpl == s.cpl)

/-- SS holds a present, accessed, writable data segment, and CPL is its selector's RPL and its DPL (R173, R193,
R344 (h)). -/
def State.stackInv (s : State) : Bool :=
  s.ss.valid && s.ss.s && s.ss.p && accessed s.ss.type && writable s.ss.type &&
    (s.ss.dpl == s.cpl) && (selRPL s.ss.sel == s.cpl)

/-- LDTR is invalid or caches a present LDT descriptor (R247, R258). -/
def SysReg.ldtInv (r : SysReg) : Bool := !r.valid || (!r.s && r.p && systemKind r.type == .ldt)

/-- TR is invalid or caches a present TSS descriptor (R250, R251). -/
def SysReg.tssInv (r : SysReg) : Bool := !r.valid || (!r.s && r.p && systemKind r.type == .tss)

/-- The invariant that every step keeps. -/
def State.inv (s : State) : Bool :=
  s.mem.wf && s.codeInv && s.stackInv && s.ds.dataInv && s.es.dataInv && s.fs.dataInv && s.gs.dataInv &&
    s.ldtr.ldtInv && s.tr.tssInv && decide (s.pfx.count ≤ maxInstrBytes) && s.pfx.before.isNone

/-! ### Memory at linear addresses, paging off (R66) -/

/-- The byte at a linear address. -/
def State.byteAt (s : State) (la : DWord) : Byte := s.mem.read (la.setWidth 36)

/-- The `n` bytes from a linear address on. -/
def State.bytesAt (s : State) (la : DWord) (n : Nat) : List Byte :=
  match n with
  | 0 => []
  | n + 1 => s.byteAt la :: s.bytesAt (la + 1) n

/-- The little-endian value of `n` bytes. -/
def State.valueAt (s : State) (la : DWord) (n : Nat) : Nat := leValue (s.bytesAt la n)

/-- The `n` bytes stand in RAM or ROM. -/
def State.readableAt (s : State) (la : DWord) (n : Nat) : Bool :=
  match n with
  | 0 => true
  | n + 1 =>
    (s.kindAt (la.setWidth 36) == .ram || s.kindAt (la.setWidth 36) == .rom) && s.readableAt (la + 1) n

/-- The `n` bytes stand in RAM. -/
def State.ramAt (s : State) (la : DWord) (n : Nat) : Bool :=
  match n with
  | 0 => true
  | n + 1 => s.kindAt (la.setWidth 36) == .ram && s.ramAt (la + 1) n

/-- Bytes stored from a linear address on. -/
def State.storeBytes (s : State) (la : DWord) (bs : List Byte) : State :=
  match bs with
  | [] => s
  | b :: rest => (s.storeByte (la.setWidth 36) b).storeBytes (la + 1) rest

/-- The `n` low bytes of a value stored from a linear address on. -/
def State.storeValue (s : State) (la : DWord) (n v : Nat) : State := s.storeBytes la (leBytes n v)

/-- The physical address `pa` holds none of the `n` bytes from linear address `start` on (R66, R170). -/
def awayFrom (start : DWord) (n : Nat) (pa : PhysAddr) : Bool :=
  (List.range n).all fun k => pa != (start + BitVec.ofNat 32 k).setWidth 36

/-! ### The instruction at the instruction pointer (R36, R174) -/

/-- The linear address of the next byte to fetch: behind the prefix bytes read so far. -/
def State.codeAddr (s : State) : DWord :=
  s.cs.base + BitVec.ofNat 32 s.pcOffset.toNat + BitVec.ofNat 32 s.pfx.count

/-- The bytes `bs` stand at the instruction pointer, behind the prefix bytes read so far, inside CS, and make no more
than 15 with them. -/
def State.codeHolds (s : State) (bs : List Byte) : Bool :=
  s.cs.valid && limitOk s.cfg s.cs s.pcOffset.toNat (s.pfx.count + bs.length) &&
    decide (s.pfx.count + bs.length ≤ maxInstrBytes) && s.readableAt s.codeAddr bs.length &&
    s.bytesAt s.codeAddr bs.length == bs

/-! ### One reference (R164 to R172) -/

/-- The linear address of a reference (R170). -/
def State.refAddr (s : State) (r : SReg) (off : Nat) : DWord := (s.seg r).base + BitVec.ofNat 32 off

/-- A reference of `n` bytes passes the segment checks and the alignment check. -/
def State.refChecked (s : State) (r : SReg) (off n : Nat) (kind : AccessKind) (cpl : Level) : Bool :=
  (s.seg r).valid && limitOk s.cfg (s.seg r) off n && typeOk (s.seg r) kind &&
    !misaligned s.alignCheckEnabled cpl (s.refAddr r off) n

/-- A reference of `n` bytes passes its checks, and its bytes stand in memory that answers it. -/
def State.refOk (s : State) (r : SReg) (off n : Nat) (kind : AccessKind) (cpl : Level) : Bool :=
  s.refChecked r off n kind cpl &&
    (if kind == .write then s.ramAt (s.refAddr r off) n else s.readableAt (s.refAddr r off) n)

/-- The offset of a memory operand. -/
def State.eaOff (s : State) (e : Ea) : Nat := (Ea.offset s e).toNat

/-- The linear address `k` bytes behind a memory operand's. -/
def State.eaAddr (s : State) (e : Ea) (k : Nat) : DWord := s.refAddr (Ea.segReg s e) (s.eaOff e + k)

/-- A reference of `n` bytes, `k` bytes behind a memory operand's offset, can be made. -/
def State.eaOk (s : State) (e : Ea) (k n : Nat) (kind : AccessKind) : Bool :=
  s.refOk (Ea.segReg s e) (s.eaOff e + k) n kind s.cpl

/-- A 16-bit source operand can be read. -/
def State.sourceOk (s : State) : RM → Bool
  | .reg _ => true
  | .mem e => s.eaOk e 0 2 .read

/-- The value of a 16-bit source operand. -/
def State.sourceValue (s : State) : RM → Word16
  | .reg r => s.reg16 r
  | .mem e => BitVec.ofNat 16 (s.valueAt (s.eaAddr e 0) 2)

/-- A selector destination can be written. -/
def State.destOk (s : State) : RM → Bool
  | .reg _ => true
  | .mem e => s.eaOk e 0 2 .write

/-- The state after a selector is stored to a destination. -/
def State.destWritten (s : State) (v : Word16) : RM → State
  | .reg r => if s.mode.op32 then s.setReg r (v.setWidth 32) else s.setReg16 r v
  | .mem e => s.storeValue (s.eaAddr e 0) 2 v.toNat

/-- A far pointer can be read from memory. -/
def State.pointerOk (s : State) (e : Ea) : Bool :=
  s.eaOk e 0 s.opBytes .read && s.eaOk e s.opBytes 2 .read

/-- The offset of a far pointer in memory. -/
def State.pointerOff (s : State) (e : Ea) : DWord := BitVec.ofNat 32 (s.valueAt (s.eaAddr e 0) s.opBytes)

/-- The selector of a far pointer in memory. -/
def State.pointerSel (s : State) (e : Ea) : Word16 := BitVec.ofNat 16 (s.valueAt (s.eaAddr e s.opBytes) 2)

/-- The offset and the selector of a far JMP, or of a far CALL, whose operand can be read (R108, R207, R208). -/
def State.farPointerOf (s : State) (isCall : Bool) : Instr → Option (DWord × Word16)
  | .jmpPtr off sel => if isCall then none else some (s.immOffset off, sel)
  | .callPtr off sel => if isCall then some (s.immOffset off, sel) else none
  | .jmpMem (.mem e) => if !isCall && s.pointerOk e then some (s.pointerOff e, s.pointerSel e) else none
  | .callMem (.mem e) => if isCall && s.pointerOk e then some (s.pointerOff e, s.pointerSel e) else none
  | _ => none

/-- A register written with the operand size. -/
def State.regWritten (s : State) (r : Reg) (off : DWord) : State :=
  if s.mode.op32 then s.setReg r off else s.setReg16 r (off.extractLsb' 0 16)

/-! ### The stack (R172) -/

/-- The stack pointer after a push of `n` bytes. -/
def State.pushPtr (s : State) (n : Nat) : DWord := s.stackMoved (-(BitVec.ofNat 32 n))

/-- A push of `n` bytes can be made with the rights of `cpl`. -/
def State.pushOk (s : State) (cpl : Level) (n : Nat) : Bool := s.refOk .ss (s.pushPtr n).toNat n .write cpl

/-- The state after a push. -/
def State.pushed (s : State) (n v : Nat) : State :=
  (s.storeValue (s.refAddr .ss (s.pushPtr n).toNat) n v).setStackPtr s.ss.db (s.pushPtr n)

/-- `n` bytes at the top of the stack can be read. -/
def State.topOk (s : State) (n : Nat) : Bool := s.refOk .ss s.stackPtr.toNat n .read s.cpl

/-- The value at the top of the stack. -/
def State.topValue (s : State) (n : Nat) : Nat := s.valueAt (s.refAddr .ss s.stackPtr.toNat) n

/-- The state after `k` bytes of stack are released. -/
def State.released (s : State) (k : DWord) : State := s.setStackPtr s.ss.db (s.stackMoved k)

/-- CS and the return address can be pushed. -/
def State.pushReturnOk (s : State) (cpl : Level) (n : Nat) : Bool :=
  s.pushOk cpl n && (s.pushed n s.cs.sel.toNat).pushOk cpl n

/-- The state after CS and the return address are pushed. -/
def State.returnPushed (s : State) (n : Nat) (retPc : DWord) : State :=
  (s.pushed n s.cs.sel.toNat).pushed n retPc.toNat

/-! ### Descriptors and the loads (R191 to R196) -/

/-- The descriptor at a linear address. -/
def State.descriptorAt (s : State) (addr : DWord) : Descriptor :=
  ⟨BitVec.ofNat 32 (s.valueAt addr 4), BitVec.ofNat 32 (s.valueAt (addr + 4) 4)⟩

/-- The 8 bytes of a descriptor stand in memory. -/
def State.descriptorReadable (s : State) (addr : DWord) : Bool :=
  s.readableAt addr 4 && s.readableAt (addr + 4) 4

/-- The descriptor a selector names. -/
def State.named (s : State) (sel : Word16) : Descriptor := s.descriptorAt (s.descriptorAddr sel)

/-- The selector names a descriptor inside its table (R191, R245). -/
def State.inLimit (s : State) (sel : Word16) : Bool :=
  (s.table sel).2.2 && decide (selIndex sel * 8 + 7 ≤ (s.table sel).2.1.toNat)

/-- The descriptor a selector names can be fetched. -/
def State.fetchOk (s : State) (sel : Word16) : Bool :=
  s.inLimit sel && s.descriptorReadable (s.descriptorAddr sel) && !(s.named sel).reservedBitSet

/-- The state after bits are set in a descriptor's byte 5. -/
def State.accessByteSet (s : State) (addr : DWord) (bits : Byte) : State :=
  s.storeByte ((addr + 5).setWidth 36) (s.byteAt (addr + 5) ||| bits)

/-- The accessed bit is set already, or can be (R195). -/
def State.markOk (s : State) (d : Descriptor) (addr : DWord) : Bool :=
  accessed d.type || s.ramAt (addr + 5) 1

/-- The state after `SetAccessed` (R195). -/
def State.marked (s : State) (d : Descriptor) (addr : DWord) : State :=
  if accessed d.type then s else s.accessByteSet addr 1

/-- A data segment register can be loaded with a selector that is not null (R192). -/
def State.dataLoadOk (s : State) (sel : Word16) : Bool :=
  s.fetchOk sel && (s.named sel).s && (isData (s.named sel).type || readable (s.named sel).type) &&
    dataPrivilegeOk s.cpl sel (s.named sel) && (s.named sel).p && s.markOk (s.named sel) (s.descriptorAddr sel)

/-- SS can be loaded with a selector at the level `cpl` (R193). -/
def State.ssLoadOk (s : State) (cpl : Level) (sel : Word16) : Bool :=
  !isNull sel && s.fetchOk sel && selRPL sel == cpl && (s.named sel).s && writable (s.named sel).type &&
    (s.named sel).dpl == cpl && (s.named sel).p && s.markOk (s.named sel) (s.descriptorAddr sel)

/-- The state after a segment register is loaded from the descriptor its selector names (R195, R196). -/
def State.segLoaded (s : State) (r : SReg) (sel : Word16) : State :=
  (s.marked (s.named sel) (s.descriptorAddr sel)).setSeg r (.load sel (s.named sel))

/-- A direct load of segment register `r` with any selector completes: a null one into a data segment register,
another where R192 or R193 lets it. -/
def State.directLoadOk (s : State) (r : SReg) (sel : Word16) : Bool :=
  if r = .ss then s.ssLoadOk s.cpl sel else isNull sel || s.dataLoadOk sel

/-- The state after a direct load of segment register `r`. -/
def State.directLoaded (s : State) (r : SReg) (sel : Word16) : State :=
  if r ≠ .ss ∧ isNull sel then s.setSeg r ((s.seg r).loadNull sel) else s.segLoaded r sel

/-- The segment registers a direct load can name (R190). -/
def directTarget (r : SReg) : Bool := r != .cs

/-! ### Transfers (R194, R207 to R209, R212, R313) -/

/-- A code segment descriptor that `sel` names is a target for code at the level `cpl` (R194). -/
def State.codeTargetOk (s : State) (cpl : Level) (sel : Word16) (newPc : DWord) : Bool :=
  !isNull sel && s.fetchOk sel && (s.named sel).s && isCode (s.named sel).type &&
    codePrivilegeOk cpl sel (s.named sel) && (s.named sel).p && targetInLimit (s.named sel) newPc &&
    s.markOk (s.named sel) (s.descriptorAddr sel)

/-- CS and the instruction pointer after a transfer, the accessed bit set in the memory of `s` (R194). -/
def State.transferred (s : State) (cpl : Level) (sel : Word16) (d : Descriptor) (addr newPc : DWord) : State :=
  { s.marked d addr with
    cs := .load (withRPL sel cpl) d
    pc := newPc
    pfx := .none }

/-- The selector and pointer of the stack of level `l` in the current TSS (log entry 15). -/
def State.innerStack (s : State) (l : Level) : Word16 × DWord :=
  let place := tssStackPlace (s.tr.type.getLsbD 3) l
  (BitVec.ofNat 16 (s.valueAt (s.tr.base + BitVec.ofNat 32 place.2.1) 2),
    BitVec.ofNat 32 (s.valueAt (s.tr.base + BitVec.ofNat 32 place.1) place.2.2))

/-- The current TSS holds the stack of level `l` in memory that can be read. -/
def State.innerStackOk (s : State) (l : Level) : Bool :=
  let place := tssStackPlace (s.tr.type.getLsbD 3) l
  s.tr.valid && decide (place.2.1 + 1 ≤ s.tr.limit.toNat) &&
    s.readableAt (s.tr.base + BitVec.ofNat 32 place.1) place.2.2 &&
    s.readableAt (s.tr.base + BitVec.ofNat 32 place.2.1) 2

/-- SS and the stack pointer of level `l`, before anything is pushed. -/
def State.innerSs (s : State) (l : Level) : State :=
  let t := s.segLoaded .ss (s.innerStack l).1
  t.setStackPtr t.ss.db (s.innerStack l).2

/-- The stack of the handler of level `l`: the current one, or that of level `l` with the old SS and ESP pushed. -/
def State.handlerStack (s : State) (l : Level) (n : Nat) : State :=
  if l = s.cpl then s else ((s.innerSs l).pushed n s.ss.sel.toNat).pushed n s.gpr.esp.toNat

def State.handlerStackOk (s : State) (l : Level) (n : Nat) : Bool :=
  l == s.cpl ||
    (s.innerStackOk l && s.ssLoadOk l (s.innerStack l).1 && (s.innerSs l).pushOk l n &&
      ((s.innerSs l).pushed n s.ss.sel.toNat).pushOk l n)

/-- The gate of a vector (R260). -/
def State.gateAt (s : State) (vector : Byte) : Descriptor :=
  s.descriptorAt (s.idtr.base + BitVec.ofNat 32 (8 * vector.toNat))

/-- The gate of a vector lies inside the IDT, in memory that can be read (R260). -/
def State.gateReadable (s : State) (vector : Byte) : Bool :=
  decide (8 * vector.toNat + 7 ≤ s.idtr.limit.toNat) &&
    s.descriptorReadable (s.idtr.base + BitVec.ofNat 32 (8 * vector.toNat))

/-- The gate of a vector is a present interrupt or trap gate inside the IDT that `software` may use (R213, R260). -/
def State.gateOk (s : State) (vector : Byte) (software : Bool) : Bool :=
  decide (8 * vector.toNat + 7 ≤ s.idtr.limit.toNat) &&
    s.descriptorReadable (s.idtr.base + BitVec.ofNat 32 (8 * vector.toNat)) &&
    !(s.gateAt vector).s &&
    (systemKind (s.gateAt vector).type == .interruptGate || systemKind (s.gateAt vector).type == .trapGate) &&
    (!software || decide (s.cpl ≤ (s.gateAt vector).dpl)) && (s.gateAt vector).p

/-- The level the handler of a vector runs at (R288, R313). -/
def State.handlerLevel (s : State) (vector : Byte) : Level :=
  targetLevel s.cpl (s.named (s.gateAt vector).gateSelector)

/-- The gate's selector names a present code segment of DPL at most CPL that holds the entry offset. -/
def State.handlerOk (s : State) (vector : Byte) : Bool :=
  let sel := (s.gateAt vector).gateSelector
  !isNull sel && s.fetchOk sel && (s.named sel).s && isCode (s.named sel).type &&
    decide ((s.named sel).dpl ≤ s.cpl) && (s.named sel).p &&
    targetInLimit (s.named sel) (s.gateAt vector).gateOffset && s.markOk (s.named sel) (s.descriptorAddr sel)

/-- What delivery pushes after a change of stack: EFLAGS, CS, the return address, the error code if there is one
(R313). -/
def State.frameWords (s : State) (code : Option Nat) (retPc : DWord) : List Nat :=
  [s.eflags.toNat, s.cs.sel.toNat, retPc.toNat] ++ code.toList

/-- Values pushed in order, `n` bytes each. -/
def State.pushedAll (s : State) (n : Nat) (vs : List Nat) : State :=
  match vs with
  | [] => s
  | v :: rest => (s.pushed n v).pushedAll n rest

/-- Values can be pushed in order with the rights of `cpl`. -/
def State.pushAllOk (s : State) (cpl : Level) (n : Nat) (vs : List Nat) : Bool :=
  match vs with
  | [] => true
  | v :: rest => s.pushOk cpl n && (s.pushed n v).pushAllOk cpl n rest

/-- The state in which the frame is pushed: on the handler's stack. -/
def State.frameStack (s : State) (vector : Byte) : State :=
  s.handlerStack (s.handlerLevel vector) (s.gateAt vector).gateBytes

/-- Everything a passage through the gate of `vector` needs, paging off. -/
def State.eventOk (s : State) (vector : Byte) (software : Bool) (code : Option Nat) (retPc : DWord) : Bool :=
  s.gateOk vector software && s.handlerOk vector &&
    s.handlerStackOk (s.handlerLevel vector) (s.gateAt vector).gateBytes &&
    (s.frameStack vector).pushAllOk (s.handlerLevel vector) (s.gateAt vector).gateBytes (s.frameWords code retPc)

/-- The state after a passage through the gate of `vector` (R284, R285, R313). -/
def State.eventTaken (s : State) (vector : Byte) (code : Option Nat) (retPc : DWord) : State :=
  let sel := (s.gateAt vector).gateSelector
  let framed := (s.frameStack vector).pushedAll (s.gateAt vector).gateBytes (s.frameWords code retPc)
  { framed.transferred (s.handlerLevel vector) sel (s.named sel) (s.descriptorAddr sel)
      (s.gateAt vector).gateOffset with
    eflags := entryFlags (systemKind (s.gateAt vector).type == .interruptGate) s.eflags }

/-! ### Returns (R209, R212, R314) -/

/-- The state after `n` bytes are popped. -/
def State.popped (s : State) (n : Nat) : State := s.released (BitVec.ofNat 32 n)

/-- The instruction pointer that a far return with operands of `n` bytes pops. -/
def State.returnPc (s : State) (n : Nat) : DWord := BitVec.ofNat 32 (s.topValue n)

/-- The selector that a far return with operands of `n` bytes pops. -/
def State.returnSel (s : State) (n : Nat) : Word16 := BitVec.ofNat 16 ((s.popped n).topValue n)

/-- A far return pops its operands and goes to a code segment of the same level. -/
def State.sameReturnOk (s : State) (n : Nat) : Bool :=
  s.topOk n && (s.popped n).topOk n && selRPL (s.returnSel n) == s.cpl &&
    s.codeTargetOk s.cpl (s.returnSel n) (s.returnPc n)

/-- The state after a return to the same level; `t` is `s` with all its operands popped. -/
def State.sameReturned (s t : State) (n : Nat) : State :=
  t.transferred s.cpl (s.returnSel n) (s.named (s.returnSel n)) (s.descriptorAddr (s.returnSel n)) (s.returnPc n)

/-- The selector of the outer stack, below the operands that are popped to reach `t`. -/
def State.outerSs (t : State) (n : Nat) : Word16 := BitVec.ofNat 16 ((t.popped n).topValue n)

/-- A far return pops its operands, then ESP and SS, and goes to a code segment of an outer level with a stack of
that level. -/
def State.outerReturnOk (s t : State) (n : Nat) : Bool :=
  s.cfg.transfers != .named && s.topOk n && (s.popped n).topOk n && decide (s.cpl < selRPL (s.returnSel n)) &&
    t.topOk n && (t.popped n).topOk n && s.codeTargetOk (selRPL (s.returnSel n)) (s.returnSel n) (s.returnPc n) &&
    s.ssLoadOk (selRPL (s.returnSel n)) (t.outerSs n)

/-- The state after a return to an outer level that releases `k` bytes of its stack. -/
def State.outerReturned (s t : State) (n : Nat) (k : DWord) : State :=
  let u := ((t.popped n).popped n).segLoaded .ss (t.outerSs n)
  (((u.setStackPtr u.ss.db (BitVec.ofNat 32 (t.topValue n))).released k).transferred (selRPL (s.returnSel n))
    (s.returnSel n) (s.named (s.returnSel n)) (s.descriptorAddr (s.returnSel n)) (s.returnPc n)).nullOuter
      (selRPL (s.returnSel n))

/-- EFLAGS after IRET with operands of `n` bytes. -/
def State.returnFlags (s : State) (n : Nat) : DWord :=
  poppedFlags n s.eflags (((s.popped n).popped n).topValue n)

/-! ### Call gates (R281, R282, R287, R290, R293) -/

/-- The parameters of a call gate: `k` values of `n` bytes from offset `off` of the stack. -/
def State.paramValues (s : State) (off : DWord) (n k : Nat) : List Nat :=
  match k with
  | 0 => []
  | k + 1 =>
    s.valueAt (s.refAddr .ss (if s.ss.db then off else (off.extractLsb' 0 16).setWidth 32).toNat) n ::
      s.paramValues (off + BitVec.ofNat 32 n) n k

def State.paramsOk (s : State) (off : DWord) (n k : Nat) : Bool :=
  match k with
  | 0 => true
  | k + 1 =>
    s.refOk .ss (if s.ss.db then off else (off.extractLsb' 0 16).setWidth 32).toNat n .read s.cpl &&
      s.paramsOk (off + BitVec.ofNat 32 n) n k

/-- The selector names a present call gate that the CPL and the RPL may use, and the gate a present code segment of
DPL at most CPL that holds the entry offset; a JMP to a nonconforming one needs its DPL to be the CPL. -/
def State.callGateOk (s : State) (isCall : Bool) (sel : Word16) : Bool :=
  let target := (s.named sel).gateSelector
  s.cfg.transfers != .named && !isNull sel && s.fetchOk sel && !(s.named sel).s &&
    systemKind (s.named sel).type == .callGate && decide (maxLevel s.cpl (selRPL sel) ≤ (s.named sel).dpl) &&
    (s.named sel).p && !isNull target && s.fetchOk target && (s.named target).s && isCode (s.named target).type &&
    decide ((s.named target).dpl ≤ s.cpl) &&
    (isCall || conforming (s.named target).type || (s.named target).dpl == s.cpl) && (s.named target).p &&
    targetInLimit (s.named target) (s.named sel).gateOffset &&
    s.markOk (s.named target) (s.descriptorAddr target)

/-- The level the target of a call gate runs at. -/
def State.gateLevel (s : State) (sel : Word16) : Level :=
  targetLevel s.cpl (s.named (s.named sel).gateSelector)

/-- The stack a CALL through the gate pushes its return address on: the current one, or the inner one with the old SS
and ESP and the parameters. -/
def State.gateStack (s : State) (sel : Word16) : State :=
  if s.gateLevel sel = s.cpl then s
  else
    (s.handlerStack (s.gateLevel sel) (s.named sel).gateBytes).pushedAll (s.named sel).gateBytes
      (s.paramValues s.stackPtr (s.named sel).gateBytes (s.named sel).gateParams).reverse

def State.gateStackOk (s : State) (sel : Word16) : Bool :=
  s.gateLevel sel == s.cpl ||
    (s.paramsOk s.stackPtr (s.named sel).gateBytes (s.named sel).gateParams &&
      s.handlerStackOk (s.gateLevel sel) (s.named sel).gateBytes &&
      (s.handlerStack (s.gateLevel sel) (s.named sel).gateBytes).pushAllOk (s.gateLevel sel)
        (s.named sel).gateBytes
        (s.paramValues s.stackPtr (s.named sel).gateBytes (s.named sel).gateParams).reverse)

/-- The words a CALL through a gate pushes last: the CS of the caller and the return address. -/
def State.returnWords (s : State) (retPc : DWord) : List Nat := [s.cs.sel.toNat, retPc.toNat]

/-- CS and the instruction pointer after a transfer through a call gate; `t` is `s` with its stack in place. -/
def State.gateEntered (s t : State) (sel : Word16) : State :=
  t.transferred (s.gateLevel sel) (s.named sel).gateSelector (s.named (s.named sel).gateSelector)
    (s.descriptorAddr (s.named sel).gateSelector) (s.named sel).gateOffset

/-! ### Where pushes store -/

/-- The linear addresses that pushes of `n` bytes store to, in order. -/
def State.pushSlots (s : State) (n : Nat) (vs : List Nat) : List DWord :=
  match vs with
  | [] => []
  | v :: rest => s.refAddr .ss (s.pushPtr n).toNat :: (s.pushed n v).pushSlots n rest

/-- The linear addresses that the passage through the gate of a vector stores words to: on a change of level the old
SS and ESP too. -/
def State.eventSlots (s : State) (vector : Byte) (code : Option Nat) (retPc : DWord) : List DWord :=
  let n := (s.gateAt vector).gateBytes
  if s.handlerLevel vector = s.cpl then s.pushSlots n (s.frameWords code retPc)
  else (s.innerSs (s.handlerLevel vector)).pushSlots n
    (s.ss.sel.toNat :: s.gpr.esp.toNat :: s.frameWords code retPc)

/-- The linear addresses that a CALL through a call gate stores words to. -/
def State.gateSlots (s : State) (sel : Word16) (retPc : DWord) : List DWord :=
  let n := (s.named sel).gateBytes
  if s.gateLevel sel = s.cpl then s.pushSlots n (s.returnWords retPc)
  else (s.innerSs (s.gateLevel sel)).pushSlots n
    (s.ss.sel.toNat :: s.gpr.esp.toNat ::
      ((s.paramValues s.stackPtr n (s.named sel).gateParams).reverse ++ s.returnWords retPc))

/-- The linear address of the byte of a descriptor that the processor may write (R195, R251). -/
def State.accessByte (s : State) (sel : Word16) : DWord := s.descriptorAddr sel + 5

/-! ### What a load reads -/

/-- The selector that a load of a segment register, of LDTR or of TR takes from its operand. -/
def State.loadedSelector (s : State) : Instr → Word16
  | .movToSreg _ src | .lldt src | .ltr src => s.sourceValue src
  | .popEs | .popSs | .popDs | .popFs | .popGs => BitVec.ofNat 16 (s.topValue s.opBytes)
  | .lds _ (.mem e) | .les _ (.mem e) | .lss _ (.mem e) | .lfs _ (.mem e) | .lgs _ (.mem e) => s.pointerSel e
  | _ => 0

/-- The operand that a load takes its selector from can be read. -/
def State.selectorReadable (s : State) : Instr → Bool
  | .movToSreg _ src | .lldt src | .ltr src => s.sourceOk src
  | .popEs | .popSs | .popDs | .popFs | .popGs => s.topOk s.opBytes
  | .lds _ (.mem e) | .les _ (.mem e) | .lss _ (.mem e) | .lfs _ (.mem e) | .lgs _ (.mem e) => s.pointerOk e
  | _ => true

/-! ### Classes of instructions -/

/-- The direct loads of a segment register (R190). -/
def directLoad : Instr → Bool
  | .movToSreg _ _ | .popEs | .popSs | .popDs | .popFs | .popGs => true
  | .lds _ _ | .les _ _ | .lss _ _ | .lfs _ _ | .lgs _ _ => true
  | _ => false

/-- The implied loads: instructions that change CS (R190). -/
def impliedLoad : Instr → Bool
  | .callPtr _ _ | .callMem _ | .jmpPtr _ _ | .jmpMem _ | .retFar | .retFarImm _ => true
  | .sysenter | .sysexit | .iret | .int _ | .into | .int3 => true
  | _ => false

/-- The instructions that may pass to a numerically greater privilege level. -/
def lowersPrivilege : Instr → Bool
  | .retFar | .retFarImm _ | .iret | .sysexit => true
  | _ => false

/-- The segment register a direct load names. -/
def directLoadTarget : Instr → Option SReg
  | .movToSreg b _ => SReg.ofBits b
  | .popEs => some .es
  | .popSs => some .ss
  | .popDs => some .ds
  | .popFs => some .fs
  | .popGs => some .gs
  | .lds _ _ => some .ds
  | .les _ _ => some .es
  | .lss _ _ => some .ss
  | .lfs _ _ => some .fs
  | .lgs _ _ => some .gs
  | _ => none

/-- The general registers an instruction may write (R35). -/
def regsWritten : Instr → List Reg
  | .movFromSreg _ (.reg r) | .sldt (.reg r) | .str (.reg r) => [r]
  | .lds r _ | .les r _ | .lss r _ | .lfs r _ | .lgs r _ => [r]
  | .popEs | .popSs | .popDs | .popFs | .popGs => [.esp]
  | .callPtr _ _ | .callMem _ | .retFar | .retFarImm _ => [.esp]
  | .sysenter | .sysexit | .iret | .int _ | .into | .int3 => [.esp]
  | _ => []

/-- The segment registers an instruction may write (R190). -/
def segsWritten : Instr → List SReg
  | .jmpPtr _ _ | .jmpMem _ => [.cs]
  | .callPtr _ _ | .callMem _ | .sysenter | .sysexit | .int _ | .into | .int3 => [.cs, .ss]
  | .retFar | .retFarImm _ | .iret => [.es, .cs, .ss, .ds, .fs, .gs]
  | i => (directLoadTarget i).toList

/-- The software interrupts with the vectors they go through (R213 to R215). -/
def softwareInterrupts (n : Byte) : List (Instr × Byte) := [(.int n, n), (.int3, 3), (.into, 4)]

/-- The instructions that may write EFLAGS (R210, R212, R313). -/
def writesFlags : Instr → Bool
  | .sysenter | .iret | .int _ | .into | .int3 => true
  | _ => false

/-- The instructions that store nothing to memory of themselves and read no descriptor. -/
def storesNothing : Instr → Bool
  | .movFromSreg _ (.reg _) | .sldt (.reg _) | .str (.reg _) => true
  | .lgdt _ | .lidt _ | .sysenter | .sysexit => true
  | .prefixOperandSize | .prefixAddressSize => true
  | .prefixCs | .prefixEs | .prefixSs | .prefixDs | .prefixFs | .prefixGs => true
  | _ => false

end Sys2Proof.Machine
end

