-- ==== Sys2Proof/Certificates/Slice0/Obligations.lean ====
section
/-! DEFINITION. The statements for the provers, each made from numbered rules of spec/. "Paging off" is R66, and
`transfers ≠ .delivered` says that an exception ends the step (R7, R326); `raised` is what an exception does under
each policy (log entry 9). The functions of the state that the statements use stand in Safety. -/

open Sys2Proof Sys2Proof.Machine

/-! ### The machine as a whole -/

/-- When the bytes at the instruction pointer, behind the prefix bytes read so far, are the instruction `i`, a step is
`exec i` on the same state (R36, R75, R174; log entry 33); LOCK and REP bytes before it are counted and have no other
effect (R111; log entry 38): nothing else is added around `exec`. -/
def Obligations.StepRunsDecodedInstruction : Prop :=
  ∀ (s : State) (i : Instr) (idle bs : List Byte),
    s.cfg.numProcessors = 1 → s.pagingEnabled = false → s.cfg.fetchSeesStores = true →
    (∀ b ∈ idle, b = 0xF0 ∨ b = 0xF2 ∨ b = 0xF3) → s.codeHolds (idle ++ bs) = true → decode s.mode bs = .ok (i, []) →
    step s = exec i { s with pfx := { s.pfx with count := s.pfx.count + idle.length } }

/-- A fetch that answers, with paging on or off, finds a well-formed instruction of at most 15 bytes with its prefixes and
changes nothing but memory (the page walk's own writes, R67), the model's two fields about it and what the model knows of
the instruction; with paging off, and for a prefix byte, memory too stays, else memory before the fetch is kept (R36,
R111, R326). A fetch that passes the limit of CS raises #GP(0): where the first byte does, and where bytes that stand in
memory have more behind them for certain that do (R36, R174; which bytes are checked together: log entry 33). -/
def Obligations.FetchChecksLimitAndChangesNoRegister : Prop :=
  ∀ (s t : State) (i : Instr) (bs : List Byte) (m : Nat),
    (fetchInstr s = .ok (i, t) →
      i.wf s.mode = true ∧ t.pfx.count + i.length s.mode ≤ maxInstrBytes ∧ s.pfx.count ≤ t.pfx.count ∧
        t = { s with
          mem := t.mem, freeCount := t.freeCount, stored := t.stored,
          pfx := { s.pfx with count := t.pfx.count, before := t.pfx.before } } ∧
        (s.pagingEnabled = false ∨ isPrefix i = true → t.mem = s.mem ∧ t.pfx.before = s.pfx.before) ∧
        (s.pagingEnabled = true → isPrefix i = false → t.pfx.before = some s.mem) ∧
        (s.cfg.numProcessors = 1 → step s = exec i t)) ∧
    (s.cfg.numProcessors = 1 → s.cs.valid = true → s.pfx.count + 1 ≤ maxInstrBytes →
      limitOk s.cfg s.cs s.pcOffset.toNat (s.pfx.count + 1) = false → step s = raised s (.gp 0)) ∧
    (s.cfg.numProcessors = 1 → s.pagingEnabled = false → s.cfg.fetchSeesStores = true → s.codeHolds bs = true →
      decode s.mode bs = .error (.short m) → s.pfx.count + bs.length + m ≤ maxInstrBytes →
      limitOk s.cfg s.cs s.pcOffset.toNat (s.pfx.count + bs.length + m) = false → step s = raised s (.gp 0))

/-- Words written out from the encodings of R109 to R113. -/
def Obligations.SpecWordsDecode : Prop :=
  decode ⟨true, true⟩ [0x8E, 0xD8] = .ok (.movToSreg 3 (.reg .eax), []) ∧
  decode ⟨true, true⟩ [0xC5, 0x1D, 0x00, 0x20, 0x00, 0x00] = .ok (.lds .ebx (.mem (.a32 (.direct 0x2000))), []) ∧
  decode ⟨true, true⟩ [0x9A, 0x00, 0x30, 0x00, 0x00, 0x08, 0x00] = .ok (.callPtr 0x3000 0x0008, []) ∧
  decode ⟨true, true⟩ [0x0F, 0x01, 0x05, 0x02, 0x30, 0x00, 0x00] =
    .ok (.sgdt (.mem (.a32 (.direct 0x3002))), []) ∧
  decode ⟨true, true⟩ [0xCD, 0x80] = .ok (.int 0x80, []) ∧
  decode ⟨true, true⟩ [0x66] = .ok (.prefixOperandSize, [])

/-- The encoder's bytes decode to the instruction, whatever bytes follow: no bit of an encoding is dropped. -/
def Obligations.DecodeOfEncode : Prop :=
  ∀ (m : Mode) (i : Instr) (rest : List Byte), i.wf m = true → decode m (encode m i ++ rest) = .ok (i, rest)

/-- What the decoder accepts is a well-formed instruction, and the bytes it consumed are that instruction's
encoding: no two byte strings decode to one instruction. -/
def Obligations.EncodeOfDecode : Prop :=
  ∀ (m : Mode) (i : Instr) (bs rest : List Byte), decode m bs = .ok (i, rest) →
    i.wf m = true ∧ encode m i ++ rest = bs

/-- Right after reset, whatever memory holds, the first byte fetched is the one at physical FFFFFFF0H, and DS has base 0
(R40, R340, R341). -/
def Obligations.ResetFetchesAtTopOfMemory : Prop :=
  (∀ m : Memory, fetchBytes 0 0 1 { State.reset with mem := m } =
    .ok ([m.read 0xFFFFFFF0], { State.reset with mem := m })) ∧ State.reset.ds.base = 0

def Obligations.ResetHoldsInvariant : Prop := State.reset.inv = true

/-- Every step keeps the invariant: memory in canonical form, CS a present code segment that the CPL may run, SS a
present writable data segment of the CPL, the data segment registers null or readable, LDTR and TR what they may
cache, at most 15 prefix bytes read and no copy of memory kept for an instruction. -/
def Obligations.StepKeepsInvariant : Prop :=
  ∀ s t : State, s.inv = true → step s = .next t → t.inv = true

/-- CPL changes only in a control transfer, and becomes numerically greater only in a return (R31, R290). -/
def Obligations.PrivilegeIsLoweredOnlyByReturns : Prop :=
  ∀ (s t : State) (i : Instr), exec i s = .next t →
    (lowersPrivilege i = false → t.cpl ≤ s.cpl) ∧
    (s.cfg.transfers ≠ .delivered → impliedLoad i = false → t.cpl = s.cpl)

/-! ### Frames, paging on or off -/

/-- A segment register, visible and hidden part, changes only by an instruction that loads it (R21, R24, R190). -/
def Obligations.SegmentRegisterFrame : Prop :=
  ∀ (s t : State) (i : Instr) (r : SReg), s.cfg.transfers ≠ .delivered → exec i s = .next t →
    r ∉ segsWritten i → t.seg r = s.seg r

/-- A general register changes only as an instruction's destination, and ESP by the stack, SYSENTER and SYSEXIT. -/
def Obligations.GeneralRegisterFrame : Prop :=
  ∀ (s t : State) (i : Instr) (q : Reg), s.cfg.transfers ≠ .delivered → exec i s = .next t →
    q ∉ regsWritten i → t.reg q = s.reg q

/-- GDTR, IDTR, LDTR and TR change only by LGDT, LIDT, LLDT and LTR; EFLAGS by SYSENTER, IRET and a passage through a
gate; the control bits, CR2, CR4, the model-specific registers and the parameters by no instruction of the table. -/
def Obligations.SystemRegisterFrame : Prop :=
  ∀ (s t : State) (i : Instr), s.cfg.transfers ≠ .delivered → exec i s = .next t →
    ((∀ o, i ≠ .lgdt o) → t.gdtr = s.gdtr) ∧ ((∀ o, i ≠ .lidt o) → t.idtr = s.idtr) ∧
    ((∀ o, i ≠ .lldt o) → t.ldtr = s.ldtr) ∧ ((∀ o, i ≠ .ltr o) → t.tr = s.tr) ∧
    (writesFlags i = false → t.eflags = s.eflags) ∧
    t.alignMask = s.alignMask ∧ t.pagingEnabled = s.pagingEnabled ∧ t.pagingRoot = s.pagingRoot ∧
    t.cr2 = s.cr2 ∧ t.cr4 = s.cr4 ∧ t.sysenterCs = s.sysenterCs ∧ t.sysenterEsp = s.sysenterEsp ∧
    t.sysenterEip = s.sysenterEip ∧ t.cfg = s.cfg

/-! ### Memory frames, paging off -/

/-- Instructions that store nothing of themselves leave every byte of memory (R200, R256, R258, R210, R211). -/
def Obligations.NoStoreMemoryFrame : Prop :=
  ∀ (s t : State) (i : Instr) (pa : PhysAddr), s.pagingEnabled = false → s.cfg.transfers ≠ .delivered →
    exec i s = .next t → (storesNothing i = true ∨ ∃ o, i = .lldt o) → t.mem.read pa = s.mem.read pa

/-- MOV from a segment register, SLDT and STR store two bytes at their operand's address and no other byte (R200,
R252, R255); SGDT and SIDT store six bytes from their operand's address on and no other byte (R107, R253, R254). -/
def Obligations.StoreMemoryFrame : Prop :=
  ∀ (s t : State) (i : Instr) (e : Ea) (pa : PhysAddr), s.pagingEnabled = false → s.cfg.transfers ≠ .delivered →
    s.mem.wf = true → exec i s = .next t →
    (((∃ b, i = .movFromSreg b (.mem e)) ∨ i = .sldt (.mem e) ∨ i = .str (.mem e)) →
      awayFrom (s.eaAddr e 0) 2 pa = true → t.mem.read pa = s.mem.read pa) ∧
    ((i = .sgdt (.mem e) ∨ i = .sidt (.mem e)) →
      awayFrom (s.eaAddr e 0) 6 pa = true → t.mem.read pa = s.mem.read pa)

/-- A load of a segment register, and LTR, store at most the byte 5 of the descriptor that the selector names
(R195, R251). -/
def Obligations.SelectorLoadMemoryFrame : Prop :=
  ∀ (s t : State) (i : Instr) (pa : PhysAddr), s.pagingEnabled = false → s.cfg.transfers ≠ .delivered →
    s.mem.wf = true → (directLoad i = true ∨ ∃ o, i = .ltr o) → s.selectorReadable i = true →
    exec i s = .next t → awayFrom (s.accessByte (s.loadedSelector i)) 1 pa = true →
    t.mem.read pa = s.mem.read pa

/-- A JMP to a code segment stores at most the byte 5 of its descriptor; a CALL the two words it pushes besides
(R195, R207, R208). The far pointer is an immediate or stands in memory. -/
def Obligations.DirectTransferMemoryFrame : Prop :=
  ∀ (s t : State) (i : Instr) (isCall : Bool) (off : DWord) (sel : Word16) (pa : PhysAddr), s.pagingEnabled = false →
    s.cfg.transfers ≠ .delivered → s.mem.wf = true → s.farPointerOf isCall i = some (off, sel) →
    s.fetchOk sel = true → (s.named sel).s = true → awayFrom (s.accessByte sel) 1 pa = true → exec i s = .next t →
    (isCall = true → ∀ a ∈ s.pushSlots s.opBytes (s.returnWords (s.nextPc i)), awayFrom a s.opBytes pa = true) →
    t.mem.read pa = s.mem.read pa

/-- A far RET and an IRET store at most the byte 5 of the descriptors of CS and of an outer SS (R195, R209, R212); `u`
is the state with the operands popped. -/
def Obligations.ReturnMemoryFrame : Prop :=
  ∀ (s t u : State) (i : Instr) (imm : Word16) (pa : PhysAddr), s.pagingEnabled = false → s.mem.wf = true →
    ((i = .retFar ∧ u = ((s.popped s.opBytes).popped s.opBytes).released 0) ∨
      (i = .retFarImm imm ∧ u = ((s.popped s.opBytes).popped s.opBytes).released (imm.setWidth 32)) ∨
      (i = .iret ∧ u = ((s.popped s.opBytes).popped s.opBytes).popped s.opBytes ∧ s.nestedTask = false ∧
        ((s.popped s.opBytes).popped s.opBytes).topOk s.opBytes = true)) →
    exec i s = .next t → awayFrom (s.accessByte (s.returnSel s.opBytes)) 1 pa = true →
    (s.sameReturnOk s.opBytes = true → t.mem.read pa = s.mem.read pa) ∧
    (s.outerReturnOk u s.opBytes = true → awayFrom (s.accessByte (u.outerSs s.opBytes)) 1 pa = true →
      t.mem.read pa = s.mem.read pa)

/-- The passage through a gate of the IDT stores the words of its frame, the byte 5 of the handler's descriptor and,
on a change of level, that of the inner SS, and no other byte (R195, R213, R313). -/
def Obligations.EventMemoryFrame : Prop :=
  ∀ (s t : State) (n : Byte) (pa : PhysAddr), s.pagingEnabled = false → s.mem.wf = true →
    s.eventOk n true none (s.nextPc (.int n)) = true → exec (.int n) s = .next t →
    (∀ a ∈ s.eventSlots n none (s.nextPc (.int n)), awayFrom a (s.gateAt n).gateBytes pa = true) →
    awayFrom (s.accessByte (s.gateAt n).gateSelector) 1 pa = true →
    (s.handlerLevel n ≠ s.cpl → awayFrom (s.accessByte (s.innerStack (s.handlerLevel n)).1) 1 pa = true) →
    t.mem.read pa = s.mem.read pa

/-- A CALL through a call gate stores the words it pushes, the byte 5 of the target's descriptor and, on a change of
level, that of the inner SS, and no other byte; a JMP through one at most the byte 5 of the target's descriptor (R195,
R281). -/
def Obligations.CallGateMemoryFrame : Prop :=
  ∀ (s t : State) (i : Instr) (isCall : Bool) (off : DWord) (sel : Word16) (pa : PhysAddr), s.pagingEnabled = false →
    s.mem.wf = true → s.farPointerOf isCall i = some (off, sel) → s.callGateOk isCall sel = true →
    exec i s = .next t → awayFrom (s.accessByte (s.named sel).gateSelector) 1 pa = true →
    (isCall = true → s.gateStackOk sel = true ∧
      (s.gateStack sel).pushAllOk (s.gateLevel sel) (s.named sel).gateBytes (s.returnWords (s.nextPc i)) = true ∧
      (∀ a ∈ s.gateSlots sel (s.nextPc i), awayFrom a (s.named sel).gateBytes pa = true) ∧
      (s.gateLevel sel ≠ s.cpl → awayFrom (s.accessByte (s.innerStack (s.gateLevel sel)).1) 1 pa = true)) →
    t.mem.read pa = s.mem.read pa

/-- A value stored in `n` bytes is read back from them, the least significant byte at the lowest address, a narrower
read sees its low-order bytes, every other byte is left alone, and memory keeps its canonical form (R71). -/
def Obligations.StoredValueIsReadBack : Prop :=
  ∀ (s : State) (la : DWord) (n m v : Nat), s.mem.wf = true → m ≤ n → n ≤ 8 →
    (s.storeValue la n v).valueAt la m = v % 256 ^ m ∧ (s.storeValue la n v).mem.wf = true ∧
    ∀ pa, awayFrom la n pa = true → (s.storeValue la n v).mem.read pa = s.mem.read pa

/-! ### What each instruction does, paging off -/

/-- MOV from any segment register, SLDT and STR write the visible selector to a register or to memory, at every
privilege level, and go on with the next instruction (R200, R252, R255; the upper half of a register: log entry
32). -/
def Obligations.SelectorStoreCompletes : Prop :=
  ∀ (s : State) (b : BitVec 3) (r : SReg) (dst : RM), s.pagingEnabled = false → s.destOk dst = true →
    (SReg.ofBits b = some r →
      exec (.movFromSreg b dst) s =
        .next ((s.destWritten (s.seg r).sel dst).advance (.movFromSreg b dst))) ∧
    exec (.sldt dst) s = .next ((s.destWritten s.ldtr.sel dst).advance (.sldt dst)) ∧
    exec (.str dst) s = .next ((s.destWritten s.tr.sel dst).advance (.str dst))

/-- SGDT and SIDT store the limit in two bytes and the base in the four after them, at every privilege level; the
registers they store keep their values (R107, R253, R254; log entries 24, 25). -/
def Obligations.TableStoreCompletes : Prop :=
  ∀ (s : State) (e : Ea), s.pagingEnabled = false → s.eaOk e 0 2 .write = true → s.eaOk e 2 4 .write = true →
    exec (.sgdt (.mem e)) s =
      .next (((s.storeValue (s.eaAddr e 0) 2 s.gdtr.limit.toNat).storeValue (s.eaAddr e 2) 4
        s.gdtr.base.toNat).advance (.sgdt (.mem e))) ∧
    exec (.sidt (.mem e)) s =
      .next (((s.storeValue (s.eaAddr e 0) 2 s.idtr.limit.toNat).storeValue (s.eaAddr e 2) 4
        s.idtr.base.toNat).advance (.sidt (.mem e)))

/-- LGDT and LIDT at CPL 0 load the limit and the base; with a 16-bit operand size base[31:24] becomes 0
(R256, R257; log entries 24, 25). -/
def Obligations.TableLoadCompletes : Prop :=
  ∀ (s : State) (e : Ea) (t : TableReg), s.pagingEnabled = false → s.cpl = 0 → s.eaOk e 0 2 .read = true →
    s.eaOk e 2 4 .read = true → t.limit = BitVec.ofNat 16 (s.valueAt (s.eaAddr e 0) 2) →
    t.base = (if s.mode.op32 then BitVec.ofNat 32 (s.valueAt (s.eaAddr e 2) 4)
      else BitVec.ofNat 32 (s.valueAt (s.eaAddr e 2) 4) &&& 0x00FFFFFF) →
    exec (.lgdt (.mem e)) s = .next ({ s with gdtr := t }.advance (.lgdt (.mem e))) ∧
    exec (.lidt (.mem e)) s = .next ({ s with idtr := t }.advance (.lidt (.mem e)))

/-- LLDT at CPL 0: a null selector marks LDTR invalid; the selector of a present LDT descriptor of the GDT loads it
(R247, R258; log entries 16, 31). -/
def Obligations.LldtCompletes : Prop :=
  ∀ (s : State) (src : RM) (sel : Word16), s.pagingEnabled = false → s.cpl = 0 → s.sourceOk src = true →
    s.sourceValue src = sel →
    (isNull sel = true →
      exec (.lldt src) s = .next ({ s with ldtr := { s.ldtr with sel := sel, valid := false } }.advance
        (.lldt src))) ∧
    (isNull sel = false → selTI sel = false → s.fetchOk sel = true → (s.named sel).s = false →
      (s.named sel).type = 0b0010 → (s.named sel).p = true →
      exec (.lldt src) s = .next ({ s with ldtr := .load s.cfg sel (s.named sel) 0b0010 }.advance (.lldt src)))

/-- LTR at CPL 0 loads TR from an available TSS descriptor of the GDT and marks it busy in memory and in TR (R251;
log entries 16, 31). -/
def Obligations.LtrCompletes : Prop :=
  ∀ (s : State) (src : RM) (sel : Word16), s.pagingEnabled = false → s.cpl = 0 → s.sourceOk src = true →
    s.sourceValue src = sel → isNull sel = false → selTI sel = false → s.fetchOk sel = true →
    (s.named sel).s = false → ((s.named sel).type = 0b0001 ∨ (s.named sel).type = 0b1001) →
    (s.named sel).p = true → s.ramAt (s.accessByte sel) 1 = true →
    exec (.ltr src) s =
      .next ({ s.accessByteSet (s.descriptorAddr sel) 2 with
        tr := .load s.cfg sel (s.named sel) ((s.named sel).type ||| 2) }.advance (.ltr src))

/-- MOV to DS, ES, FS, GS or SS loads the register as R192 and R193 say (R199). -/
def Obligations.MovToSegmentRegisterCompletes : Prop :=
  ∀ (s : State) (b : BitVec 3) (r : SReg) (src : RM), s.pagingEnabled = false → SReg.ofBits b = some r → r ≠ .cs →
    s.sourceOk src = true → s.directLoadOk r (s.sourceValue src) = true →
    exec (.movToSreg b src) s = .next ((s.directLoaded r (s.sourceValue src)).advance (.movToSreg b src))

/-- POP of a segment register loads it from the top of the stack and releases one operand, with the width the stack
had (R172, R201; log entry 22). -/
def Obligations.PopSegmentRegisterCompletes : Prop :=
  ∀ (s : State) (i : Instr) (r : SReg), s.pagingEnabled = false →
    (i, r) ∈ [(Instr.popEs, SReg.es), (.popSs, .ss), (.popDs, .ds), (.popFs, .fs), (.popGs, .gs)] →
    s.topOk s.opBytes = true → s.directLoadOk r (BitVec.ofNat 16 (s.topValue s.opBytes)) = true →
    exec i s = .next (((s.directLoaded r (BitVec.ofNat 16 (s.topValue s.opBytes))).setStackPtr s.ss.db
      (s.stackMoved (BitVec.ofNat 32 s.opBytes))).advance i)

/-- LDS, LES, LSS, LFS and LGS load the segment register from the selector of a far pointer in memory and the general
register from its offset (R108, R202 to R206; log entries 24, 25). -/
def Obligations.FarPointerLoadCompletes : Prop :=
  ∀ (s : State) (q : Reg) (e : Ea) (i : Instr) (r : SReg), s.pagingEnabled = false →
    (i, r) ∈ [(Instr.lds q (.mem e), SReg.ds), (.les q (.mem e), .es), (.lss q (.mem e), .ss),
      (.lfs q (.mem e), .fs), (.lgs q (.mem e), .gs)] →
    s.pointerOk e = true → s.directLoadOk r (s.pointerSel e) = true →
    exec i s = .next (((s.directLoaded r (s.pointerSel e)).regWritten q (s.pointerOff e)).advance i)

/-- A direct load that completes leaves in its segment register the selector it read and, unless that is null, every
field of the descriptor the selector names, with the accessed bit set in the register and in memory; a null selector
leaves the hidden part (R22, R192, R195, R196). -/
def Obligations.LoadedSegmentHoldsDescriptor : Prop :=
  ∀ (s t : State) (i : Instr) (r : SReg) (sel : Word16) (d : Descriptor), s.pagingEnabled = false →
    s.cfg.transfers ≠ .delivered → s.mem.wf = true → directLoad i = true → directLoadTarget i = some r →
    s.selectorReadable i = true → s.loadedSelector i = sel → s.named sel = d → exec i s = .next t →
    (isNull sel = true → r ≠ .ss ∧ t.seg r = { s.seg r with sel := sel, valid := false }) ∧
    (isNull sel = false → s.descriptorReadable (s.descriptorAddr sel) = true →
      t.seg r = ⟨sel, true, d.base, d.limit, d.g, d.db, d.type ||| 1, d.s, d.dpl, d.p, d.avl⟩ ∧
      accessed (t.descriptorAt (s.descriptorAddr sel)).type = true)

/-- A far JMP to a code segment that the CPL may enter: CS, the instruction pointer and the accessed bit; nothing is
pushed (R194, R208). -/
def Obligations.DirectJumpCompletes : Prop :=
  ∀ (s : State) (off : DWord) (sel : Word16) (e : Ea), s.pagingEnabled = false →
    (s.codeTargetOk s.cpl sel (s.immOffset off) = true →
      exec (.jmpPtr off sel) s =
        .next (s.transferred s.cpl sel (s.named sel) (s.descriptorAddr sel) (s.immOffset off))) ∧
    (s.pointerOk e = true → s.pointerSel e = sel → s.codeTargetOk s.cpl sel (s.pointerOff e) = true →
      exec (.jmpMem (.mem e)) s =
        .next (s.transferred s.cpl sel (s.named sel) (s.descriptorAddr sel) (s.pointerOff e)))

/-- A far CALL to a code segment that the CPL may enter: CS and the return address are pushed, then CS and the
instruction pointer are loaded (R194, R207). -/
def Obligations.DirectCallCompletes : Prop :=
  ∀ (s : State) (off : DWord) (sel : Word16) (e : Ea), s.pagingEnabled = false →
    s.pushReturnOk s.cpl s.opBytes = true →
    (s.codeTargetOk s.cpl sel (s.immOffset off) = true →
      exec (.callPtr off sel) s =
        .next ((s.returnPushed s.opBytes (s.nextPc (.callPtr off sel))).transferred s.cpl sel (s.named sel)
          (s.descriptorAddr sel) (s.immOffset off))) ∧
    (s.pointerOk e = true → s.pointerSel e = sel → s.codeTargetOk s.cpl sel (s.pointerOff e) = true →
      exec (.callMem (.mem e)) s =
        .next ((s.returnPushed s.opBytes (s.nextPc (.callMem (.mem e)))).transferred s.cpl sel (s.named sel)
          (s.descriptorAddr sel) (s.pointerOff e)))

/-- A far CALL or JMP through a call gate enters the gate's code segment at the gate's offset and ignores its own, be
its far pointer an immediate or in memory; a CALL to an inner level switches the stack and copies the parameters (R281,
R282, R287, R290). R295 refuses this transfer: it is carried out under the model's policies `performed` and `delivered`
(log entries 9, 17, 18, 34, 36, 39, 41). -/
def Obligations.CallGateTransferCompletes : Prop :=
  ∀ (s : State) (i : Instr) (off : DWord) (sel : Word16), s.pagingEnabled = false →
    (s.farPointerOf false i = some (off, sel) → s.callGateOk false sel = true →
      exec i s = .next (s.gateEntered s sel)) ∧
    (s.farPointerOf true i = some (off, sel) → s.callGateOk true sel = true → s.gateStackOk sel = true →
      (s.gateStack sel).pushAllOk (s.gateLevel sel) (s.named sel).gateBytes (s.returnWords (s.nextPc i)) = true →
      exec i s =
        .next (s.gateEntered ((s.gateStack sel).pushedAll (s.named sel).gateBytes
          (s.returnWords (s.nextPc i))) sel))

/-- A far RET to the same level pops the instruction pointer and CS and releases its immediate's bytes (R209). -/
def Obligations.SameLevelReturnCompletes : Prop :=
  ∀ (s : State) (imm : Word16), s.pagingEnabled = false → s.sameReturnOk s.opBytes = true →
    exec .retFar s =
      .next (s.sameReturned (((s.popped s.opBytes).popped s.opBytes).released 0) s.opBytes) ∧
    exec (.retFarImm imm) s =
      .next (s.sameReturned (((s.popped s.opBytes).popped s.opBytes).released (imm.setWidth 32)) s.opBytes)

/-- A far RET to an outer level pops ESP and SS too, loads SS at that level and nulls the data segment registers that
it may not hold (R209). R295 refuses this transfer: it is carried out under the model's policies `performed` and
`delivered` (log entries 9, 19). -/
def Obligations.OuterReturnCompletes : Prop :=
  ∀ (s : State) (imm : Word16), s.pagingEnabled = false →
    (s.outerReturnOk (((s.popped s.opBytes).popped s.opBytes).released 0) s.opBytes = true →
      exec .retFar s =
        .next (s.outerReturned (((s.popped s.opBytes).popped s.opBytes).released 0) s.opBytes 0)) ∧
    (s.outerReturnOk (((s.popped s.opBytes).popped s.opBytes).released (imm.setWidth 32)) s.opBytes = true →
      exec (.retFarImm imm) s =
        .next (s.outerReturned (((s.popped s.opBytes).popped s.opBytes).released (imm.setWidth 32)) s.opBytes
          (imm.setWidth 32)))

/-- IRET pops the instruction pointer, CS and EFLAGS and returns to the same level, or pops ESP and SS too and returns
to an outer one (R212, R314; which bits of EFLAGS it restores and the outer return: log entries 3, 9, 19). -/
def Obligations.InterruptReturnCompletes : Prop :=
  ∀ s : State, s.pagingEnabled = false → s.nestedTask = false →
    ((s.popped s.opBytes).popped s.opBytes).topOk s.opBytes = true →
    (s.sameReturnOk s.opBytes = true →
      exec .iret s =
        .next { s.sameReturned (((s.popped s.opBytes).popped s.opBytes).popped s.opBytes) s.opBytes with
          eflags := s.returnFlags s.opBytes }) ∧
    (s.outerReturnOk (((s.popped s.opBytes).popped s.opBytes).popped s.opBytes) s.opBytes = true →
      exec .iret s =
        .next { s.outerReturned (((s.popped s.opBytes).popped s.opBytes).popped s.opBytes) s.opBytes 0 with
          eflags := s.returnFlags s.opBytes })

/-- SYSENTER (R210), and its #GP(0) where bits 15:2 of IA32_SYSENTER_CS are 0; the attributes R210 does not list are
the model's (log entry 29). R295 refuses it: it runs under the policies `performed` and `delivered` (log entry 9). -/
def Obligations.SysenterEntersLevelZero : Prop :=
  ∀ s : State, s.cfg.transfers ≠ .named →
    (s.sysenterCs.extractLsb' 2 14 = 0 → exec .sysenter s = raised s (.gp 0)) ∧
    (s.sysenterCs.extractLsb' 2 14 ≠ 0 → ∃ t, exec .sysenter s = .next t ∧
      t.cs = ⟨s.sysenterCs.extractLsb' 0 16 &&& 0xFFFC, true, 0, 0xFFFFF, true, true, 0b1011, true, 0, true,
        false⟩ ∧
      t.ss = ⟨t.cs.sel + 8, true, 0, 0xFFFFF, true, true, 0b0011, true, 0, true, false⟩ ∧
      t.pc = s.sysenterEip ∧ t.gpr = { s.gpr with esp := s.sysenterEsp } ∧ t.cpl = 0 ∧
      t.interruptFlag = false ∧ (∀ k, k ≠ flagIF → t.eflags.getLsbD k = s.eflags.getLsbD k) ∧
      t.mem = s.mem ∧ t.ds = s.ds ∧ t.es = s.es ∧ t.fs = s.fs ∧ t.gs = s.gs ∧ t.pfx = .none)

/-- SYSEXIT at CPL 0 (R211), and its #GP(0) at any other; the attributes R211 does not list are the model's (log entry
29). R295 refuses it: it runs under the policies `performed` and `delivered` (log entry 9). -/
def Obligations.SysexitReturnsToLevelThree : Prop :=
  ∀ s : State, s.cfg.transfers ≠ .named →
    (s.cpl ≠ 0 → exec .sysexit s = raised s (.gp 0)) ∧
    (s.cpl = 0 → ∃ t, exec .sysexit s = .next t ∧
      t.cs = ⟨(s.sysenterCs.extractLsb' 0 16 + 16) ||| 3, true, 0, 0xFFFFF, true, true, 0b1011, true, 3, true,
        false⟩ ∧
      t.ss = ⟨(s.sysenterCs.extractLsb' 0 16 + 24) ||| 3, true, 0, 0xFFFFF, true, true, 0b0011, true, 3, true,
        false⟩ ∧
      t.pc = s.gpr.edx ∧ t.gpr = { s.gpr with esp := s.gpr.ecx } ∧ t.cpl = 3 ∧ t.eflags = s.eflags ∧
      t.mem = s.mem ∧ t.ds = s.ds ∧ t.es = s.es ∧ t.fs = s.fs ∧ t.gs = s.gs ∧ t.pfx = .none)

/-- INTO with OF = 0 only goes on with the next instruction. INT n, INT3 and INTO with OF = 1 pass through the gate of
their vector (R213 to R215, R313); R295 refuses this delivery: it is carried out under the model's policies `performed`
and `delivered` (log entry 9). -/
def Obligations.SoftwareInterruptCompletes : Prop :=
  ∀ (s : State) (n : Byte),
    (s.overflowFlag = false → exec .into s = .next (s.advance .into)) ∧
    (s.pagingEnabled = false → s.cfg.transfers ≠ .named →
      (s.eventOk n true none (s.nextPc (.int n)) = true →
        exec (.int n) s = .next (s.eventTaken n none (s.nextPc (.int n)))) ∧
      (s.eventOk 3 true none (s.nextPc .int3) = true →
        exec .int3 s = .next (s.eventTaken 3 none (s.nextPc .int3))) ∧
      (s.overflowFlag = true → s.eventOk 4 true none (s.nextPc .into) = true →
        exec .into s = .next (s.eventTaken 4 none (s.nextPc .into))))

/-- Entering a handler through an interrupt gate clears IF, through a trap gate leaves it; TF, NT, RF and VM are
cleared, the other flags stay (R284, R285, R313; carried out under `performed` and `delivered`, log entries 3, 9). -/
def Obligations.GateEntryFlags : Prop :=
  ∀ (s : State) (n : Byte), s.pagingEnabled = false → s.cfg.transfers ≠ .named →
    s.eventOk n true none (s.nextPc (.int n)) = true → ∃ t, exec (.int n) s = .next t ∧
      (systemKind (s.gateAt n).type = .interruptGate → t.interruptFlag = false) ∧
      (systemKind (s.gateAt n).type = .trapGate → t.interruptFlag = s.interruptFlag) ∧
      (∀ k ∈ [flagTF, flagNT, flagRF, flagVM], t.eflags.getLsbD k = false) ∧
      (∀ k, k ∉ [flagTF, flagIF, flagNT, flagRF, flagVM] → t.eflags.getLsbD k = s.eflags.getLsbD k)

/-- A prefix byte changes nothing but the pending prefixes. With none pending the sizes are those of the D flag of CS; after
66H the operand size is the other one, after 67H the address size is; after an override every memory operand uses the
segment it names, and with none the default, SS where the base is ESP, EBP or BP and DS otherwise (R37, R109, R110, R162;
that a prefix byte is a step of its own is the model's, log entry 12, and so are the addressing forms, log entry 14). -/
def Obligations.PrefixBytesComplete : Prop :=
  ∀ s : State,
    exec .prefixOperandSize s =
      .next { s with pfx := { s.pfx with opSize := true, count := s.pfx.count + 1 } } ∧
    exec .prefixAddressSize s =
      .next { s with pfx := { s.pfx with addrSize := true, count := s.pfx.count + 1 } } ∧
    (∀ p ∈ [(Instr.prefixCs, SReg.cs), (.prefixEs, .es), (.prefixSs, .ss), (.prefixDs, .ds), (.prefixFs, .fs),
        (.prefixGs, .gs)],
      exec p.1 s = .next { s with pfx := { s.pfx with seg := some p.2, count := s.pfx.count + 1 } } ∧
        ∀ t e, exec p.1 s = .next t → Ea.segReg t e = p.2 ∧ t.mode = s.mode) ∧
    (s.pfx.opSize = false → s.pfx.addrSize = false → s.mode = ⟨s.cs.db, s.cs.db⟩) ∧
    (∀ t, exec .prefixOperandSize s = .next t →
      t.mode = ⟨!s.cs.db, s.mode.addr32⟩ ∧ ∀ e, Ea.segReg t e = Ea.segReg s e) ∧
    (∀ t, exec .prefixAddressSize s = .next t →
      t.mode = ⟨s.mode.op32, !s.cs.db⟩ ∧ ∀ e, Ea.segReg t e = Ea.segReg s e) ∧
    (s.pfx.seg = none →
      (∀ (d : Word16), Ea.segReg s (.a16 (.direct d)) = .ds) ∧
      (∀ (b : Base16) (d8 : Byte) (d : Word16), ∀ e ∈ [Ea16.ind b, .ind8 b d8, .ind16 b d],
        Ea.segReg s (.a16 e) = if b ∈ [.bp, .bpSi, .bpDi] then .ss else .ds) ∧
      (∀ (x : Reg) (k : BitVec 2) (d : DWord), ∀ e ∈ [Ea32.direct d, .sibDirect x k d],
        Ea.segReg s (.a32 e) = .ds) ∧
      (∀ (b x : Reg) (k : BitVec 2) (d8 : Byte) (d : DWord),
        ∀ e ∈ [Ea32.ind b, .ind8 b d8, .ind32 b d, .sib b x k, .sib8 b x k d8, .sib32 b x k d],
          Ea.segReg s (.a32 e) = if b = .esp ∨ b = .ebp then .ss else .ds))

/-- The instruction that runs forgets the prefixes before it: they apply to one instruction only (R109). -/
def Obligations.PrefixesApplyToOneInstruction : Prop :=
  ∀ (s t : State) (i : Instr), isPrefix i = false → exec i s = .next t → t.pfx = .none

/-! ### Checks and exceptions -/

/-- An exception ends the step with the fault outcome (R7, R326), and under the model's policy `delivered` passes
through the gate of its vector with the instruction's own offset as the return address and with memory as it was before
the instruction (R312, R313, R326; log entries 9, 30). -/
def Obligations.ExceptionOutcome : Prop :=
  ∀ (s : State) (e : Exn),
    (s.cfg.transfers ≠ .delivered → raised s e = .fault (.exception e)) ∧
    (s.cfg.transfers = .delivered → s.pagingEnabled = false →
      (s.undone.noteFault e).eventOk e.vector false e.errorCode s.pcOffset = true →
      raised s e = .next ((s.undone.noteFault e).eventTaken e.vector e.errorCode s.pcOffset)) ∧
    (∀ m, s.pfx.before = some m → s.undone = { s with mem := m }) ∧ (s.pfx.before = none → s.undone = s)

/-- LGDT, LIDT, LLDT, LTR and SYSEXIT raise #GP(0) at every CPL but 0 (R211, R262, R319); SYSEXIT where the policy is not
the one that refuses it (log entry 9). -/
def Obligations.PrivilegedInstructionsTrap : Prop :=
  ∀ (s : State) (e : Ea) (src : RM), s.cpl ≠ 0 →
    (∀ i ∈ [Instr.lgdt (.mem e), .lidt (.mem e), .lldt src, .ltr src], exec i s = raised s (.gp 0)) ∧
    (s.cfg.transfers ≠ .named → exec .sysexit s = raised s (.gp 0))

/-- The encodings that R112 and R114 call invalid raise #UD: a register operand where only memory is allowed, and MOV
with a segment register that is none, or to CS once its source is read (log entries 20, 21). -/
def Obligations.InvalidEncodingsTrap : Prop :=
  ∀ (s : State) (q : Reg) (p : Reg) (b : BitVec 3) (o : RM),
    (∀ i ∈ [Instr.lds q (.reg p), .les q (.reg p), .lss q (.reg p), .lfs q (.reg p), .lgs q (.reg p),
      .callMem (.reg p), .jmpMem (.reg p), .sgdt (.reg p), .sidt (.reg p), .lgdt (.reg p), .lidt (.reg p)],
      exec i s = raised s .ud) ∧
    (SReg.ofBits b = none → exec (.movFromSreg b o) s = raised s .ud) ∧
    ((SReg.ofBits b = none ∨ SReg.ofBits b = some .cs) → s.pagingEnabled = false → s.sourceOk o = true →
      exec (.movToSreg b o) s = raised s .ud)

/-- MOV to DS, ES, FS or GS from a register, whatever the selector: the checks of R191 and R192 in the order of R198,
the refusal of a reserved bit (R102; where it stands: log entry 16), and the load. -/
def Obligations.DataSegmentLoadChecks : Prop :=
  ∀ (s : State) (b : BitVec 3) (r : SReg) (q : Reg) (sel : Word16) (d : Descriptor), s.pagingEnabled = false →
    SReg.ofBits b = some r → r ≠ .cs → r ≠ .ss → s.reg16 q = sel → s.named sel = d →
    (isNull sel = true →
      exec (.movToSreg b (.reg q)) s =
        .next ((s.setSeg r { s.seg r with sel := sel, valid := false }).advance (.movToSreg b (.reg q)))) ∧
    (isNull sel = false → s.inLimit sel = false →
      exec (.movToSreg b (.reg q)) s = raised s (.gp (sel &&& 0xFFFC))) ∧
    (isNull sel = false → s.inLimit sel = true → s.descriptorReadable (s.descriptorAddr sel) = true →
      exec (.movToSreg b (.reg q)) s =
        if d.reservedBitSet then .refused .reservedDescriptorBit
        else if !d.s then raised s (.gp (sel &&& 0xFFFC))
        else if isCode d.type && !readable d.type then raised s (.gp (sel &&& 0xFFFC))
        else if !conforming d.type && (decide (d.dpl < s.cpl) || decide (d.dpl < selRPL sel)) then
          raised s (.gp (sel &&& 0xFFFC))
        else if !d.p then raised s (.np (sel &&& 0xFFFC))
        else if accessed d.type then
          .next ((s.setSeg r (.load sel d)).advance (.movToSreg b (.reg q)))
        else if s.kindAt ((s.accessByte sel).setWidth 36) = .ram then
          .next (((s.accessByteSet (s.descriptorAddr sel) 1).setSeg r (.load sel d)).advance
            (.movToSreg b (.reg q)))
        else .fault .hang)

/-- MOV to SS from a register, whatever the selector: the checks of R191 and R193 in the order of R198, and the refusal of
a reserved bit (R102, R196, R350; where it stands: log entry 16). -/
def Obligations.StackSegmentLoadChecks : Prop :=
  ∀ (s : State) (q : Reg) (sel : Word16) (d : Descriptor), s.pagingEnabled = false → s.reg16 q = sel →
    s.named sel = d →
    (isNull sel = true → exec (.movToSreg 2 (.reg q)) s = raised s (.gp 0)) ∧
    (isNull sel = false → s.inLimit sel = false →
      exec (.movToSreg 2 (.reg q)) s = raised s (.gp (sel &&& 0xFFFC))) ∧
    (isNull sel = false → s.inLimit sel = true → s.descriptorReadable (s.descriptorAddr sel) = true →
      d.reservedBitSet = true → exec (.movToSreg 2 (.reg q)) s = .refused .reservedDescriptorBit) ∧
    (isNull sel = false → s.inLimit sel = true → s.descriptorReadable (s.descriptorAddr sel) = true →
      d.reservedBitSet = false →
      ((selRPL sel ≠ s.cpl ∨ d.s = false ∨ writable d.type = false ∨ d.dpl ≠ s.cpl) →
        exec (.movToSreg 2 (.reg q)) s = raised s (.gp (sel &&& 0xFFFC))) ∧
      (selRPL sel = s.cpl → d.s = true → writable d.type = true → d.dpl = s.cpl → d.p = false →
        exec (.movToSreg 2 (.reg q)) s = raised s
          (if s.cfg.ssNotPresentIsSs then .ss (sel &&& 0xFFFC) else .np (sel &&& 0xFFFC))) ∧
      (selRPL sel = s.cpl → d.s = true → writable d.type = true → d.dpl = s.cpl → d.p = true →
        s.markOk d (s.descriptorAddr sel) = true →
        exec (.movToSreg 2 (.reg q)) s =
          .next (((s.marked d (s.descriptorAddr sel)).setSeg .ss (.load sel d)).advance
            (.movToSreg 2 (.reg q)))))

/-- A far JMP or CALL, whatever the selector, be its far pointer an immediate or in memory: the checks of R191, R194 and
R294 in their order; the task switches are refused (R286, R295). Through a call gate: the gate's DPL against CPL and RPL,
its P bit, then the target's selector, kind and DPL, P bit and limit (R289, R290, R293; the order and the rule for a JMP
are the model's, log entry 18; that this transfer is not refused is its policy, log entry 9). A reserved bit in either
code descriptor is refused (R102, R196, R350; where: log entry 16). -/
def Obligations.FarTransferChecks : Prop :=
  ∀ (s : State) (isCall : Bool) (off : DWord) (sel : Word16) (d c : Descriptor) (i : Instr),
    s.pagingEnabled = false → s.farPointerOf isCall i = some (off, sel) → s.named sel = d →
    s.named d.gateSelector = c →
    (isNull sel = true → exec i s = raised s (.gp 0)) ∧
    (isNull sel = false → s.inLimit sel = false → exec i s = raised s (.gp (sel &&& 0xFFFC))) ∧
    (isNull sel = false → s.inLimit sel = true → s.descriptorReadable (s.descriptorAddr sel) = true →
      d.reservedBitSet = true → exec i s = .refused .reservedDescriptorBit) ∧
    (isNull sel = false → s.fetchOk sel = true →
      (d.s = false → d.type ∈ [0b0101, 0b0001, 0b1001, 0b0011, 0b1011] → exec i s = .refused .taskSwitch) ∧
      (d.s = false → d.type ∈ [0b0000, 0b0010, 0b0110, 0b0111, 0b1000, 0b1010, 0b1101, 0b1110, 0b1111] →
        exec i s = raised s (.gp (sel &&& 0xFFFC))) ∧
      (d.s = true → isCode d.type = false → exec i s = raised s (.gp (sel &&& 0xFFFC))) ∧
      (d.s = true → isCode d.type = true →
        (if conforming d.type then s.cpl < d.dpl else d.dpl ≠ s.cpl ∨ s.cpl < selRPL sel) →
        exec i s = raised s (.gp (sel &&& 0xFFFC))) ∧
      (d.s = true → isCode d.type = true →
        (if conforming d.type then d.dpl ≤ s.cpl else d.dpl = s.cpl ∧ selRPL sel ≤ s.cpl) →
        (d.p = false → exec i s = raised s (.np (sel &&& 0xFFFC))) ∧
        (d.p = true → d.effLimit.toNat < off.toNat → exec i s = raised s (.gp 0))) ∧
      (d.s = false → d.type ∈ [0b0100, 0b1100] → s.cfg.transfers ≠ .named →
        (d.dpl < s.cpl ∨ d.dpl < selRPL sel → exec i s = raised s (.gp (sel &&& 0xFFFC))) ∧
        (s.cpl ≤ d.dpl → selRPL sel ≤ d.dpl →
          (d.p = false → exec i s = raised s (.np (sel &&& 0xFFFC))) ∧
          (d.p = true → isNull d.gateSelector = true → exec i s = raised s (.gp 0)) ∧
          (d.p = true → isNull d.gateSelector = false → s.inLimit d.gateSelector = false →
            exec i s = raised s (.gp (d.gateSelector &&& 0xFFFC))) ∧
          (d.p = true → isNull d.gateSelector = false → s.inLimit d.gateSelector = true →
            s.descriptorReadable (s.descriptorAddr d.gateSelector) = true → c.reservedBitSet = true →
            exec i s = .refused .reservedDescriptorBit) ∧
          (d.p = true → isNull d.gateSelector = false → s.fetchOk d.gateSelector = true →
            (c.s = false ∨ isCode c.type = false ∨ s.cpl < c.dpl ∨
                (isCall = false ∧ conforming c.type = false ∧ c.dpl ≠ s.cpl) →
              exec i s = raised s (.gp (d.gateSelector &&& 0xFFFC))) ∧
            (c.s = true → isCode c.type = true → c.dpl ≤ s.cpl →
              (isCall = true ∨ conforming c.type = true ∨ c.dpl = s.cpl) →
              (c.p = false → exec i s = raised s (.np (d.gateSelector &&& 0xFFFC))) ∧
              (c.p = true → c.effLimit.toNat < d.gateOffset.toNat → exec i s = raised s (.gp 0)))))))

/-- What LTR and LLDT refuse at CPL 0, from a register: R251 and R258 in their order, and a reserved bit (R102, R196, R350;
where it stands: log entry 16). -/
def Obligations.SystemSegmentLoadChecks : Prop :=
  ∀ (s : State) (q : Reg) (sel : Word16) (d : Descriptor), s.pagingEnabled = false → s.cpl = 0 →
    s.reg16 q = sel → s.named sel = d →
    (isNull sel = true → exec (.ltr (.reg q)) s = raised s (.gp 0)) ∧
    (isNull sel = false → (selTI sel = true ∨ s.inLimit sel = false) →
      exec (.ltr (.reg q)) s = raised s (.gp (sel &&& 0xFFFC)) ∧
      exec (.lldt (.reg q)) s = raised s (.gp (sel &&& 0xFFFC))) ∧
    (isNull sel = false → selTI sel = false → s.inLimit sel = true →
      s.descriptorReadable (s.descriptorAddr sel) = true → d.reservedBitSet = true →
      exec (.ltr (.reg q)) s = .refused .reservedDescriptorBit ∧
      exec (.lldt (.reg q)) s = .refused .reservedDescriptorBit) ∧
    (isNull sel = false → selTI sel = false → s.fetchOk sel = true →
      (d.s = true ∨ (d.type ≠ 0b0001 ∧ d.type ≠ 0b1001) →
        exec (.ltr (.reg q)) s = raised s (.gp (sel &&& 0xFFFC))) ∧
      (d.s = true ∨ d.type ≠ 0b0010 → exec (.lldt (.reg q)) s = raised s (.gp (sel &&& 0xFFFC))) ∧
      (d.s = false → d.type = 0b0001 ∨ d.type = 0b1001 → d.p = false →
        exec (.ltr (.reg q)) s = raised s (.np (sel &&& 0xFFFC))) ∧
      (d.s = false → d.type = 0b0010 → d.p = false →
        exec (.lldt (.reg q)) s = raised s (.np (sel &&& 0xFFFC))))

/-- A far RET, with an immediate or without, whose popped selector has an RPL numerically below CPL raises #GP(sel)
(R209). That an IRET does so too is the model's inference, since R212 does not say it (log entry 37). -/
def Obligations.InwardReturnTraps : Prop :=
  ∀ (s : State) (imm : Word16), s.pagingEnabled = false → s.topOk s.opBytes = true →
    (s.popped s.opBytes).topOk s.opBytes = true → selRPL (s.returnSel s.opBytes) < s.cpl →
    exec .retFar s = raised s (.gp (s.returnSel s.opBytes &&& 0xFFFC)) ∧
    exec (.retFarImm imm) s = raised s (.gp (s.returnSel s.opBytes &&& 0xFFFC)) ∧
    (s.nestedTask = false → ((s.popped s.opBytes).popped s.opBytes).topOk s.opBytes = true →
      exec .iret s = raised s (.gp (s.returnSel s.opBytes &&& 0xFFFC)))

/-- What is refused by name: more than one processor (R75), the task switches of IRET with NT = 1 and of a task gate in the
IDT (R212, R286, R295); and, under the policy that follows R295 to the letter, a far JMP or CALL through a call gate, a
far RET or IRET to an outer level, INT n, INT3, SYSENTER and SYSEXIT; INTO with OF = 1 then ends in the fault #OF (R214,
R306). -/
def Obligations.RefusedByName : Prop :=
  ∀ (s : State) (n v : Byte) (i : Instr) (isCall : Bool) (off : DWord) (sel imm : Word16),
    (s.cfg.numProcessors ≠ 1 → step s = .refused .multiprocessor) ∧
    (s.nestedTask = true → exec .iret s = .refused .taskSwitch) ∧
    (s.pagingEnabled = false → s.cfg.transfers ≠ .named → (i, v) ∈ softwareInterrupts n →
      (i = .into → s.overflowFlag = true) → s.gateReadable v = true → (s.gateAt v).s = false →
      (s.gateAt v).type = 0b0101 → s.cpl ≤ (s.gateAt v).dpl → (s.gateAt v).p = true →
      exec i s = .refused .taskSwitch) ∧
    (s.cfg.transfers = .named →
      exec (.int n) s = .refused (.transfer .throughIdt) ∧ exec .int3 s = .refused (.transfer .throughIdt) ∧
      exec .sysenter s = .refused (.transfer .sysenter) ∧ exec .sysexit s = .refused (.transfer .sysexit) ∧
      (s.overflowFlag = true → exec .into s = .fault (.exception .of)) ∧
      (s.pagingEnabled = false → s.farPointerOf isCall i = some (off, sel) → isNull sel = false →
        s.fetchOk sel = true → (s.named sel).s = false → (s.named sel).type ∈ [0b0100, 0b1100] →
        exec i s = .refused (.transfer .callGate)) ∧
      (s.pagingEnabled = false → s.topOk s.opBytes = true → (s.popped s.opBytes).topOk s.opBytes = true →
        s.cpl < selRPL (s.returnSel s.opBytes) →
        exec .retFar s = .refused (.transfer .outerReturn) ∧
        exec (.retFarImm imm) s = .refused (.transfer .outerReturn) ∧
        (s.nestedTask = false → ((s.popped s.opBytes).popped s.opBytes).topOk s.opBytes = true →
          exec .iret s = .refused (.transfer .outerReturn))))

/-- A write of a descriptor in ROM hangs: the processor's own, of the accessed bit where it is 0 and of the busy bit, while
a descriptor whose accessed bit is 1 is not written; and a program's store to a descriptor byte, such as that of MOV from
a segment register, SLDT and STR (R195, R327, R347). -/
def Obligations.RomDescriptorHangs : Prop :=
  ∀ (s : State) (d : Descriptor) (addr : DWord) (e : Ea) (n : BitVec 3) (r : SReg), s.pagingEnabled = false →
    (s.kindAt ((addr + 5).setWidth 36) = .rom →
      (accessed d.type = false → setAccessed d addr s = .error (.fault .hang)) ∧
      (accessed d.type = true → setAccessed d addr s = .ok ((), s)) ∧
      setAccessByte addr 2 s = .error (.fault .hang)) ∧
    (∀ la pa b, s.kindAt pa = .rom → s.descriptorByte la = true →
      writePhys .program la pa b s = .error (.fault .hang)) ∧
    (SReg.ofBits n = some r → s.refChecked (Ea.segReg s e) (s.eaOff e) 2 .write s.cpl = true →
      s.kindAt ((s.eaAddr e 0).setWidth 36) = .rom → s.descriptorByte (s.eaAddr e 0) = true →
      ∀ i ∈ [Instr.movFromSreg n (.mem e), .sldt (.mem e), .str (.mem e)], exec i s = .fault .hang)

/-! ### The segment step and the paging step -/

/-- The effective limit, and that with G = 1 the low 12 bits of an offset are not tested against it (R165). -/
def Obligations.EffectiveLimitValue : Prop :=
  ∀ (g : Bool) (limit : BitVec 20) (off : DWord),
    (effLimit g limit).toNat = (if g then limit.toNat * 4096 + 4095 else limit.toNat) ∧
    (off.toNat ≤ (effLimit true limit).toNat ↔ (off.extractLsb' 12 20).toNat ≤ limit.toNat)

/-- A reference through a null segment register raises #GP(0), before any other check (R164). -/
def Obligations.NullSegmentReferenceTraps : Prop :=
  ∀ (cfg : Config) (r : SReg) (c : SegCache) (off n : Nat) (kind : AccessKind), c.valid = false →
    Sys2Proof.Machine.translate cfg r c off n kind = .error (.gp 0)

/-- An expand-up segment, code segments among them: the last byte of the access, as an unbounded integer, against the
effective limit, then the type, then base plus offset modulo 2^32; a violation is #SS(0) through SS and #GP(0) through
any other register (R166, R168 to R171). -/
def Obligations.ExpandUpReference : Prop :=
  ∀ (cfg : Config) (r : SReg) (c : SegCache) (off n : Nat) (kind : AccessKind), c.valid = true → 1 ≤ n →
    (isCode c.type = true ∨ c.type.getLsbD 2 = false) →
    Sys2Proof.Machine.translate cfg r c off n kind =
      if off + n ≤ c.effLimit.toNat + 1 ∧ (kind = .write → writable c.type = true) ∧
          (kind = .read → readable c.type = true) then
        .ok (c.base + BitVec.ofNat 32 off)
      else .error (if r = .ss then .ss 0 else .gp 0)

/-- An expand-down data segment: the offset lies above the effective limit, or with EXPAND_DOWN_LIMIT_INCLUSIVE at the
limit or above it, and the last byte at most at FFFFFFFFH or FFFFH by B (R167 to R171). -/
def Obligations.ExpandDownReference : Prop :=
  ∀ (cfg : Config) (r : SReg) (c : SegCache) (off n : Nat) (kind : AccessKind), c.valid = true → 1 ≤ n →
    isCode c.type = false → c.type.getLsbD 2 = true →
    Sys2Proof.Machine.translate cfg r c off n kind =
      if (if cfg.expandDownLimitInclusive then
            (if c.g then c.limit.toNat * 4096 ≤ off else c.limit.toNat ≤ off)
          else c.effLimit.toNat < off) ∧
          off + n ≤ (if c.db then 2 ^ 32 else 2 ^ 16) ∧ (kind = .write → writable c.type = true) then
        .ok (c.base + BitVec.ofNat 32 off)
      else .error (if r = .ss then .ss 0 else .gp 0)

/-- A data access of 2 or 4 bytes that is not a multiple of its size raises #AC at CPL 3 while alignment checking is
on, after the segment checks and before the page walk; otherwise it is performed (R72, R305, R311). -/
def Obligations.AlignmentCheck : Prop :=
  ∀ (s : State) (r : SReg) (off n v : Nat) (la : DWord), (n = 2 ∨ n = 4) →
    (Sys2Proof.Machine.translate s.cfg r (s.seg r) off n .read = .ok la →
      segRead r off n s.cpl s =
        if s.alignCheckEnabled = true ∧ s.cpl = 3 ∧ la.toNat % n ≠ 0 then .error (.exn .ac)
        else linRead la n s.cpl s) ∧
    (Sys2Proof.Machine.translate s.cfg r (s.seg r) off n .write = .ok la →
      segWrite r off n v s.cpl s =
        if s.alignCheckEnabled = true ∧ s.cpl = 3 ∧ la.toNat % n ≠ 0 then .error (.exn .ac)
        else linWrite .program la n v s.cpl s)

/-- An implicit stack reference uses ESP or SP by SS.B: a push decrements it by the operand's bytes and writes there,
a pop reads and increments; with SP the upper half of ESP stays (R34, R172). -/
def Obligations.StackPointerWidth : Prop :=
  ∀ (s t : State) (cpl : Level) (n v : Nat),
    (push cpl n v s = .ok ((), t) →
      t.gpr.esp = (if s.ss.db then s.gpr.esp - BitVec.ofNat 32 n
        else s.gpr.esp.extractLsb' 16 16 ++ (s.gpr.esp.extractLsb' 0 16 - BitVec.ofNat 16 n))) ∧
    (pop n s = .ok (v, t) →
      t.gpr.esp = (if s.ss.db then s.gpr.esp + BitVec.ofNat 32 n
        else s.gpr.esp.extractLsb' 16 16 ++ (s.gpr.esp.extractLsb' 0 16 + BitVec.ofNat 16 n))) ∧
    (s.ss.db = false → s.pushPtr n = (s.gpr.esp.extractLsb' 0 16 - BitVec.ofNat 16 n).setWidth 32) ∧
    (s.ss.db = true → s.pushPtr n = s.gpr.esp - BitVec.ofNat 32 n)

/-- With paging off a linear address is the physical address, zero-extended (R66); with paging on it is what the
parameter PageWalk answers, cut to the physical width, or a page fault with the address, the kind of access and the
privilege (R63, R65, R67, R304); the step changes nothing but memory and the model's two fields about it. How
PageWalk is shaped (its arguments, its writes, the cut to the width) is the model's (log entry 10). -/
def Obligations.PagingStep : Prop :=
  ∀ (s : State) (la : DWord) (kind : AccessKind) (cpl : Level),
    (s.pagingEnabled = false → phys la kind cpl s = .ok (la.setWidth 36, s)) ∧
    (s.pagingEnabled = true → s.cfg.walk = .parameter →
      (phys la kind cpl s).map Prod.fst =
        match (Config.pageWalk s.pagingRoot s.cr4 la kind cpl s.mem).result with
        | some pa => .ok (s.cutPhys pa)
        | none => .error (.exn (.pf la kind cpl
            (Config.pageWalk s.pagingRoot s.cr4 la kind cpl s.mem).protection))) ∧
    ∀ (pa : PhysAddr) (t : State), phys la kind cpl s = .ok (pa, t) →
      t = { s with mem := t.mem, freeCount := t.freeCount, stored := t.stored }

/-- The vectors and error codes of R304, R307 and R308, and CR2 (R304). -/
def Obligations.ExceptionNumbers : Prop :=
  ∀ (s : State) (code : Word16) (la : DWord) (kind : AccessKind) (cpl : Level) (prot : Bool),
    [Exn.de, .bp, .of, .ud, .np code, .ss code, .gp code, .pf la kind cpl prot, .ac].map Exn.vector =
      [0, 3, 4, 6, 11, 12, 13, 14, 17] ∧
    [Exn.de, .bp, .of, .ud, .np code, .ss code, .gp code, .ac].map Exn.errorCode =
      [none, none, none, none, some code.toNat, some code.toNat, some code.toNat, some 0] ∧
    (∃ c, (Exn.pf la kind cpl prot).errorCode = some c ∧ c < 8 ∧ c.testBit 0 = prot ∧
      c.testBit 1 = (kind == .write) ∧ c.testBit 2 = (cpl == 3)) ∧
    (s.noteFault (.pf la kind cpl prot)).cr2 = la

/-! ### The checks of a software interrupt -/

/-- INT n, INT3 and INTO with OF = 1, whatever stands in the IDT: #GP(8n + 2) for a vector past its limit, for a
descriptor that is no gate of the IDT and for a gate whose DPL is below CPL, #NP(8n + 2) for one that is not present;
then the handler's selector, kind and DPL, P bit and limit (R213, R260, R290, R293, R308, R313; the order and the error
code are the model's, log entry 26; that this delivery is not refused is its policy, log entry 9); a reserved bit in the
handler's descriptor is refused (R102, R196, R350; where: log entry 16). -/
def Obligations.InterruptGateChecks : Prop :=
  ∀ (s : State) (n v : Byte) (i : Instr) (g c : Descriptor) (h code : Word16), s.pagingEnabled = false →
    s.cfg.transfers ≠ .named → (i, v) ∈ softwareInterrupts n → (i = .into → s.overflowFlag = true) →
    s.gateAt v = g → g.gateSelector = h → s.named h = c → code = BitVec.ofNat 16 (8 * v.toNat + 2) →
    (s.idtr.limit.toNat < 8 * v.toNat + 7 → exec i s = raised s (.gp code)) ∧
    (s.gateReadable v = true →
      ((g.s = true ∨ g.type ∉ [0b0101, 0b0110, 0b0111, 0b1110, 0b1111]) → exec i s = raised s (.gp code)) ∧
      (g.s = false → g.type ∈ [0b0101, 0b0110, 0b0111, 0b1110, 0b1111] →
        (g.dpl < s.cpl → exec i s = raised s (.gp code)) ∧
        (s.cpl ≤ g.dpl → g.p = false → exec i s = raised s (.np code))) ∧
      (g.s = false → g.type ∈ [0b0110, 0b0111, 0b1110, 0b1111] → s.cpl ≤ g.dpl → g.p = true →
        (isNull h = true → exec i s = raised s (.gp 0)) ∧
        (isNull h = false → s.inLimit h = false → exec i s = raised s (.gp (h &&& 0xFFFC))) ∧
        (isNull h = false → s.inLimit h = true → s.descriptorReadable (s.descriptorAddr h) = true →
          c.reservedBitSet = true → exec i s = .refused .reservedDescriptorBit) ∧
        (isNull h = false → s.fetchOk h = true →
          ((c.s = false ∨ isCode c.type = false ∨ s.cpl < c.dpl) → exec i s = raised s (.gp (h &&& 0xFFFC))) ∧
          (c.s = true → isCode c.type = true → c.dpl ≤ s.cpl → c.p = false →
            exec i s = raised s (.np (h &&& 0xFFFC))) ∧
          (c.s = true → isCode c.type = true → c.dpl ≤ s.cpl → c.p = true →
            c.effLimit.toNat < g.gateOffset.toNat → exec i s = raised s (.gp 0)))))
end

