-- ==== Sys2Proof/Laws/Memory.lean ====
section
/-! SUPPORT. The laws of memory: a read after a write, and that a write keeps the canonical form. -/

namespace Sys2Proof.Laws

open Sys2Proof Sys2Proof.Machine

theorem wfFrom_mono {lo lo' : Nat} {m : Memory} (h : Memory.wfFrom lo m = true) (hl : lo' ≤ lo) :
    Memory.wfFrom lo' m = true := by
  cases m with
  | nil => rfl
  | cons c rest =>
    simp only [Memory.wfFrom, Bool.and_eq_true, decide_eq_true_eq] at h ⊢
    exact ⟨⟨⟨le_trans hl h.1.1.1, h.1.1.2⟩, h.1.2⟩, h.2⟩

/-- Below its first address a canonical memory reads as unlisted. -/
theorem read_below {lo : Nat} {m : Memory} {a : PhysAddr} (h : Memory.wfFrom lo m = true) (ha : a.toNat < lo) :
    m.read a = unlistedByte := by
  induction m generalizing lo with
  | nil => rfl
  | cons c rest ih =>
    simp only [Memory.wfFrom, Bool.and_eq_true, decide_eq_true_eq] at h
    have hne : c.1 ≠ a.toNat := by omega
    simp only [Memory.read, hne, if_false]
    exact ih h.2 (by omega)

/-- A write keeps the canonical form. -/
theorem write_wfFrom {lo : Nat} {m : Memory} {a : PhysAddr} (b : Byte) (h : Memory.wfFrom lo m = true)
    (ha : lo ≤ a.toNat) : Memory.wfFrom lo (m.write a b) = true := by
  induction m generalizing lo with
  | nil =>
    have := a.isLt
    by_cases hb : b = unlistedByte <;> simp [Memory.write, Memory.wfFrom, hb, ha, this]
  | cons c rest ih =>
    have hlt := a.isLt
    simp only [Memory.wfFrom, Bool.and_eq_true, decide_eq_true_eq] at h
    unfold Memory.write
    split
    · by_cases hb : b = unlistedByte
      · simp only [hb, if_true, Memory.wfFrom, Bool.and_eq_true, decide_eq_true_eq]
        exact h
      · simp only [hb, if_false, Memory.wfFrom, Bool.and_eq_true, decide_eq_true_eq]
        exact ⟨⟨⟨ha, hlt⟩, by simpa using hb⟩, ⟨⟨by omega, h.1.1.2⟩, h.1.2⟩, h.2⟩
    · split
      · by_cases hb : b = unlistedByte
        · simp only [hb, if_true]
          exact wfFrom_mono h.2 (by omega)
        · simp only [hb, if_false, Memory.wfFrom, Bool.and_eq_true, decide_eq_true_eq]
          exact ⟨⟨⟨ha, hlt⟩, by simpa using hb⟩, wfFrom_mono h.2 (by omega)⟩
      · simp only [Memory.wfFrom, Bool.and_eq_true, decide_eq_true_eq]
        exact ⟨⟨⟨h.1.1.1, h.1.1.2⟩, h.1.2⟩, ih h.2 (by omega)⟩

/-- Every write keeps `Memory.wf`. -/
theorem write_wf {m : Memory} (a : PhysAddr) (b : Byte) (h : m.wf = true) : (m.write a b).wf = true :=
  write_wfFrom b h (Nat.zero_le _)

/-- A read after a write to the same address gives the value written. -/
theorem read_write_same {m : Memory} (a : PhysAddr) (b : Byte) (h : m.wf = true) : (m.write a b).read a = b := by
  suffices ∀ lo, Memory.wfFrom lo m = true → (m.write a b).read a = b from this 0 h
  induction m with
  | nil => intro lo _; by_cases hb : b = unlistedByte <;> simp [Memory.write, Memory.read, hb]
  | cons c rest ih =>
    intro lo h
    simp only [Memory.wfFrom, Bool.and_eq_true, decide_eq_true_eq] at h
    unfold Memory.write
    split
    · by_cases hb : b = unlistedByte
      · have hne : c.1 ≠ a.toNat := by omega
        simp only [hb, if_true, Memory.read, hne, if_false]
        exact read_below h.2 (by omega)
      · simp [hb, Memory.read]
    · split
      · by_cases hb : b = unlistedByte
        · simp only [hb, if_true]
          exact read_below h.2 (by omega)
        · simp [hb, Memory.read]
      · have hne : c.1 ≠ a.toNat := by omega
        simp only [Memory.read, hne, if_false]
        exact ih (by exact wfFrom_mono h.2 (Nat.zero_le _)) _ h.2

/-- A write leaves every other address alone. -/
theorem read_write_other {m : Memory} {a x : PhysAddr} (b : Byte) (hx : x ≠ a) (h : m.wf = true) :
    (m.write a b).read x = m.read x := by
  have hn : x.toNat ≠ a.toNat := fun e => hx (BitVec.eq_of_toNat_eq e)
  suffices ∀ lo, Memory.wfFrom lo m = true → (m.write a b).read x = m.read x from this 0 h
  clear h
  induction m with
  | nil =>
    intro lo _
    have : a.toNat ≠ x.toNat := fun e => hn e.symm
    by_cases hb : b = unlistedByte <;> simp [Memory.write, Memory.read, hb, this]
  | cons c rest ih =>
    intro lo h
    simp only [Memory.wfFrom, Bool.and_eq_true, decide_eq_true_eq] at h
    have hax : a.toNat ≠ x.toNat := fun e => hn e.symm
    unfold Memory.write
    split
    · by_cases hb : b = unlistedByte <;> simp [hb, Memory.read, hax]
    · split
      · rename_i hac
        have hc : c.1 ≠ x.toNat := by omega
        by_cases hb : b = unlistedByte <;> simp [hb, Memory.read, hax, hc]
      · simp only [Memory.read]
        by_cases hc : c.1 = x.toNat
        · simp [hc]
        · simp only [hc, if_false]
          exact ih _ h.2

/-- The value of `n` bytes is a value modulo 256^n. -/
theorem leValue_leBytes (n v : Nat) : leValue (leBytes n v) = v % 256 ^ n := by
  induction n generalizing v with
  | zero => simp [leBytes, leValue, Nat.mod_one]
  | succ n ih =>
    have hm : v % (256 * 256 ^ n) = v % 256 + 256 * (v / 256 % 256 ^ n) := Nat.mod_mul
    have hp : 256 ^ (n + 1) = 256 * 256 ^ n := Nat.pow_succ'
    rw [leBytes, leValue, ih, BitVec.toNat_ofNat, hp, hm]

@[simp] theorem leBytes_length (n v : Nat) : (leBytes n v).length = n := by
  induction n generalizing v with
  | zero => rfl
  | succ n ih => simp [leBytes, ih]

theorem reset_memory_wf : State.reset.mem.wf = true := rfl

end Sys2Proof.Laws
end

