-- ==== Sys2Proof/Laws/Op.lean ====
section
/-! SUPPORT. How operations compose: what a sequence, a check and the end of a step answer. -/

namespace Sys2Proof.Laws

open Sys2Proof Sys2Proof.Machine

variable {α β : Type}

/-- A sequence answers when its parts do. -/
theorem bind_ok {op : Op α} {f : α → Op β} {s u : State} {b : β} :
    (op >>= f) s = .ok (b, u) ↔ ∃ a t, op s = .ok (a, t) ∧ f a t = .ok (b, u) := by
  cases h : op s with
  | error e => simp [bind, StateT.bind, Except.bind, h]
  | ok p => obtain ⟨a, t⟩ := p; simp [bind, StateT.bind, Except.bind, h]

/-- A sequence whose first part answers goes on with the second. -/
theorem bind_of_ok {op : Op α} {f : α → Op β} {s t : State} {a : α} (h : op s = .ok (a, t)) :
    (op >>= f) s = f a t := by
  simp [bind, StateT.bind, Except.bind, h]

/-- A sequence whose first part stops, stops there. -/
theorem bind_of_error {op : Op α} {f : α → Op β} {s : State} {e : Stop} (h : op s = .error e) :
    (op >>= f) s = .error e := by
  simp [bind, StateT.bind, Except.bind, h]

theorem pure_run {s : State} {a : α} : (pure a : Op α) s = .ok (a, s) := rfl

theorem get_run {s : State} : (get : Op State) s = .ok (s, s) := rfl

theorem set_run {s t : State} : (set t : Op Unit) s = .ok ((), t) := rfl

theorem modify_run {s : State} {f : State → State} : (modify f : Op Unit) s = .ok ((), f s) := rfl

theorem get_bind {f : State → Op α} {s : State} : (get >>= f) s = f s s := rfl

theorem pure_bind_run {f : α → Op β} {a : α} {s : State} : (pure a >>= f) s = f a s := rfl

theorem modify_bind {g : State → State} {f : Unit → Op α} {s : State} : (modify g >>= f) s = f () (g s) := rfl

theorem set_bind {t : State} {f : Unit → Op α} {s : State} : (set t >>= f) s = f () t := rfl

theorem raise_run {s : State} {e : Exn} : (raise e : Op α) s = .error (.exn e) := rfl

theorem refuse_run {s : State} {r : Refusal} : (refuse r : Op α) s = .error (.refused r) := rfl

theorem raiseIf_run {c : Bool} {e : Exn} {s : State} :
    raiseIf c e s = if c then .error (.exn e) else .ok ((), s) := by cases c <;> rfl

theorem refuseIf_run {c : Bool} {r : Refusal} {s : State} :
    refuseIf c r s = if c then .error (.refused r) else .ok ((), s) := by cases c <;> rfl

/-- A check that does not fail changes nothing. -/
theorem raiseIf_ok {c : Bool} {e : Exn} {s t : State} {u : Unit} :
    raiseIf c e s = .ok (u, t) ↔ c = false ∧ t = s := by
  cases c <;> simp [raiseIf_run, eq_comm]

theorem refuseIf_ok {c : Bool} {r : Refusal} {s t : State} {u : Unit} :
    refuseIf c r s = .ok (u, t) ↔ c = false ∧ t = s := by
  cases c <;> simp [refuseIf_run, eq_comm]

/-- A sequence that begins with a check answers when the check passes and the rest answers. -/
theorem raiseIf_bind_ok {c : Bool} {e : Exn} {f : Unit → Op α} {s t : State} {a : α} :
    (raiseIf c e >>= f) s = .ok (a, t) ↔ c = false ∧ f () s = .ok (a, t) := by
  cases c
  · exact ⟨fun h => ⟨rfl, h⟩, fun h => h.2⟩
  · simp [bind_of_error (s := s) (f := f) (raise_run (α := Unit) (e := e)), raiseIf]

theorem refuseIf_bind_ok {c : Bool} {r : Refusal} {f : Unit → Op α} {s t : State} {a : α} :
    (refuseIf c r >>= f) s = .ok (a, t) ↔ c = false ∧ f () s = .ok (a, t) := by
  cases c
  · exact ⟨fun h => ⟨rfl, h⟩, fun h => h.2⟩
  · simp [bind_of_error (s := s) (f := f) (refuse_run (α := Unit) (r := r)), refuseIf]

theorem raiseIf_bind_false {c : Bool} {e : Exn} {f : Unit → Op α} {s : State} (h : c = false) :
    (raiseIf c e >>= f) s = f () s := by subst h; rfl

theorem raiseIf_bind_true {c : Bool} {e : Exn} {f : Unit → Op α} {s : State} (h : c = true) :
    (raiseIf c e >>= f) s = .error (.exn e) := by subst h; rfl

theorem refuseIf_bind_false {c : Bool} {r : Refusal} {f : Unit → Op α} {s : State} (h : c = false) :
    (refuseIf c r >>= f) s = f () s := by subst h; rfl

theorem refuseIf_bind_true {c : Bool} {r : Refusal} {f : Unit → Op α} {s : State} (h : c = true) :
    (refuseIf c r >>= f) s = .error (.refused r) := bind_of_error (by rw [refuseIf_run, if_pos h])

theorem check_ok {r : Except Exn α} {s t : State} {a : α} : check r s = .ok (a, t) ↔ r = .ok a ∧ t = s := by
  cases r <;> simp [check, raise, pure_run, eq_comm]

/-- A step that completes ran its operation to its end, or delivered an exception. -/
theorem conclude_next {s t : State} {op : Op Unit} :
    conclude s op = .next t ↔ op s = .ok ((), t) ∨ ∃ e, op s = .error e ∧ stopped s e = .next t := by
  unfold conclude
  cases h : op s with
  | error e => simp
  | ok p => obtain ⟨u, t'⟩ := p; simp

theorem conclude_of_ok {s t : State} {op : Op Unit} (h : op s = .ok ((), t)) : conclude s op = .next t := by
  simp [conclude, h]

theorem conclude_of_error {s : State} {op : Op Unit} {e : Stop} (h : op s = .error e) :
    conclude s op = stopped s e := by
  simp [conclude, h]

/-- A step that stops ends in a next state only by the delivery of an exception (R326). -/
theorem stopped_next {s t : State} {e : Stop} :
    stopped s e = .next t ↔
      s.cfg.transfers = .delivered ∧
        ∃ x, e = .exn x ∧ takeEvent x.vector false x.errorCode s.pcOffset (s.undone.noteFault x) = .ok ((), t) := by
  cases e with
  | exn x =>
    simp only [stopped, raised]
    cases hc : s.cfg.transfers <;> simp
    cases hv : takeEvent x.vector false x.errorCode s.pcOffset (s.undone.noteFault x) with
    | ok p => obtain ⟨u, t'⟩ := p; simp
    | error e2 => cases e2 <;> simp
  | fault f => simp [stopped]
  | refused r => simp [stopped]

end Sys2Proof.Laws
end

