-- ==== Sys2Proof/Laws/State.lean ====
section
/-! SUPPORT. What each update of the state leaves: one lemma per field per update, and reading what was written. -/

namespace Sys2Proof.Laws

open Sys2Proof Sys2Proof.Machine

/-! ### A general register -/

@[simp] theorem setReg_es (s : State) (r : Reg) (v : DWord) : (s.setReg r v).es = s.es := by cases r <;> rfl
@[simp] theorem setReg_cs (s : State) (r : Reg) (v : DWord) : (s.setReg r v).cs = s.cs := by cases r <;> rfl
@[simp] theorem setReg_ss (s : State) (r : Reg) (v : DWord) : (s.setReg r v).ss = s.ss := by cases r <;> rfl
@[simp] theorem setReg_ds (s : State) (r : Reg) (v : DWord) : (s.setReg r v).ds = s.ds := by cases r <;> rfl
@[simp] theorem setReg_fs (s : State) (r : Reg) (v : DWord) : (s.setReg r v).fs = s.fs := by cases r <;> rfl
@[simp] theorem setReg_gs (s : State) (r : Reg) (v : DWord) : (s.setReg r v).gs = s.gs := by cases r <;> rfl
@[simp] theorem setReg_gdtr (s : State) (r : Reg) (v : DWord) : (s.setReg r v).gdtr = s.gdtr := by cases r <;> rfl
@[simp] theorem setReg_idtr (s : State) (r : Reg) (v : DWord) : (s.setReg r v).idtr = s.idtr := by cases r <;> rfl
@[simp] theorem setReg_ldtr (s : State) (r : Reg) (v : DWord) : (s.setReg r v).ldtr = s.ldtr := by cases r <;> rfl
@[simp] theorem setReg_tr (s : State) (r : Reg) (v : DWord) : (s.setReg r v).tr = s.tr := by cases r <;> rfl
@[simp] theorem setReg_pc (s : State) (r : Reg) (v : DWord) : (s.setReg r v).pc = s.pc := by cases r <;> rfl
@[simp] theorem setReg_eflags (s : State) (r : Reg) (v : DWord) : (s.setReg r v).eflags = s.eflags := by cases r <;> rfl
@[simp] theorem setReg_alignMask (s : State) (r : Reg) (v : DWord) : (s.setReg r v).alignMask = s.alignMask := by cases r <;> rfl
@[simp] theorem setReg_pagingEnabled (s : State) (r : Reg) (v : DWord) : (s.setReg r v).pagingEnabled = s.pagingEnabled := by cases r <;> rfl
@[simp] theorem setReg_pagingRoot (s : State) (r : Reg) (v : DWord) : (s.setReg r v).pagingRoot = s.pagingRoot := by cases r <;> rfl
@[simp] theorem setReg_cr2 (s : State) (r : Reg) (v : DWord) : (s.setReg r v).cr2 = s.cr2 := by cases r <;> rfl
@[simp] theorem setReg_cr4 (s : State) (r : Reg) (v : DWord) : (s.setReg r v).cr4 = s.cr4 := by cases r <;> rfl
@[simp] theorem setReg_sysenterCs (s : State) (r : Reg) (v : DWord) : (s.setReg r v).sysenterCs = s.sysenterCs := by cases r <;> rfl
@[simp] theorem setReg_sysenterEsp (s : State) (r : Reg) (v : DWord) : (s.setReg r v).sysenterEsp = s.sysenterEsp := by cases r <;> rfl
@[simp] theorem setReg_sysenterEip (s : State) (r : Reg) (v : DWord) : (s.setReg r v).sysenterEip = s.sysenterEip := by cases r <;> rfl
@[simp] theorem setReg_mem (s : State) (r : Reg) (v : DWord) : (s.setReg r v).mem = s.mem := by cases r <;> rfl
@[simp] theorem setReg_cfg (s : State) (r : Reg) (v : DWord) : (s.setReg r v).cfg = s.cfg := by cases r <;> rfl
@[simp] theorem setReg_pfx (s : State) (r : Reg) (v : DWord) : (s.setReg r v).pfx = s.pfx := by cases r <;> rfl
@[simp] theorem setReg_freeCount (s : State) (r : Reg) (v : DWord) : (s.setReg r v).freeCount = s.freeCount := by cases r <;> rfl
@[simp] theorem setReg_stored (s : State) (r : Reg) (v : DWord) : (s.setReg r v).stored = s.stored := by cases r <;> rfl

/-! ### The low half of a general register -/

@[simp] theorem setReg16_es (s : State) (r : Reg) (v : Word16) : (s.setReg16 r v).es = s.es := by simp [State.setReg16]
@[simp] theorem setReg16_cs (s : State) (r : Reg) (v : Word16) : (s.setReg16 r v).cs = s.cs := by simp [State.setReg16]
@[simp] theorem setReg16_ss (s : State) (r : Reg) (v : Word16) : (s.setReg16 r v).ss = s.ss := by simp [State.setReg16]
@[simp] theorem setReg16_ds (s : State) (r : Reg) (v : Word16) : (s.setReg16 r v).ds = s.ds := by simp [State.setReg16]
@[simp] theorem setReg16_fs (s : State) (r : Reg) (v : Word16) : (s.setReg16 r v).fs = s.fs := by simp [State.setReg16]
@[simp] theorem setReg16_gs (s : State) (r : Reg) (v : Word16) : (s.setReg16 r v).gs = s.gs := by simp [State.setReg16]
@[simp] theorem setReg16_gdtr (s : State) (r : Reg) (v : Word16) : (s.setReg16 r v).gdtr = s.gdtr := by simp [State.setReg16]
@[simp] theorem setReg16_idtr (s : State) (r : Reg) (v : Word16) : (s.setReg16 r v).idtr = s.idtr := by simp [State.setReg16]
@[simp] theorem setReg16_ldtr (s : State) (r : Reg) (v : Word16) : (s.setReg16 r v).ldtr = s.ldtr := by simp [State.setReg16]
@[simp] theorem setReg16_tr (s : State) (r : Reg) (v : Word16) : (s.setReg16 r v).tr = s.tr := by simp [State.setReg16]
@[simp] theorem setReg16_pc (s : State) (r : Reg) (v : Word16) : (s.setReg16 r v).pc = s.pc := by simp [State.setReg16]
@[simp] theorem setReg16_eflags (s : State) (r : Reg) (v : Word16) : (s.setReg16 r v).eflags = s.eflags := by simp [State.setReg16]
@[simp] theorem setReg16_alignMask (s : State) (r : Reg) (v : Word16) : (s.setReg16 r v).alignMask = s.alignMask := by simp [State.setReg16]
@[simp] theorem setReg16_pagingEnabled (s : State) (r : Reg) (v : Word16) : (s.setReg16 r v).pagingEnabled = s.pagingEnabled := by simp [State.setReg16]
@[simp] theorem setReg16_pagingRoot (s : State) (r : Reg) (v : Word16) : (s.setReg16 r v).pagingRoot = s.pagingRoot := by simp [State.setReg16]
@[simp] theorem setReg16_cr2 (s : State) (r : Reg) (v : Word16) : (s.setReg16 r v).cr2 = s.cr2 := by simp [State.setReg16]
@[simp] theorem setReg16_cr4 (s : State) (r : Reg) (v : Word16) : (s.setReg16 r v).cr4 = s.cr4 := by simp [State.setReg16]
@[simp] theorem setReg16_sysenterCs (s : State) (r : Reg) (v : Word16) : (s.setReg16 r v).sysenterCs = s.sysenterCs := by simp [State.setReg16]
@[simp] theorem setReg16_sysenterEsp (s : State) (r : Reg) (v : Word16) : (s.setReg16 r v).sysenterEsp = s.sysenterEsp := by simp [State.setReg16]
@[simp] theorem setReg16_sysenterEip (s : State) (r : Reg) (v : Word16) : (s.setReg16 r v).sysenterEip = s.sysenterEip := by simp [State.setReg16]
@[simp] theorem setReg16_mem (s : State) (r : Reg) (v : Word16) : (s.setReg16 r v).mem = s.mem := by simp [State.setReg16]
@[simp] theorem setReg16_cfg (s : State) (r : Reg) (v : Word16) : (s.setReg16 r v).cfg = s.cfg := by simp [State.setReg16]
@[simp] theorem setReg16_pfx (s : State) (r : Reg) (v : Word16) : (s.setReg16 r v).pfx = s.pfx := by simp [State.setReg16]
@[simp] theorem setReg16_freeCount (s : State) (r : Reg) (v : Word16) : (s.setReg16 r v).freeCount = s.freeCount := by simp [State.setReg16]
@[simp] theorem setReg16_stored (s : State) (r : Reg) (v : Word16) : (s.setReg16 r v).stored = s.stored := by simp [State.setReg16]

/-! ### The stack pointer -/

@[simp] theorem setStackPtr_es (s : State) (w : Bool) (v : DWord) : (s.setStackPtr w v).es = s.es := by cases w <;> simp [State.setStackPtr]
@[simp] theorem setStackPtr_cs (s : State) (w : Bool) (v : DWord) : (s.setStackPtr w v).cs = s.cs := by cases w <;> simp [State.setStackPtr]
@[simp] theorem setStackPtr_ss (s : State) (w : Bool) (v : DWord) : (s.setStackPtr w v).ss = s.ss := by cases w <;> simp [State.setStackPtr]
@[simp] theorem setStackPtr_ds (s : State) (w : Bool) (v : DWord) : (s.setStackPtr w v).ds = s.ds := by cases w <;> simp [State.setStackPtr]
@[simp] theorem setStackPtr_fs (s : State) (w : Bool) (v : DWord) : (s.setStackPtr w v).fs = s.fs := by cases w <;> simp [State.setStackPtr]
@[simp] theorem setStackPtr_gs (s : State) (w : Bool) (v : DWord) : (s.setStackPtr w v).gs = s.gs := by cases w <;> simp [State.setStackPtr]
@[simp] theorem setStackPtr_gdtr (s : State) (w : Bool) (v : DWord) : (s.setStackPtr w v).gdtr = s.gdtr := by cases w <;> simp [State.setStackPtr]
@[simp] theorem setStackPtr_idtr (s : State) (w : Bool) (v : DWord) : (s.setStackPtr w v).idtr = s.idtr := by cases w <;> simp [State.setStackPtr]
@[simp] theorem setStackPtr_ldtr (s : State) (w : Bool) (v : DWord) : (s.setStackPtr w v).ldtr = s.ldtr := by cases w <;> simp [State.setStackPtr]
@[simp] theorem setStackPtr_tr (s : State) (w : Bool) (v : DWord) : (s.setStackPtr w v).tr = s.tr := by cases w <;> simp [State.setStackPtr]
@[simp] theorem setStackPtr_pc (s : State) (w : Bool) (v : DWord) : (s.setStackPtr w v).pc = s.pc := by cases w <;> simp [State.setStackPtr]
@[simp] theorem setStackPtr_eflags (s : State) (w : Bool) (v : DWord) : (s.setStackPtr w v).eflags = s.eflags := by cases w <;> simp [State.setStackPtr]
@[simp] theorem setStackPtr_alignMask (s : State) (w : Bool) (v : DWord) : (s.setStackPtr w v).alignMask = s.alignMask := by cases w <;> simp [State.setStackPtr]
@[simp] theorem setStackPtr_pagingEnabled (s : State) (w : Bool) (v : DWord) : (s.setStackPtr w v).pagingEnabled = s.pagingEnabled := by cases w <;> simp [State.setStackPtr]
@[simp] theorem setStackPtr_pagingRoot (s : State) (w : Bool) (v : DWord) : (s.setStackPtr w v).pagingRoot = s.pagingRoot := by cases w <;> simp [State.setStackPtr]
@[simp] theorem setStackPtr_cr2 (s : State) (w : Bool) (v : DWord) : (s.setStackPtr w v).cr2 = s.cr2 := by cases w <;> simp [State.setStackPtr]
@[simp] theorem setStackPtr_cr4 (s : State) (w : Bool) (v : DWord) : (s.setStackPtr w v).cr4 = s.cr4 := by cases w <;> simp [State.setStackPtr]
@[simp] theorem setStackPtr_sysenterCs (s : State) (w : Bool) (v : DWord) : (s.setStackPtr w v).sysenterCs = s.sysenterCs := by cases w <;> simp [State.setStackPtr]
@[simp] theorem setStackPtr_sysenterEsp (s : State) (w : Bool) (v : DWord) : (s.setStackPtr w v).sysenterEsp = s.sysenterEsp := by cases w <;> simp [State.setStackPtr]
@[simp] theorem setStackPtr_sysenterEip (s : State) (w : Bool) (v : DWord) : (s.setStackPtr w v).sysenterEip = s.sysenterEip := by cases w <;> simp [State.setStackPtr]
@[simp] theorem setStackPtr_mem (s : State) (w : Bool) (v : DWord) : (s.setStackPtr w v).mem = s.mem := by cases w <;> simp [State.setStackPtr]
@[simp] theorem setStackPtr_cfg (s : State) (w : Bool) (v : DWord) : (s.setStackPtr w v).cfg = s.cfg := by cases w <;> simp [State.setStackPtr]
@[simp] theorem setStackPtr_pfx (s : State) (w : Bool) (v : DWord) : (s.setStackPtr w v).pfx = s.pfx := by cases w <;> simp [State.setStackPtr]
@[simp] theorem setStackPtr_freeCount (s : State) (w : Bool) (v : DWord) : (s.setStackPtr w v).freeCount = s.freeCount := by cases w <;> simp [State.setStackPtr]
@[simp] theorem setStackPtr_stored (s : State) (w : Bool) (v : DWord) : (s.setStackPtr w v).stored = s.stored := by cases w <;> simp [State.setStackPtr]

/-! ### A segment register -/

@[simp] theorem setSeg_gdtr (s : State) (r : SReg) (c : SegCache) : (s.setSeg r c).gdtr = s.gdtr := by cases r <;> rfl
@[simp] theorem setSeg_idtr (s : State) (r : SReg) (c : SegCache) : (s.setSeg r c).idtr = s.idtr := by cases r <;> rfl
@[simp] theorem setSeg_ldtr (s : State) (r : SReg) (c : SegCache) : (s.setSeg r c).ldtr = s.ldtr := by cases r <;> rfl
@[simp] theorem setSeg_tr (s : State) (r : SReg) (c : SegCache) : (s.setSeg r c).tr = s.tr := by cases r <;> rfl
@[simp] theorem setSeg_gpr (s : State) (r : SReg) (c : SegCache) : (s.setSeg r c).gpr = s.gpr := by cases r <;> rfl
@[simp] theorem setSeg_pc (s : State) (r : SReg) (c : SegCache) : (s.setSeg r c).pc = s.pc := by cases r <;> rfl
@[simp] theorem setSeg_eflags (s : State) (r : SReg) (c : SegCache) : (s.setSeg r c).eflags = s.eflags := by cases r <;> rfl
@[simp] theorem setSeg_alignMask (s : State) (r : SReg) (c : SegCache) : (s.setSeg r c).alignMask = s.alignMask := by cases r <;> rfl
@[simp] theorem setSeg_pagingEnabled (s : State) (r : SReg) (c : SegCache) : (s.setSeg r c).pagingEnabled = s.pagingEnabled := by cases r <;> rfl
@[simp] theorem setSeg_pagingRoot (s : State) (r : SReg) (c : SegCache) : (s.setSeg r c).pagingRoot = s.pagingRoot := by cases r <;> rfl
@[simp] theorem setSeg_cr2 (s : State) (r : SReg) (c : SegCache) : (s.setSeg r c).cr2 = s.cr2 := by cases r <;> rfl
@[simp] theorem setSeg_cr4 (s : State) (r : SReg) (c : SegCache) : (s.setSeg r c).cr4 = s.cr4 := by cases r <;> rfl
@[simp] theorem setSeg_sysenterCs (s : State) (r : SReg) (c : SegCache) : (s.setSeg r c).sysenterCs = s.sysenterCs := by cases r <;> rfl
@[simp] theorem setSeg_sysenterEsp (s : State) (r : SReg) (c : SegCache) : (s.setSeg r c).sysenterEsp = s.sysenterEsp := by cases r <;> rfl
@[simp] theorem setSeg_sysenterEip (s : State) (r : SReg) (c : SegCache) : (s.setSeg r c).sysenterEip = s.sysenterEip := by cases r <;> rfl
@[simp] theorem setSeg_mem (s : State) (r : SReg) (c : SegCache) : (s.setSeg r c).mem = s.mem := by cases r <;> rfl
@[simp] theorem setSeg_cfg (s : State) (r : SReg) (c : SegCache) : (s.setSeg r c).cfg = s.cfg := by cases r <;> rfl
@[simp] theorem setSeg_pfx (s : State) (r : SReg) (c : SegCache) : (s.setSeg r c).pfx = s.pfx := by cases r <;> rfl
@[simp] theorem setSeg_freeCount (s : State) (r : SReg) (c : SegCache) : (s.setSeg r c).freeCount = s.freeCount := by cases r <;> rfl
@[simp] theorem setSeg_stored (s : State) (r : SReg) (c : SegCache) : (s.setSeg r c).stored = s.stored := by cases r <;> rfl

/-! ### The next instruction -/

@[simp] theorem advance_es (s : State) (i : Instr) : (s.advance i).es = s.es := rfl
@[simp] theorem advance_cs (s : State) (i : Instr) : (s.advance i).cs = s.cs := rfl
@[simp] theorem advance_ss (s : State) (i : Instr) : (s.advance i).ss = s.ss := rfl
@[simp] theorem advance_ds (s : State) (i : Instr) : (s.advance i).ds = s.ds := rfl
@[simp] theorem advance_fs (s : State) (i : Instr) : (s.advance i).fs = s.fs := rfl
@[simp] theorem advance_gs (s : State) (i : Instr) : (s.advance i).gs = s.gs := rfl
@[simp] theorem advance_gdtr (s : State) (i : Instr) : (s.advance i).gdtr = s.gdtr := rfl
@[simp] theorem advance_idtr (s : State) (i : Instr) : (s.advance i).idtr = s.idtr := rfl
@[simp] theorem advance_ldtr (s : State) (i : Instr) : (s.advance i).ldtr = s.ldtr := rfl
@[simp] theorem advance_tr (s : State) (i : Instr) : (s.advance i).tr = s.tr := rfl
@[simp] theorem advance_gpr (s : State) (i : Instr) : (s.advance i).gpr = s.gpr := rfl
@[simp] theorem advance_eflags (s : State) (i : Instr) : (s.advance i).eflags = s.eflags := rfl
@[simp] theorem advance_alignMask (s : State) (i : Instr) : (s.advance i).alignMask = s.alignMask := rfl
@[simp] theorem advance_pagingEnabled (s : State) (i : Instr) : (s.advance i).pagingEnabled = s.pagingEnabled := rfl
@[simp] theorem advance_pagingRoot (s : State) (i : Instr) : (s.advance i).pagingRoot = s.pagingRoot := rfl
@[simp] theorem advance_cr2 (s : State) (i : Instr) : (s.advance i).cr2 = s.cr2 := rfl
@[simp] theorem advance_cr4 (s : State) (i : Instr) : (s.advance i).cr4 = s.cr4 := rfl
@[simp] theorem advance_sysenterCs (s : State) (i : Instr) : (s.advance i).sysenterCs = s.sysenterCs := rfl
@[simp] theorem advance_sysenterEsp (s : State) (i : Instr) : (s.advance i).sysenterEsp = s.sysenterEsp := rfl
@[simp] theorem advance_sysenterEip (s : State) (i : Instr) : (s.advance i).sysenterEip = s.sysenterEip := rfl
@[simp] theorem advance_mem (s : State) (i : Instr) : (s.advance i).mem = s.mem := rfl
@[simp] theorem advance_cfg (s : State) (i : Instr) : (s.advance i).cfg = s.cfg := rfl
@[simp] theorem advance_freeCount (s : State) (i : Instr) : (s.advance i).freeCount = s.freeCount := rfl
@[simp] theorem advance_stored (s : State) (i : Instr) : (s.advance i).stored = s.stored := rfl

/-! ### A byte of memory -/

@[simp] theorem storeByte_es (s : State) (pa : PhysAddr) (b : Byte) : (s.storeByte pa b).es = s.es := rfl
@[simp] theorem storeByte_cs (s : State) (pa : PhysAddr) (b : Byte) : (s.storeByte pa b).cs = s.cs := rfl
@[simp] theorem storeByte_ss (s : State) (pa : PhysAddr) (b : Byte) : (s.storeByte pa b).ss = s.ss := rfl
@[simp] theorem storeByte_ds (s : State) (pa : PhysAddr) (b : Byte) : (s.storeByte pa b).ds = s.ds := rfl
@[simp] theorem storeByte_fs (s : State) (pa : PhysAddr) (b : Byte) : (s.storeByte pa b).fs = s.fs := rfl
@[simp] theorem storeByte_gs (s : State) (pa : PhysAddr) (b : Byte) : (s.storeByte pa b).gs = s.gs := rfl
@[simp] theorem storeByte_gdtr (s : State) (pa : PhysAddr) (b : Byte) : (s.storeByte pa b).gdtr = s.gdtr := rfl
@[simp] theorem storeByte_idtr (s : State) (pa : PhysAddr) (b : Byte) : (s.storeByte pa b).idtr = s.idtr := rfl
@[simp] theorem storeByte_ldtr (s : State) (pa : PhysAddr) (b : Byte) : (s.storeByte pa b).ldtr = s.ldtr := rfl
@[simp] theorem storeByte_tr (s : State) (pa : PhysAddr) (b : Byte) : (s.storeByte pa b).tr = s.tr := rfl
@[simp] theorem storeByte_gpr (s : State) (pa : PhysAddr) (b : Byte) : (s.storeByte pa b).gpr = s.gpr := rfl
@[simp] theorem storeByte_pc (s : State) (pa : PhysAddr) (b : Byte) : (s.storeByte pa b).pc = s.pc := rfl
@[simp] theorem storeByte_eflags (s : State) (pa : PhysAddr) (b : Byte) : (s.storeByte pa b).eflags = s.eflags := rfl
@[simp] theorem storeByte_alignMask (s : State) (pa : PhysAddr) (b : Byte) : (s.storeByte pa b).alignMask = s.alignMask := rfl
@[simp] theorem storeByte_pagingEnabled (s : State) (pa : PhysAddr) (b : Byte) : (s.storeByte pa b).pagingEnabled = s.pagingEnabled := rfl
@[simp] theorem storeByte_pagingRoot (s : State) (pa : PhysAddr) (b : Byte) : (s.storeByte pa b).pagingRoot = s.pagingRoot := rfl
@[simp] theorem storeByte_cr2 (s : State) (pa : PhysAddr) (b : Byte) : (s.storeByte pa b).cr2 = s.cr2 := rfl
@[simp] theorem storeByte_cr4 (s : State) (pa : PhysAddr) (b : Byte) : (s.storeByte pa b).cr4 = s.cr4 := rfl
@[simp] theorem storeByte_sysenterCs (s : State) (pa : PhysAddr) (b : Byte) : (s.storeByte pa b).sysenterCs = s.sysenterCs := rfl
@[simp] theorem storeByte_sysenterEsp (s : State) (pa : PhysAddr) (b : Byte) : (s.storeByte pa b).sysenterEsp = s.sysenterEsp := rfl
@[simp] theorem storeByte_sysenterEip (s : State) (pa : PhysAddr) (b : Byte) : (s.storeByte pa b).sysenterEip = s.sysenterEip := rfl
@[simp] theorem storeByte_cfg (s : State) (pa : PhysAddr) (b : Byte) : (s.storeByte pa b).cfg = s.cfg := rfl
@[simp] theorem storeByte_pfx (s : State) (pa : PhysAddr) (b : Byte) : (s.storeByte pa b).pfx = s.pfx := rfl
@[simp] theorem storeByte_freeCount (s : State) (pa : PhysAddr) (b : Byte) : (s.storeByte pa b).freeCount = s.freeCount := rfl

/-! ### A byte that a page walk writes -/

@[simp] theorem walkWrite_es (s : State) (pa : PhysAddr) (b : Byte) : (s.walkWrite pa b).es = s.es := by unfold State.walkWrite; split <;> rfl
@[simp] theorem walkWrite_cs (s : State) (pa : PhysAddr) (b : Byte) : (s.walkWrite pa b).cs = s.cs := by unfold State.walkWrite; split <;> rfl
@[simp] theorem walkWrite_ss (s : State) (pa : PhysAddr) (b : Byte) : (s.walkWrite pa b).ss = s.ss := by unfold State.walkWrite; split <;> rfl
@[simp] theorem walkWrite_ds (s : State) (pa : PhysAddr) (b : Byte) : (s.walkWrite pa b).ds = s.ds := by unfold State.walkWrite; split <;> rfl
@[simp] theorem walkWrite_fs (s : State) (pa : PhysAddr) (b : Byte) : (s.walkWrite pa b).fs = s.fs := by unfold State.walkWrite; split <;> rfl
@[simp] theorem walkWrite_gs (s : State) (pa : PhysAddr) (b : Byte) : (s.walkWrite pa b).gs = s.gs := by unfold State.walkWrite; split <;> rfl
@[simp] theorem walkWrite_gdtr (s : State) (pa : PhysAddr) (b : Byte) : (s.walkWrite pa b).gdtr = s.gdtr := by unfold State.walkWrite; split <;> rfl
@[simp] theorem walkWrite_idtr (s : State) (pa : PhysAddr) (b : Byte) : (s.walkWrite pa b).idtr = s.idtr := by unfold State.walkWrite; split <;> rfl
@[simp] theorem walkWrite_ldtr (s : State) (pa : PhysAddr) (b : Byte) : (s.walkWrite pa b).ldtr = s.ldtr := by unfold State.walkWrite; split <;> rfl
@[simp] theorem walkWrite_tr (s : State) (pa : PhysAddr) (b : Byte) : (s.walkWrite pa b).tr = s.tr := by unfold State.walkWrite; split <;> rfl
@[simp] theorem walkWrite_gpr (s : State) (pa : PhysAddr) (b : Byte) : (s.walkWrite pa b).gpr = s.gpr := by unfold State.walkWrite; split <;> rfl
@[simp] theorem walkWrite_pc (s : State) (pa : PhysAddr) (b : Byte) : (s.walkWrite pa b).pc = s.pc := by unfold State.walkWrite; split <;> rfl
@[simp] theorem walkWrite_eflags (s : State) (pa : PhysAddr) (b : Byte) : (s.walkWrite pa b).eflags = s.eflags := by unfold State.walkWrite; split <;> rfl
@[simp] theorem walkWrite_alignMask (s : State) (pa : PhysAddr) (b : Byte) : (s.walkWrite pa b).alignMask = s.alignMask := by unfold State.walkWrite; split <;> rfl
@[simp] theorem walkWrite_pagingEnabled (s : State) (pa : PhysAddr) (b : Byte) : (s.walkWrite pa b).pagingEnabled = s.pagingEnabled := by unfold State.walkWrite; split <;> rfl
@[simp] theorem walkWrite_pagingRoot (s : State) (pa : PhysAddr) (b : Byte) : (s.walkWrite pa b).pagingRoot = s.pagingRoot := by unfold State.walkWrite; split <;> rfl
@[simp] theorem walkWrite_cr2 (s : State) (pa : PhysAddr) (b : Byte) : (s.walkWrite pa b).cr2 = s.cr2 := by unfold State.walkWrite; split <;> rfl
@[simp] theorem walkWrite_cr4 (s : State) (pa : PhysAddr) (b : Byte) : (s.walkWrite pa b).cr4 = s.cr4 := by unfold State.walkWrite; split <;> rfl
@[simp] theorem walkWrite_sysenterCs (s : State) (pa : PhysAddr) (b : Byte) : (s.walkWrite pa b).sysenterCs = s.sysenterCs := by unfold State.walkWrite; split <;> rfl
@[simp] theorem walkWrite_sysenterEsp (s : State) (pa : PhysAddr) (b : Byte) : (s.walkWrite pa b).sysenterEsp = s.sysenterEsp := by unfold State.walkWrite; split <;> rfl
@[simp] theorem walkWrite_sysenterEip (s : State) (pa : PhysAddr) (b : Byte) : (s.walkWrite pa b).sysenterEip = s.sysenterEip := by unfold State.walkWrite; split <;> rfl
@[simp] theorem walkWrite_cfg (s : State) (pa : PhysAddr) (b : Byte) : (s.walkWrite pa b).cfg = s.cfg := by unfold State.walkWrite; split <;> rfl
@[simp] theorem walkWrite_pfx (s : State) (pa : PhysAddr) (b : Byte) : (s.walkWrite pa b).pfx = s.pfx := by unfold State.walkWrite; split <;> rfl
@[simp] theorem walkWrite_freeCount (s : State) (pa : PhysAddr) (b : Byte) : (s.walkWrite pa b).freeCount = s.freeCount := by unfold State.walkWrite; split <;> rfl

/-! ### A prefix byte -/

@[simp] theorem notePrefix_es (s : State) (f : Prefixes → Prefixes) : (s.notePrefix f).es = s.es := rfl
@[simp] theorem notePrefix_cs (s : State) (f : Prefixes → Prefixes) : (s.notePrefix f).cs = s.cs := rfl
@[simp] theorem notePrefix_ss (s : State) (f : Prefixes → Prefixes) : (s.notePrefix f).ss = s.ss := rfl
@[simp] theorem notePrefix_ds (s : State) (f : Prefixes → Prefixes) : (s.notePrefix f).ds = s.ds := rfl
@[simp] theorem notePrefix_fs (s : State) (f : Prefixes → Prefixes) : (s.notePrefix f).fs = s.fs := rfl
@[simp] theorem notePrefix_gs (s : State) (f : Prefixes → Prefixes) : (s.notePrefix f).gs = s.gs := rfl
@[simp] theorem notePrefix_gdtr (s : State) (f : Prefixes → Prefixes) : (s.notePrefix f).gdtr = s.gdtr := rfl
@[simp] theorem notePrefix_idtr (s : State) (f : Prefixes → Prefixes) : (s.notePrefix f).idtr = s.idtr := rfl
@[simp] theorem notePrefix_ldtr (s : State) (f : Prefixes → Prefixes) : (s.notePrefix f).ldtr = s.ldtr := rfl
@[simp] theorem notePrefix_tr (s : State) (f : Prefixes → Prefixes) : (s.notePrefix f).tr = s.tr := rfl
@[simp] theorem notePrefix_gpr (s : State) (f : Prefixes → Prefixes) : (s.notePrefix f).gpr = s.gpr := rfl
@[simp] theorem notePrefix_pc (s : State) (f : Prefixes → Prefixes) : (s.notePrefix f).pc = s.pc := rfl
@[simp] theorem notePrefix_eflags (s : State) (f : Prefixes → Prefixes) : (s.notePrefix f).eflags = s.eflags := rfl
@[simp] theorem notePrefix_alignMask (s : State) (f : Prefixes → Prefixes) : (s.notePrefix f).alignMask = s.alignMask := rfl
@[simp] theorem notePrefix_pagingEnabled (s : State) (f : Prefixes → Prefixes) : (s.notePrefix f).pagingEnabled = s.pagingEnabled := rfl
@[simp] theorem notePrefix_pagingRoot (s : State) (f : Prefixes → Prefixes) : (s.notePrefix f).pagingRoot = s.pagingRoot := rfl
@[simp] theorem notePrefix_cr2 (s : State) (f : Prefixes → Prefixes) : (s.notePrefix f).cr2 = s.cr2 := rfl
@[simp] theorem notePrefix_cr4 (s : State) (f : Prefixes → Prefixes) : (s.notePrefix f).cr4 = s.cr4 := rfl
@[simp] theorem notePrefix_sysenterCs (s : State) (f : Prefixes → Prefixes) : (s.notePrefix f).sysenterCs = s.sysenterCs := rfl
@[simp] theorem notePrefix_sysenterEsp (s : State) (f : Prefixes → Prefixes) : (s.notePrefix f).sysenterEsp = s.sysenterEsp := rfl
@[simp] theorem notePrefix_sysenterEip (s : State) (f : Prefixes → Prefixes) : (s.notePrefix f).sysenterEip = s.sysenterEip := rfl
@[simp] theorem notePrefix_mem (s : State) (f : Prefixes → Prefixes) : (s.notePrefix f).mem = s.mem := rfl
@[simp] theorem notePrefix_cfg (s : State) (f : Prefixes → Prefixes) : (s.notePrefix f).cfg = s.cfg := rfl
@[simp] theorem notePrefix_freeCount (s : State) (f : Prefixes → Prefixes) : (s.notePrefix f).freeCount = s.freeCount := rfl
@[simp] theorem notePrefix_stored (s : State) (f : Prefixes → Prefixes) : (s.notePrefix f).stored = s.stored := rfl

/-! ### CR2 -/

@[simp] theorem noteFault_es (s : State) (e : Exn) : (s.noteFault e).es = s.es := by cases e <;> rfl
@[simp] theorem noteFault_cs (s : State) (e : Exn) : (s.noteFault e).cs = s.cs := by cases e <;> rfl
@[simp] theorem noteFault_ss (s : State) (e : Exn) : (s.noteFault e).ss = s.ss := by cases e <;> rfl
@[simp] theorem noteFault_ds (s : State) (e : Exn) : (s.noteFault e).ds = s.ds := by cases e <;> rfl
@[simp] theorem noteFault_fs (s : State) (e : Exn) : (s.noteFault e).fs = s.fs := by cases e <;> rfl
@[simp] theorem noteFault_gs (s : State) (e : Exn) : (s.noteFault e).gs = s.gs := by cases e <;> rfl
@[simp] theorem noteFault_gdtr (s : State) (e : Exn) : (s.noteFault e).gdtr = s.gdtr := by cases e <;> rfl
@[simp] theorem noteFault_idtr (s : State) (e : Exn) : (s.noteFault e).idtr = s.idtr := by cases e <;> rfl
@[simp] theorem noteFault_ldtr (s : State) (e : Exn) : (s.noteFault e).ldtr = s.ldtr := by cases e <;> rfl
@[simp] theorem noteFault_tr (s : State) (e : Exn) : (s.noteFault e).tr = s.tr := by cases e <;> rfl
@[simp] theorem noteFault_gpr (s : State) (e : Exn) : (s.noteFault e).gpr = s.gpr := by cases e <;> rfl
@[simp] theorem noteFault_pc (s : State) (e : Exn) : (s.noteFault e).pc = s.pc := by cases e <;> rfl
@[simp] theorem noteFault_eflags (s : State) (e : Exn) : (s.noteFault e).eflags = s.eflags := by cases e <;> rfl
@[simp] theorem noteFault_alignMask (s : State) (e : Exn) : (s.noteFault e).alignMask = s.alignMask := by cases e <;> rfl
@[simp] theorem noteFault_pagingEnabled (s : State) (e : Exn) : (s.noteFault e).pagingEnabled = s.pagingEnabled := by cases e <;> rfl
@[simp] theorem noteFault_pagingRoot (s : State) (e : Exn) : (s.noteFault e).pagingRoot = s.pagingRoot := by cases e <;> rfl
@[simp] theorem noteFault_cr4 (s : State) (e : Exn) : (s.noteFault e).cr4 = s.cr4 := by cases e <;> rfl
@[simp] theorem noteFault_sysenterCs (s : State) (e : Exn) : (s.noteFault e).sysenterCs = s.sysenterCs := by cases e <;> rfl
@[simp] theorem noteFault_sysenterEsp (s : State) (e : Exn) : (s.noteFault e).sysenterEsp = s.sysenterEsp := by cases e <;> rfl
@[simp] theorem noteFault_sysenterEip (s : State) (e : Exn) : (s.noteFault e).sysenterEip = s.sysenterEip := by cases e <;> rfl
@[simp] theorem noteFault_mem (s : State) (e : Exn) : (s.noteFault e).mem = s.mem := by cases e <;> rfl
@[simp] theorem noteFault_cfg (s : State) (e : Exn) : (s.noteFault e).cfg = s.cfg := by cases e <;> rfl
@[simp] theorem noteFault_pfx (s : State) (e : Exn) : (s.noteFault e).pfx = s.pfx := by cases e <;> rfl
@[simp] theorem noteFault_freeCount (s : State) (e : Exn) : (s.noteFault e).freeCount = s.freeCount := by cases e <;> rfl
@[simp] theorem noteFault_stored (s : State) (e : Exn) : (s.noteFault e).stored = s.stored := by cases e <;> rfl

/-! ### Memory before the instruction -/

@[simp] theorem undone_es (s : State) : (s.undone).es = s.es := rfl
@[simp] theorem undone_cs (s : State) : (s.undone).cs = s.cs := rfl
@[simp] theorem undone_ss (s : State) : (s.undone).ss = s.ss := rfl
@[simp] theorem undone_ds (s : State) : (s.undone).ds = s.ds := rfl
@[simp] theorem undone_fs (s : State) : (s.undone).fs = s.fs := rfl
@[simp] theorem undone_gs (s : State) : (s.undone).gs = s.gs := rfl
@[simp] theorem undone_gdtr (s : State) : (s.undone).gdtr = s.gdtr := rfl
@[simp] theorem undone_idtr (s : State) : (s.undone).idtr = s.idtr := rfl
@[simp] theorem undone_ldtr (s : State) : (s.undone).ldtr = s.ldtr := rfl
@[simp] theorem undone_tr (s : State) : (s.undone).tr = s.tr := rfl
@[simp] theorem undone_gpr (s : State) : (s.undone).gpr = s.gpr := rfl
@[simp] theorem undone_pc (s : State) : (s.undone).pc = s.pc := rfl
@[simp] theorem undone_eflags (s : State) : (s.undone).eflags = s.eflags := rfl
@[simp] theorem undone_alignMask (s : State) : (s.undone).alignMask = s.alignMask := rfl
@[simp] theorem undone_pagingEnabled (s : State) : (s.undone).pagingEnabled = s.pagingEnabled := rfl
@[simp] theorem undone_pagingRoot (s : State) : (s.undone).pagingRoot = s.pagingRoot := rfl
@[simp] theorem undone_cr2 (s : State) : (s.undone).cr2 = s.cr2 := rfl
@[simp] theorem undone_cr4 (s : State) : (s.undone).cr4 = s.cr4 := rfl
@[simp] theorem undone_sysenterCs (s : State) : (s.undone).sysenterCs = s.sysenterCs := rfl
@[simp] theorem undone_sysenterEsp (s : State) : (s.undone).sysenterEsp = s.sysenterEsp := rfl
@[simp] theorem undone_sysenterEip (s : State) : (s.undone).sysenterEip = s.sysenterEip := rfl
@[simp] theorem undone_cfg (s : State) : (s.undone).cfg = s.cfg := rfl
@[simp] theorem undone_pfx (s : State) : (s.undone).pfx = s.pfx := rfl
@[simp] theorem undone_freeCount (s : State) : (s.undone).freeCount = s.freeCount := rfl
@[simp] theorem undone_stored (s : State) : (s.undone).stored = s.stored := rfl

/-! ### The data segment registers at a return -/

@[simp] theorem nullOuter_cs (s : State) (l : Level) : (s.nullOuter l).cs = s.cs := rfl
@[simp] theorem nullOuter_ss (s : State) (l : Level) : (s.nullOuter l).ss = s.ss := rfl
@[simp] theorem nullOuter_gdtr (s : State) (l : Level) : (s.nullOuter l).gdtr = s.gdtr := rfl
@[simp] theorem nullOuter_idtr (s : State) (l : Level) : (s.nullOuter l).idtr = s.idtr := rfl
@[simp] theorem nullOuter_ldtr (s : State) (l : Level) : (s.nullOuter l).ldtr = s.ldtr := rfl
@[simp] theorem nullOuter_tr (s : State) (l : Level) : (s.nullOuter l).tr = s.tr := rfl
@[simp] theorem nullOuter_gpr (s : State) (l : Level) : (s.nullOuter l).gpr = s.gpr := rfl
@[simp] theorem nullOuter_pc (s : State) (l : Level) : (s.nullOuter l).pc = s.pc := rfl
@[simp] theorem nullOuter_eflags (s : State) (l : Level) : (s.nullOuter l).eflags = s.eflags := rfl
@[simp] theorem nullOuter_alignMask (s : State) (l : Level) : (s.nullOuter l).alignMask = s.alignMask := rfl
@[simp] theorem nullOuter_pagingEnabled (s : State) (l : Level) : (s.nullOuter l).pagingEnabled = s.pagingEnabled := rfl
@[simp] theorem nullOuter_pagingRoot (s : State) (l : Level) : (s.nullOuter l).pagingRoot = s.pagingRoot := rfl
@[simp] theorem nullOuter_cr2 (s : State) (l : Level) : (s.nullOuter l).cr2 = s.cr2 := rfl
@[simp] theorem nullOuter_cr4 (s : State) (l : Level) : (s.nullOuter l).cr4 = s.cr4 := rfl
@[simp] theorem nullOuter_sysenterCs (s : State) (l : Level) : (s.nullOuter l).sysenterCs = s.sysenterCs := rfl
@[simp] theorem nullOuter_sysenterEsp (s : State) (l : Level) : (s.nullOuter l).sysenterEsp = s.sysenterEsp := rfl
@[simp] theorem nullOuter_sysenterEip (s : State) (l : Level) : (s.nullOuter l).sysenterEip = s.sysenterEip := rfl
@[simp] theorem nullOuter_mem (s : State) (l : Level) : (s.nullOuter l).mem = s.mem := rfl
@[simp] theorem nullOuter_cfg (s : State) (l : Level) : (s.nullOuter l).cfg = s.cfg := rfl
@[simp] theorem nullOuter_pfx (s : State) (l : Level) : (s.nullOuter l).pfx = s.pfx := rfl
@[simp] theorem nullOuter_freeCount (s : State) (l : Level) : (s.nullOuter l).freeCount = s.freeCount := rfl
@[simp] theorem nullOuter_stored (s : State) (l : Level) : (s.nullOuter l).stored = s.stored := rfl

/-! ### Reading what was written -/

@[simp] theorem reg_setReg_same (s : State) (r : Reg) (v : DWord) : (s.setReg r v).reg r = v := by
  cases r <;> rfl

theorem reg_setReg_other (s : State) {r q : Reg} (v : DWord) (h : q ≠ r) : (s.setReg r v).reg q = s.reg q := by
  cases r <;> cases q <;> first | rfl | exact absurd rfl h

theorem reg_setReg16_other (s : State) {r q : Reg} (v : Word16) (h : q ≠ r) :
    (s.setReg16 r v).reg q = s.reg q :=
  reg_setReg_other s _ h

/-- A write of the low half keeps the upper half (R35). -/
theorem reg_setReg16_same (s : State) (r : Reg) (v : Word16) :
    (s.setReg16 r v).reg r = (s.reg r).extractLsb' 16 16 ++ v := by simp [State.setReg16]

theorem reg_setStackPtr_other (s : State) {q : Reg} (w : Bool) (v : DWord) (h : q ≠ .esp) :
    (s.setStackPtr w v).reg q = s.reg q := by
  cases w <;> simp [State.setStackPtr, reg_setReg_other _ _ h, reg_setReg16_other _ _ h]

@[simp] theorem seg_setSeg_same (s : State) (r : SReg) (c : SegCache) : (s.setSeg r c).seg r = c := by
  cases r <;> rfl

theorem seg_setSeg_other (s : State) {r q : SReg} (c : SegCache) (h : q ≠ r) :
    (s.setSeg r c).seg q = s.seg q := by
  cases r <;> cases q <;> first | rfl | exact absurd rfl h

@[simp] theorem reg_setSeg (s : State) (r : SReg) (c : SegCache) (q : Reg) : (s.setSeg r c).reg q = s.reg q := by
  cases q <;> simp [State.reg]

@[simp] theorem seg_setReg (s : State) (r : Reg) (v : DWord) (q : SReg) : (s.setReg r v).seg q = s.seg q := by
  cases q <;> simp [State.seg]

@[simp] theorem seg_setReg16 (s : State) (r : Reg) (v : Word16) (q : SReg) :
    (s.setReg16 r v).seg q = s.seg q := by simp [State.setReg16]

@[simp] theorem seg_setStackPtr (s : State) (w : Bool) (v : DWord) (q : SReg) :
    (s.setStackPtr w v).seg q = s.seg q := by
  cases q <;> simp [State.seg]

@[simp] theorem seg_storeByte (s : State) (pa : PhysAddr) (b : Byte) (q : SReg) :
    (s.storeByte pa b).seg q = s.seg q := by cases q <;> rfl

@[simp] theorem reg_storeByte (s : State) (pa : PhysAddr) (b : Byte) (q : Reg) :
    (s.storeByte pa b).reg q = s.reg q := by cases q <;> rfl

@[simp] theorem seg_advance (s : State) (i : Instr) (q : SReg) : (s.advance i).seg q = s.seg q := by
  cases q <;> rfl

@[simp] theorem reg_advance (s : State) (i : Instr) (q : Reg) : (s.advance i).reg q = s.reg q := by
  cases q <;> rfl

@[simp] theorem storeByte_mem (s : State) (pa : PhysAddr) (b : Byte) :
    (s.storeByte pa b).mem = s.mem.write pa b := rfl

/-- Without page walks that wrote, memory before the instruction is memory (R326). -/
theorem undone_eq {s : State} (h : s.pfx.before = none) : s.undone = s := by
  simp [State.undone, h]

@[simp] theorem advance_pc (s : State) (i : Instr) : (s.advance i).pc = s.nextPc i := rfl

@[simp] theorem advance_pfx (s : State) (i : Instr) : (s.advance i).pfx = .none := rfl

end Sys2Proof.Laws
end

