-- ==== Sys2Proof/Laws/Access.lean ====
section
/-! SUPPORT. What an access to memory can change, with paging on or off: memory, the counter of free bytes and the
list of stored addresses, nothing else; and the canonical form of memory is kept. -/

namespace Sys2Proof.Laws

open Sys2Proof Sys2Proof.Machine

/-- `t` is `s` but for memory, whose canonical form is kept, and the model's two fields about memory. -/
structure Quiet (s t : State) : Prop where
  same : t = { s with mem := t.mem, freeCount := t.freeCount, stored := t.stored }
  wf : s.mem.wf = true → t.mem.wf = true

namespace Quiet

theorem refl (s : State) : Quiet s s := ⟨rfl, id⟩

theorem trans {s t u : State} (h : Quiet s t) (k : Quiet t u) : Quiet s u :=
  ⟨by rw [k.same, h.same], fun w => k.wf (h.wf w)⟩

variable {s t : State}

theorem es (h : Quiet s t) : t.es = s.es := by rw [h.same]
theorem cs (h : Quiet s t) : t.cs = s.cs := by rw [h.same]
theorem ss (h : Quiet s t) : t.ss = s.ss := by rw [h.same]
theorem ds (h : Quiet s t) : t.ds = s.ds := by rw [h.same]
theorem fs (h : Quiet s t) : t.fs = s.fs := by rw [h.same]
theorem gs (h : Quiet s t) : t.gs = s.gs := by rw [h.same]
theorem gdtr (h : Quiet s t) : t.gdtr = s.gdtr := by rw [h.same]
theorem idtr (h : Quiet s t) : t.idtr = s.idtr := by rw [h.same]
theorem ldtr (h : Quiet s t) : t.ldtr = s.ldtr := by rw [h.same]
theorem tr (h : Quiet s t) : t.tr = s.tr := by rw [h.same]
theorem gpr (h : Quiet s t) : t.gpr = s.gpr := by rw [h.same]
theorem pc (h : Quiet s t) : t.pc = s.pc := by rw [h.same]
theorem eflags (h : Quiet s t) : t.eflags = s.eflags := by rw [h.same]
theorem alignMask (h : Quiet s t) : t.alignMask = s.alignMask := by rw [h.same]
theorem pagingEnabled (h : Quiet s t) : t.pagingEnabled = s.pagingEnabled := by rw [h.same]
theorem pagingRoot (h : Quiet s t) : t.pagingRoot = s.pagingRoot := by rw [h.same]
theorem cr2 (h : Quiet s t) : t.cr2 = s.cr2 := by rw [h.same]
theorem cr4 (h : Quiet s t) : t.cr4 = s.cr4 := by rw [h.same]
theorem sysenterCs (h : Quiet s t) : t.sysenterCs = s.sysenterCs := by rw [h.same]
theorem sysenterEsp (h : Quiet s t) : t.sysenterEsp = s.sysenterEsp := by rw [h.same]
theorem sysenterEip (h : Quiet s t) : t.sysenterEip = s.sysenterEip := by rw [h.same]
theorem cfg (h : Quiet s t) : t.cfg = s.cfg := by rw [h.same]
theorem pfx (h : Quiet s t) : t.pfx = s.pfx := by rw [h.same]
theorem seg (h : Quiet s t) (r : SReg) : t.seg r = s.seg r := by rw [h.same]; cases r <;> rfl
theorem reg (h : Quiet s t) (r : Reg) : t.reg r = s.reg r := by rw [h.same]; cases r <;> rfl

end Quiet

/-- A state whose memory alone may differ from another's. -/
theorem quiet_storeByte (s : State) (pa : PhysAddr) (b : Byte) : Quiet s (s.storeByte pa b) :=
  ⟨rfl, fun h => write_wf pa b h⟩

theorem quiet_walkWrite (s : State) (pa : PhysAddr) (b : Byte) : Quiet s (s.walkWrite pa b) := by
  unfold State.walkWrite
  split
  · exact quiet_storeByte s pa b
  · exact Quiet.refl s

theorem quiet_walkWrites (s : State) (ws : List (PhysAddr × Byte)) : Quiet s (s.walkWrites ws) := by
  induction ws generalizing s with
  | nil => exact Quiet.refl s
  | cons w rest ih => exact (quiet_walkWrite s _ _).trans (ih _)

variable {s t : State}

theorem readPhys_quiet {pa : PhysAddr} {b : Byte} (h : readPhys pa s = .ok (b, t)) : Quiet s t := by
  unfold readPhys at h
  split at h
  · cases h; exact Quiet.refl _
  · cases h; exact Quiet.refl _
  · cases h
  · split at h
    · cases h; exact ⟨rfl, id⟩
    · cases h

theorem writePhys_quiet {who : Writer} {la : DWord} {pa : PhysAddr} {b : Byte} {u : Unit}
    (h : writePhys who la pa b s = .ok (u, t)) : Quiet s t := by
  unfold writePhys at h
  split at h
  · cases h; exact quiet_storeByte s pa b
  · split at h
    · cases h
    · split at h
      · cases h; exact Quiet.refl _
      · cases h
  · cases h
  · split at h
    · cases h; exact Quiet.refl _
    · cases h

theorem parameterWalk_quiet {la : DWord} {kind : AccessKind} {cpl : Level} {pa : PhysAddr}
    (h : parameterWalk la kind cpl s = .ok (pa, t)) : Quiet s t := by
  simp only [parameterWalk] at h
  split at h
  · cases h; exact quiet_walkWrites s _
  · cases h

theorem readEntry_quiet {pa : PhysAddr} {v : DWord} (h : readEntry pa s = .ok (v, t)) : Quiet s t := by
  simp only [readEntry, bind_ok, pure_run, Except.ok.injEq, Prod.mk.injEq] at h
  obtain ⟨_, t1, h1, _, t2, h2, _, t3, h3, _, t4, h4, _, rfl⟩ := h
  exact (((readPhys_quiet h1).trans (readPhys_quiet h2)).trans (readPhys_quiet h3)).trans (readPhys_quiet h4)

theorem markEntry_quiet {pa : PhysAddr} {entry : DWord} {dirty : Bool} {u : Unit}
    (h : markEntry pa entry dirty s = .ok (u, t)) : Quiet s t := by
  simp only [markEntry, Except.ok.injEq, Prod.mk.injEq] at h
  obtain ⟨-, rfl⟩ := h
  generalize (entry.extractLsb' 0 8 ||| 0x20 ||| if dirty then 0x40 else 0 : Byte) = new
  by_cases hn : new = entry.extractLsb' 0 8
  · rw [if_pos hn]; exact Quiet.refl s
  · rw [if_neg hn]; exact quiet_walkWrite s _ _

theorem twoLevelWalk_quiet {la : DWord} {kind : AccessKind} {cpl : Level} {pa : PhysAddr}
    (h : twoLevelWalk la kind cpl s = .ok (pa, t)) : Quiet s t := by
  simp only [twoLevelWalk, get_bind, bind_ok] at h
  obtain ⟨de, t1, h1, _, t2, h2, h⟩ := h
  obtain ⟨-, rfl⟩ := raiseIf_ok.1 h2
  have q1 := readEntry_quiet h1
  split at h
  · simp only [bind_ok, pure_run, Except.ok.injEq, Prod.mk.injEq] at h
    obtain ⟨_, t3, h3, _, t4, h4, -, rfl⟩ := h
    obtain ⟨-, rfl⟩ := raiseIf_ok.1 h3
    exact q1.trans (markEntry_quiet h4)
  · simp only [bind_ok, pure_run, Except.ok.injEq, Prod.mk.injEq] at h
    obtain ⟨te, t3, h3, _, t4, h4, _, t5, h5, _, t6, h6, _, t7, h7, -, rfl⟩ := h
    obtain ⟨-, rfl⟩ := raiseIf_ok.1 h4
    obtain ⟨-, rfl⟩ := raiseIf_ok.1 h5
    exact ((q1.trans (readEntry_quiet h3)).trans (markEntry_quiet h6)).trans (markEntry_quiet h7)

theorem phys_quiet {la : DWord} {kind : AccessKind} {cpl : Level} {pa : PhysAddr}
    (h : phys la kind cpl s = .ok (pa, t)) : Quiet s t := by
  unfold phys at h
  split at h
  · unfold pageWalk at h
    split at h
    · exact parameterWalk_quiet h
    · split at h
      · exact parameterWalk_quiet h
      · exact twoLevelWalk_quiet h
  · cases h; exact Quiet.refl _

theorem physBytes_quiet {la : DWord} {n : Nat} {kind : AccessKind} {cpl : Level} {pas : List PhysAddr}
    (h : physBytes la n kind cpl s = .ok (pas, t)) : Quiet s t := by
  induction n generalizing la s pas with
  | zero => cases h; exact Quiet.refl _
  | succ n ih =>
    simp only [physBytes, bind_ok, pure_run, Except.ok.injEq, Prod.mk.injEq] at h
    obtain ⟨_, t1, h1, _, t2, h2, -, rfl⟩ := h
    exact (phys_quiet h1).trans (ih h2)

theorem readBytes_quiet {pas : List PhysAddr} {bs : List Byte} (h : readBytes pas s = .ok (bs, t)) :
    Quiet s t := by
  induction pas generalizing s bs with
  | nil => cases h; exact Quiet.refl _
  | cons pa rest ih =>
    simp only [readBytes, bind_ok, pure_run, Except.ok.injEq, Prod.mk.injEq] at h
    obtain ⟨_, t1, h1, _, t2, h2, -, rfl⟩ := h
    exact (readPhys_quiet h1).trans (ih h2)

theorem writeBytes_quiet {who : Writer} {la : DWord} {pas : List PhysAddr} {bs : List Byte} {u : Unit}
    (h : writeBytes who la pas bs s = .ok (u, t)) : Quiet s t := by
  induction pas generalizing la s bs with
  | nil => cases h; exact Quiet.refl _
  | cons pa rest ih =>
    cases bs with
    | nil => cases h; exact Quiet.refl _
    | cons b bs =>
      simp only [writeBytes, bind_ok] at h
      obtain ⟨_, t1, h1, h2⟩ := h
      exact (writePhys_quiet h1).trans (ih h2)

theorem linRead_quiet {la : DWord} {n : Nat} {cpl : Level} {v : Nat} (h : linRead la n cpl s = .ok (v, t)) :
    Quiet s t := by
  simp only [linRead, bind_ok, pure_run, Except.ok.injEq, Prod.mk.injEq] at h
  obtain ⟨_, t1, h1, _, t2, h2, -, rfl⟩ := h
  exact (physBytes_quiet h1).trans (readBytes_quiet h2)

theorem linWrite_quiet {who : Writer} {la : DWord} {n v : Nat} {cpl : Level} {u : Unit}
    (h : linWrite who la n v cpl s = .ok (u, t)) : Quiet s t := by
  simp only [linWrite, bind_ok] at h
  obtain ⟨_, t1, h1, h2⟩ := h
  exact (physBytes_quiet h1).trans (writeBytes_quiet h2)

theorem segRead_quiet {r : SReg} {off n : Nat} {cpl : Level} {v : Nat}
    (h : segRead r off n cpl s = .ok (v, t)) : Quiet s t := by
  simp only [segRead, get_bind, bind_ok] at h
  obtain ⟨_, t1, h1, _, t2, h2, h3⟩ := h
  obtain ⟨-, rfl⟩ := check_ok.1 h1
  obtain ⟨-, rfl⟩ := raiseIf_ok.1 h2
  exact linRead_quiet h3

theorem segWrite_quiet {r : SReg} {off n v : Nat} {cpl : Level} {u : Unit}
    (h : segWrite r off n v cpl s = .ok (u, t)) : Quiet s t := by
  simp only [segWrite, get_bind, bind_ok] at h
  obtain ⟨_, t1, h1, _, t2, h2, h3⟩ := h
  obtain ⟨-, rfl⟩ := check_ok.1 h1
  obtain ⟨-, rfl⟩ := raiseIf_ok.1 h2
  exact linWrite_quiet h3

theorem readDescriptor_quiet {addr : DWord} {d : Descriptor} (h : readDescriptor addr s = .ok (d, t)) :
    Quiet s t := by
  simp only [readDescriptor, bind_ok, pure_run, Except.ok.injEq, Prod.mk.injEq] at h
  obtain ⟨_, t1, h1, _, t2, h2, -, rfl⟩ := h
  exact (linRead_quiet h1).trans (linRead_quiet h2)

/-- A fetched descriptor has its reserved bit clear, and fetching changes memory's bookkeeping only (R102, R191). -/
theorem fetchDescriptor_ok {sel : Word16} {d : Descriptor} {addr : DWord}
    (h : fetchDescriptor sel s = .ok ((d, addr), t)) :
    Quiet s t ∧ addr = s.descriptorAddr sel ∧ (s.table sel).2.2 = true ∧
      selIndex sel * 8 + 7 ≤ (s.table sel).2.1.toNat ∧ d.reservedBitSet = false := by
  simp only [fetchDescriptor, get_bind, bind_ok, pure_run, Except.ok.injEq, Prod.mk.injEq] at h
  obtain ⟨_, t1, h1, _, t2, h2, d', t3, h3, _, t4, h4, ⟨rfl, rfl⟩, rfl⟩ := h
  obtain ⟨c1, rfl⟩ := raiseIf_ok.1 h1
  obtain ⟨c2, rfl⟩ := raiseIf_ok.1 h2
  obtain ⟨c3, rfl⟩ := refuseIf_ok.1 h4
  refine ⟨readDescriptor_quiet h3, rfl, by simpa using c1, ?_, c3⟩
  simpa using c2

theorem setAccessByte_quiet {addr : DWord} {bits : Byte} {u : Unit} (h : setAccessByte addr bits s = .ok (u, t)) :
    Quiet s t := by
  simp only [setAccessByte, bind_ok] at h
  obtain ⟨_, t1, h1, h2⟩ := h
  exact (linRead_quiet h1).trans (linWrite_quiet h2)

theorem setAccessed_quiet {d : Descriptor} {addr : DWord} {u : Unit} (h : setAccessed d addr s = .ok (u, t)) :
    Quiet s t := by
  unfold setAccessed at h
  split at h
  · cases h; exact Quiet.refl _
  · exact setAccessByte_quiet h

end Sys2Proof.Laws
end

