-- ==== Sys2Proof/Laws/Decode.lean ====
section
/-! SUPPORT. How the decoder answers as more bytes of an instruction become known: what is decided stays, and a count of
missing bytes goes down with them. -/

namespace Sys2Proof.Laws

open Sys2Proof

variable {α β : Type}

/-- More bytes behind those that `d` was given change no decision: an answer and a refusal stay, and of `n` missing bytes,
at least one, those that came are no longer missing. -/
def Steady (d : Dec α) : Prop :=
  ∀ bs more, match d bs with
    | .ok (a, rest) => d (bs ++ more) = .ok (a, rest ++ more)
    | .error .notInTable => d (bs ++ more) = .error .notInTable
    | .error (.short n) => 1 ≤ n ∧ (more.length < n → d (bs ++ more) = .error (.short (n - more.length)))

theorem Steady.ok {d : Dec α} (h : Steady d) {bs rest : List Byte} {a : α} (e : d bs = .ok (a, rest))
    (more : List Byte) : d (bs ++ more) = .ok (a, rest ++ more) := by
  have := h bs more; simpa [e] using this

theorem Steady.refused {d : Dec α} (h : Steady d) {bs : List Byte} (e : d bs = .error .notInTable)
    (more : List Byte) : d (bs ++ more) = .error .notInTable := by
  have := h bs more; simpa [e] using this

theorem Steady.short {d : Dec α} (h : Steady d) {bs : List Byte} {n : Nat} (e : d bs = .error (.short n))
    (more : List Byte) : 1 ≤ n ∧ (more.length < n → d (bs ++ more) = .error (.short (n - more.length))) := by
  have := h bs more; simpa [e] using this

/-- Where more bytes make an answer, all that were missing came. -/
theorem Steady.enough {d : Dec α} (h : Steady d) {bs more rest : List Byte} {n : Nat} {a : α}
    (e : d bs = .error (.short n)) (e' : d (bs ++ more) = .ok (a, rest)) : n ≤ more.length := by
  rcases Nat.lt_or_ge more.length n with hl | hl
  · rw [(h.short e more).2 hl] at e'; cases e'
  · exact hl

/-! ### The pieces -/

theorem dec_bind_ok {d : Dec α} {f : α → Dec β} {bs rest : List Byte} {a : α} (e : d bs = .ok (a, rest)) :
    (d >>= f) bs = f a rest := by
  simp [bind, StateT.bind, Except.bind, e]

theorem dec_bind_error {d : Dec α} {f : α → Dec β} {bs : List Byte} {x : DecodeError} (e : d bs = .error x) :
    (d >>= f) bs = .error x := by
  simp [bind, StateT.bind, Except.bind, e]

theorem Steady.bind {d : Dec α} {f : α → Dec β} (hd : Steady d) (hf : ∀ a, Steady (f a)) : Steady (d >>= f) := by
  intro bs more
  cases e : d bs with
  | ok p =>
    obtain ⟨a, rest⟩ := p
    rw [dec_bind_ok e, dec_bind_ok (hd.ok e more)]
    exact hf a rest more
  | error x =>
    rw [dec_bind_error e]
    cases x with
    | notInTable => exact dec_bind_error (hd.refused e more)
    | short n => exact ⟨(hd.short e more).1, fun hl => dec_bind_error ((hd.short e more).2 hl)⟩

theorem steady_pure (a : α) : Steady (pure a : Dec α) := fun _ _ => rfl

theorem Steady.map {d : Dec α} (hd : Steady d) (g : α → β) : Steady (g <$> d) :=
  hd.bind fun a => steady_pure (g a)

theorem steady_notInTable : Steady (notInTable : Dec α) := fun _ _ => rfl

theorem steady_next8 : Steady next8 := by
  intro bs more
  cases bs with
  | nil =>
    refine ⟨Nat.le_refl 1, fun hl => ?_⟩
    obtain rfl := List.length_eq_zero_iff.1 (Nat.lt_one_iff.1 hl)
    rfl
  | cons b rest => rfl

theorem steady_need (n : Nat) : Steady (need n) := by
  intro bs more
  simp only [need, List.length_append]
  split
  · rename_i r h
    split at h
    · cases h
    · cases h; rw [if_neg (by omega)]
  · rename_i h
    split at h <;> cases h
  · rename_i h
    split at h
    · cases h
      refine ⟨by omega, fun hl => ?_⟩
      rw [if_pos (by omega), show n - (bs.length + more.length) = n - bs.length - more.length by omega]
    · cases h

theorem steady_next16 : Steady next16 :=
  (steady_need 2).bind fun _ => steady_next8.bind fun _ => steady_next8.bind fun _ => steady_pure _

theorem steady_next32 : Steady next32 :=
  (steady_need 4).bind fun _ => steady_next8.bind fun _ => steady_next8.bind fun _ => steady_next8.bind fun _ =>
    steady_next8.bind fun _ => steady_pure _

theorem steady_ea16 (md : BitVec 2) (rm : BitVec 3) : Steady (decodeEa16 md rm) := by
  unfold decodeEa16
  split
  · split
    · exact steady_next16.map _
    · exact steady_pure _
  · exact steady_next8.map _
  · exact steady_next16.map _

theorem steady_sib (md : BitVec 2) : Steady (decodeSib md) := by
  refine (steady_need _).bind fun _ => steady_next8.bind fun s => ?_
  simp only []
  split
  · split
    · exact steady_next32.map _
    · exact steady_pure _
  · exact steady_next8.map _
  · exact steady_next32.map _

theorem steady_ea32 (md : BitVec 2) (rm : BitVec 3) : Steady (decodeEa32 md rm) := by
  unfold decodeEa32
  split
  · exact steady_sib md
  · split
    · split
      · exact steady_next32.map _
      · exact steady_pure _
    · exact steady_next8.map _
    · exact steady_next32.map _

theorem steady_modRm (m : Mode) : Steady (decodeModRm m) := by
  refine steady_next8.bind fun b => Steady.bind ?_ fun o => steady_pure _
  unfold decodeRm
  split
  · exact steady_pure _
  · split
    · exact (steady_ea32 _ _).map _
    · exact (steady_ea16 _ _).map _

theorem steady_farPointer (m : Mode) (f : DWord → Word16 → Instr) : Steady (decodeFarPointer m f) := by
  refine (steady_need _).bind fun _ => Steady.bind ?_ fun off => steady_next16.bind fun sel => steady_pure _
  unfold decodeFarOffset
  split
  · exact steady_next32
  · exact steady_next16.map _

/-- An opcode extension chooses an instruction or none. -/
theorem steady_extension (m : Mode) {f : BitVec 3 × RM → Dec Instr} (h : ∀ p, Steady (f p)) :
    Steady (decodeModRm m >>= f) := (steady_modRm m).bind h

theorem steady_0F (m : Mode) : Steady (decode0F m) := by
  refine steady_next8.bind fun b => ?_
  split
  · exact steady_extension m fun p => by
      simp only []; split <;> first | exact steady_pure _ | exact steady_notInTable
  · exact steady_extension m fun p => by
      simp only []; split <;> first | exact steady_pure _ | exact steady_notInTable
  all_goals first
    | exact steady_pure _
    | exact steady_extension m fun p => steady_pure _
    | exact steady_notInTable

/-- The decoder is steady. -/
theorem steady_decode (m : Mode) : Steady (decode m) := by
  refine steady_next8.bind fun b => ?_
  split
  all_goals first
    | exact steady_pure _
    | exact steady_notInTable
    | exact steady_0F m
    | exact steady_farPointer m _
    | exact steady_next16.map _
    | exact steady_next8.map _
    | exact steady_extension m fun p => steady_pure _
    | exact steady_extension m fun p => by
        simp only []; split <;> first | exact steady_pure _ | exact steady_notInTable

end Sys2Proof.Laws
end

