-- ==== Sys2Proof/Laws/Ops.lean ====
section
/-! SUPPORT. What each shared operation can do when it answers, with paging on or off: the loads, the stack, the far
transfers, the returns and the taking of an event. -/

namespace Sys2Proof.Laws

open Sys2Proof Sys2Proof.Machine

/-! ### A change of memory and of the stack pointer -/

/-- `t` is `s` but for memory (in canonical form if it was), the model's fields about it, and ESP. -/
structure Stacked (s t : State) : Prop where
  same : t = { s with
    mem := t.mem, freeCount := t.freeCount, stored := t.stored, gpr := { s.gpr with esp := t.gpr.esp } }
  wf : s.mem.wf = true → t.mem.wf = true

namespace Stacked

theorem refl (s : State) : Stacked s s := ⟨rfl, id⟩

theorem trans {s t u : State} (h : Stacked s t) (k : Stacked t u) : Stacked s u :=
  ⟨by rw [k.same, h.same], fun w => k.wf (h.wf w)⟩

theorem ofQuiet {s t : State} (h : Quiet s t) : Stacked s t := ⟨by rw [h.same], h.wf⟩

theorem ofStackPtr (s : State) (w : Bool) (v : DWord) : Stacked s (s.setStackPtr w v) := by
  refine ⟨?_, by simp⟩
  cases w <;> rfl

variable {s t : State}

theorem es (h : Stacked s t) : t.es = s.es := by rw [h.same]
theorem cs (h : Stacked s t) : t.cs = s.cs := by rw [h.same]
theorem ss (h : Stacked s t) : t.ss = s.ss := by rw [h.same]
theorem ds (h : Stacked s t) : t.ds = s.ds := by rw [h.same]
theorem fs (h : Stacked s t) : t.fs = s.fs := by rw [h.same]
theorem gs (h : Stacked s t) : t.gs = s.gs := by rw [h.same]
theorem seg (h : Stacked s t) (r : SReg) : t.seg r = s.seg r := by rw [h.same]; cases r <;> rfl
theorem cfg (h : Stacked s t) : t.cfg = s.cfg := by rw [h.same]
theorem pfx (h : Stacked s t) : t.pfx = s.pfx := by rw [h.same]
theorem cpl (h : Stacked s t) : t.cpl = s.cpl := by rw [h.same]; rfl

theorem reg (h : Stacked s t) {r : Reg} (hr : r ≠ .esp) : t.reg r = s.reg r := by
  rw [h.same]; cases r <;> first | rfl | exact absurd rfl hr

end Stacked

variable {s t : State} {u : Unit}

theorem push_ok {cpl : Level} {n v : Nat} (h : push cpl n v s = .ok (u, t)) : Stacked s t := by
  simp only [push, get_bind, bind_ok, modify_run, Except.ok.injEq, Prod.mk.injEq] at h
  obtain ⟨_, m, h1, -, rfl⟩ := h
  exact (Stacked.ofQuiet (segWrite_quiet h1)).trans (Stacked.ofStackPtr m _ _)

theorem stackTop_ok {n v : Nat} (h : stackTop n s = .ok (v, t)) : Quiet s t := by
  simp only [stackTop, get_bind] at h
  exact segRead_quiet h

theorem release_ok {k : DWord} (h : release k s = .ok (u, t)) : Stacked s t := by
  simp only [release, modify_run, Except.ok.injEq, Prod.mk.injEq] at h
  obtain ⟨-, rfl⟩ := h
  exact Stacked.ofStackPtr s _ _

theorem pop_ok {n v : Nat} (h : pop n s = .ok (v, t)) : Stacked s t := by
  simp only [pop, bind_ok, pure_run, Except.ok.injEq, Prod.mk.injEq] at h
  obtain ⟨_, m, h1, _, m2, h2, -, rfl⟩ := h
  exact (Stacked.ofQuiet (stackTop_ok h1)).trans (release_ok h2)

theorem pushReturn_ok {cpl : Level} {n : Nat} {retPc : DWord} (h : pushReturn cpl n retPc s = .ok (u, t)) :
    Stacked s t := by
  simp only [pushReturn, get_bind, bind_ok] at h
  obtain ⟨_, m, h1, h2⟩ := h
  exact (push_ok h1).trans (push_ok h2)

theorem pushAll_ok {cpl : Level} {n : Nat} {vs : List Nat} (h : pushAll cpl n vs s = .ok (u, t)) :
    Stacked s t := by
  induction vs generalizing s with
  | nil => cases h; exact Stacked.refl _
  | cons v rest ih =>
    simp only [pushAll, bind_ok] at h
    obtain ⟨_, m, h1, h2⟩ := h
    exact (push_ok h1).trans (ih h2)

theorem pushErrorCode_ok {cpl : Level} {n : Nat} {code : Option Nat}
    (h : pushErrorCode cpl n code s = .ok (u, t)) : Stacked s t := by
  cases code with
  | none => cases h; exact Stacked.refl _
  | some c => exact push_ok h

theorem readParams_ok {off : DWord} {n k : Nat} {vs : List Nat} (h : readParams off n k s = .ok (vs, t)) :
    Quiet s t := by
  induction k generalizing s off vs with
  | zero => cases h; exact Quiet.refl _
  | succ k ih =>
    simp only [readParams, get_bind, bind_ok, pure_run, Except.ok.injEq, Prod.mk.injEq] at h
    obtain ⟨_, m, h1, _, m2, h2, -, rfl⟩ := h
    exact (segRead_quiet h1).trans (ih h2)

/-! ### Operands -/

theorem readRm16_ok {o : RM} {v : Word16} (h : readRm16 o s = .ok (v, t)) : Quiet s t := by
  simp only [readRm16, get_bind] at h
  cases o with
  | reg r => cases h; exact Quiet.refl _
  | mem e =>
    simp only [bind_ok, pure_run, Except.ok.injEq, Prod.mk.injEq] at h
    obtain ⟨_, m, h1, -, rfl⟩ := h
    exact segRead_quiet h1

theorem readFarPointer_ok {e : Ea} {p : DWord × Word16} (h : readFarPointer e s = .ok (p, t)) : Quiet s t := by
  simp only [readFarPointer, get_bind, bind_ok, pure_run, Except.ok.injEq, Prod.mk.injEq] at h
  obtain ⟨_, m, h1, _, m2, h2, -, rfl⟩ := h
  exact (segRead_quiet h1).trans (segRead_quiet h2)

theorem memOperand_ok {o : RM} {e : Ea} (h : memOperand o s = .ok (e, t)) : o = .mem e ∧ t = s := by
  cases o with
  | reg r => cases h
  | mem e' => cases h; exact ⟨rfl, rfl⟩

/-- A selector goes to a register or to memory. -/
theorem writeSelector_ok {o : RM} {v : Word16} (h : writeSelector o v s = .ok (u, t)) :
    (∃ r, o = .reg r ∧ t = if s.mode.op32 then s.setReg r (v.setWidth 32) else s.setReg16 r v) ∨
      ((∃ e, o = .mem e) ∧ Quiet s t) := by
  simp only [writeSelector, get_bind] at h
  cases o with
  | reg r =>
    simp only [set_run, Except.ok.injEq, Prod.mk.injEq] at h
    exact .inl ⟨r, rfl, h.2.symm⟩
  | mem e => exact .inr ⟨⟨e, rfl⟩, segWrite_quiet h⟩

/-! ### The loads of a segment register -/

/-- What a data segment register may receive from a descriptor at the level `cpl` (R192). -/
def DataLoad (cpl : Level) (sel : Word16) (d : Descriptor) : Prop :=
  isNull sel = false ∧ d.s = true ∧ (isCode d.type = true → readable d.type = true) ∧
    dataPrivilegeOk cpl sel d = true ∧ d.p = true ∧ d.reservedBitSet = false

/-- What SS may receive from a descriptor at the level `cpl` (R193). -/
def StackLoad (cpl : Level) (sel : Word16) (d : Descriptor) : Prop :=
  isNull sel = false ∧ d.s = true ∧ writable d.type = true ∧ selRPL sel = cpl ∧ d.dpl = cpl ∧ d.p = true ∧
    d.reservedBitSet = false

theorem loadDataSeg_ok {r : SReg} {sel : Word16} (h : loadDataSeg r sel s = .ok (u, t)) :
    (isNull sel = true ∧ t = s.setSeg r ((s.seg r).loadNull sel)) ∨
      ∃ d m, DataLoad s.cpl sel d ∧ Quiet s m ∧ t = m.setSeg r (.load sel d) := by
  simp only [loadDataSeg, get_bind] at h
  split at h
  · rename_i hn
    simp only [putSeg, modify_run, Except.ok.injEq, Prod.mk.injEq] at h
    exact .inl ⟨hn, h.2.symm⟩
  · rename_i hn
    simp only [bind_ok] at h
    obtain ⟨⟨d, addr⟩, m1, h1, h⟩ := h
    dsimp only at h
    obtain ⟨_, m2, h2, _, m3, h3, h4⟩ := h
    simp only [putSeg, modify_run, Except.ok.injEq, Prod.mk.injEq] at h4
    obtain ⟨-, rfl⟩ := h4
    simp only [checkDataDescriptor, bind_ok, raiseIf_ok] at h2
    obtain ⟨_, _, ⟨c1, rfl⟩, _, _, ⟨c2, rfl⟩, _, _, ⟨c3, rfl⟩, c4, rfl⟩ := h2
    obtain ⟨q1, -, -, -, hb⟩ := fetchDescriptor_ok h1
    refine .inr ⟨d, m3, ⟨by simpa using hn, by simpa using c1, ?_, by simpa using c3, by simpa using c4, hb⟩,
      q1.trans (setAccessed_quiet h3), rfl⟩
    intro hc
    simpa [hc] using c2

theorem loadSs_ok {cpl : Level} {sel : Word16} (h : loadSs cpl sel s = .ok (u, t)) :
    ∃ d m, StackLoad cpl sel d ∧ Quiet s m ∧ t = m.setSeg .ss (.load sel d) := by
  simp only [loadSs, get_bind, bind_ok, raiseIf_ok] at h
  obtain ⟨_, _, ⟨hn, rfl⟩, ⟨d, addr⟩, m1, h1, h⟩ := h
  dsimp only at h
  obtain ⟨_, m2, h2, _, m3, h3, h4⟩ := h
  simp only [putSeg, modify_run, Except.ok.injEq, Prod.mk.injEq] at h4
  obtain ⟨-, rfl⟩ := h4
  simp only [checkStackDescriptor, bind_ok, raiseIf_ok] at h2
  obtain ⟨_, _, ⟨c1, rfl⟩, _, _, ⟨c2, rfl⟩, _, _, ⟨c3, rfl⟩, c4, rfl⟩ := h2
  obtain ⟨q1, -, -, -, hb⟩ := fetchDescriptor_ok h1
  simp only [Bool.or_eq_false_iff, Bool.not_eq_false'] at c2
  exact ⟨d, m3, ⟨hn, c2.1.1, c2.2, by simpa using c1, by simpa using c3, by simpa using c4, hb⟩,
    q1.trans (setAccessed_quiet h3), rfl⟩

/-- A direct load answers only with a null data segment register or with one loaded from a descriptor. -/
theorem loadSeg_ok {r : SReg} {sel : Word16} (h : loadSeg r sel s = .ok (u, t)) :
    ∃ c m, Quiet s m ∧ t = m.setSeg r c ∧
      ((r ≠ .ss ∧ isNull sel = true ∧ c = (s.seg r).loadNull sel) ∨
        (r ≠ .ss ∧ ∃ d, c = .load sel d ∧ DataLoad s.cpl sel d) ∨
        (r = .ss ∧ ∃ d, c = .load sel d ∧ StackLoad s.cpl sel d)) := by
  simp only [loadSeg, get_bind] at h
  split at h
  · rename_i hr
    subst hr
    obtain ⟨d, m, hd, q, rfl⟩ := loadSs_ok h
    exact ⟨_, m, q, rfl, .inr (.inr ⟨rfl, d, rfl, hd⟩)⟩
  · rename_i hr
    rcases loadDataSeg_ok h with ⟨hn, rfl⟩ | ⟨d, m, hd, q, rfl⟩
    · exact ⟨_, s, Quiet.refl s, rfl, .inl ⟨hr, hn, rfl⟩⟩
    · exact ⟨_, m, q, rfl, .inr (.inl ⟨hr, d, rfl, hd⟩)⟩

/-! ### Code at a level, a stack at a level -/

/-- CS was loaded with a present code segment that code at the level `l` may run (R194, R294). -/
def CodeAt (l : Level) (c : SegCache) : Prop :=
  ∃ sel d, c = .load (withRPL sel l) d ∧ d.s = true ∧ isCode d.type = true ∧ d.p = true ∧
    (if conforming d.type then d.dpl ≤ l else d.dpl = l)

/-- SS was loaded with a present writable data segment at the level `l` (R193). -/
def StackAt (l : Level) (c : SegCache) : Prop := ∃ sel d, c = .load sel d ∧ StackLoad l sel d

/-- Data segment registers after a transfer: untouched, or after a return to level `l`. -/
def DataKept (l : Level) (c c' : SegCache) : Prop := c' = c ∨ c' = c.afterReturn l

/-- What a transfer leaves: code of level `l`, its stack, memory and ESP changed; the data segment registers
untouched or nulled by a return. -/
structure Moved (l : Level) (s t : State) : Prop where
  same : t = { s with
    mem := t.mem, freeCount := t.freeCount, stored := t.stored, gpr := { s.gpr with esp := t.gpr.esp },
    cs := t.cs, ss := t.ss, ds := t.ds, es := t.es, fs := t.fs, gs := t.gs,
    pc := t.pc, pfx := .none, eflags := t.eflags }
  wf : s.mem.wf = true → t.mem.wf = true
  code : CodeAt l t.cs
  stack : StackAt l t.ss ∨ (t.ss = s.ss ∧ l = s.cpl)
  ds : DataKept l s.ds t.ds
  es : DataKept l s.es t.es
  fs : DataKept l s.fs t.fs
  gs : DataKept l s.gs t.gs

theorem append_low (x : BitVec 14) (y : BitVec 2) : (x ++ y).extractLsb' 0 2 = y := by
  apply BitVec.eq_of_getLsbD_eq
  intro i hi
  rw [BitVec.getLsbD_extractLsb', BitVec.getLsbD_append]
  simp [hi]

theorem withRPL_rpl (sel : Word16) (l : Level) : selRPL (withRPL sel l) = l := append_low _ l

theorem Moved.cpl {l : Level} (h : Moved l s t) : t.cpl = l := by
  obtain ⟨sel, d, hc, -⟩ := h.code
  simp [State.cpl, hc, SegCache.load, withRPL_rpl]

theorem commitCs_ok {cpl : Level} {sel : Word16} {d : Descriptor} {addr newPc : DWord}
    (h : commitCs cpl sel d addr newPc s = .ok (u, t)) :
    ∃ m, Quiet s m ∧ t = { m with cs := .load (withRPL sel cpl) d, pc := newPc, pfx := .none } := by
  simp only [commitCs, bind_ok, modify_run, Except.ok.injEq, Prod.mk.injEq] at h
  obtain ⟨_, m, h1, -, rfl⟩ := h
  exact ⟨m, setAccessed_quiet h1, rfl⟩

theorem fetchTarget_ok {sel : Word16} {d : Descriptor} {addr : DWord}
    (h : fetchTarget sel s = .ok ((d, addr), t)) : Quiet s t ∧ isNull sel = false := by
  simp only [fetchTarget, bind_ok, raiseIf_ok] at h
  obtain ⟨_, _, ⟨hn, rfl⟩, h1⟩ := h
  exact ⟨(fetchDescriptor_ok h1).1, hn⟩

theorem isData_eq (t : BitVec 4) : isData t = !isCode t := rfl

theorem checkCodeDescriptor_ok {cpl : Level} {sel : Word16} {d : Descriptor} {newPc : DWord}
    (h : checkCodeDescriptor cpl sel d newPc s = .ok (u, t)) :
    t = s ∧ isCode d.type = true ∧ codePrivilegeOk cpl sel d = true ∧ d.p = true ∧
      targetInLimit d newPc = true := by
  simp only [checkCodeDescriptor, bind_ok, raiseIf_ok] at h
  obtain ⟨_, _, ⟨c1, rfl⟩, _, _, ⟨c2, rfl⟩, _, _, ⟨c3, rfl⟩, c4, rfl⟩ := h
  exact ⟨rfl, by simpa [isData_eq] using c1, by simpa using c2, by simpa using c3, by simpa using c4⟩

theorem codePrivilege_level {cpl : Level} {sel : Word16} {d : Descriptor} (h : codePrivilegeOk cpl sel d = true) :
    if conforming d.type then d.dpl ≤ cpl else d.dpl = cpl := by
  unfold codePrivilegeOk at h
  split at h <;> simp_all

/-- CS committed at the level `l` after the stack was used: a transfer that keeps its stack. -/
theorem moved_commit {l : Level} {sel : Word16} {d : Descriptor} {addr newPc : DWord} {m : State}
    (q : Stacked s m) (hl : l = s.cpl) (hs : d.s = true) (hc : isCode d.type = true) (hp : d.p = true)
    (hd : if conforming d.type then d.dpl ≤ l else d.dpl = l)
    (h : commitCs l sel d addr newPc m = .ok (u, t)) : Moved l s t := by
  obtain ⟨k, qk, rfl⟩ := commitCs_ok h
  have q2 := q.trans (Stacked.ofQuiet qk)
  refine ⟨?_, q2.wf, ⟨sel, d, rfl, hs, hc, hp, hd⟩, .inr ⟨q2.ss, hl⟩, .inl q2.ds, .inl q2.es, .inl q2.fs,
    .inl q2.gs⟩
  rw [q2.same]

/-- `t` is `s` on the stack of level `l`. -/
structure Switched (l : Level) (s t : State) : Prop where
  same : t = { s with
    mem := t.mem, freeCount := t.freeCount, stored := t.stored, gpr := { s.gpr with esp := t.gpr.esp },
    ss := t.ss }
  wf : s.mem.wf = true → t.mem.wf = true
  stack : StackAt l t.ss ∨ (t.ss = s.ss ∧ l = s.cpl)

theorem Switched.ofStacked {l : Level} (q : Stacked s t) (hl : l = s.cpl) : Switched l s t :=
  ⟨by rw [q.same], q.wf, .inr ⟨q.ss, hl⟩⟩

theorem Switched.stacked {l : Level} {m : State} (h : Switched l s m) (q : Stacked m t) : Switched l s t :=
  ⟨by rw [q.same, h.same], fun w => q.wf (h.wf w), by rw [q.ss]; exact h.stack⟩

theorem Switched.commit {l : Level} {m : State} {sel : Word16} {d : Descriptor} {addr newPc : DWord}
    (q : Switched l s m) (hs : d.s = true) (hc : isCode d.type = true) (hp : d.p = true)
    (hd : if conforming d.type then d.dpl ≤ l else d.dpl = l)
    (h : commitCs l sel d addr newPc m = .ok (u, t)) : Moved l s t := by
  obtain ⟨k, qk, rfl⟩ := commitCs_ok h
  have q2 := q.stacked (Stacked.ofQuiet qk)
  have e := q2.same
  refine ⟨?_, q2.wf, ⟨sel, d, rfl, hs, hc, hp, hd⟩, q2.stack, .inl ?_, .inl ?_, .inl ?_, .inl ?_⟩
  all_goals (dsimp only; rw [e])

theorem readInnerStack_ok {l : Level} {p : Word16 × DWord} (h : readInnerStack l s = .ok (p, t)) : Quiet s t := by
  simp only [readInnerStack, get_bind, bind_ok, refuseIf_ok, pure_run, Except.ok.injEq, Prod.mk.injEq] at h
  obtain ⟨_, _, ⟨-, rfl⟩, _, m1, h1, _, m2, h2, -, rfl⟩ := h
  exact (linRead_quiet h1).trans (linRead_quiet h2)

theorem switched_loadSs {l : Level} {sel : Word16} {m : State} (q : Stacked s m)
    (h : loadSs l sel m = .ok (u, t)) : Switched l s t := by
  obtain ⟨d, k, hd, qk, rfl⟩ := loadSs_ok h
  have q2 := q.trans (Stacked.ofQuiet qk)
  refine ⟨?_, by simpa using q2.wf, .inl ⟨sel, d, rfl, hd⟩⟩
  show ({ k with ss := _ } : State) = _
  rw [q2.same]
  rfl

/-- The switch to an inner stack leaves a stack of that level (R313). -/
theorem switchStack_ok {l : Level} {n : Nat} (h : switchStack l n s = .ok (u, t)) : Switched l s t := by
  simp only [switchStack, get_bind, bind_ok] at h
  obtain ⟨⟨sel, sp⟩, m1, h1, h⟩ := h
  simp only [modify_run, Except.ok.injEq, Prod.mk.injEq] at h
  obtain ⟨_, m2, h2, _, m3, ⟨-, rfl⟩, _, m4, h4, h5⟩ := h
  have q := switched_loadSs (Stacked.ofQuiet (readInnerStack_ok h1)) h2
  exact ((q.stacked (Stacked.ofStackPtr m2 _ _)).stacked (push_ok h4)).stacked (push_ok h5)

theorem refuseTransfer_ok {k : Transfer} (h : refuseTransfer k s = .ok (u, t)) :
    t = s ∧ s.cfg.transfers ≠ .named := by
  simp only [refuseTransfer, get_bind, refuseIf_ok] at h
  exact ⟨h.2, by simpa using h.1⟩

theorem targetLevel_fits {cpl : Level} {d : Descriptor} (h : d.dpl ≤ cpl) :
    (if conforming d.type then d.dpl ≤ targetLevel cpl d else d.dpl = targetLevel cpl d) ∧
      targetLevel cpl d ≤ cpl := by
  unfold targetLevel
  split <;> simp_all

theorem refuseTransfer_bind_ok {k : Transfer} {f : Unit → Op Unit} :
    (refuseTransfer k >>= f) s = .ok (u, t) ↔ s.cfg.transfers ≠ .named ∧ f () s = .ok (u, t) := by
  have hr : (refuseTransfer k >>= f) s = (refuseIf (s.cfg.transfers == .named) (.transfer k) >>= f) s := rfl
  rw [hr, refuseIf_bind_ok]
  simp

/-- What is left of a transfer after accesses to memory. -/
theorem Quiet.moved {l : Level} {m : State} (q : Quiet s m) (h : Moved l m t) : Moved l s t := by
  refine ⟨by rw [h.same, q.same], fun w => h.wf (q.wf w), h.code, ?_, ?_, ?_, ?_, ?_⟩
  · rcases h.stack with hs | ⟨hs, hc⟩
    · exact .inl hs
    · exact .inr ⟨hs.trans q.ss, hc.trans (by simp [State.cpl, q.cs])⟩
  · rw [← q.ds]; exact h.ds
  · rw [← q.es]; exact h.es
  · rw [← q.fs]; exact h.fs
  · rw [← q.gs]; exact h.gs

theorem Quiet.switched {l : Level} {m : State} (q : Quiet s m) (h : Switched l m t) : Switched l s t := by
  refine ⟨by rw [h.same, q.same], fun w => h.wf (q.wf w), ?_⟩
  rcases h.stack with hs | ⟨hs, hc⟩
  · exact .inl hs
  · exact .inr ⟨hs.trans q.ss, hc.trans (by simp [State.cpl, q.cs])⟩

/-- A transfer through a call gate runs at the level of its target, at most the old one numerically (R290). -/
theorem callGate_ok {isCall : Bool} {gateSel : Word16} {gate : Descriptor} {retPc : DWord}
    (h : callGate isCall gateSel gate retPc s = .ok (u, t)) : ∃ l, l ≤ s.cpl ∧ Moved l s t := by
  simp only [callGate, refuseTransfer_bind_ok, get_bind, raiseIf_bind_ok] at h
  obtain ⟨-, -, -, h⟩ := h
  rw [bind_ok] at h
  obtain ⟨⟨d, addr⟩, m1, h1, h⟩ := h
  rw [bind_ok] at h
  obtain ⟨_, m2, h2, h⟩ := h
  simp only [checkGateTarget, raiseIf_bind_ok, raiseIf_ok] at h2
  obtain ⟨c1, c2, c3, c4, rfl⟩ := h2
  rw [raiseIf_bind_ok] at h
  obtain ⟨-, h⟩ := h
  have q1 := (fetchTarget_ok h1).1
  simp only [Bool.or_eq_false_iff, Bool.not_eq_false', isData_eq] at c1
  have hp : d.p = true := by simpa using c4
  obtain ⟨hl, hle⟩ := targetLevel_fits (cpl := s.cpl) (d := d) (by simpa using c2)
  refine ⟨targetLevel s.cpl d, hle, ?_⟩
  cases isCall with
  | false =>
    simp only [Bool.false_eq_true, if_false] at h
    have hsame : targetLevel s.cpl d = s.cpl := by
      unfold targetLevel
      split
      · rfl
      · rename_i hc; simpa [hc] using c3
    exact (Switched.ofStacked (Stacked.ofQuiet q1) hsame).commit c1.1 c1.2 hp hl h
  | true =>
    simp only [if_true] at h
    have hj : ∃ k, Switched (targetLevel s.cpl d) s k ∧
        (pushReturn (targetLevel s.cpl d) gate.gateBytes retPc >>= fun _ =>
          commitCs (targetLevel s.cpl d) gate.gateSelector d addr gate.gateOffset) k = .ok (u, t) := by
      by_cases hsame : targetLevel s.cpl d = s.cpl
      · rw [if_pos hsame] at h
        exact ⟨_, Switched.ofStacked (Stacked.ofQuiet q1) hsame, h⟩
      · rw [if_neg hsame, bind_ok] at h
        obtain ⟨ps, k1, g1, h⟩ := h
        rw [bind_ok] at h
        obtain ⟨_, k2, g2, h⟩ := h
        rw [bind_ok] at h
        obtain ⟨_, k3, g3, h⟩ := h
        exact ⟨k3, (Quiet.switched (q1.trans (readParams_ok g1)) (switchStack_ok g2)).stacked (pushAll_ok g3), h⟩
    obtain ⟨k, q2, h⟩ := hj
    rw [bind_ok] at h
    obtain ⟨_, m3, h3, h4⟩ := h
    exact (q2.stacked (pushReturn_ok h3)).commit c1.1 c1.2 hp hl h4

/-- A far CALL or JMP never raises the numerical privilege level (R290). -/
theorem farTransfer_ok {isCall : Bool} {sel : Word16} {off retPc : DWord}
    (h : farTransfer isCall sel off retPc s = .ok (u, t)) : ∃ l, l ≤ s.cpl ∧ Moved l s t := by
  rw [farTransfer, get_bind, bind_ok] at h
  obtain ⟨⟨d, addr⟩, m1, h1, h⟩ := h
  have q1 := (fetchTarget_ok h1).1
  dsimp only at h
  by_cases hs : d.s = true
  · rw [if_pos hs, bind_ok] at h
    obtain ⟨_, m2, h2, h⟩ := h
    obtain ⟨rfl, hc, hq, hp, -⟩ := checkCodeDescriptor_ok h2
    refine ⟨s.cpl, BitVec.le_refl _, ?_⟩
    cases isCall with
    | true =>
      simp only [if_true] at h
      rw [bind_ok] at h
      obtain ⟨_, m3, h3, h4⟩ := h
      exact moved_commit ((Stacked.ofQuiet q1).trans (pushReturn_ok h3)) rfl hs hc hp (codePrivilege_level hq) h4
    | false =>
      simp only [Bool.false_eq_true, if_false] at h
      exact moved_commit (Stacked.ofQuiet q1) rfl hs hc hp (codePrivilege_level hq) h
  · rw [if_neg hs] at h
    cases hk : systemKind d.type <;> simp only [hk] at h
    case callGate =>
      obtain ⟨l, hl, hm⟩ := callGate_ok h
      have hcpl : m1.cpl = s.cpl := by simp [State.cpl, q1.cs]
      exact ⟨l, hcpl ▸ hl, q1.moved hm⟩
    all_goals exact absurd h (by simp [refuse_run, raise_run])

/-! ### Returns -/

theorem checkReturnDescriptor_ok {l : Level} {sel : Word16} {d : Descriptor} {newPc : DWord}
    (h : checkReturnDescriptor l sel d newPc s = .ok (u, t)) :
    t = s ∧ d.s = true ∧ isCode d.type = true ∧ codePrivilegeOk l sel d = true ∧ d.p = true := by
  simp only [checkReturnDescriptor, bind_ok, raiseIf_ok] at h
  obtain ⟨_, _, ⟨c1, rfl⟩, h⟩ := h
  obtain ⟨rfl, hc, hq, hp, -⟩ := checkCodeDescriptor_ok h
  exact ⟨rfl, by simpa using c1, hc, hq, hp⟩

theorem Moved.nullOuter {l : Level} (h : Moved l s t) (hd : t.ds = s.ds) (he : t.es = s.es) (hf : t.fs = s.fs)
    (hg : t.gs = s.gs) : Moved l s (t.nullOuter l) := by
  refine ⟨?_, h.wf, h.code, h.stack, .inr (by simp [State.nullOuter, hd]), .inr (by simp [State.nullOuter, he]),
    .inr (by simp [State.nullOuter, hf]), .inr (by simp [State.nullOuter, hg])⟩
  unfold State.nullOuter
  rw [h.same]

/-- A return goes to the level its selector names, never to a numerically smaller one (R209). -/
theorem returnTo_ok {n : Nat} {sel : Word16} {newPc k : DWord} (h : returnTo n sel newPc k s = .ok (u, t)) :
    s.cpl ≤ selRPL sel ∧ Moved (selRPL sel) s t := by
  rw [returnTo, get_bind, raiseIf_bind_ok] at h
  obtain ⟨c0, h⟩ := h
  by_cases hsame : selRPL sel = s.cpl
  · rw [if_pos hsame, bind_ok] at h
    obtain ⟨⟨d, addr⟩, m1, h1, h⟩ := h
    rw [bind_ok] at h
    obtain ⟨_, m2, h2, h3⟩ := h
    obtain ⟨rfl, hs, hc, hq, hp⟩ := checkReturnDescriptor_ok h2
    rw [hsame]
    exact ⟨BitVec.le_refl _, moved_commit (Stacked.ofQuiet (fetchTarget_ok h1).1) rfl hs hc hp (codePrivilege_level hq) h3⟩
  · rw [if_neg hsame, returnOuter, refuseTransfer_bind_ok, bind_ok] at h
    obtain ⟨-, sp, m1, h1, h⟩ := h
    rw [bind_ok] at h
    obtain ⟨ssSel, m2, h2, h⟩ := h
    rw [bind_ok] at h
    obtain ⟨⟨d, addr⟩, m3, h3, h⟩ := h
    rw [bind_ok] at h
    obtain ⟨_, m4, h4, h⟩ := h
    obtain ⟨rfl, hs, hc, hq, hp⟩ := checkReturnDescriptor_ok h4
    rw [bind_ok] at h
    obtain ⟨_, m5, h5, h⟩ := h
    rw [modify_bind, bind_ok] at h
    obtain ⟨_, m7, h7, h⟩ := h
    rw [bind_ok] at h
    obtain ⟨_, m8, h8, h⟩ := h
    simp only [modify_run, Except.ok.injEq, Prod.mk.injEq] at h
    obtain ⟨-, rfl⟩ := h
    have q := ((pop_ok h1).trans (pop_ok h2)).trans (Stacked.ofQuiet (fetchTarget_ok h3).1)
    have qs := ((switched_loadSs q h5).stacked (Stacked.ofStackPtr m5 _ _)).stacked (release_ok h7)
    have qm := qs.commit hs hc hp (codePrivilege_level hq) h8
    obtain ⟨k8, qk, rfl⟩ := commitCs_ok h8
    have e := (qs.stacked (Stacked.ofQuiet qk)).same
    refine ⟨by simpa using c0, Moved.nullOuter qm ?_ ?_ ?_ ?_⟩
    all_goals (dsimp only; rw [e])

theorem Stacked.moved {l : Level} {m : State} (q : Stacked s m) (h : Moved l m t) : Moved l s t := by
  refine ⟨by rw [h.same, q.same], fun w => h.wf (q.wf w), h.code, ?_, ?_, ?_, ?_, ?_⟩
  · rcases h.stack with hs | ⟨hs, hc⟩
    · exact .inl hs
    · exact .inr ⟨hs.trans q.ss, hc.trans q.cpl⟩
  · rw [← q.ds]; exact h.ds
  · rw [← q.es]; exact h.es
  · rw [← q.fs]; exact h.fs
  · rw [← q.gs]; exact h.gs

theorem farReturn_ok {k : DWord} (h : farReturn k s = .ok (u, t)) : ∃ l, s.cpl ≤ l ∧ Moved l s t := by
  rw [farReturn, get_bind, bind_ok] at h
  obtain ⟨newPc, m1, h1, h⟩ := h
  rw [bind_ok] at h
  obtain ⟨sel, m2, h2, h⟩ := h
  rw [bind_ok] at h
  obtain ⟨_, m3, h3, h⟩ := h
  have q := ((pop_ok h1).trans (pop_ok h2)).trans (release_ok h3)
  obtain ⟨hl, hm⟩ := returnTo_ok h
  exact ⟨_, q.cpl ▸ hl, q.moved hm⟩

theorem Moved.withFlags {l : Level} (h : Moved l s t) (fl : DWord) : Moved l s { t with eflags := fl } :=
  ⟨by rw [h.same], h.wf, h.code, h.stack, h.ds, h.es, h.fs, h.gs⟩

theorem interruptReturn_ok (h : interruptReturn s = .ok (u, t)) :
    s.nestedTask = false ∧ ∃ l, s.cpl ≤ l ∧ Moved l s t := by
  rw [interruptReturn, get_bind, refuseIf_bind_ok, bind_ok] at h
  obtain ⟨hn, newPc, m1, h1, h⟩ := h
  rw [bind_ok] at h
  obtain ⟨sel, m2, h2, h⟩ := h
  rw [bind_ok] at h
  obtain ⟨image, m3, h3, h⟩ := h
  rw [bind_ok] at h
  obtain ⟨_, m4, h4, h⟩ := h
  simp only [modify_run, Except.ok.injEq, Prod.mk.injEq] at h
  obtain ⟨-, rfl⟩ := h
  have q := ((pop_ok h1).trans (pop_ok h2)).trans (pop_ok h3)
  obtain ⟨hl, hm⟩ := returnTo_ok h4
  exact ⟨hn, _, q.cpl ▸ hl, (q.moved hm).withFlags _⟩

/-! ### Taking an event -/

theorem fetchGate_ok {vector : Byte} {software : Bool} {gate : Descriptor}
    (h : fetchGate vector software s = .ok (gate, t)) :
    Quiet s t ∧ gate.p = true ∧ gate.s = false ∧
      (systemKind gate.type = .interruptGate ∨ systemKind gate.type = .trapGate) ∧
      (software = true → s.cpl ≤ gate.dpl) := by
  rw [fetchGate, get_bind, raiseIf_bind_ok, bind_ok] at h
  obtain ⟨-, g, m1, h1, h⟩ := h
  simp only [raiseIf_bind_ok, refuseIf_bind_ok, pure_run, Except.ok.injEq, Prod.mk.injEq] at h
  obtain ⟨c1, c2, c3, c4, rfl, rfl⟩ := h
  simp only [Descriptor.isIdtGate, Bool.not_eq_false', Bool.and_eq_true, Bool.not_eq_true'] at c1
  refine ⟨readDescriptor_quiet h1, by simpa using c3, c1.1, ?_, ?_⟩
  · cases hk : systemKind g.type <;> simp_all
  · intro hs; simpa [hs] using c2

theorem takeEvent_ok {vector : Byte} {software : Bool} {code : Option Nat} {retPc : DWord}
    (h : takeEvent vector software code retPc s = .ok (u, t)) : ∃ l, l ≤ s.cpl ∧ Moved l s t := by
  rw [takeEvent, bind_ok] at h
  obtain ⟨gate, m1, h1, h⟩ := h
  have q0 := (fetchGate_ok h1).1
  rw [get_bind, bind_ok] at h
  obtain ⟨⟨d, addr⟩, m2, h2, h⟩ := h
  rw [bind_ok] at h
  obtain ⟨_, m3, h3, h⟩ := h
  simp only [checkHandler, raiseIf_bind_ok, raiseIf_ok] at h3
  obtain ⟨c1, c2, c3, -, rfl⟩ := h3
  have q1 := (fetchTarget_ok h2).1
  have hcpl : m1.cpl = s.cpl := by simp [State.cpl, q0.cs]
  simp only [Bool.or_eq_false_iff, Bool.not_eq_false', isData_eq] at c1
  obtain ⟨hl, hle⟩ := targetLevel_fits (cpl := m1.cpl) (d := d) (by simpa using c2)
  refine ⟨targetLevel m1.cpl d, hcpl ▸ hle, q0.moved ?_⟩
  have hj : ∃ k, Switched (targetLevel m1.cpl d) m1 k ∧
      (push (targetLevel m1.cpl d) gate.gateBytes m1.eflags.toNat >>= fun _ =>
        pushReturn (targetLevel m1.cpl d) gate.gateBytes retPc >>= fun _ =>
        pushErrorCode (targetLevel m1.cpl d) gate.gateBytes code >>= fun _ =>
        commitCs (targetLevel m1.cpl d) gate.gateSelector d addr gate.gateOffset >>= fun _ =>
        modify fun t => { t with
          eflags := entryFlags (systemKind gate.type == .interruptGate) m1.eflags }) k = .ok (u, t) := by
    dsimp only at h
    by_cases hsame : targetLevel m1.cpl d = m1.cpl
    · rw [if_pos hsame] at h
      exact ⟨_, Switched.ofStacked (Stacked.ofQuiet q1) hsame, h⟩
    · rw [if_neg hsame, bind_ok] at h
      obtain ⟨_, k2, g2, h⟩ := h
      exact ⟨k2, Quiet.switched q1 (switchStack_ok g2), h⟩
  obtain ⟨k, qk, h⟩ := hj
  rw [bind_ok] at h
  obtain ⟨_, m4, h4, h⟩ := h
  rw [bind_ok] at h
  obtain ⟨_, m5, h5, h⟩ := h
  rw [bind_ok] at h
  obtain ⟨_, m6, h6, h⟩ := h
  rw [bind_ok] at h
  obtain ⟨_, m7, h7, h⟩ := h
  simp only [modify_run, Except.ok.injEq, Prod.mk.injEq] at h
  obtain ⟨-, rfl⟩ := h
  exact ((((qk.stacked (push_ok h4)).stacked (pushReturn_ok h5)).stacked (pushErrorCode_ok h6)).commit c1.1 c1.2
    (by simpa using c3) hl h7).withFlags _

end Sys2Proof.Laws
end

