-- ==== Sys2Proof/Laws/Exec.lean ====
section
/-! SUPPORT. What each instruction can do when `exec` gives a next state, with paging on or off: one lemma per
instruction or per group that shares its meaning. -/

namespace Sys2Proof.Laws

open Sys2Proof Sys2Proof.Machine

variable {s t : State}

/-- The step delivered an exception of the state before it (R312, R313; policy `delivered` only). -/
def Delivered (s t : State) : Prop :=
  s.cfg.transfers = .delivered ∧
    ∃ x : Exn, takeEvent x.vector false x.errorCode s.pcOffset (s.undone.noteFault x) = .ok ((), t)

theorem conclude_cases {op : Op Unit} (h : conclude s op = .next t) : Delivered s t ∨ op s = .ok ((), t) := by
  rcases conclude_next.1 h with h | ⟨e, -, h2⟩
  · exact .inr h
  · obtain ⟨hd, x, -, hx⟩ := stopped_next.1 h2
    exact .inl ⟨hd, x, hx⟩

/-- What a direct load may leave in segment register `r` (R192, R193). -/
def LoadedSeg (s : State) (r : SReg) (sel : Word16) (c : SegCache) : Prop :=
  (r ≠ .ss ∧ isNull sel = true ∧ c = (s.seg r).loadNull sel) ∨
    (r ≠ .ss ∧ ∃ d, c = .load sel d ∧ DataLoad s.cpl sel d) ∨
    (r = .ss ∧ ∃ d, c = .load sel d ∧ StackLoad s.cpl sel d)

theorem loadSeg_after {m : State} {u : Unit} {r : SReg} {sel : Word16} (q : Quiet s m)
    (h : loadSeg r sel m = .ok (u, t)) : ∃ c k, Quiet s k ∧ t = k.setSeg r c ∧ LoadedSeg s r sel c := by
  obtain ⟨c, k, qk, rfl, hc⟩ := loadSeg_ok h
  refine ⟨c, k, q.trans qk, rfl, ?_⟩
  have hcpl : m.cpl = s.cpl := by simp [State.cpl, q.cs]
  simpa only [LoadedSeg, q.seg, hcpl] using hc

/-! ### Direct loads and stores of selectors -/

theorem movToSreg_next {b : BitVec 3} {src : RM} (h : exec (.movToSreg b src) s = .next t) :
    Delivered s t ∨ ∃ r sel c m, SReg.ofBits b = some r ∧ r ≠ .cs ∧ Quiet s m ∧ LoadedSeg s r sel c ∧
      t = (m.setSeg r c).advance (.movToSreg b src) := by
  refine (conclude_cases h).imp_right fun h => ?_
  rw [bind_ok] at h
  obtain ⟨sel, m, h1, h⟩ := h
  have q := readRm16_ok h1
  cases hb : SReg.ofBits b with
  | none => simp only [hb] at h; cases h
  | some r =>
    have hr : r ≠ .cs := by rintro rfl; simp only [hb] at h; cases h
    have h' : (loadSeg r sel >>= fun _ => advance (.movToSreg b src)) m = .ok ((), t) := by
      cases r
      case cs => exact absurd rfl hr
      all_goals (simp only [hb] at h; exact h)
    rw [bind_ok] at h'
    obtain ⟨_, k, h2, h3⟩ := h'
    obtain ⟨c, n, qn, rfl, hc⟩ := loadSeg_after q h2
    cases h3
    exact ⟨r, sel, c, n, rfl, hr, qn, hc, rfl⟩

/-- What a selector stored to an operand leaves. -/
def SelectorStored (s t : State) (v : Word16) (dst : RM) (i : Instr) : Prop :=
  (∃ r, dst = .reg r ∧ t = (if s.mode.op32 then s.setReg r (v.setWidth 32) else s.setReg16 r v).advance i) ∨
    ∃ e m, dst = .mem e ∧ Quiet s m ∧ t = m.advance i

theorem selectorStored {v : Word16} {dst : RM} {i : Instr}
    (h : (writeSelector dst v >>= fun _ => advance i) s = .ok ((), t)) : SelectorStored s t v dst i := by
  rw [bind_ok] at h
  obtain ⟨_, m, h1, h2⟩ := h
  cases h2
  rcases writeSelector_ok h1 with ⟨r, rfl, rfl⟩ | ⟨⟨e, rfl⟩, q⟩
  · exact .inl ⟨r, rfl, rfl⟩
  · exact .inr ⟨e, m, rfl, q, rfl⟩

theorem movFromSreg_next {b : BitVec 3} {dst : RM} (h : exec (.movFromSreg b dst) s = .next t) :
    Delivered s t ∨ ∃ r, SReg.ofBits b = some r ∧ SelectorStored s t (s.seg r).sel dst (.movFromSreg b dst) := by
  refine (conclude_cases h).imp_right fun h => ?_
  cases hb : SReg.ofBits b with
  | none => simp only [hb] at h; cases h
  | some r => simp only [hb] at h; exact ⟨r, rfl, selectorStored h⟩

theorem sldt_next {dst : RM} (h : exec (.sldt dst) s = .next t) :
    Delivered s t ∨ SelectorStored s t s.ldtr.sel dst (.sldt dst) :=
  (conclude_cases h).imp_right selectorStored

theorem str_next {dst : RM} (h : exec (.str dst) s = .next t) :
    Delivered s t ∨ SelectorStored s t s.tr.sel dst (.str dst) :=
  (conclude_cases h).imp_right selectorStored

theorem popSeg_ok {r : SReg} {i : Instr} {u : Unit} (h : popSeg r i s = .ok (u, t)) :
    ∃ sel c m, Quiet s m ∧ LoadedSeg s r sel c ∧
      t = ((m.setSeg r c).setStackPtr s.ss.db (s.stackMoved (BitVec.ofNat 32 s.opBytes))).advance i := by
  rw [popSeg, get_bind, bind_ok] at h
  obtain ⟨v, m, h1, h⟩ := h
  rw [bind_ok] at h
  obtain ⟨_, k, h2, h⟩ := h
  obtain ⟨c, n, qn, rfl, hc⟩ := loadSeg_after (stackTop_ok h1) h2
  cases h
  exact ⟨_, c, n, qn, hc, rfl⟩

/-- POP of a segment register (R201). -/
theorem pop_next {i : Instr} {r : SReg}
    (hi : (i, r) ∈ [(Instr.popEs, SReg.es), (.popSs, .ss), (.popDs, .ds), (.popFs, .fs), (.popGs, .gs)])
    (h : exec i s = .next t) :
    Delivered s t ∨ ∃ sel c m, Quiet s m ∧ LoadedSeg s r sel c ∧
      t = ((m.setSeg r c).setStackPtr s.ss.db (s.stackMoved (BitVec.ofNat 32 s.opBytes))).advance i := by
  simp only [List.mem_cons, Prod.mk.injEq, List.not_mem_nil, or_false] at hi
  rcases hi with ⟨rfl, rfl⟩ | ⟨rfl, rfl⟩ | ⟨rfl, rfl⟩ | ⟨rfl, rfl⟩ | ⟨rfl, rfl⟩ <;>
    exact (conclude_cases h).imp_right popSeg_ok

theorem loadPointer_ok {r : SReg} {q : Reg} {src : RM} {i : Instr} {u : Unit}
    (h : loadPointer r q src i s = .ok (u, t)) :
    ∃ e sel off c m, src = .mem e ∧ Quiet s m ∧ LoadedSeg s r sel c ∧
      t = ((m.setSeg r c).regWritten q off).advance i := by
  rw [loadPointer, bind_ok] at h
  obtain ⟨e, m0, h0, h⟩ := h
  obtain ⟨rfl, rfl⟩ := memOperand_ok h0
  rw [bind_ok] at h
  obtain ⟨⟨off, sel⟩, m, h1, h⟩ := h
  rw [bind_ok] at h
  obtain ⟨_, k, h2, h⟩ := h
  obtain ⟨c, n, qn, rfl, hc⟩ := loadSeg_after (readFarPointer_ok h1) h2
  cases h
  exact ⟨e, sel, off, c, n, rfl, qn, hc, rfl⟩

/-- LDS, LES, LSS, LFS, LGS (R202 to R206). -/
theorem loadPointer_next {i : Instr} {r : SReg} {q : Reg} {src : RM}
    (hi : (i, r) ∈ [(Instr.lds q src, SReg.ds), (.les q src, .es), (.lss q src, .ss), (.lfs q src, .fs),
      (.lgs q src, .gs)]) (h : exec i s = .next t) :
    Delivered s t ∨ ∃ e sel off c m, src = .mem e ∧ Quiet s m ∧ LoadedSeg s r sel c ∧
      t = ((m.setSeg r c).regWritten q off).advance i := by
  simp only [List.mem_cons, Prod.mk.injEq, List.not_mem_nil, or_false] at hi
  rcases hi with ⟨rfl, rfl⟩ | ⟨rfl, rfl⟩ | ⟨rfl, rfl⟩ | ⟨rfl, rfl⟩ | ⟨rfl, rfl⟩ <;>
    exact (conclude_cases h).imp_right loadPointer_ok

/-! ### Transfers -/

theorem jmpPtr_next {off : DWord} {sel : Word16} (h : exec (.jmpPtr off sel) s = .next t) :
    Delivered s t ∨ ∃ l, l ≤ s.cpl ∧ Moved l s t :=
  (conclude_cases h).imp_right farTransfer_ok

theorem callPtr_next {off : DWord} {sel : Word16} (h : exec (.callPtr off sel) s = .next t) :
    Delivered s t ∨ ∃ l, l ≤ s.cpl ∧ Moved l s t :=
  (conclude_cases h).imp_right farTransfer_ok

theorem farMem_ok {isCall : Bool} {src : RM} {retPc : DWord} {u : Unit}
    (h : (memOperand src >>= fun e => readFarPointer e >>= fun p =>
      farTransfer isCall p.2 p.1 retPc) s = .ok (u, t)) : ∃ l, l ≤ s.cpl ∧ Moved l s t := by
  rw [bind_ok] at h
  obtain ⟨e, m0, h0, h⟩ := h
  obtain ⟨rfl, rfl⟩ := memOperand_ok h0
  rw [bind_ok] at h
  obtain ⟨p, m, h1, h⟩ := h
  have q := readFarPointer_ok h1
  obtain ⟨l, hl, hm⟩ := farTransfer_ok h
  have hcpl : m.cpl = m0.cpl := by simp [State.cpl, q.cs]
  exact ⟨l, hcpl ▸ hl, q.moved hm⟩

theorem jmpMem_next {src : RM} (h : exec (.jmpMem src) s = .next t) :
    Delivered s t ∨ ∃ l, l ≤ s.cpl ∧ Moved l s t :=
  (conclude_cases h).imp_right farMem_ok

theorem callMem_next {src : RM} (h : exec (.callMem src) s = .next t) :
    Delivered s t ∨ ∃ l, l ≤ s.cpl ∧ Moved l s t :=
  (conclude_cases h).imp_right farMem_ok

theorem retFar_next (h : exec .retFar s = .next t) : Delivered s t ∨ ∃ l, s.cpl ≤ l ∧ Moved l s t :=
  (conclude_cases h).imp_right farReturn_ok

theorem retFarImm_next {imm : Word16} (h : exec (.retFarImm imm) s = .next t) :
    Delivered s t ∨ ∃ l, s.cpl ≤ l ∧ Moved l s t :=
  (conclude_cases h).imp_right farReturn_ok

theorem iret_next (h : exec .iret s = .next t) :
    Delivered s t ∨ (s.nestedTask = false ∧ ∃ l, s.cpl ≤ l ∧ Moved l s t) :=
  (conclude_cases h).imp_right interruptReturn_ok

theorem sysenter_next (h : exec .sysenter s = .next t) :
    Delivered s t ∨ (isNull (s.sysenterCs.extractLsb' 0 16) = false ∧ t = s.enterSystem) := by
  refine (conclude_cases h).imp_right fun h => ?_
  rw [refuseTransfer_bind_ok, raiseIf_bind_ok] at h
  exact ⟨h.2.1, by cases h.2.2; rfl⟩

theorem sysexit_next (h : exec .sysexit s = .next t) : Delivered s t ∨ (s.cpl = 0 ∧ t = s.exitSystem) := by
  refine (conclude_cases h).imp_right fun h => ?_
  rw [refuseTransfer_bind_ok, raiseIf_bind_ok] at h
  exact ⟨by simpa using h.2.1, by cases h.2.2; rfl⟩

theorem int_next {n : Byte} (h : exec (.int n) s = .next t) :
    Delivered s t ∨ ∃ l, l ≤ s.cpl ∧ Moved l s t := by
  refine (conclude_cases h).imp_right fun h => ?_
  rw [refuseTransfer_bind_ok] at h
  exact takeEvent_ok h.2

theorem overflowTrap_ok {retPc : DWord} {u : Unit} (h : overflowTrap retPc s = .ok (u, t)) :
    ∃ l, l ≤ s.cpl ∧ Moved l s t := by
  rw [overflowTrap, get_bind, raiseIf_bind_ok] at h
  exact takeEvent_ok h.2

theorem int3_next (h : exec .int3 s = .next t) : Delivered s t ∨ ∃ l, l ≤ s.cpl ∧ Moved l s t := by
  refine (conclude_cases h).imp_right fun h => ?_
  rw [refuseTransfer_bind_ok] at h
  exact takeEvent_ok h.2

theorem into_next (h : exec .into s = .next t) :
    Delivered s t ∨ (s.overflowFlag = true ∧ ∃ l, l ≤ s.cpl ∧ Moved l s t) ∨
      (s.overflowFlag = false ∧ t = s.advance .into) := by
  refine (conclude_cases h).imp_right fun h => ?_
  cases ho : s.overflowFlag with
  | true => rw [ho, if_pos rfl] at h; exact .inl ⟨rfl, overflowTrap_ok h⟩
  | false => rw [ho, if_neg (by simp)] at h; cases h; exact .inr ⟨rfl, rfl⟩

/-! ### System-table registers -/

theorem loadLdtr_ok {sel : Word16} {u : Unit} (h : loadLdtr sel s = .ok (u, t)) :
    ∃ r m, Quiet s m ∧ t = { m with ldtr := r } ∧ r.sel = sel ∧ r.ldtInv = true := by
  unfold loadLdtr at h
  split at h
  · cases h
    exact ⟨_, s, Quiet.refl s, rfl, rfl, rfl⟩
  · rw [raiseIf_bind_ok, bind_ok] at h
    obtain ⟨-, ⟨d, addr⟩, m, h1, h⟩ := h
    rw [bind_ok] at h
    obtain ⟨_, m2, h2, h⟩ := h
    simp only [checkLdtDescriptor, raiseIf_bind_ok, raiseIf_ok] at h2
    obtain ⟨c1, c2, rfl⟩ := h2
    cases h
    simp only [Bool.or_eq_false_iff, bne_eq_false_iff_eq] at c1
    refine ⟨_, m2, (fetchDescriptor_ok h1).1, rfl, rfl, ?_⟩
    have hp : d.p = true := by simpa using c2
    simp [SysReg.ldtInv, SysReg.load, c1.1, c1.2, hp]

theorem busyTss {ty : BitVec 4} (h : availableTss ty = true) : systemKind (ty ||| 2) = .tss := by
  simp only [availableTss, Bool.or_eq_true, beq_iff_eq] at h
  rcases h with rfl | rfl <;> rfl

theorem loadTr_ok {sel : Word16} {u : Unit} (h : loadTr sel s = .ok (u, t)) :
    ∃ r m, Quiet s m ∧ t = { m with tr := r } ∧ r.sel = sel ∧ r.tssInv = true := by
  rw [loadTr, raiseIf_bind_ok, raiseIf_bind_ok, bind_ok] at h
  obtain ⟨-, -, ⟨d, addr⟩, m, h1, h⟩ := h
  rw [bind_ok] at h
  obtain ⟨_, m2, h2, h⟩ := h
  simp only [checkTssDescriptor, raiseIf_bind_ok, raiseIf_ok] at h2
  obtain ⟨c1, c2, rfl⟩ := h2
  rw [bind_ok] at h
  obtain ⟨_, m3, h3, h⟩ := h
  cases h
  simp only [Bool.or_eq_false_iff, Bool.not_eq_false'] at c1
  refine ⟨_, m3, (fetchDescriptor_ok h1).1.trans (setAccessByte_quiet h3), rfl, rfl, ?_⟩
  have hp : d.p = true := by simpa using c2
  simp [SysReg.tssInv, SysReg.load, c1.1, hp]
  exact busyTss c1.2

theorem lldt_next {src : RM} (h : exec (.lldt src) s = .next t) :
    Delivered s t ∨ (s.cpl = 0 ∧ ∃ r m, Quiet s m ∧ r.ldtInv = true ∧
      t = ({ m with ldtr := r } : State).advance (.lldt src)) := by
  refine (conclude_cases h).imp_right fun h => ?_
  rw [raiseIf_bind_ok, bind_ok] at h
  obtain ⟨hc, sel, m, h1, h⟩ := h
  rw [bind_ok] at h
  obtain ⟨_, k, h2, h3⟩ := h
  obtain ⟨r, n, qn, rfl, -, hr⟩ := loadLdtr_ok h2
  cases h3
  exact ⟨by simpa using hc, r, n, (readRm16_ok h1).trans qn, hr, rfl⟩

theorem ltr_next {src : RM} (h : exec (.ltr src) s = .next t) :
    Delivered s t ∨ (s.cpl = 0 ∧ ∃ r m, Quiet s m ∧ r.tssInv = true ∧
      t = ({ m with tr := r } : State).advance (.ltr src)) := by
  refine (conclude_cases h).imp_right fun h => ?_
  rw [raiseIf_bind_ok, bind_ok] at h
  obtain ⟨hc, sel, m, h1, h⟩ := h
  rw [bind_ok] at h
  obtain ⟨_, k, h2, h3⟩ := h
  obtain ⟨r, n, qn, rfl, -, hr⟩ := loadTr_ok h2
  cases h3
  exact ⟨by simpa using hc, r, n, (readRm16_ok h1).trans qn, hr, rfl⟩

theorem storeTable_ok {r : TableReg} {dst : RM} {u : Unit} (h : storeTable r dst s = .ok (u, t)) :
    ∃ e, dst = .mem e ∧ Quiet s t := by
  rw [storeTable, bind_ok] at h
  obtain ⟨e, m0, h0, h⟩ := h
  obtain ⟨rfl, rfl⟩ := memOperand_ok h0
  rw [get_bind, bind_ok] at h
  obtain ⟨_, m, h1, h2⟩ := h
  exact ⟨e, rfl, (segWrite_quiet h1).trans (segWrite_quiet h2)⟩

theorem sgdt_next {dst : RM} (h : exec (.sgdt dst) s = .next t) :
    Delivered s t ∨ ∃ e m, dst = .mem e ∧ Quiet s m ∧ t = m.advance (.sgdt dst) := by
  refine (conclude_cases h).imp_right fun h => ?_
  rw [bind_ok] at h
  obtain ⟨_, m, h1, h2⟩ := h
  obtain ⟨e, rfl, q⟩ := storeTable_ok h1
  cases h2
  exact ⟨e, m, rfl, q, rfl⟩

theorem sidt_next {dst : RM} (h : exec (.sidt dst) s = .next t) :
    Delivered s t ∨ ∃ e m, dst = .mem e ∧ Quiet s m ∧ t = m.advance (.sidt dst) := by
  refine (conclude_cases h).imp_right fun h => ?_
  rw [bind_ok] at h
  obtain ⟨_, m, h1, h2⟩ := h
  obtain ⟨e, rfl, q⟩ := storeTable_ok h1
  cases h2
  exact ⟨e, m, rfl, q, rfl⟩

theorem readTable_ok {src : RM} {r : TableReg} (h : readTable src s = .ok (r, t)) :
    ∃ e, src = .mem e ∧ s.cpl = 0 ∧ Quiet s t := by
  rw [readTable, bind_ok] at h
  obtain ⟨e, m0, h0, h⟩ := h
  obtain ⟨rfl, rfl⟩ := memOperand_ok h0
  rw [get_bind, raiseIf_bind_ok, bind_ok] at h
  obtain ⟨hc, v, m, h1, h⟩ := h
  rw [bind_ok] at h
  obtain ⟨w, k, h2, h3⟩ := h
  cases h3
  exact ⟨e, rfl, by simpa using hc, (segRead_quiet h1).trans (segRead_quiet h2)⟩

theorem lgdt_next {src : RM} (h : exec (.lgdt src) s = .next t) :
    Delivered s t ∨ (s.cpl = 0 ∧ ∃ r m, Quiet s m ∧ t = ({ m with gdtr := r } : State).advance (.lgdt src)) := by
  refine (conclude_cases h).imp_right fun h => ?_
  rw [bind_ok] at h
  obtain ⟨r, m, h1, h2⟩ := h
  obtain ⟨e, rfl, hc, q⟩ := readTable_ok h1
  cases h2
  exact ⟨hc, r, m, q, rfl⟩

theorem lidt_next {src : RM} (h : exec (.lidt src) s = .next t) :
    Delivered s t ∨ (s.cpl = 0 ∧ ∃ r m, Quiet s m ∧ t = ({ m with idtr := r } : State).advance (.lidt src)) := by
  refine (conclude_cases h).imp_right fun h => ?_
  rw [bind_ok] at h
  obtain ⟨r, m, h1, h2⟩ := h
  obtain ⟨e, rfl, hc, q⟩ := readTable_ok h1
  cases h2
  exact ⟨hc, r, m, q, rfl⟩

end Sys2Proof.Laws
end

