-- ==== Sys2Proof/Laws/Flat.lean ====
section
/-! SUPPORT. With paging off (R66), what each operation on memory, the stack and descriptors answers, as the plain
functions of Safety. -/

namespace Sys2Proof.Laws

open Sys2Proof Sys2Proof.Machine

variable {s : State}

/-- The physical addresses of `n` bytes with paging off. -/
def linearBytes (la : DWord) (n : Nat) : List PhysAddr :=
  match n with
  | 0 => []
  | n + 1 => la.setWidth 36 :: linearBytes (la + 1) n

theorem phys_off (hp : s.pagingEnabled = false) (la : DWord) (kind : AccessKind) (cpl : Level) :
    phys la kind cpl s = .ok (la.setWidth 36, s) := by
  simp [phys, hp]

theorem physBytes_off (hp : s.pagingEnabled = false) (la : DWord) (n : Nat) (kind : AccessKind) (cpl : Level) :
    physBytes la n kind cpl s = .ok (linearBytes la n, s) := by
  induction n generalizing la with
  | zero => rfl
  | succ n ih =>
    rw [physBytes, bind_of_ok (phys_off hp la kind cpl), bind_of_ok (ih (la + 1))]
    rfl

theorem readPhys_memory {pa : PhysAddr} (h : s.kindAt pa = .ram ∨ s.kindAt pa = .rom) :
    readPhys pa s = .ok (s.mem.read pa, s) := by
  rcases h with h | h <;> simp [readPhys, h]

theorem readBytes_off {la : DWord} {n : Nat} (h : s.readableAt la n = true) :
    readBytes (linearBytes la n) s = .ok (s.bytesAt la n, s) := by
  induction n generalizing la with
  | zero => rfl
  | succ n ih =>
    simp only [State.readableAt, Bool.and_eq_true, Bool.or_eq_true, beq_iff_eq] at h
    rw [linearBytes, readBytes, bind_of_ok (readPhys_memory h.1), bind_of_ok (ih h.2)]
    rfl

theorem linRead_off (hp : s.pagingEnabled = false) {la : DWord} {n : Nat} (cpl : Level)
    (h : s.readableAt la n = true) : linRead la n cpl s = .ok (s.valueAt la n, s) := by
  rw [linRead, bind_of_ok (physBytes_off hp la n .read cpl), bind_of_ok (readBytes_off h)]
  rfl

theorem writePhys_ram (who : Writer) (la : DWord) {pa : PhysAddr} (b : Byte) (h : s.kindAt pa = .ram) :
    writePhys who la pa b s = .ok ((), s.storeByte pa b) := by
  simp [writePhys, h]

/-- A store does not change which addresses are RAM. -/
@[simp] theorem storeByte_ramAt (pa : PhysAddr) (b : Byte) (la : DWord) (n : Nat) :
    (s.storeByte pa b).ramAt la n = s.ramAt la n := by
  induction n generalizing la with
  | zero => rfl
  | succ n ih => simp only [State.ramAt, ih]; rfl

theorem writeBytes_off (who : Writer) {la : DWord} {bs : List Byte} (h : s.ramAt la bs.length = true) :
    writeBytes who la (linearBytes la bs.length) bs s = .ok ((), s.storeBytes la bs) := by
  induction bs generalizing la s with
  | nil => rfl
  | cons b rest ih =>
    simp only [List.length_cons, State.ramAt, Bool.and_eq_true, beq_iff_eq] at h
    rw [List.length_cons, linearBytes, writeBytes, bind_of_ok (writePhys_ram who la b h.1)]
    exact ih (by simpa using h.2)

theorem linWrite_off (hp : s.pagingEnabled = false) (who : Writer) {la : DWord} {n : Nat} (v : Nat) (cpl : Level)
    (h : s.ramAt la n = true) : linWrite who la n v cpl s = .ok ((), s.storeValue la n v) := by
  have hw := writeBytes_off who (la := la) (bs := leBytes n v) (by simpa using h)
  rw [leBytes_length] at hw
  rw [linWrite, bind_of_ok (physBytes_off hp la n .write cpl)]
  exact hw

/-! ### References through a segment register -/

theorem segRead_off (hp : s.pagingEnabled = false) {r : SReg} {off n : Nat} {cpl : Level}
    (h : s.refOk r off n .read cpl = true) :
    segRead r off n cpl s = .ok (s.valueAt (s.refAddr r off) n, s) := by
  simp only [State.refOk, State.refChecked, Bool.and_eq_true, Bool.not_eq_true'] at h
  obtain ⟨⟨⟨⟨hv, hl⟩, ht⟩, ha⟩, hr⟩ := h
  have htr : Machine.translate s.cfg r (s.seg r) off n .read = .ok (s.refAddr r off) := by
    simp [Machine.translate, hv, hl, ht, State.refAddr]
  rw [segRead, get_bind, bind_of_ok (check_ok.2 ⟨htr, rfl⟩), raiseIf_bind_false ha]
  exact linRead_off hp cpl hr

theorem segWrite_off (hp : s.pagingEnabled = false) {r : SReg} {off n : Nat} (v : Nat) {cpl : Level}
    (h : s.refOk r off n .write cpl = true) :
    segWrite r off n v cpl s = .ok ((), s.storeValue (s.refAddr r off) n v) := by
  simp only [State.refOk, State.refChecked, Bool.and_eq_true, Bool.not_eq_true'] at h
  obtain ⟨⟨⟨⟨hv, hl⟩, ht⟩, ha⟩, hr⟩ := h
  have htr : Machine.translate s.cfg r (s.seg r) off n .write = .ok (s.refAddr r off) := by
    simp [Machine.translate, hv, hl, ht, State.refAddr]
  rw [segWrite, get_bind, bind_of_ok (check_ok.2 ⟨htr, rfl⟩), raiseIf_bind_false ha]
  exact linWrite_off hp .program v cpl hr

/-! ### What stores leave -/

/-- Bytes stored change memory and the model's list of stores only. -/
theorem storeBytes_quiet (s : State) (la : DWord) (bs : List Byte) : Quiet s (s.storeBytes la bs) := by
  induction bs generalizing la s with
  | nil => exact Quiet.refl s
  | cons b rest ih => exact (quiet_storeByte s _ b).trans (ih _ _)

theorem storeValue_quiet (s : State) (la : DWord) (n v : Nat) : Quiet s (s.storeValue la n v) :=
  storeBytes_quiet s la _

theorem marked_quiet (s : State) (d : Descriptor) (addr : DWord) : Quiet s (s.marked d addr) := by
  unfold State.marked
  split
  · exact Quiet.refl s
  · exact quiet_storeByte s _ _

/-! ### Operands and the stack -/

theorem readRm16_off (hp : s.pagingEnabled = false) {o : RM} (h : s.sourceOk o = true) :
    readRm16 o s = .ok (s.sourceValue o, s) := by
  cases o with
  | reg r => rfl
  | mem e =>
    rw [readRm16, get_bind]
    exact bind_of_ok (segRead_off hp h)

theorem writeSelector_off (hp : s.pagingEnabled = false) {o : RM} (v : Word16) (h : s.destOk o = true) :
    writeSelector o v s = .ok ((), s.destWritten v o) := by
  cases o with
  | reg r => rfl
  | mem e =>
    rw [writeSelector, get_bind]
    exact segWrite_off hp v.toNat h

theorem readFarPointer_off (hp : s.pagingEnabled = false) {e : Ea} (h : s.pointerOk e = true) :
    readFarPointer e s = .ok ((s.pointerOff e, s.pointerSel e), s) := by
  simp only [State.pointerOk, Bool.and_eq_true] at h
  rw [readFarPointer, get_bind]
  exact (bind_of_ok (segRead_off hp h.1)).trans ((bind_of_ok (segRead_off hp h.2)).trans rfl)

theorem push_off (hp : s.pagingEnabled = false) {cpl : Level} {n : Nat} (v : Nat) (h : s.pushOk cpl n = true) :
    push cpl n v s = .ok ((), s.pushed n v) := by
  rw [push, get_bind]
  refine (bind_of_ok (segWrite_off hp v h)).trans ?_
  rw [modify_run, (storeValue_quiet s _ n v).ss]
  rfl

theorem stackTop_off (hp : s.pagingEnabled = false) {n : Nat} (h : s.topOk n = true) :
    stackTop n s = .ok (s.topValue n, s) := by
  rw [stackTop, get_bind]
  exact segRead_off hp h

theorem pop_off (hp : s.pagingEnabled = false) {n : Nat} (h : s.topOk n = true) :
    pop n s = .ok (s.topValue n, s.released (BitVec.ofNat 32 n)) := by
  rw [pop, bind_of_ok (stackTop_off hp h)]
  rfl

theorem pushed_pagingEnabled (n v : Nat) : (s.pushed n v).pagingEnabled = s.pagingEnabled := by
  simp [State.pushed, (storeValue_quiet s _ n v).pagingEnabled]

theorem pushReturn_off (hp : s.pagingEnabled = false) {cpl : Level} {n : Nat} (retPc : DWord)
    (h : s.pushReturnOk cpl n = true) : pushReturn cpl n retPc s = .ok ((), s.returnPushed n retPc) := by
  simp only [State.pushReturnOk, Bool.and_eq_true] at h
  rw [pushReturn, get_bind, bind_of_ok (push_off hp _ h.1)]
  exact push_off (by rw [pushed_pagingEnabled, hp]) _ h.2

theorem pushAll_off (hp : s.pagingEnabled = false) {cpl : Level} {n : Nat} {vs : List Nat}
    (h : s.pushAllOk cpl n vs = true) : pushAll cpl n vs s = .ok ((), s.pushedAll n vs) := by
  induction vs generalizing s with
  | nil => rfl
  | cons v rest ih =>
    simp only [State.pushAllOk, Bool.and_eq_true] at h
    rw [pushAll, bind_of_ok (push_off hp v h.1)]
    exact ih (by rw [pushed_pagingEnabled, hp]) h.2

/-! ### Descriptors and the loads -/

theorem readDescriptor_off (hp : s.pagingEnabled = false) {addr : DWord} (h : s.descriptorReadable addr = true) :
    readDescriptor addr s = .ok (s.descriptorAt addr, s) := by
  simp only [State.descriptorReadable, Bool.and_eq_true] at h
  rw [readDescriptor, bind_of_ok (linRead_off hp supervisor h.1), bind_of_ok (linRead_off hp supervisor h.2)]
  rfl

theorem fetchDescriptor_off (hp : s.pagingEnabled = false) {sel : Word16} (h : s.fetchOk sel = true) :
    fetchDescriptor sel s = .ok ((s.named sel, s.descriptorAddr sel), s) := by
  simp only [State.fetchOk, State.inLimit, Bool.and_eq_true, Bool.not_eq_true', decide_eq_true_eq] at h
  obtain ⟨⟨⟨hv, hl⟩, hr⟩, hb⟩ := h
  rw [fetchDescriptor, get_bind, raiseIf_bind_false (by simp [hv]), raiseIf_bind_false (by simpa using hl),
    bind_of_ok (readDescriptor_off hp hr)]
  exact refuseIf_bind_false hb

/-- A descriptor inside its table with the reserved bit set is refused by name, with paging off (R102, R196). -/
theorem fetchDescriptor_reserved (hp : s.pagingEnabled = false) {sel : Word16} (hl : s.inLimit sel = true)
    (hd : s.descriptorReadable (s.descriptorAddr sel) = true) (hb : (s.named sel).reservedBitSet = true) :
    fetchDescriptor sel s = .error (.refused .reservedDescriptorBit) := by
  simp only [State.inLimit, Bool.and_eq_true, decide_eq_true_eq] at hl
  rw [fetchDescriptor, get_bind, raiseIf_bind_false (by simp [hl.1]), raiseIf_bind_false (by simpa using hl.2),
    bind_of_ok (readDescriptor_off hp hd)]
  exact refuseIf_bind_true hb

/-- One byte written at a linear address. -/
theorem storeValue_one (s : State) (la : DWord) (b : Byte) :
    s.storeValue la 1 b.toNat = s.storeByte (la.setWidth 36) b := by
  simp [State.storeValue, State.storeBytes, leBytes]

theorem valueAt_one (s : State) (la : DWord) : s.valueAt la 1 = (s.byteAt la).toNat := by
  simp [State.valueAt, State.bytesAt, leValue]

theorem setAccessByte_off (hp : s.pagingEnabled = false) {addr : DWord} {bits : Byte}
    (h : s.ramAt (addr + 5) 1 = true) : setAccessByte addr bits s = .ok ((), s.accessByteSet addr bits) := by
  have hr : s.readableAt (addr + 5) 1 = true := by
    simp only [State.ramAt, State.readableAt, Bool.and_true, beq_iff_eq, Bool.or_eq_true] at h ⊢
    exact .inl h
  rw [setAccessByte, bind_of_ok (linRead_off hp supervisor hr), linWrite_off hp .processor _ supervisor h,
    valueAt_one, ← BitVec.toNat_or, storeValue_one]
  rfl

theorem setAccessed_off (hp : s.pagingEnabled = false) {d : Descriptor} {addr : DWord}
    (h : s.markOk d addr = true) : setAccessed d addr s = .ok ((), s.marked d addr) := by
  unfold setAccessed State.marked
  cases ha : accessed d.type with
  | true => rfl
  | false =>
    simp only [State.markOk, ha, Bool.false_or] at h
    exact setAccessByte_off hp h

theorem loadDataSeg_off (hp : s.pagingEnabled = false) {r : SReg} {sel : Word16} (hn : isNull sel = false)
    (h : s.dataLoadOk sel = true) : loadDataSeg r sel s = .ok ((), s.segLoaded r sel) := by
  simp only [State.dataLoadOk, Bool.and_eq_true] at h
  obtain ⟨⟨⟨⟨⟨hf, hs⟩, ht⟩, hq⟩, hpr⟩, hm⟩ := h
  have hc : (isCode (s.named sel).type && !readable (s.named sel).type) = false := by
    rw [isData_eq] at ht
    cases h1 : isCode (s.named sel).type <;> simp_all
  rw [loadDataSeg, get_bind]
  simp only [hn, Bool.false_eq_true, if_false]
  rw [bind_of_ok (fetchDescriptor_off hp hf)]
  simp only [checkDataDescriptor]
  rw [bind_of_ok (t := s) (a := ())]
  · rw [bind_of_ok (setAccessed_off hp hm)]
    rfl
  · rw [raiseIf_bind_false (by simp [hs]), raiseIf_bind_false hc, raiseIf_bind_false (by simp [hq])]
    simp [raiseIf_run, hpr]

theorem loadSs_off (hp : s.pagingEnabled = false) {cpl : Level} {sel : Word16}
    (h : s.ssLoadOk cpl sel = true) : loadSs cpl sel s = .ok ((), s.segLoaded .ss sel) := by
  simp only [State.ssLoadOk, Bool.and_eq_true, Bool.not_eq_true', beq_iff_eq] at h
  obtain ⟨⟨⟨⟨⟨⟨⟨hn, hf⟩, hr⟩, hs⟩, hw⟩, hd⟩, hpr⟩, hm⟩ := h
  have hc : isCode (s.named sel).type = false := by
    simp only [writable, isData_eq, Bool.and_eq_true, Bool.not_eq_true'] at hw
    exact hw.1
  rw [loadSs, get_bind, raiseIf_bind_false hn, bind_of_ok (fetchDescriptor_off hp hf)]
  simp only [checkStackDescriptor]
  rw [bind_of_ok (t := s) (a := ())]
  · rw [bind_of_ok (setAccessed_off hp hm)]
    rfl
  · rw [raiseIf_bind_false (by simp [hr]), raiseIf_bind_false (by simp [hs, hc, hw]),
      raiseIf_bind_false (by simp [hd])]
    simp [raiseIf_run, hpr]

theorem loadSeg_off (hp : s.pagingEnabled = false) {r : SReg} {sel : Word16}
    (h : s.directLoadOk r sel = true) : loadSeg r sel s = .ok ((), s.directLoaded r sel) := by
  rw [loadSeg, get_bind]
  by_cases hr : r = .ss
  · subst hr
    simp only [State.directLoadOk, if_true] at h
    simp only [if_true, State.directLoaded, ne_eq, not_true_eq_false, false_and, if_false]
    exact loadSs_off hp h
  · simp only [State.directLoadOk, hr, if_false, Bool.or_eq_true] at h
    simp only [hr, if_false, State.directLoaded, ne_eq, not_false_eq_true, true_and]
    by_cases hn : isNull sel = true
    · simp [hn, loadDataSeg, get_bind, putSeg, modify_run]
    · simp only [hn, Bool.false_eq_true, if_false]
      exact loadDataSeg_off hp (by simpa using hn) (by rcases h with h | h; exact absurd h hn; exact h)

/-! ### Transfers -/

theorem marked_transfer (cpl : Level) (sel : Word16) (d : Descriptor) (addr newPc : DWord) :
    ({ s.marked d addr with cs := .load (withRPL sel cpl) d, pc := newPc, pfx := .none } : State)
      = s.transferred cpl sel d addr newPc := rfl

theorem commitCs_off (hp : s.pagingEnabled = false) {cpl : Level} {sel : Word16} {d : Descriptor}
    {addr newPc : DWord} (h : s.markOk d addr = true) :
    commitCs cpl sel d addr newPc s = .ok ((), s.transferred cpl sel d addr newPc) := by
  rw [commitCs, bind_of_ok (setAccessed_off hp h)]
  rfl

theorem fetchTarget_off (hp : s.pagingEnabled = false) {sel : Word16} (hn : isNull sel = false)
    (h : s.fetchOk sel = true) : fetchTarget sel s = .ok ((s.named sel, s.descriptorAddr sel), s) := by
  rw [fetchTarget, raiseIf_bind_false hn]
  exact fetchDescriptor_off hp h

/-- So is the target of a transfer (R194). -/
theorem fetchTarget_reserved (hp : s.pagingEnabled = false) {sel : Word16} (hn : isNull sel = false)
    (hl : s.inLimit sel = true) (hd : s.descriptorReadable (s.descriptorAddr sel) = true)
    (hb : (s.named sel).reservedBitSet = true) :
    fetchTarget sel s = .error (.refused .reservedDescriptorBit) := by
  rw [fetchTarget, raiseIf_bind_false hn]
  exact fetchDescriptor_reserved hp hl hd hb

theorem checkCodeDescriptor_pass {cpl : Level} {sel : Word16} {d : Descriptor} {newPc : DWord}
    (ht : isCode d.type = true) (hq : codePrivilegeOk cpl sel d = true) (hpr : d.p = true)
    (hl : targetInLimit d newPc = true) : checkCodeDescriptor cpl sel d newPc s = .ok ((), s) := by
  rw [checkCodeDescriptor, raiseIf_bind_false (by simp [isData_eq, ht]), raiseIf_bind_false (by simp [hq]),
    raiseIf_bind_false (by simp [hpr])]
  simp [raiseIf_run, hl]

end Sys2Proof.Laws
end

