-- ==== Sys2Proof/Laws/Fetch.lean ====
section
/-! SUPPORT. What a fetch can do, with paging on or off; and with paging off, which instruction it finds in bytes that
stand in memory, and how it ends where the limit of CS cuts the instruction off. -/

namespace Sys2Proof.Laws

open Sys2Proof Sys2Proof.Machine

variable {s t : State}

/-! ### What a fetch can change -/

/-- `t` is `s` but for memory (in canonical form if it was), the model's fields about it, and the count of prefix
bytes. -/
structure Fetched (s t : State) : Prop where
  same : t = { s with
    mem := t.mem, freeCount := t.freeCount, stored := t.stored, pfx := { s.pfx with count := t.pfx.count } }
  wf : s.mem.wf = true → t.mem.wf = true
  count : s.pfx.count ≤ t.pfx.count

theorem Fetched.ofQuiet (h : Quiet s t) : Fetched s t := by
  refine ⟨?_, h.wf, by rw [h.pfx]⟩
  rw [h.same]

theorem Fetched.trans {u : State} (h : Fetched s t) (k : Fetched t u) : Fetched s u :=
  ⟨by rw [k.same, h.same], fun w => k.wf (h.wf w), h.count.trans k.count⟩

theorem Fetched.mode (h : Fetched s t) : t.mode = s.mode := by rw [h.same]; rfl

theorem fetched_idle (s : State) : Fetched s (s.notePrefix id) := ⟨rfl, fun h => h, Nat.le_succ _⟩

theorem refuseStored_ok {pas : List PhysAddr} {u : Unit} (h : refuseStored pas s = .ok (u, t)) : t = s := by
  unfold refuseStored at h
  split at h <;> cases h
  rfl

theorem physBytes_length {la : DWord} {n : Nat} {kind : AccessKind} {cpl : Level} {pas : List PhysAddr}
    (h : physBytes la n kind cpl s = .ok (pas, t)) : pas.length = n := by
  induction n generalizing la s pas with
  | zero => cases h; rfl
  | succ n ih =>
    simp only [physBytes, bind_ok, pure_run, Except.ok.injEq, Prod.mk.injEq] at h
    obtain ⟨_, t1, -, _, t2, h2, rfl, rfl⟩ := h
    rw [List.length_cons, ih h2]

theorem readBytes_length {pas : List PhysAddr} {bs : List Byte} (h : readBytes pas s = .ok (bs, t)) :
    bs.length = pas.length := by
  induction pas generalizing s bs with
  | nil => cases h; rfl
  | cons pa rest ih =>
    simp only [readBytes, bind_ok, pure_run, Except.ok.injEq, Prod.mk.injEq] at h
    obtain ⟨_, t1, -, _, t2, h2, rfl, rfl⟩ := h
    rw [List.length_cons, List.length_cons, ih h2]

/-- A fetch of bytes answers only within 15 bytes and the limit of CS, and changes memory's bookkeeping only. -/
theorem fetchBytes_ok {walked k m : Nat} {bs : List Byte} (hw : walked ≤ k)
    (h : fetchBytes walked k m s = .ok (bs, t)) : Quiet s t ∧ bs.length = m ∧ k + m ≤ maxInstrBytes := by
  rw [fetchBytes, get_bind, refuseIf_bind_ok, bind_ok] at h
  obtain ⟨hl, la, t1, h1, h⟩ := h
  obtain ⟨-, rfl⟩ := check_ok.1 h1
  rw [bind_ok] at h
  obtain ⟨pas, t2, h2, h⟩ := h
  rw [bind_ok] at h
  obtain ⟨_, t3, h3, h4⟩ := h
  obtain rfl := refuseStored_ok h3
  have hp := physBytes_length h2
  have hr := readBytes_length h4
  rw [List.length_drop, hp] at hr
  refine ⟨(physBytes_quiet h2).trans (readBytes_quiet h4), by omega, ?_⟩
  simpa using hl

/-- What the rest of an instruction leaves: the bytes gathered decode to it. -/
theorem gather_ok {fuel : Nat} {bs : List Byte} {i : Instr} (hb : s.pfx.count + bs.length ≤ maxInstrBytes)
    (h : gather fuel bs s = .ok (i, t)) :
    Quiet s t ∧ ∃ all rest, decode s.mode all = .ok (i, rest) ∧ s.pfx.count + all.length ≤ maxInstrBytes := by
  induction fuel generalizing s bs with
  | zero => cases h
  | succ fuel ih =>
    rw [gather, get_bind] at h
    cases hd : decode s.mode bs with
    | ok p =>
      simp only [hd] at h
      cases h
      exact ⟨Quiet.refl _, bs, p.2, hd, hb⟩
    | error x =>
      cases x with
      | notInTable => simp only [hd] at h; cases h
      | short n =>
        simp only [hd] at h
        rw [bind_ok] at h
        obtain ⟨more, t1, h1, h2⟩ := h
        obtain ⟨q, hl, hm⟩ := fetchBytes_ok (Nat.le_refl _) h1
        have hmode : t1.mode = s.mode := by simp [State.mode, q.cs, q.pfx]
        obtain ⟨q2, all, rest, hd, ha⟩ := ih (by rw [q.pfx, List.length_append, hl]; omega) h2
        exact ⟨q.trans q2, all, rest, hmode ▸ hd, by rwa [q.pfx] at ha⟩

theorem fetchFirst_ok {fuel walked : Nat} {b : Byte} (hw : walked ≤ s.pfx.count)
    (h : fetchFirst fuel walked s = .ok (b, t)) : Fetched s t ∧ t.pfx.count + 1 ≤ maxInstrBytes := by
  induction fuel generalizing s walked with
  | zero => cases h
  | succ fuel ih =>
    rw [fetchFirst, get_bind, bind_ok] at h
    obtain ⟨bs, t1, h1, h⟩ := h
    obtain ⟨q, -, hm⟩ := fetchBytes_ok hw h1
    split at h
    · rw [modify_bind] at h
      obtain ⟨f, hc⟩ := ih (by simp [State.notePrefix, q.pfx]) h
      exact ⟨((Fetched.ofQuiet q).trans (fetched_idle t1)).trans f, hc⟩
    · cases h
      exact ⟨Fetched.ofQuiet q, by rwa [q.pfx]⟩

theorem fetchAll_ok {i : Instr} (h : fetchAll s = .ok (i, t)) :
    Fetched s t ∧ ∃ bs rest, decode s.mode bs = .ok (i, rest) ∧ t.pfx.count + bs.length ≤ maxInstrBytes := by
  rw [fetchAll, bind_ok] at h
  obtain ⟨b, t1, h1, h2⟩ := h
  obtain ⟨f, hc⟩ := fetchFirst_ok (Nat.zero_le _) h1
  obtain ⟨q, bs, rest, hd, hl⟩ := gather_ok (by simpa using hc) h2
  exact ⟨f.trans (Fetched.ofQuiet q), bs, rest, f.mode ▸ hd, by rwa [q.pfx]⟩

/-! ### The limit of CS -/

/-- Bytes of the instruction that pass the limit of CS raise #GP(0), before one of them is paged (R36, R168, R174). -/
theorem fetchBytes_past {walked k m : Nat} (hv : s.cs.valid = true) (hm : k + m ≤ maxInstrBytes)
    (hl : limitOk s.cfg s.cs s.pcOffset.toNat (k + m) = false) :
    fetchBytes walked k m s = .error (.exn (.gp 0)) := by
  rw [fetchBytes, get_bind, refuseIf_bind_false (by simpa using hm)]
  refine bind_of_error ?_
  simp [Machine.translate, hv, hl, segFault, check, raise]

/-- A shorter reference of at least a byte passes a limit that a longer one passes. -/
theorem limitOk_le {cfg : Config} {c : SegCache} {off n m : Nat} (hn : n ≤ m) (h : limitOk cfg c off m = true) :
    limitOk cfg c off n = true := by
  unfold limitOk at *
  split at h
  · rename_i he
    simp only [expandDownOk, Bool.and_eq_true, decide_eq_true_eq, he, if_true] at *
    exact ⟨h.1, by omega⟩
  · rename_i he
    simp only [expandUpOk, decide_eq_true_eq, he, if_false, Bool.false_eq_true] at *
    omega

/-! ### Paging off -/

theorem ofNat_add (a : DWord) (k n : Nat) : a + BitVec.ofNat 32 k + BitVec.ofNat 32 n = a + BitVec.ofNat 32 (k + n) := by
  rw [BitVec.ofNat_add, BitVec.add_assoc]

theorem linearBytes_drop (la : DWord) (n k : Nat) :
    (linearBytes la (k + n)).drop k = linearBytes (la + BitVec.ofNat 32 k) n := by
  induction k generalizing la with
  | zero => simp
  | succ k ih =>
    rw [show k + 1 + n = (k + n) + 1 by omega, linearBytes, List.drop_succ_cons, ih]
    rw [show la + 1 + BitVec.ofNat 32 k = la + BitVec.ofNat 32 1 + BitVec.ofNat 32 k from rfl, ofNat_add, Nat.add_comm 1]

theorem bytesAt_append (s : State) (la : DWord) (k n : Nat) :
    s.bytesAt la (k + n) = s.bytesAt la k ++ s.bytesAt (la + BitVec.ofNat 32 k) n := by
  induction k generalizing la with
  | zero => simp [State.bytesAt]
  | succ k ih =>
    rw [show k + 1 + n = (k + n) + 1 by omega, State.bytesAt, State.bytesAt, ih, List.cons_append]
    rw [show la + 1 + BitVec.ofNat 32 k = la + BitVec.ofNat 32 1 + BitVec.ofNat 32 k from rfl, ofNat_add, Nat.add_comm 1]

theorem readableAt_append (s : State) (la : DWord) (k n : Nat) :
    s.readableAt la (k + n) = (s.readableAt la k && s.readableAt (la + BitVec.ofNat 32 k) n) := by
  induction k generalizing la with
  | zero => simp [State.readableAt]
  | succ k ih =>
    rw [show k + 1 + n = (k + n) + 1 by omega, State.readableAt, State.readableAt, ih, Bool.and_assoc]
    rw [show la + 1 + BitVec.ofNat 32 k = la + BitVec.ofNat 32 1 + BitVec.ofNat 32 k from rfl, ofNat_add, Nat.add_comm 1]

/-- The linear address of the byte `k` bytes behind the instruction's first one. -/
def codeAt (s : State) (k : Nat) : DWord := s.cs.base + BitVec.ofNat 32 s.pcOffset.toNat + BitVec.ofNat 32 k

theorem refuseStored_off (h : s.cfg.fetchSeesStores = true) (pas : List PhysAddr) :
    refuseStored pas s = .ok ((), s) := by
  have : (pas.find? fun _ => false) = none := by simp
  simp only [refuseStored, h, Bool.not_true, Bool.false_and, this]

/-- With paging off bytes inside CS are those of memory. -/
theorem fetchBytes_off (hp : s.pagingEnabled = false) (hf : s.cfg.fetchSeesStores = true) (hv : s.cs.valid = true)
    {walked k m : Nat} (hw : walked ≤ k) (hm : k + m ≤ maxInstrBytes)
    (hl : limitOk s.cfg s.cs s.pcOffset.toNat (k + m) = true) (hr : s.readableAt (codeAt s k) m = true) :
    fetchBytes walked k m s = .ok (s.bytesAt (codeAt s k) m, s) := by
  have ht : Machine.translate s.cfg .cs s.cs s.pcOffset.toNat (k + m) .execute
      = .ok (s.cs.base + BitVec.ofNat 32 s.pcOffset.toNat) := by
    simp [Machine.translate, hv, hl, typeOk]
  rw [fetchBytes, get_bind, refuseIf_bind_false (by simpa using hm), bind_of_ok (check_ok.2 ⟨ht, rfl⟩),
    bind_of_ok (physBytes_off hp _ _ .execute s.cpl), bind_of_ok (refuseStored_off hf _),
    show k + m - walked = (k - walked) + m by omega, linearBytes_drop, ofNat_add,
    show walked + (k - walked) = k by omega]
  exact readBytes_off hr

/-- The bytes `all` stand at the instruction pointer from the `k`-th byte of the instruction on, inside CS and within 15
bytes. -/
structure Holds (s : State) (k : Nat) (all : List Byte) : Prop where
  valid : s.cs.valid = true
  limit : limitOk s.cfg s.cs s.pcOffset.toNat (k + all.length) = true
  length : k + all.length ≤ maxInstrBytes
  readable : s.readableAt (codeAt s k) all.length = true
  bytes : s.bytesAt (codeAt s k) all.length = all

theorem holds_iff {bs : List Byte} : s.codeHolds bs = true ↔ Holds s s.pfx.count bs := by
  simp only [State.codeHolds, Bool.and_eq_true, decide_eq_true_eq, beq_iff_eq]
  exact ⟨fun h => ⟨h.1.1.1.1, h.1.1.1.2, h.1.1.2, h.1.2, h.2⟩, fun h =>
    ⟨⟨⟨⟨h.valid, h.limit⟩, h.length⟩, h.readable⟩, h.bytes⟩⟩

/-- Of bytes that stand in memory, the first ones and the ones behind them do. -/
theorem Holds.split {k : Nat} {front back : List Byte} (h : Holds s k (front ++ back)) :
    Holds s k front ∧ Holds s (k + front.length) back := by
  have hb := h.bytes
  have hr := h.readable
  have hl := h.limit
  have hm := h.length
  have ha : codeAt s k + BitVec.ofNat 32 front.length = codeAt s (k + front.length) := ofNat_add _ _ _
  rw [List.length_append] at hb hr hl hm
  rw [bytesAt_append, ha] at hb
  rw [readableAt_append, ha, Bool.and_eq_true] at hr
  have hlen : (s.bytesAt (codeAt s k) front.length).length = front.length := by
    generalize front.length = n
    generalize codeAt s k = la
    induction n generalizing la with
    | zero => rfl
    | succ n ih => rw [State.bytesAt, List.length_cons, ih]
  obtain ⟨h1, h2⟩ := List.append_inj hb hlen
  exact ⟨⟨h.valid, limitOk_le (by omega) hl, by omega, hr.1, h1⟩,
    ⟨h.valid, by rwa [Nat.add_assoc], by omega, hr.2, h2⟩⟩

theorem Holds.fetch (hp : s.pagingEnabled = false) (hf : s.cfg.fetchSeesStores = true) {walked k : Nat}
    {bs : List Byte} (hw : walked ≤ k) (h : Holds s k bs) : fetchBytes walked k bs.length s = .ok (bs, s) := by
  rw [fetchBytes_off hp hf h.valid hw h.length h.limit h.readable, h.bytes]

/-- `s` with `k` more bytes counted as prefix bytes. -/
def counted (s : State) (k : Nat) : State := { s with pfx := { s.pfx with count := s.pfx.count + k } }

theorem counted_readableAt (s : State) (k : Nat) (la : DWord) (n : Nat) :
    (counted s k).readableAt la n = s.readableAt la n := by
  induction n generalizing la with
  | zero => rfl
  | succ n ih => rw [State.readableAt, ih]; rfl

theorem counted_bytesAt (s : State) (k : Nat) (la : DWord) (n : Nat) :
    (counted s k).bytesAt la n = s.bytesAt la n := by
  induction n generalizing la with
  | zero => rfl
  | succ n ih => rw [State.bytesAt, ih]; rfl

/-- What stands in memory does so whatever is counted. -/
theorem Holds.counted {k : Nat} {bs : List Byte} (h : Holds s k bs) (n : Nat) : Holds (counted s n) k bs :=
  ⟨h.valid, h.limit, h.length, (counted_readableAt s n _ _).trans h.readable,
    (counted_bytesAt s n _ _).trans h.bytes⟩

/-- The first byte behind LOCK and REP bytes is found, and those are counted (R111). -/
theorem fetchFirst_off (hp : s.pagingEnabled = false) (hf : s.cfg.fetchSeesStores = true) {fuel walked : Nat}
    {reps : List Byte} {b : Byte} (hw : walked ≤ s.pfx.count) (hr : ∀ r ∈ reps, isLockOrRep r = true)
    (hb : isLockOrRep b = false) (h : Holds s s.pfx.count (reps ++ [b]))
    (hfuel : maxInstrBytes ≤ fuel + s.pfx.count) :
    fetchFirst fuel walked s = .ok (b, Laws.counted s reps.length) := by
  induction reps generalizing s fuel walked with
  | nil =>
    cases fuel with
    | zero => have := h.length; simp at this; omega
    | succ fuel =>
      have h1 := h.fetch hp hf hw
      simp only [List.nil_append, List.length_singleton] at h1
      rw [fetchFirst, get_bind, bind_of_ok h1]
      exact congrFun (if_neg (by simp [hb])) s
  | cons r rest ih =>
    cases fuel with
    | zero => have := h.length; simp at this; omega
    | succ fuel =>
      obtain ⟨h1, h2⟩ := Holds.split (front := [r]) h
      have h1 := h1.fetch hp hf hw
      have hrr := hr r (List.mem_cons_self ..)
      rw [List.length_singleton] at h1
      rw [fetchFirst, get_bind, bind_of_ok h1]
      refine (congrFun (if_pos hrr) s).trans ?_
      rw [modify_bind]
      have := ih (s := Laws.counted s 1) (fuel := fuel) (walked := s.pfx.count + 1) hp hf (Nat.le_refl _)
        (fun q hq => hr q (List.mem_cons_of_mem _ hq)) (h2.counted 1) (by simp only [Laws.counted]; omega)
      refine Eq.trans this ?_
      simp only [Laws.counted, List.length_cons]
      rw [Nat.add_assoc, Nat.add_comm 1]

/-- The rest of an instruction that stands in memory is found. -/
theorem gather_off (hp : s.pagingEnabled = false) (hf : s.cfg.fetchSeesStores = true) {i : Instr}
    {fuel : Nat} {front back : List Byte} (h : Holds s s.pfx.count (front ++ back))
    (hd : decode s.mode (front ++ back) = .ok (i, [])) (hfuel : maxInstrBytes + 1 ≤ fuel + front.length) :
    gather fuel front s = .ok (i, s) := by
  induction fuel generalizing front back with
  | zero =>
    have := h.length
    simp only [List.length_append] at this
    omega
  | succ fuel ih =>
    rw [gather, get_bind]
    cases e : decode s.mode front with
    | ok p =>
      obtain ⟨j, rest⟩ := p
      have := (steady_decode s.mode).ok e back
      rw [hd, Except.ok.injEq, Prod.mk.injEq] at this
      rw [this.1]
      rfl
    | error x =>
      cases x with
      | notInTable => rw [(steady_decode s.mode).refused e back] at hd; cases hd
      | short n =>
        have hn := (steady_decode s.mode).enough e hd
        have h1 := ((steady_decode s.mode).short e back).1
        obtain ⟨mid, rest, rfl, hmid⟩ : ∃ mid rest, back = mid ++ rest ∧ mid.length = n :=
          ⟨back.take n, back.drop n, (List.take_append_drop n back).symm, by simp; omega⟩
        rw [← List.append_assoc] at h hd
        have hm := (Holds.split h).1.split.2
        simp only []
        rw [← hmid, bind_of_ok (Holds.fetch hp hf (Nat.le_refl _) hm)]
        exact ih h hd (by rw [List.length_append]; omega)

/-- Where the bytes that stand in memory are not a whole instruction and the limit of CS cuts off the ones it has more for
certain, the fetch raises #GP(0). -/
theorem gather_past (hp : s.pagingEnabled = false) (hf : s.cfg.fetchSeesStores = true) {m : Nat}
    {fuel : Nat} {front back : List Byte} (h : Holds s s.pfx.count (front ++ back))
    (hd : decode s.mode (front ++ back) = .error (.short m)) (hfuel : maxInstrBytes + 1 ≤ fuel + front.length)
    (hm : s.pfx.count + (front ++ back).length + m ≤ maxInstrBytes)
    (hl : limitOk s.cfg s.cs s.pcOffset.toNat (s.pfx.count + (front ++ back).length + m) = false) :
    gather fuel front s = .error (.exn (.gp 0)) := by
  induction fuel generalizing front back with
  | zero =>
    have := h.length
    simp only [List.length_append] at this
    omega
  | succ fuel ih =>
    rw [gather, get_bind]
    cases e : decode s.mode front with
    | ok p => rw [(steady_decode s.mode).ok e back] at hd; cases hd
    | error x =>
      cases x with
      | notInTable => rw [(steady_decode s.mode).refused e back] at hd; cases hd
      | short n =>
        obtain ⟨h1, hs⟩ := (steady_decode s.mode).short e back
        simp only []
        rcases Nat.lt_or_ge back.length n with hb | hb
        · have hd' := hs hb
          rw [hd] at hd'
          cases hd'
          rw [List.length_append] at hm hl
          exact bind_of_error (fetchBytes_past h.valid (by omega)
            (by rwa [show s.pfx.count + front.length + n
              = s.pfx.count + (front.length + back.length) + (n - back.length) by omega]))
        · obtain ⟨mid, rest, rfl, hmid⟩ : ∃ mid rest, back = mid ++ rest ∧ mid.length = n :=
            ⟨back.take n, back.drop n, (List.take_append_drop n back).symm, by simp; omega⟩
          rw [← List.append_assoc] at h hd hm hl
          have hh := (Holds.split h).1.split.2
          rw [← hmid, bind_of_ok (Holds.fetch hp hf (Nat.le_refl _) hh)]
          exact ih h hd (by rw [List.length_append]; omega) hm hl

/-- LOCK and REP bytes are no opcode of the table. -/
theorem decode_first {m : Mode} {b : Byte} {rest : List Byte} (h : decode m (b :: rest) ≠ .error .notInTable) :
    isLockOrRep b = false := by
  simp only [isLockOrRep, Bool.or_eq_false_iff, beq_eq_false_iff_ne]
  exact ⟨⟨by rintro rfl; exact h rfl, by rintro rfl; exact h rfl⟩, by rintro rfl; exact h rfl⟩

/-- The instruction that stands in memory behind LOCK and REP bytes is found. -/
theorem fetchAll_off (hp : s.pagingEnabled = false) (hf : s.cfg.fetchSeesStores = true) {i : Instr}
    {reps bs : List Byte} (hr : ∀ r ∈ reps, isLockOrRep r = true) (h : Holds s s.pfx.count (reps ++ bs))
    (hd : decode s.mode bs = .ok (i, [])) : fetchAll s = .ok (i, counted s reps.length) := by
  cases bs with
  | nil => cases hd
  | cons b rest =>
    have hb := decode_first (m := s.mode) (b := b) (rest := rest) (by rw [hd]; nofun)
    have h1 : Holds s s.pfx.count ((reps ++ [b]) ++ rest) := by simpa using h
    rw [fetchAll, bind_of_ok (fetchFirst_off hp hf (Nat.zero_le _) hr hb h1.split.1 (Nat.le_add_right ..))]
    exact gather_off (s := counted s reps.length) (front := [b]) hp hf (h.split.2.counted _) hd (Nat.le_refl _)

end Sys2Proof.Laws
end

