-- ==== Sys2Proof/Laws/FlatTransfers.lean ====
section
/-! SUPPORT. With paging off (R66), what the far transfers, the returns and the taking of an event answer, as the plain
functions of Safety. -/

namespace Sys2Proof.Laws

open Sys2Proof Sys2Proof.Machine

/-- Two states that read memory and descriptors alike. -/
structure SameTables (s t : State) : Prop where
  mem : t.mem = s.mem
  cfg : t.cfg = s.cfg
  gdtr : t.gdtr = s.gdtr
  ldtr : t.ldtr = s.ldtr

namespace SameTables

variable {s t u : State}

theorem refl (s : State) : SameTables s s := ⟨rfl, rfl, rfl, rfl⟩

theorem trans (h : SameTables s t) (k : SameTables t u) : SameTables s u :=
  ⟨k.mem.trans h.mem, k.cfg.trans h.cfg, k.gdtr.trans h.gdtr, k.ldtr.trans h.ldtr⟩

theorem ofStackPtr (s : State) (w : Bool) (v : DWord) : SameTables s (s.setStackPtr w v) :=
  ⟨by simp, by simp, by simp, by simp⟩

theorem ofReleased (s : State) (k : DWord) : SameTables s (s.released k) := ofStackPtr s _ _

theorem valueAt (h : SameTables s t) (la : DWord) (n : Nat) : t.valueAt la n = s.valueAt la n := by
  have hb : ∀ la n, t.bytesAt la n = s.bytesAt la n := by
    intro la n
    induction n generalizing la with
    | zero => rfl
    | succ n ih => simp only [State.bytesAt, State.byteAt, h.mem, ih]
  simp only [State.valueAt, hb]

theorem kindAt (h : SameTables s t) (pa : PhysAddr) : t.kindAt pa = s.kindAt pa := by
  simp only [State.kindAt, h.cfg]

theorem readableAt (h : SameTables s t) (la : DWord) (n : Nat) : t.readableAt la n = s.readableAt la n := by
  induction n generalizing la with
  | zero => rfl
  | succ n ih => simp only [State.readableAt, h.kindAt, ih]

theorem ramAt (h : SameTables s t) (la : DWord) (n : Nat) : t.ramAt la n = s.ramAt la n := by
  induction n generalizing la with
  | zero => rfl
  | succ n ih => simp only [State.ramAt, h.kindAt, ih]

theorem table (h : SameTables s t) (sel : Word16) : t.table sel = s.table sel := by
  simp only [State.table, h.gdtr, h.ldtr]

theorem descriptorAddr (h : SameTables s t) (sel : Word16) : t.descriptorAddr sel = s.descriptorAddr sel := by
  simp only [State.descriptorAddr, h.table]

theorem named (h : SameTables s t) (sel : Word16) : t.named sel = s.named sel := by
  simp only [State.named, State.descriptorAt, h.descriptorAddr, h.valueAt]

theorem fetchOk (h : SameTables s t) (sel : Word16) : t.fetchOk sel = s.fetchOk sel := by
  simp only [State.fetchOk, State.inLimit, State.descriptorReadable, h.table, h.named, h.descriptorAddr,
    h.readableAt]

theorem markOk (h : SameTables s t) (d : Descriptor) (addr : DWord) : t.markOk d addr = s.markOk d addr := by
  simp only [State.markOk, h.ramAt]

theorem ssLoadOk (h : SameTables s t) (l : Level) (sel : Word16) : t.ssLoadOk l sel = s.ssLoadOk l sel := by
  simp only [State.ssLoadOk, h.fetchOk, h.named, h.markOk, h.descriptorAddr]

theorem codeTargetOk (h : SameTables s t) (l : Level) (sel : Word16) (newPc : DWord) :
    t.codeTargetOk l sel newPc = s.codeTargetOk l sel newPc := by
  simp only [State.codeTargetOk, h.fetchOk, h.named, h.markOk, h.descriptorAddr]

end SameTables

variable {s : State}

/-! ### Which bytes are RAM does not change -/

theorem ramAt_cfg {s t : State} (h : t.cfg = s.cfg) (la : DWord) (n : Nat) : t.ramAt la n = s.ramAt la n := by
  induction n generalizing la with
  | zero => rfl
  | succ n ih => simp only [State.ramAt, State.kindAt, h, ih]

theorem markOk_cfg {s t : State} (h : t.cfg = s.cfg) (d : Descriptor) (addr : DWord) :
    t.markOk d addr = s.markOk d addr := by simp only [State.markOk, ramAt_cfg h]

theorem readableAt_cfg {s t : State} (h : t.cfg = s.cfg) (la : DWord) (n : Nat) :
    t.readableAt la n = s.readableAt la n := by
  induction n generalizing la with
  | zero => rfl
  | succ n ih => simp only [State.readableAt, State.kindAt, h, ih]

@[simp] theorem pushed_cfg (n v : Nat) : (s.pushed n v).cfg = s.cfg := by
  simp [State.pushed, (storeValue_quiet s _ n v).cfg]

@[simp] theorem pushedAll_cfg (n : Nat) (vs : List Nat) : (s.pushedAll n vs).cfg = s.cfg := by
  induction vs generalizing s with
  | nil => rfl
  | cons v rest ih => simp only [State.pushedAll, ih, pushed_cfg]

@[simp] theorem pushedAll_pagingEnabled (n : Nat) (vs : List Nat) :
    (s.pushedAll n vs).pagingEnabled = s.pagingEnabled := by
  induction vs generalizing s with
  | nil => rfl
  | cons v rest ih => simp only [State.pushedAll, ih, pushed_pagingEnabled]

@[simp] theorem returnPushed_eq (n : Nat) (retPc : DWord) :
    s.returnPushed n retPc = s.pushedAll n (s.returnWords retPc) := rfl

theorem pushed_cs (n v : Nat) : (s.pushed n v).cs = s.cs := by
  simp [State.pushed, (storeValue_quiet s _ n v).cs]

theorem marked_cfg (d : Descriptor) (addr : DWord) : (s.marked d addr).cfg = s.cfg := (marked_quiet s d addr).cfg

theorem segLoaded_cfg (r : SReg) (sel : Word16) : (s.segLoaded r sel).cfg = s.cfg := by
  simp [State.segLoaded, marked_cfg]

theorem segLoaded_pagingEnabled (r : SReg) (sel : Word16) :
    (s.segLoaded r sel).pagingEnabled = s.pagingEnabled := by
  simp [State.segLoaded, (marked_quiet s _ _).pagingEnabled]

/-! ### Far transfers -/

/-- A direct far transfer to a code segment: CS and the instruction pointer, after the pushes of a CALL. -/
theorem farTransfer_off (hp : s.pagingEnabled = false) {isCall : Bool} {sel : Word16} {off : DWord} (retPc : DWord)
    (h : s.codeTargetOk s.cpl sel off = true) (hc : isCall = true → s.pushReturnOk s.cpl s.opBytes = true) :
    farTransfer isCall sel off retPc s =
      .ok ((), (if isCall then s.returnPushed s.opBytes retPc else s).transferred s.cpl sel (s.named sel)
        (s.descriptorAddr sel) off) := by
  simp only [State.codeTargetOk, Bool.and_eq_true, Bool.not_eq_true'] at h
  obtain ⟨⟨⟨⟨⟨⟨⟨hn, hf⟩, hs⟩, ht⟩, hq⟩, hpr⟩, hl⟩, hm⟩ := h
  rw [farTransfer, get_bind, bind_of_ok (fetchTarget_off hp hn hf)]
  dsimp only
  rw [if_pos hs, bind_of_ok (checkCodeDescriptor_pass ht hq hpr hl)]
  cases isCall with
  | false =>
    simp only [Bool.false_eq_true, if_false]
    exact commitCs_off hp hm
  | true =>
    simp only [if_true]
    rw [bind_of_ok (pushReturn_off hp retPc (hc rfl))]
    exact commitCs_off (by simp [hp]) (by rw [markOk_cfg (s := s) (by simp)]; exact hm)

/-- The checks of a return's target pass. -/
theorem checkReturn_pass {l : Level} {sel : Word16} {d : Descriptor} {newPc : DWord} (hs : d.s = true)
    (ht : isCode d.type = true) (hq : codePrivilegeOk l sel d = true) (hpr : d.p = true)
    (hl : targetInLimit d newPc = true) : checkReturnDescriptor l sel d newPc s = .ok ((), s) := by
  rw [checkReturnDescriptor, raiseIf_bind_false (by simp [hs])]
  exact checkCodeDescriptor_pass ht hq hpr hl

/-- A return to the same level from the state `t` in which its operands are popped. -/
theorem returnTo_same {t : State} (hp : t.pagingEnabled = false) {n : Nat} {sel : Word16} {newPc k : DWord}
    (hr : selRPL sel = t.cpl) (h : t.codeTargetOk t.cpl sel newPc = true) :
    returnTo n sel newPc k t =
      .ok ((), t.transferred t.cpl sel (t.named sel) (t.descriptorAddr sel) newPc) := by
  simp only [State.codeTargetOk, Bool.and_eq_true, Bool.not_eq_true'] at h
  obtain ⟨⟨⟨⟨⟨⟨⟨hn, hf⟩, hs⟩, ht⟩, hq⟩, hpr⟩, hl⟩, hm⟩ := h
  rw [returnTo, get_bind, raiseIf_bind_false (by simp [hr]), if_pos hr, bind_of_ok (fetchTarget_off hp hn hf)]
  dsimp only
  rw [bind_of_ok (checkReturn_pass hs ht hq hpr hl)]
  exact commitCs_off hp hm

/-- A return to an outer level from the state `t` in which its operands are popped. -/
theorem returnTo_outer {t : State} (hp : t.pagingEnabled = false) {n : Nat} {sel : Word16} {newPc k : DWord}
    (hpol : t.cfg.transfers ≠ .named) (hr : t.cpl < selRPL sel) (h1 : t.topOk n = true)
    (h2 : (t.popped n).topOk n = true) (h : t.codeTargetOk (selRPL sel) sel newPc = true)
    (hss : t.ssLoadOk (selRPL sel) (t.outerSs n) = true) :
    returnTo n sel newPc k t =
      .ok ((), (((((t.popped n).popped n).segLoaded .ss (t.outerSs n)).setStackPtr
        (((t.popped n).popped n).segLoaded .ss (t.outerSs n)).ss.db (BitVec.ofNat 32 (t.topValue n))).released
          k).transferred (selRPL sel) sel (t.named sel) (t.descriptorAddr sel) newPc |>.nullOuter (selRPL sel)) := by
  have hlt : ¬ selRPL sel < t.cpl := fun g => by
    have := BitVec.lt_def.1 g; have := BitVec.lt_def.1 hr; omega
  have hne : ¬ selRPL sel = t.cpl := fun g => by
    have := BitVec.lt_def.1 hr; rw [g] at this; omega
  have e1 : SameTables t (t.popped n) := .ofReleased _ _
  have e2 : SameTables t ((t.popped n).popped n) := e1.trans (.ofReleased _ _)
  have p1 : (t.popped n).pagingEnabled = false := by simpa [State.popped, State.released] using hp
  have p2 : ((t.popped n).popped n).pagingEnabled = false := by simpa [State.popped, State.released] using p1
  have h' := h
  simp only [State.codeTargetOk, Bool.and_eq_true, Bool.not_eq_true'] at h'
  obtain ⟨⟨⟨⟨⟨⟨⟨hn, hf⟩, hs⟩, ht⟩, hq⟩, hpr⟩, hl⟩, hm⟩ := h'
  rw [returnTo, get_bind, raiseIf_bind_false (by simpa using hlt), if_neg hne, returnOuter]
  have hrf : refuseTransfer .outerReturn t = .ok ((), t) := by
    rw [refuseTransfer, get_bind, refuseIf_run]
    simp [hpol]
  rw [bind_of_ok hrf, bind_of_ok (pop_off hp h1)]
  refine (bind_of_ok (pop_off p1 h2)).trans ?_
  refine (bind_of_ok (fetchTarget_off p2 hn (by rw [e2.fetchOk]; exact hf))).trans ?_
  dsimp only
  rw [e2.named, e2.descriptorAddr]
  refine (bind_of_ok (checkReturn_pass hs ht hq hpr hl)).trans ?_
  refine (bind_of_ok (loadSs_off p2 (by rw [e2.ssLoadOk]; exact hss))).trans ?_
  rw [modify_bind]
  refine (bind_of_ok (modify_run (f := fun s => s.setStackPtr s.ss.db (s.stackMoved k)))).trans ?_
  refine (bind_of_ok (commitCs_off ?_ ?_)).trans rfl
  · simp [State.segLoaded, (marked_quiet _ _ _).pagingEnabled, p2]
  · rw [markOk_cfg (s := t)]
    · exact hm
    · simp [State.segLoaded, marked_cfg, e2.cfg]

theorem opBytes_cases (s : State) : s.opBytes = 4 ∨ s.opBytes = 2 := by
  unfold State.opBytes; split <;> simp

theorem released_pagingEnabled (k : DWord) : (s.released k).pagingEnabled = s.pagingEnabled := by
  simp [State.released]

theorem released_cpl (k : DWord) : (s.released k).cpl = s.cpl := by simp [State.released, State.cpl]

/-- A far RET to the same level (R209). -/
theorem farReturn_same (hp : s.pagingEnabled = false) {k : DWord} (h : s.sameReturnOk s.opBytes = true) :
    farReturn k s =
      .ok ((), s.sameReturned (((s.popped s.opBytes).popped s.opBytes).released k) s.opBytes) := by
  simp only [State.sameReturnOk, Bool.and_eq_true, beq_iff_eq] at h
  obtain ⟨⟨⟨h1, h2⟩, hr⟩, h3⟩ := h
  have p1 : (s.popped s.opBytes).pagingEnabled = false := by rw [State.popped, released_pagingEnabled, hp]
  have e : SameTables s (((s.popped s.opBytes).popped s.opBytes).released k) :=
    ((SameTables.ofReleased _ _).trans (.ofReleased _ _)).trans (.ofReleased _ _)
  have hc : (((s.popped s.opBytes).popped s.opBytes).released k).cpl = s.cpl := by
    simp only [State.popped, released_cpl]
  rw [farReturn, get_bind, bind_of_ok (pop_off hp h1)]
  refine (bind_of_ok (pop_off p1 h2)).trans ?_
  refine (bind_of_ok (t := ((s.popped s.opBytes).popped s.opBytes).released k) (a := ()) rfl).trans ?_
  refine (returnTo_same ?_ (hr.trans hc.symm) ?_).trans ?_
  · simp only [State.popped, released_pagingEnabled, hp]
  · rw [e.codeTargetOk, hc]; exact h3
  · rw [hc, e.named, e.descriptorAddr]; rfl

/-- A far RET to an outer level (R209). -/
theorem farReturn_outer (hp : s.pagingEnabled = false) {k : DWord}
    (h : s.outerReturnOk (((s.popped s.opBytes).popped s.opBytes).released k) s.opBytes = true) :
    farReturn k s =
      .ok ((), s.outerReturned (((s.popped s.opBytes).popped s.opBytes).released k) s.opBytes k) := by
  simp only [State.outerReturnOk, Bool.and_eq_true, decide_eq_true_eq, bne_iff_ne] at h
  obtain ⟨⟨⟨⟨⟨⟨⟨hpol, h1⟩, h2⟩, hr⟩, h3⟩, h4⟩, h5⟩, h6⟩ := h
  have p1 : (s.popped s.opBytes).pagingEnabled = false := by rw [State.popped, released_pagingEnabled, hp]
  have e : SameTables s (((s.popped s.opBytes).popped s.opBytes).released k) :=
    ((SameTables.ofReleased _ _).trans (.ofReleased _ _)).trans (.ofReleased _ _)
  have hc : (((s.popped s.opBytes).popped s.opBytes).released k).cpl = s.cpl := by
    simp only [State.popped, released_cpl]
  rw [farReturn, get_bind, bind_of_ok (pop_off hp h1)]
  refine (bind_of_ok (pop_off p1 h2)).trans ?_
  refine (bind_of_ok (t := ((s.popped s.opBytes).popped s.opBytes).released k) (a := ()) rfl).trans ?_
  refine (returnTo_outer ?_ (by rw [e.cfg]; exact hpol) (by rw [hc]; exact hr) h3 h4 ?_ ?_).trans ?_
  · simp only [State.popped, released_pagingEnabled, hp]
  · rw [e.codeTargetOk]; exact h5
  · rw [e.ssLoadOk]; exact h6
  · rw [e.named, e.descriptorAddr]; rfl

/-- IRET to the same level (R212). -/
theorem interruptReturn_same (hp : s.pagingEnabled = false) (hn : s.nestedTask = false)
    (h3 : ((s.popped s.opBytes).popped s.opBytes).topOk s.opBytes = true)
    (h : s.sameReturnOk s.opBytes = true) :
    interruptReturn s = .ok ((),
      { s.sameReturned (((s.popped s.opBytes).popped s.opBytes).popped s.opBytes) s.opBytes with
        eflags := s.returnFlags s.opBytes }) := by
  simp only [State.sameReturnOk, Bool.and_eq_true, beq_iff_eq] at h
  obtain ⟨⟨⟨h1, h2⟩, hr⟩, h4⟩ := h
  have p1 : (s.popped s.opBytes).pagingEnabled = false := by rw [State.popped, released_pagingEnabled, hp]
  have p2 : ((s.popped s.opBytes).popped s.opBytes).pagingEnabled = false := by
    rw [State.popped, released_pagingEnabled, p1]
  have e : SameTables s (((s.popped s.opBytes).popped s.opBytes).popped s.opBytes) :=
    ((SameTables.ofReleased _ _).trans (.ofReleased _ _)).trans (.ofReleased _ _)
  have hc : (((s.popped s.opBytes).popped s.opBytes).popped s.opBytes).cpl = s.cpl := by
    simp only [State.popped, released_cpl]
  rw [interruptReturn, get_bind, refuseIf_bind_false hn, bind_of_ok (pop_off hp h1)]
  refine (bind_of_ok (pop_off p1 h2)).trans ?_
  refine (bind_of_ok (pop_off p2 h3)).trans ?_
  have hret := returnTo_same (t := ((s.popped s.opBytes).popped s.opBytes).popped s.opBytes) (n := s.opBytes)
    (sel := s.returnSel s.opBytes) (newPc := s.returnPc s.opBytes) (k := 0)
    (by simp only [State.popped, released_pagingEnabled, hp]) (hr.trans hc.symm)
    (by rw [e.codeTargetOk, hc]; exact h4)
  rw [hc, e.named, e.descriptorAddr] at hret
  refine (bind_of_ok hret).trans ?_
  rw [modify_run]
  simp only [State.sameReturned, State.returnFlags, State.transferred]
  rw [(marked_quiet _ _ _).eflags]
  simp [State.popped, State.released]

/-- IRET to an outer level (R212). -/
theorem interruptReturn_outer (hp : s.pagingEnabled = false) (hn : s.nestedTask = false)
    (h3 : ((s.popped s.opBytes).popped s.opBytes).topOk s.opBytes = true)
    (h : s.outerReturnOk (((s.popped s.opBytes).popped s.opBytes).popped s.opBytes) s.opBytes = true) :
    interruptReturn s = .ok ((),
      { s.outerReturned (((s.popped s.opBytes).popped s.opBytes).popped s.opBytes) s.opBytes 0 with
        eflags := s.returnFlags s.opBytes }) := by
  simp only [State.outerReturnOk, Bool.and_eq_true, decide_eq_true_eq, bne_iff_ne] at h
  obtain ⟨⟨⟨⟨⟨⟨⟨hpol, h1⟩, h2⟩, hr⟩, g3⟩, g4⟩, g5⟩, g6⟩ := h
  have p1 : (s.popped s.opBytes).pagingEnabled = false := by rw [State.popped, released_pagingEnabled, hp]
  have p2 : ((s.popped s.opBytes).popped s.opBytes).pagingEnabled = false := by
    rw [State.popped, released_pagingEnabled, p1]
  have e : SameTables s (((s.popped s.opBytes).popped s.opBytes).popped s.opBytes) :=
    ((SameTables.ofReleased _ _).trans (.ofReleased _ _)).trans (.ofReleased _ _)
  have hc : (((s.popped s.opBytes).popped s.opBytes).popped s.opBytes).cpl = s.cpl := by
    simp only [State.popped, released_cpl]
  rw [interruptReturn, get_bind, refuseIf_bind_false hn, bind_of_ok (pop_off hp h1)]
  refine (bind_of_ok (pop_off p1 h2)).trans ?_
  refine (bind_of_ok (pop_off p2 h3)).trans ?_
  have hret := returnTo_outer (t := ((s.popped s.opBytes).popped s.opBytes).popped s.opBytes) (n := s.opBytes)
    (sel := s.returnSel s.opBytes) (newPc := s.returnPc s.opBytes) (k := 0)
    (by simp only [State.popped, released_pagingEnabled, hp]) (by rw [e.cfg]; exact hpol) (by rw [hc]; exact hr)
    g3 g4 (by rw [e.codeTargetOk]; exact g5) (by rw [e.ssLoadOk]; exact g6)
  rw [e.named, e.descriptorAddr] at hret
  refine (bind_of_ok hret).trans ?_
  rw [modify_run]
  simp only [State.outerReturned, State.returnFlags, State.transferred, nullOuter_eflags]
  rw [(marked_quiet _ _ _).eflags]
  simp [State.popped, State.released, State.segLoaded, (marked_quiet _ _ _).eflags]

/-! ### The stack of an inner level, call gates, events -/

theorem readInnerStack_off (hp : s.pagingEnabled = false) {l : Level} (h : s.innerStackOk l = true) :
    readInnerStack l s = .ok (s.innerStack l, s) := by
  simp only [State.innerStackOk, Bool.and_eq_true, decide_eq_true_eq] at h
  obtain ⟨⟨⟨hv, hl⟩, h1⟩, h2⟩ := h
  rw [readInnerStack, get_bind]
  refine (refuseIf_bind_false (by simpa [hv] using hl)).trans ?_
  rw [bind_of_ok (linRead_off hp supervisor h1), bind_of_ok (linRead_off hp supervisor h2)]
  rfl

/-- The switch to the stack of an inner level, with the old SS and ESP pushed (R313). -/
theorem switchStack_off (hp : s.pagingEnabled = false) {l : Level} {n : Nat} (hl : l ≠ s.cpl)
    (h : s.handlerStackOk l n = true) : switchStack l n s = .ok ((), s.handlerStack l n) := by
  simp only [State.handlerStackOk, Bool.or_eq_true, beq_iff_eq, hl, false_or, Bool.and_eq_true] at h
  obtain ⟨⟨⟨h1, h2⟩, h3⟩, h4⟩ := h
  rw [switchStack, get_bind, bind_of_ok (readInnerStack_off hp h1)]
  dsimp only
  rw [bind_of_ok (loadSs_off hp h2), modify_bind]
  have p1 : (s.innerSs l).pagingEnabled = false := by
    simp [State.innerSs, segLoaded_pagingEnabled, hp]
  refine (bind_of_ok (push_off p1 _ h3)).trans ?_
  refine (push_off (by rw [pushed_pagingEnabled, p1]) _ h4).trans ?_
  simp [State.handlerStack, hl]

theorem readParams_off (hp : s.pagingEnabled = false) {off : DWord} {n k : Nat} (h : s.paramsOk off n k = true) :
    readParams off n k s = .ok (s.paramValues off n k, s) := by
  induction k generalizing off with
  | zero => rfl
  | succ k ih =>
    simp only [State.paramsOk, Bool.and_eq_true] at h
    rw [readParams, get_bind, bind_of_ok (segRead_off hp h.1), bind_of_ok (ih h.2)]
    rfl

theorem handlerStack_cfg (l : Level) (n : Nat) : (s.handlerStack l n).cfg = s.cfg := by
  unfold State.handlerStack State.innerSs
  split
  · rfl
  · simp [segLoaded_cfg]

theorem handlerStack_pagingEnabled (l : Level) (n : Nat) :
    (s.handlerStack l n).pagingEnabled = s.pagingEnabled := by
  unfold State.handlerStack State.innerSs
  split
  · rfl
  · simp [pushed_pagingEnabled, segLoaded_pagingEnabled]

theorem innerSs_cs (l : Level) : (s.innerSs l).cs = s.cs := by
  simp only [State.innerSs, State.segLoaded, setStackPtr_cs]
  exact (marked_quiet s _ _).cs

theorem handlerStack_cs (l : Level) (n : Nat) : (s.handlerStack l n).cs = s.cs := by
  unfold State.handlerStack
  split
  · rfl
  · simp only [pushed_cs, innerSs_cs]

theorem pushedAll_cs (n : Nat) (vs : List Nat) : (s.pushedAll n vs).cs = s.cs := by
  induction vs generalizing s with
  | nil => rfl
  | cons v rest ih => simp only [State.pushedAll, ih, pushed_cs]

/-- CS and a return address pushed where CS is still that of `s`. -/
theorem pushReturn_words {t : State} (hp : t.pagingEnabled = false) {l : Level} {n : Nat} {retPc : DWord}
    (hc : t.cs = s.cs) (h : t.pushAllOk l n (s.returnWords retPc) = true) :
    pushReturn l n retPc t = .ok ((), t.pushedAll n (s.returnWords retPc)) := by
  have hw : s.returnWords retPc = t.returnWords retPc := by simp [State.returnWords, hc]
  rw [hw] at h ⊢
  rw [← returnPushed_eq]
  refine pushReturn_off hp retPc ?_
  simpa [State.pushReturnOk, State.pushAllOk, State.returnWords] using h

/-- A transfer through a call gate (R281, R282, R287, R290, R293). -/
theorem callGate_off (hp : s.pagingEnabled = false) {isCall : Bool} {sel : Word16} {off : DWord} (retPc : DWord)
    (h : s.callGateOk isCall sel = true)
    (hc : isCall = true → s.gateStackOk sel = true ∧
      (s.gateStack sel).pushAllOk (s.gateLevel sel) (s.named sel).gateBytes (s.returnWords retPc) = true) :
    farTransfer isCall sel off retPc s =
      .ok ((), s.gateEntered (if isCall then (s.gateStack sel).pushedAll (s.named sel).gateBytes
        (s.returnWords retPc) else s) sel) := by
  simp only [State.callGateOk, Bool.and_eq_true, Bool.not_eq_true', beq_iff_eq, decide_eq_true_eq,
    bne_iff_ne] at h
  obtain ⟨⟨⟨⟨⟨⟨⟨⟨⟨⟨⟨⟨⟨⟨⟨hpol, hn⟩, hf⟩, hs⟩, hk⟩, hq⟩, hgp⟩, tn⟩, tf⟩, ts⟩, tc⟩, td⟩, tj⟩, tp⟩, tl⟩, tm⟩ := h
  rw [farTransfer, get_bind, bind_of_ok (fetchTarget_off hp hn hf)]
  dsimp only
  rw [if_neg (by simp [hs])]
  simp only [hk]
  have hrf : refuseTransfer .callGate s = .ok ((), s) := by
    rw [refuseTransfer, get_bind, refuseIf_run]
    simp [hpol]
  rw [callGate, bind_of_ok hrf, get_bind,
    raiseIf_bind_false (by simpa using hq), raiseIf_bind_false (by simp [hgp])]
  dsimp only
  rw [bind_of_ok (fetchTarget_off hp tn tf)]
  dsimp only
  have hg : checkGateTarget isCall s.cpl (s.named sel).gateSelector (s.named (s.named sel).gateSelector) s
      = .ok ((), s) := by
    rw [checkGateTarget, raiseIf_bind_false (by simp [isData_eq, ts, tc]), raiseIf_bind_false (by simpa using td),
      raiseIf_bind_false, raiseIf_run]
    · simp [tp]
    · cases isCall <;> cases hcf : conforming (s.named (s.named sel).gateSelector).type <;> simp_all
  rw [bind_of_ok hg, raiseIf_bind_false (by simp [tl])]
  cases isCall with
  | false =>
    simp only [Bool.false_eq_true, if_false]
    exact commitCs_off hp tm
  | true =>
    obtain ⟨hgs, hpush⟩ := hc rfl
    simp only [if_true]
    simp only [State.gateStackOk, Bool.or_eq_true, beq_iff_eq, Bool.and_eq_true] at hgs
    by_cases hlv : targetLevel s.cpl (s.named (s.named sel).gateSelector) = s.cpl
    · rw [if_pos hlv]
      have hst : s.gateStack sel = s := by simp [State.gateStack, State.gateLevel, hlv]
      rw [hst] at hpush ⊢
      refine (bind_of_ok (pushReturn_words hp rfl hpush)).trans ?_
      exact commitCs_off (by simp [hp]) (by rw [markOk_cfg (s := s) (by simp)]; exact tm)
    · rw [if_neg hlv]
      have hlv' : s.gateLevel sel ≠ s.cpl := hlv
      rcases hgs with hgs | ⟨⟨g1, g2⟩, g3⟩
      · exact absurd hgs hlv'
      have hst : s.gateStack sel = (s.handlerStack (s.gateLevel sel) (s.named sel).gateBytes).pushedAll
          (s.named sel).gateBytes
          (s.paramValues s.stackPtr (s.named sel).gateBytes (s.named sel).gateParams).reverse := by
        simp [State.gateStack, hlv']
      have pg : (s.handlerStack (s.gateLevel sel) (s.named sel).gateBytes).pagingEnabled = false := by
        rw [handlerStack_pagingEnabled, hp]
      rw [bind_of_ok (readParams_off hp g1)]
      refine (bind_of_ok (switchStack_off hp hlv' g2)).trans ?_
      refine (bind_of_ok (pushAll_off pg g3)).trans ?_
      rw [hst] at hpush ⊢
      refine (bind_of_ok (pushReturn_words (s := s) (by simp [pg]) ?_ hpush)).trans ?_
      · rw [pushedAll_cs, handlerStack_cs]
      · refine commitCs_off (by simp [pg]) ?_
        rw [markOk_cfg (s := s) (by simp [handlerStack_cfg])]
        exact tm

theorem fetchGate_off (hp : s.pagingEnabled = false) {vector : Byte} {software : Bool}
    (h : s.gateOk vector software = true) : fetchGate vector software s = .ok (s.gateAt vector, s) := by
  simp only [State.gateOk, Bool.and_eq_true, decide_eq_true_eq, Bool.not_eq_true', Bool.or_eq_true,
    beq_iff_eq] at h
  obtain ⟨⟨⟨⟨⟨hl, hr⟩, hs⟩, hk⟩, hd⟩, hgp⟩ := h
  rw [fetchGate, get_bind, raiseIf_bind_false (by simpa using hl), bind_of_ok (readDescriptor_off hp hr)]
  change (raiseIf (!(s.gateAt vector).isIdtGate) _ >>= fun _ => _) s = _
  rw [raiseIf_bind_false, raiseIf_bind_false, raiseIf_bind_false, refuseIf_bind_false]
  · rfl
  · rcases hk with hk | hk <;> simp [State.gateAt] at hk <;> simp [hk]
  · simp only [State.gateAt] at hgp; simp [hgp]
  · cases software
    · rfl
    · have := hd.resolve_left (by simp)
      simp only [State.gateAt] at this
      simpa using this
  · rcases hk with hk | hk <;> simp [Descriptor.isIdtGate, hs, hk]

/-- Taking an event: the passage through the gate of its vector (R284, R285, R313). -/
theorem takeEvent_off (hp : s.pagingEnabled = false) {vector : Byte} {software : Bool} {code : Option Nat}
    {retPc : DWord} (h : s.eventOk vector software code retPc = true) :
    takeEvent vector software code retPc s = .ok ((), s.eventTaken vector code retPc) := by
  simp only [State.eventOk, Bool.and_eq_true] at h
  obtain ⟨⟨⟨hg, hh⟩, hst⟩, hpush⟩ := h
  simp only [State.handlerOk, Bool.and_eq_true, Bool.not_eq_true', decide_eq_true_eq] at hh
  obtain ⟨⟨⟨⟨⟨⟨⟨tn, tf⟩, ts⟩, tc⟩, td⟩, tp⟩, tl⟩, tm⟩ := hh
  rw [takeEvent, bind_of_ok (fetchGate_off hp hg), get_bind]
  dsimp only
  rw [bind_of_ok (fetchTarget_off hp tn tf)]
  dsimp only
  have hc : checkHandler s.cpl (s.gateAt vector).gateSelector (s.named (s.gateAt vector).gateSelector)
      (s.gateAt vector).gateOffset s = .ok ((), s) := by
    rw [checkHandler, raiseIf_bind_false (by simp [isData_eq, ts, tc]), raiseIf_bind_false (by simpa using td),
      raiseIf_bind_false (by simp [tp]), raiseIf_run]
    simp [tl]
  rw [bind_of_ok hc]
  have hj : ∀ f : Unit → Op Unit,
      (if targetLevel s.cpl (s.named (s.gateAt vector).gateSelector) = s.cpl then f ()
        else switchStack (targetLevel s.cpl (s.named (s.gateAt vector).gateSelector)) (s.gateAt vector).gateBytes
          >>= f) s = f () (s.frameStack vector) := by
    intro f
    by_cases hlv : targetLevel s.cpl (s.named (s.gateAt vector).gateSelector) = s.cpl
    · rw [if_pos hlv]
      simp [State.frameStack, State.handlerStack, State.handlerLevel, hlv]
    · rw [if_neg hlv, bind_of_ok (switchStack_off hp hlv hst)]
      rfl
  refine (hj _).trans ?_
  have pg : (s.frameStack vector).pagingEnabled = false := by
    rw [State.frameStack, handlerStack_pagingEnabled, hp]
  have hcs : (s.frameStack vector).cs = s.cs := handlerStack_cs _ _
  have hcfg : (s.frameStack vector).cfg = s.cfg := handlerStack_cfg _ _
  have hw : s.frameWords code retPc = s.eflags.toNat :: (s.returnWords retPc ++ code.toList) := rfl
  rw [hw, State.pushAllOk, Bool.and_eq_true] at hpush
  refine (bind_of_ok (push_off pg _ hpush.1)).trans ?_
  generalize hF : (s.frameStack vector).pushed (s.gateAt vector).gateBytes s.eflags.toNat = F at hpush
  have pF : F.pagingEnabled = false := by rw [← hF, pushed_pagingEnabled, pg]
  have cF : F.cs = s.cs := by rw [← hF, pushed_cs, hcs]
  have gF : F.cfg = s.cfg := by rw [← hF, pushed_cfg, hcfg]
  have hsplit : ∀ (t : State) (vs ws : List Nat) (l : Level) (n : Nat),
      t.pushAllOk l n (vs ++ ws) = (t.pushAllOk l n vs && (t.pushedAll n vs).pushAllOk l n ws) := by
    intro t vs ws l n
    induction vs generalizing t with
    | nil => simp [State.pushAllOk, State.pushedAll]
    | cons v rest ih => simp [State.pushAllOk, State.pushedAll, ih, Bool.and_assoc]
  have happ : ∀ (t : State) (vs ws : List Nat) (n : Nat),
      t.pushedAll n (vs ++ ws) = (t.pushedAll n vs).pushedAll n ws := by
    intro t vs ws n
    induction vs generalizing t with
    | nil => rfl
    | cons v rest ih => simp [State.pushedAll, ih]
  have hpu := hpush.2
  rw [hsplit, Bool.and_eq_true] at hpu
  refine (bind_of_ok (pushReturn_words (s := s) pF cF hpu.1)).trans ?_
  have herr : pushErrorCode (s.handlerLevel vector) (s.gateAt vector).gateBytes code
      (F.pushedAll (s.gateAt vector).gateBytes (s.returnWords retPc)) = .ok ((),
        (F.pushedAll (s.gateAt vector).gateBytes (s.returnWords retPc)).pushedAll (s.gateAt vector).gateBytes
          code.toList) := by
    cases code with
    | none => rfl
    | some c =>
      have hcode := hpu.2
      simp only [Option.toList, State.pushAllOk, Bool.and_true] at hcode
      exact push_off (by simp [pF]) c hcode
  refine (bind_of_ok herr).trans ?_
  refine (bind_of_ok (commitCs_off (by simp [pF]) ?_)).trans ?_
  · rw [markOk_cfg (s := s) (by simp [gF])]; exact tm
  · rw [modify_run]
    simp only [State.eventTaken, hw, State.pushedAll, happ, hF]
    rfl

end Sys2Proof.Laws
end

