-- ==== Sys2Proof/Laws/PerInstr.lean ====
section
/-! SUPPORT. A statement about every instruction as syntax, one lemma per constructor: an encoding is at least one
byte long and at most 9, so that with prefixes it can stay inside the 15 bytes of R111. -/

namespace Sys2Proof.Laws

open Sys2Proof

/-- ModRM, SIB and displacement make 1 to 6 bytes (R111). -/
theorem encodeModRm_length (reg : BitVec 3) (o : RM) :
    1 ≤ (encodeModRm reg o).length ∧ (encodeModRm reg o).length ≤ 6 := by
  rcases o with r | (e | e)
  · simp [encodeModRm]
  · cases e <;> simp [encodeModRm, encodeEa16, bytes16]
  · cases e <;> simp [encodeModRm, encodeEa32, bytes32]

theorem encodeFarOffset_length (m : Mode) (off : DWord) : (encodeFarOffset m off).length ≤ 4 := by
  unfold encodeFarOffset
  split <;> simp [bytes16, bytes32]

/-- The instruction's own bytes number 1 to 9. -/
def EncodedLength.Statement (i : Instr) : Prop := ∀ m : Mode, 1 ≤ i.length m ∧ i.length m ≤ 9

theorem EncodedLength.movToSreg (b : BitVec 3) (o : RM) : EncodedLength.Statement (.movToSreg b o) := by
  intro m
  have h := encodeModRm_length b o
  simp only [Instr.length, encode, List.length_cons]
  omega

theorem EncodedLength.movFromSreg (b : BitVec 3) (o : RM) : EncodedLength.Statement (.movFromSreg b o) := by
  intro m
  have h := encodeModRm_length b o
  simp only [Instr.length, encode, List.length_cons]
  omega

theorem EncodedLength.popEs : EncodedLength.Statement (.popEs) := fun _ => by simp [Instr.length, encode]

theorem EncodedLength.popSs : EncodedLength.Statement (.popSs) := fun _ => by simp [Instr.length, encode]

theorem EncodedLength.popDs : EncodedLength.Statement (.popDs) := fun _ => by simp [Instr.length, encode]

theorem EncodedLength.popFs : EncodedLength.Statement (.popFs) := fun _ => by simp [Instr.length, encode]

theorem EncodedLength.popGs : EncodedLength.Statement (.popGs) := fun _ => by simp [Instr.length, encode]

theorem EncodedLength.lds (r : Reg) (o : RM) : EncodedLength.Statement (.lds r o) := by
  intro m
  have h := encodeModRm_length r.toBits o
  simp only [Instr.length, encode, List.length_cons]
  omega

theorem EncodedLength.les (r : Reg) (o : RM) : EncodedLength.Statement (.les r o) := by
  intro m
  have h := encodeModRm_length r.toBits o
  simp only [Instr.length, encode, List.length_cons]
  omega

theorem EncodedLength.lss (r : Reg) (o : RM) : EncodedLength.Statement (.lss r o) := by
  intro m
  have h := encodeModRm_length r.toBits o
  simp only [Instr.length, encode, List.length_cons]
  omega

theorem EncodedLength.lfs (r : Reg) (o : RM) : EncodedLength.Statement (.lfs r o) := by
  intro m
  have h := encodeModRm_length r.toBits o
  simp only [Instr.length, encode, List.length_cons]
  omega

theorem EncodedLength.lgs (r : Reg) (o : RM) : EncodedLength.Statement (.lgs r o) := by
  intro m
  have h := encodeModRm_length r.toBits o
  simp only [Instr.length, encode, List.length_cons]
  omega

theorem EncodedLength.callPtr (off : DWord) (sel : Word16) : EncodedLength.Statement (.callPtr off sel) := by
  intro m
  have h := encodeFarOffset_length m off
  simp only [Instr.length, encode, bytes16, List.length_cons, List.length_append, List.length_nil]
  omega

theorem EncodedLength.callMem (o : RM) : EncodedLength.Statement (.callMem o) := by
  intro m
  have h := encodeModRm_length 3 o
  simp only [Instr.length, encode, List.length_cons]
  omega

theorem EncodedLength.jmpPtr (off : DWord) (sel : Word16) : EncodedLength.Statement (.jmpPtr off sel) := by
  intro m
  have h := encodeFarOffset_length m off
  simp only [Instr.length, encode, bytes16, List.length_cons, List.length_append, List.length_nil]
  omega

theorem EncodedLength.jmpMem (o : RM) : EncodedLength.Statement (.jmpMem o) := by
  intro m
  have h := encodeModRm_length 5 o
  simp only [Instr.length, encode, List.length_cons]
  omega

theorem EncodedLength.retFar : EncodedLength.Statement (.retFar) := fun _ => by simp [Instr.length, encode]

theorem EncodedLength.retFarImm (imm : Word16) : EncodedLength.Statement (.retFarImm imm) :=
  fun _ => by simp [Instr.length, encode, bytes16]

theorem EncodedLength.sysenter : EncodedLength.Statement (.sysenter) := fun _ => by simp [Instr.length, encode]

theorem EncodedLength.sysexit : EncodedLength.Statement (.sysexit) := fun _ => by simp [Instr.length, encode]

theorem EncodedLength.iret : EncodedLength.Statement (.iret) := fun _ => by simp [Instr.length, encode]

theorem EncodedLength.int (n : Byte) : EncodedLength.Statement (.int n) := fun _ => by simp [Instr.length, encode]

theorem EncodedLength.into : EncodedLength.Statement (.into) := fun _ => by simp [Instr.length, encode]

theorem EncodedLength.int3 : EncodedLength.Statement (.int3) := fun _ => by simp [Instr.length, encode]

theorem EncodedLength.sldt (o : RM) : EncodedLength.Statement (.sldt o) := by
  intro m
  have h := encodeModRm_length 0 o
  simp only [Instr.length, encode, List.length_cons]
  omega

theorem EncodedLength.str (o : RM) : EncodedLength.Statement (.str o) := by
  intro m
  have h := encodeModRm_length 1 o
  simp only [Instr.length, encode, List.length_cons]
  omega

theorem EncodedLength.lldt (o : RM) : EncodedLength.Statement (.lldt o) := by
  intro m
  have h := encodeModRm_length 2 o
  simp only [Instr.length, encode, List.length_cons]
  omega

theorem EncodedLength.ltr (o : RM) : EncodedLength.Statement (.ltr o) := by
  intro m
  have h := encodeModRm_length 3 o
  simp only [Instr.length, encode, List.length_cons]
  omega

theorem EncodedLength.sgdt (o : RM) : EncodedLength.Statement (.sgdt o) := by
  intro m
  have h := encodeModRm_length 0 o
  simp only [Instr.length, encode, List.length_cons]
  omega

theorem EncodedLength.sidt (o : RM) : EncodedLength.Statement (.sidt o) := by
  intro m
  have h := encodeModRm_length 1 o
  simp only [Instr.length, encode, List.length_cons]
  omega

theorem EncodedLength.lgdt (o : RM) : EncodedLength.Statement (.lgdt o) := by
  intro m
  have h := encodeModRm_length 2 o
  simp only [Instr.length, encode, List.length_cons]
  omega

theorem EncodedLength.lidt (o : RM) : EncodedLength.Statement (.lidt o) := by
  intro m
  have h := encodeModRm_length 3 o
  simp only [Instr.length, encode, List.length_cons]
  omega

theorem EncodedLength.prefixOperandSize : EncodedLength.Statement (.prefixOperandSize) :=
  fun _ => by simp [Instr.length, encode]

theorem EncodedLength.prefixAddressSize : EncodedLength.Statement (.prefixAddressSize) :=
  fun _ => by simp [Instr.length, encode]

theorem EncodedLength.prefixCs : EncodedLength.Statement (.prefixCs) := fun _ => by simp [Instr.length, encode]

theorem EncodedLength.prefixEs : EncodedLength.Statement (.prefixEs) := fun _ => by simp [Instr.length, encode]

theorem EncodedLength.prefixSs : EncodedLength.Statement (.prefixSs) := fun _ => by simp [Instr.length, encode]

theorem EncodedLength.prefixDs : EncodedLength.Statement (.prefixDs) := fun _ => by simp [Instr.length, encode]

theorem EncodedLength.prefixFs : EncodedLength.Statement (.prefixFs) := fun _ => by simp [Instr.length, encode]

theorem EncodedLength.prefixGs : EncodedLength.Statement (.prefixGs) := fun _ => by simp [Instr.length, encode]

end Sys2Proof.Laws
end

