-- ==== Sys2Proof/Tests/Slice0.lean ====
section
/-! SUPPORT. The model's own tests: ill-formed terms, words written out from the spec's encodings, one step of each
instruction on a small state, and for every statement with hypotheses states and operands that meet them. The
expected results come from 95_test_vectors.md where a section is named, else by hand from the instruction's rule. -/

namespace Sys2Proof.Tests

open Sys2Proof Sys2Proof.Machine

-- One theorem after another: each thread of the compiler reserves its own stack.
set_option Elab.async false

/-! ### Well-formedness -/

theorem test_wf_ea16 : Ea16.wf (.ind .bp) = false ∧ Ea16.wf (.ind .bx) = true := by decide

theorem test_wf_ea32 :
    Ea32.wf (.ind .esp) = false ∧ Ea32.wf (.ind .ebp) = false ∧ Ea32.wf (.ind8 .esp 0) = false ∧
    Ea32.wf (.ind32 .esp 0) = false ∧ Ea32.wf (.sib .ebp .eax 0) = false ∧ Ea32.wf (.sib8 .ebp .eax 0 0) = true := by
  decide

theorem test_wf_address_size :
    Instr.wf ⟨true, true⟩ (.lldt (.mem (.a16 (.direct 0)))) = false ∧
    Instr.wf ⟨true, false⟩ (.lldt (.mem (.a32 (.direct 0)))) = false ∧
    Instr.wf ⟨true, true⟩ (.lds .eax (.mem (.a32 (.ind .esp)))) = false ∧
    Instr.wf ⟨true, true⟩ (.movToSreg 3 (.mem (.a32 (.ind .ebp)))) = false ∧
    Instr.wf ⟨true, true⟩ (.callMem (.mem (.a32 (.ind .esp)))) = false ∧
    Instr.wf ⟨true, true⟩ (.sgdt (.mem (.a32 (.ind .esp)))) = false := by decide

theorem test_wf_far_offset :
    Instr.wf ⟨false, true⟩ (.callPtr 0x10000 8) = false ∧ Instr.wf ⟨false, true⟩ (.jmpPtr 0xFFFF 8) = true := by
  decide

/-! ### Words written out from R109 to R113, with 32-bit sizes -/

/-- The instruction at the front of `bs` with 32-bit sizes, when it takes all of them. -/
def whole (bs : List Byte) : Option Instr :=
  match decode ⟨true, true⟩ bs with
  | .ok (i, []) => some i
  | _ => none

/-- 8E /r and 8C /r: ModRM = 11 reg rm or 00 reg 101 disp32. -/
theorem test_decode_mov :
    whole [0x8E, 0b11011000] = some (.movToSreg 3 (.reg .eax)) ∧
    whole [0x8E, 0b11100001] = some (.movToSreg 4 (.reg .ecx)) ∧
    whole [0x8C, 0b11011001] = some (.movFromSreg 3 (.reg .ecx)) ∧
    whole [0x8C, 0b00011101, 0x00, 0x10, 0x00, 0x00] = some (.movFromSreg 3 (.mem (.a32 (.direct 0x1000)))) := by
  decide

theorem test_decode_pop :
    whole [0x07] = some .popEs ∧ whole [0x17] = some .popSs ∧ whole [0x1F] = some .popDs ∧
    whole [0x0F, 0xA1] = some .popFs ∧ whole [0x0F, 0xA9] = some .popGs := by decide

/-- ModRM = 00 reg 101 disp32; reg is the general register. -/
theorem test_decode_far_pointer :
    whole [0xC5, 0b00011101, 0x08, 0x60, 0x00, 0x00] = some (.lds .ebx (.mem (.a32 (.direct 0x6008)))) ∧
    whole [0xC4, 0b00111101, 0x08, 0x60, 0x00, 0x00] = some (.les .edi (.mem (.a32 (.direct 0x6008)))) ∧
    whole [0x0F, 0xB2, 0b00100101, 0x00, 0x60, 0x00, 0x00] = some (.lss .esp (.mem (.a32 (.direct 0x6000)))) ∧
    whole [0x0F, 0xB4, 0b00110101, 0x08, 0x60, 0x00, 0x00] = some (.lfs .esi (.mem (.a32 (.direct 0x6008)))) ∧
    whole [0x0F, 0xB5, 0b00000101, 0x08, 0x60, 0x00, 0x00] = some (.lgs .eax (.mem (.a32 (.direct 0x6008)))) := by
  decide

/-- 9A and EA: offset, then selector; FF /3 and FF /5. -/
theorem test_decode_transfer :
    whole [0x9A, 0x00, 0x30, 0x00, 0x00, 0x08, 0x00] = some (.callPtr 0x3000 8) ∧
    whole [0xEA, 0x00, 0x31, 0x00, 0x00, 0x48, 0x00] = some (.jmpPtr 0x3100 0x48) ∧
    whole [0xFF, 0b00011101, 0x08, 0x60, 0x00, 0x00] = some (.callMem (.mem (.a32 (.direct 0x6008)))) ∧
    whole [0xFF, 0b00101101, 0x08, 0x60, 0x00, 0x00] = some (.jmpMem (.mem (.a32 (.direct 0x6008)))) ∧
    whole [0xCB] = some .retFar ∧ whole [0xCA, 0x34, 0x12] = some (.retFarImm 0x1234) := by decide

theorem test_decode_interrupt :
    whole [0xCF] = some .iret ∧ whole [0xCD, 0x80] = some (.int 0x80) ∧ whole [0xCE] = some .into ∧
    whole [0xCC] = some .int3 ∧ whole [0x0F, 0x34] = some .sysenter ∧ whole [0x0F, 0x35] = some .sysexit := by decide

/-- 0F 00 /0 to /3 and 0F 01 /0 to /3. -/
theorem test_decode_system :
    whole [0x0F, 0x00, 0b11000000] = some (.sldt (.reg .eax)) ∧
    whole [0x0F, 0x00, 0b11001010] = some (.str (.reg .edx)) ∧
    whole [0x0F, 0x00, 0b11010000] = some (.lldt (.reg .eax)) ∧
    whole [0x0F, 0x00, 0b11011011] = some (.ltr (.reg .ebx)) ∧
    whole [0x0F, 0x01, 0b00000101, 0x02, 0x30, 0x00, 0x00] = some (.sgdt (.mem (.a32 (.direct 0x3002)))) ∧
    whole [0x0F, 0x01, 0b00001101, 0x02, 0x30, 0x00, 0x00] = some (.sidt (.mem (.a32 (.direct 0x3002)))) ∧
    whole [0x0F, 0x01, 0b00010101, 0x02, 0x30, 0x00, 0x00] = some (.lgdt (.mem (.a32 (.direct 0x3002)))) ∧
    whole [0x0F, 0x01, 0b00011101, 0x02, 0x30, 0x00, 0x00] = some (.lidt (.mem (.a32 (.direct 0x3002)))) := by decide

theorem test_decode_prefix_bytes :
    whole [0x66] = some .prefixOperandSize ∧ whole [0x67] = some .prefixAddressSize ∧ whole [0x2E] = some .prefixCs ∧
    whole [0x26] = some .prefixEs ∧ whole [0x36] = some .prefixSs ∧ whole [0x3E] = some .prefixDs ∧
    whole [0x64] = some .prefixFs ∧ whole [0x65] = some .prefixGs := by decide

/-- Addressing forms: [EAX+4*ECX+5], [SP has a SIB byte], [BX+SI] and a 16-bit displacement (log entry 14). -/
theorem test_decode_addressing :
    whole [0x8E, 0b01011100, 0b10001000, 0x05] = some (.movToSreg 3 (.mem (.a32 (.sib8 .eax .ecx 2 0x05)))) ∧
    whole [0x8E, 0b00011100, 0b00100100] = some (.movToSreg 3 (.mem (.a32 (.sib .esp .esp 0)))) ∧
    decode ⟨false, false⟩ [0x8E, 0b00011000] = .ok (.movToSreg 3 (.mem (.a16 (.ind .bxSi))), []) ∧
    decode ⟨false, false⟩ [0x8E, 0b00011110, 0x34, 0x12] = .ok (.movToSreg 3 (.mem (.a16 (.direct 0x1234))), []) := by
  decide

/-- An opcode that the table lacks is refused by name; bytes that end early say how many are missing for certain: the rest
of a far pointer, a ModRM byte, a displacement. -/
theorem test_decode_refuses :
    decode ⟨true, true⟩ [0x90] = .error .notInTable ∧ decode ⟨true, true⟩ [0x0F, 0x00, 0b11100000] = .error .notInTable ∧
    decode ⟨true, true⟩ [0xEA, 0x00] = .error (.short 5) ∧ decode ⟨false, true⟩ [0x9A] = .error (.short 4) ∧
    decode ⟨true, true⟩ [0xC5] = .error (.short 1) ∧ decode ⟨true, true⟩ [0xC5, 0x1D] = .error (.short 4) := by decide

/-! ### A machine in the state of 95_test_vectors.md section 3.1 -/

/-- The cells of bytes from address `a` on; a byte 0 is not listed. -/
def cells (a : Nat) (bs : List Nat) : Memory :=
  match bs with
  | [] => []
  | b :: rest => if b = 0 then cells (a + 1) rest else (a, BitVec.ofNat 8 b) :: cells (a + 1) rest

/-- The GDT: 08H to 48H as in section 3.1; then in its style 50H (code, DPL 3), 58H (data, DPL 3), 60H (call gate to
8:3000H, DPL 3, one parameter), 68H (call gate to the conforming 48H), 70H (16-bit TSS), 78H (system type 0). -/
def gdt : Memory :=
  cells 0x1008 [0xFF, 0xFF, 0, 0, 0, 0x9B, 0xCF, 0, 0xFF, 0xFF, 0, 0, 0, 0x92, 0xCF, 0,
    0xFF, 0x0F, 0, 0, 2, 0x90, 0x40, 0, 0xFF, 0x0F, 0, 0, 3, 0x96, 0x40, 0, 0x67, 0, 0, 0x40, 0, 0x89, 0, 0,
    0x17, 0, 0, 0x50, 0, 0x82, 0, 0, 0xFF, 0xFF, 0, 0, 0, 0x12, 0xCF, 0] ++
  cells 0x1040 [0xFF, 0xFF, 0, 0, 0, 0x93, 0xCF, 0, 0xFF, 0xFF, 0, 0, 0, 0x9E, 0xCF, 0,
    0xFF, 0xFF, 0, 0, 0, 0xFA, 0xCF, 0, 0xFF, 0xFF, 0, 0, 0, 0xF2, 0xCF, 0, 0, 0x30, 8, 0, 1, 0xEC, 0, 0,
    0, 0x30, 0x48, 0, 0, 0xEC, 0, 0, 0x67, 0, 0, 0x40, 0, 0x81, 0, 0, 0, 0, 0, 0, 0, 0x80, 0, 0]

/-- Behind the code: the stack of level 0 in the TSS; the LDT of section 3.1 at 5000H; far pointers and a
pseudo-descriptor at 6000H; IDT entries 3 (trap gate), 4 and 80H (interrupt gates) of DPL 3 and 13 of DPL 0; the
operands of returns at 8000H, 8100H, 8200H, and of pops at 8300H. -/
def upper : Memory :=
  cells 0x4004 [0, 0x90, 0, 0, 0x40, 0] ++
  cells 0x5008 [0xFF, 0xFF, 0, 0, 0, 0xF2, 0xCF, 0, 0xFF, 0xFF, 0, 0, 0, 0xFA, 0xCF, 0] ++
  cells 0x6000 [0, 0x90, 0, 0, 0x40, 0, 0, 0, 0, 0x30, 0, 0, 8, 0, 0, 0] ++
  cells 0x6010 [0x78, 0x56, 0x34, 0x12, 0x58, 0, 0, 0, 0xFF, 0, 0, 0x10, 0, 1] ++
  cells 0x7018 [0, 0x30, 8, 0, 0, 0xEF, 0, 0, 0, 0x30, 8, 0, 0, 0xEE, 0, 0] ++
  cells 0x7068 [0, 0x30, 8, 0, 0, 0x8E, 0, 0] ++ cells 0x7400 [0, 0x30, 8, 0, 0, 0xEE, 0, 0] ++
  cells 0x8000 [0, 0x30, 0, 0, 8, 0, 0, 0, 2, 2, 0, 0] ++
  cells 0x8100 [0, 0x30, 0, 0, 0x53, 0, 0, 0, 2, 2, 0, 0, 0, 0x98, 0, 0, 0x5B, 0, 0, 0] ++
  cells 0x8200 [0, 0x30, 0, 0, 0x53, 0, 0, 0, 0, 0x98, 0, 0, 0x5B, 0, 0, 0] ++
  cells 0x8300 [0x10, 0, 0, 0, 0x40, 0, 0, 0]

def nullSeg : SegCache := { SegCache.atReset 0 0 3 with valid := false }

/-- CPL 0: flat CS and SS, null data segment registers, the GDT and the IDT in place. -/
def s0 : State :=
  { State.reset with
    cs := .flat 8 0b1011 0, ss := .flat 0x40 0b0011 0, ds := nullSeg, es := nullSeg, fs := nullSeg, gs := nullSeg
    gdtr := ⟨0x1000, 0x7F⟩, idtr := ⟨0x7000, 0x7FF⟩, pc := 0x2000, mem := gdt ++ upper
    gpr := { State.reset.gpr with esp := 0x8000 } }

/-- `s0` with DS flat. -/
def sd : State := { s0 with ds := .flat 0x10 0b0011 0 }

/-- CPL 3: flat CS, SS and DS of DPL 3, LDTR and TR loaded. -/
def s3 : State :=
  { s0 with
    cs := .flat 0x53 0b1011 3, ss := .flat 0x5B 0b0011 3, ds := .flat 0x5B 0b0011 3
    ldtr := { State.reset.ldtr with sel := 0x30, valid := true, base := 0x5000, limit := 0x17 }
    tr := { State.reset.tr with sel := 0x28, valid := true, base := 0x4000, limit := 0x67 } }

def withEax (s : State) (v : DWord) : State := { s with gpr := { s.gpr with eax := v } }

def withEsp (s : State) (v : DWord) : State := { s with gpr := { s.gpr with esp := v } }

/-- A field of the state after a step. -/
def after {α : Type} (o : Outcome) (f : State → α) : Option α :=
  match o with
  | .next t => some (f t)
  | _ => none

/-- The exception a step ends with. -/
def exceptionOf (o : Outcome) : Option Exn :=
  match o with
  | .fault (.exception e) => some e
  | _ => none

/-- The instruction's bytes at the instruction pointer, 2000H. -/
def code (s : State) (bs : List Nat) : State := { s with mem := gdt ++ cells 0x2000 bs ++ upper }

def byteIn (a : Nat) (s : State) : Byte := s.mem.read (BitVec.ofNat 36 a)

/-! ### One step of each instruction -/

/-- 2.8, selector 0010H: the hidden part, and the byte at 1015H from 92 to 93. -/
theorem test_mov_ds : after (step (code (withEax s0 0x10) [0x8E, 0xD8]))
    (fun t => (t.ds.sel, t.ds.type, t.ds.effLimit, t.pc, byteIn 0x1015 t)) =
    some (0x10, 0b0011, 0xFFFFFFFF, 0x2002, 0x93) := by decide +kernel

/-- 2.8, selector 003BH: privilege is checked before present. -/
theorem test_mov_es_privilege : exceptionOf (step (code (withEax s0 0x3B) [0x8E, 0xC0])) = some (.gp 0x38) := by
  decide +kernel

/-- R200: a register destination is zero-extended with a 32-bit operand size. -/
theorem test_mov_from_cs : after (step (code (withEax s0 0xFFFFFFFF) [0x8C, 0xC8])) (fun t => t.gpr.eax) =
    some 8 := by decide +kernel

/-- Section 3.4: a store to a read-only segment. -/
theorem test_mov_read_only : exceptionOf (step (code { s0 with ds := .load 0x18 ⟨0x00000FFF, 0x00409002⟩ }
    [0x8C, 0x1D, 0, 0, 0, 0])) = some (.gp 0) := by decide +kernel

theorem test_pop_ds : after (step (code (withEsp s0 0x8300) [0x1F])) (fun t => (t.ds.sel, t.gpr.esp)) =
    some (0x10, 0x8304) := by decide +kernel

theorem test_pop_es : after (step (code (withEsp s0 0x8300) [0x07])) (fun t => (t.es.sel, t.ds.sel)) =
    some (0x10, 0) := by decide +kernel

theorem test_pop_fs : after (step (code (withEsp s0 0x8300) [0x0F, 0xA1])) (fun t => (t.fs.sel, t.pc)) =
    some (0x10, 0x2002) := by decide +kernel

theorem test_pop_gs : after (step (code (withEsp s0 0x8300) [0x0F, 0xA9])) (fun t => (t.gs.sel, t.pc)) =
    some (0x10, 0x2002) := by decide +kernel

/-- 2.9: SS takes no null selector. -/
theorem test_pop_ss_null : exceptionOf (step (code (withEsp s0 0x8500) [0x17])) = some (.gp 0) := by decide +kernel

theorem test_pop_ss : after (step (code (withEsp s0 0x8304) [0x17])) (fun t => (t.ss.sel, t.gpr.esp)) =
    some (0x40, 0x8308) := by decide +kernel

/-- R202: the selector stands behind the offset. -/
theorem test_lds : after (step (code sd [0xC5, 0x1D, 0x08, 0x60, 0, 0])) (fun t => (t.ds.sel, t.gpr.ebx)) =
    some (8, 0x3000) := by decide +kernel

theorem test_les : after (step (code sd [0xC4, 0x1D, 0x10, 0x60, 0, 0])) (fun t => (t.es.sel, t.gpr.ebx)) =
    some (0x58, 0x12345678) := by decide +kernel

/-- Section 3.7: LSS loads SS and ESP together. -/
theorem test_lss : after (step (code sd [0x0F, 0xB2, 0x25, 0, 0x60, 0, 0])) (fun t => (t.ss.sel, t.gpr.esp)) =
    some (0x40, 0x9000) := by decide +kernel

theorem test_lfs : after (step (code sd [0x0F, 0xB4, 0x1D, 0x10, 0x60, 0, 0])) (fun t => (t.fs.sel, t.gpr.ebx)) =
    some (0x58, 0x12345678) := by decide +kernel

theorem test_lgs : after (step (code sd [0x0F, 0xB5, 0x1D, 0x10, 0x60, 0, 0])) (fun t => (t.gs.sel, t.gpr.ebx)) =
    some (0x58, 0x12345678) := by decide +kernel

/-- Section 3.5: CS at the higher address, then the return address below it. -/
theorem test_call_ptr : after (step (code s0 [0x9A, 0, 0x30, 0, 0, 8, 0]))
    (fun t => (t.pc, t.gpr.esp, byteIn 0x7FF8 t, byteIn 0x7FFC t)) = some (0x3000, 0x7FF8, 0x07, 0x08) := by
  decide +kernel

theorem test_call_mem : after (step (code sd [0xFF, 0x1D, 0x08, 0x60, 0, 0]))
    (fun t => (t.pc, t.gpr.esp, byteIn 0x7FF8 t)) = some (0x3000, 0x7FF8, 0x06) := by decide +kernel

/-- Section 3.6: into a conforming segment, CPL unchanged; then 0010H is no code segment. -/
theorem test_jmp_ptr : after (step (code s3 [0xEA, 0, 0x31, 0, 0, 0x48, 0]))
    (fun t => (t.pc, t.cs.sel, t.cpl, byteIn 0x104D t)) = some (0x3100, 0x4B, 3, 0x9F) := by decide +kernel

theorem test_jmp_data : exceptionOf (step (code s0 [0xEA, 0, 0x32, 0, 0, 0x10, 0])) = some (.gp 0x10) := by
  decide +kernel

theorem test_jmp_mem : after (step (code sd [0xFF, 0x2D, 0x08, 0x60, 0, 0])) (fun t => (t.pc, t.gpr.esp)) =
    some (0x3000, 0x8000) := by decide +kernel

theorem test_ret_far : after (step (code s0 [0xCB])) (fun t => (t.pc, t.cs.sel, t.gpr.esp)) =
    some (0x3000, 8, 0x8008) := by decide +kernel

/-- R209: an inner return address raises #GP. -/
theorem test_ret_inward : exceptionOf (step (code s3 [0xCB])) = some (.gp 8) := by decide +kernel

theorem test_ret_far_imm : after (step (code s0 [0xCA, 0x10, 0])) (fun t => (t.pc, t.gpr.esp)) =
    some (0x3000, 0x8018) := by decide +kernel

/-- R209: the outer stack comes from the inner one, past the bytes released. -/
theorem test_ret_outer : after (step (code (withEsp s0 0x8100) [0xCA, 4, 0]))
    (fun t => (t.cpl, t.ss.sel, t.gpr.esp)) = some (3, 0x5B, 0x9804) := by decide +kernel

/-- R210: bits 1:0 of IA32_SYSENTER_CS are cleared, SS is the next selector. -/
theorem test_sysenter : after (step (code { s3 with sysenterCs := 0x0B, sysenterEsp := 0x9000, sysenterEip := 0x3000 }
    [0x0F, 0x34])) (fun t => (t.cs.sel, t.ss.sel, t.pc, t.gpr.esp)) = some (8, 0x10, 0x3000, 0x9000) := by
  decide +kernel

theorem test_sysexit : after (step (code { s0 with sysenterCs := 8, gpr := ⟨0, 0x9000, 0x3000, 0, 0, 0, 0, 0⟩ }
    [0x0F, 0x35])) (fun t => (t.cs.sel, t.ss.sel, t.pc, t.gpr.esp)) = some (0x1B, 0x23, 0x3000, 0x9000) := by
  decide +kernel

theorem test_iret : after (step (code s0 [0xCF])) (fun t => (t.pc, t.eflags, t.gpr.esp)) =
    some (0x3000, 0x202, 0x800C) := by decide +kernel

/-- R313: from CPL 3 to 0 the frame is SS, ESP, EFLAGS, CS, EIP; the saved EIP is the next instruction's. -/
theorem test_int : after (step (code s3 [0xCD, 0x80]))
    (fun t => (t.cpl, t.pc, t.gpr.esp, byteIn 0x8FEC t, byteIn 0x8FFC t)) = some (0, 0x3000, 0x8FEC, 0x02, 0x5B) := by
  decide +kernel

/-- R213, R293: a gate of DPL 0 is closed to INT n at CPL 3; the error code names the IDT entry. -/
theorem test_int_closed_gate : exceptionOf (step (code s3 [0xCD, 13])) = some (.gp 0x6A) := by decide +kernel

theorem test_into : after (step (code { s0 with eflags := 0x802 } [0xCE])) (fun t => (t.pc, t.gpr.esp)) =
    some (0x3000, 0x7FF4) := by decide +kernel

theorem test_into_no_overflow : after (step (code s0 [0xCE])) (fun t => (t.pc, t.gpr.esp)) =
    some (0x2001, 0x8000) := by decide +kernel

/-- R285: through a trap gate IF stays. -/
theorem test_int3 : after (step (code { s0 with eflags := 0x202 } [0xCC])) (fun t => (t.pc, t.eflags)) =
    some (0x3000, 0x202) := by decide +kernel

theorem test_sldt : after (step (code s3 [0x0F, 0x00, 0xC0])) (fun t => t.gpr.eax) = some 0x30 := by decide +kernel

theorem test_str : after (step (code s3 [0x0F, 0x00, 0xC8])) (fun t => t.gpr.eax) = some 0x28 := by decide +kernel

/-- Section 3.3: LLDT, and LTR with the busy bit in memory. -/
theorem test_lldt : after (step (code (withEax s0 0x30) [0x0F, 0x00, 0xD0]))
    (fun t => (t.ldtr.sel, t.ldtr.valid, t.ldtr.base, t.ldtr.limit)) = some (0x30, true, 0x5000, 0x17) := by
  decide +kernel

theorem test_ltr : after (step (code (withEax s0 0x28) [0x0F, 0x00, 0xD8]))
    (fun t => (t.tr.sel, t.tr.type, byteIn 0x102D t)) = some (0x28, 0b1011, 0x8B) := by decide +kernel

/-- Section 3.2: the limit in two bytes, then the base. -/
theorem test_sgdt : after (step (code sd [0x0F, 0x01, 0x05, 0x02, 0x30, 0, 0])) (fun t => (t.bytesAt 0x3002 6)) =
    some [0x7F, 0x00, 0x00, 0x10, 0x00, 0x00] := by decide +kernel

theorem test_sidt : after (step (code sd [0x0F, 0x01, 0x0D, 0x02, 0x30, 0, 0])) (fun t => (t.bytesAt 0x3002 6)) =
    some [0xFF, 0x07, 0x00, 0x70, 0x00, 0x00] := by decide +kernel

theorem test_lgdt : after (step (code sd [0x0F, 0x01, 0x15, 0x18, 0x60, 0, 0])) (fun t => t.gdtr) =
    some ⟨0x01001000, 0xFF⟩ := by decide +kernel

/-- R256: with a 16-bit operand size base[31:24] becomes 0. -/
theorem test_lidt_16 : after (step (code { sd with pfx := ⟨true, false, none, 0, none⟩ }
    [0x0F, 0x01, 0x1D, 0x18, 0x60, 0, 0])) (fun t => t.idtr) = some ⟨0x00001000, 0xFF⟩ := by decide +kernel

/-- A prefix byte is remembered, and the instruction starts behind it. -/
theorem test_prefixes : after (step (code s0 [0x66])) (fun t => (t.mode, t.pc, t.pfx.count)) =
      some (⟨false, true⟩, 0x2000, 1) ∧
    after (step (code s0 [0x67])) (fun t => t.mode) = some ⟨true, false⟩ ∧
    [0x2E, 0x26, 0x36, 0x3E, 0x64, 0x65].map (fun b => after (step (code s0 [b])) (fun t => t.pfx.seg)) =
      [some (some .cs), some (some .es), some (some .ss), some (some .ds), some (some .fs), some (some .gs)] := by
  decide +kernel

/-- R111: LOCK and REP bytes before POP DS are passed over. -/
theorem test_rep_lock : after (step (code (withEsp s0 0x8300) [0xF3, 0xF0, 0xF2, 0x1F])) (fun t => (t.ds.sel, t.pc)) =
      some (0x10, 0x2004) := by decide +kernel

/-- The byte `b` at 2FFEH, near the end of a present page whose successor is absent, under the two-level walk, and CS
ending at offset `limit`. -/
def acrossPages (limit : BitVec 20) (b : Nat) : State :=
  { s0 with
    cs := { s0.cs with limit := limit, g := false }, pc := 0x2FFE, pagingEnabled := true, pagingRoot := 0xA000
    mem := gdt ++ cells 0x2FFE [b] ++ upper ++ cells 0xA000 [7, 0xB0] ++ cells 0xB008 [7, 0x20]
    cfg := { s0.cfg with walk := .twoLevel, pse36 := false } }

/-- R36, R174, R311: the limit is checked over all seven bytes of 9A, 2FFEH to 3004H, before the second page is walked. -/
theorem test_fetch_limit : exceptionOf (step (acrossPages 0x3003 0x9A)) = some (.gp 0) ∧
    exceptionOf (step (acrossPages 0x3004 0x9A)) = some (.pf 0x3000 .execute 0 false) ∧
    exceptionOf (step (acrossPages 0x2FFD 0x9A)) = some (.gp 0) := by decide +kernel

/-- The host's two functions agree on the first instruction after reset. -/
theorem test_first_instruction : decodeTableWord 16 0xD88E = some (.movToSreg 3 (.reg .eax)) ∧
    after (step (State.reset.withFetchWord 16 0xD88E)) (fun t => (t.ds.valid, t.pc)) = some (false, 0xFFF2) := by
  decide +kernel

/-! ### Witnesses: states and operands that meet a statement's hypotheses, clause by clause -/

def hasNext (o : Outcome) : Bool :=
  match o with
  | .next _ => true
  | _ => false

theorem next_of {o : Outcome} (h : hasNext o = true) : ∃ t, o = .next t := by
  cases o with
  | next t => exact ⟨t, rfl⟩
  | fault f => cases h
  | refused r => cases h

/-- `s` under another policy for the transfers of R295. -/
def under (p : TransferPolicy) (s : State) : State := { s with cfg := { s.cfg with transfers := p } }

/-- With a 16-bit operand size. -/
def op16 (s : State) : State := { s with pfx := ⟨true, false, none, 0, none⟩ }

def d32 (a : DWord) : RM := .mem (.a32 (.direct a))

theorem witness_StepRunsDecodedInstruction :
    s0.cfg.numProcessors = 1 ∧ s0.pagingEnabled = false ∧ s0.cfg.fetchSeesStores = true ∧
    (code s0 [0xF0, 0xF2, 0x0F, 0x00, 0xC0]).codeHolds ([0xF0, 0xF2] ++ [0x0F, 0x00, 0xC0]) = true ∧
    (code s0 [0xF3, 0x0F, 0x00, 0xC0]).codeHolds ([0xF3] ++ [0x0F, 0x00, 0xC0]) = true ∧
    (code s0 [0x0F, 0x00, 0xC0]).codeHolds ([] ++ [0x0F, 0x00, 0xC0]) = true ∧
    decode (code s0 [0x0F, 0x00, 0xC0]).mode [0x0F, 0x00, 0xC0] = .ok (.sldt (.reg .eax), []) := by decide +kernel

theorem ok_of {ε α : Type} {x : Except ε α} (h : x.toOption.isSome = true) : ∃ a, x = .ok a := by
  cases x with
  | ok a => exact ⟨a, rfl⟩
  | error e => cases h

/-- `s` with CS ending at offset `limit`. -/
def endingAt (limit : BitVec 20) (s : State) : State := { s with cs := { s.cs with limit := limit, g := false } }

/-- A fetch that answers, with paging off, and on, and of a prefix byte; one whose first byte lies past the limit; and one whose last byte does. -/
theorem witness_FetchChecksLimitAndChangesNoRegister :
    ((∃ p, fetchInstr (code s0 [0x0F, 0x00, 0xC0]) = .ok p) ∧ (code s0 [0x0F, 0x00, 0xC0]).pagingEnabled = false ∧
      (code s0 [0x0F, 0x00, 0xC0]).cfg.numProcessors = 1) ∧
    ((∃ p, fetchInstr (acrossPages 0xFFFF 0xCB) = .ok p) ∧ (acrossPages 0xFFFF 0xCB).pagingEnabled = true ∧
      isPrefix .retFar = false) ∧
    ((∃ p, fetchInstr (acrossPages 0xFFFF 0x66) = .ok p) ∧ isPrefix .prefixOperandSize = true) ∧
    ((endingAt 0x1FFF s0).cs.valid = true ∧
      limitOk s0.cfg (endingAt 0x1FFF s0).cs (endingAt 0x1FFF s0).pcOffset.toNat 1 = false) ∧
    ((endingAt 0x2005 (code s0 [0x9A, 0, 0x30, 0, 0, 8, 0])).codeHolds [0x9A] = true ∧
      decode (endingAt 0x2005 s0).mode [0x9A] = .error (.short 6) ∧
      limitOk s0.cfg (endingAt 0x2005 s0).cs (endingAt 0x2005 s0).pcOffset.toNat 7 = false) :=
  ⟨⟨ok_of (by decide +kernel), by decide, by decide⟩, ⟨ok_of (by decide +kernel), rfl, rfl⟩,
    ⟨ok_of (by decide +kernel), rfl⟩, by decide +kernel, by decide +kernel⟩

theorem witness_DecodeOfEncode :
    Instr.wf ⟨true, true⟩ (.lds .edi (.mem (.a32 (.sib32 .ebp .edi 3 0xFFFFFFFF)))) = true ∧
    Instr.wf ⟨false, false⟩ (.callPtr 0xFFFF 0xFFFF) = true := by decide

theorem witness_EncodeOfDecode :
    decode ⟨true, true⟩ [0x8E, 0b11011000, 0x90] = .ok (.movToSreg 3 (.reg .eax), [0x90]) := by decide

theorem witness_StepKeepsInvariant :
    (code (withEax s0 0x10) [0x8E, 0xD8]).inv = true ∧ ∃ t, step (code (withEax s0 0x10) [0x8E, 0xD8]) = .next t :=
  ⟨by decide +kernel, next_of (by decide +kernel)⟩

theorem witness_PrivilegeIsLoweredOnlyByReturns :
    ((∃ t, exec (.int 0x80) s3 = .next t) ∧ lowersPrivilege (.int 0x80) = false) ∧
    ((∃ t, exec .popDs (withEsp s0 0x8300) = .next t) ∧ (withEsp s0 0x8300).cfg.transfers ≠ .delivered ∧
      impliedLoad .popDs = false) :=
  ⟨⟨next_of (by decide +kernel), rfl⟩, next_of (by decide +kernel), by decide, rfl⟩

theorem witness_frames :
    (withEsp s0 0x8300).cfg.transfers ≠ .delivered ∧ (∃ t, exec .popDs (withEsp s0 0x8300) = .next t) ∧
    .ss ∉ segsWritten .popDs ∧ .eax ∉ regsWritten .popDs ∧ writesFlags .popDs = false ∧
    (∀ o, Instr.popDs ≠ .lgdt o) ∧ (∀ o, Instr.popDs ≠ .lidt o) ∧ (∀ o, Instr.popDs ≠ .lldt o) ∧
    ∀ o, Instr.popDs ≠ .ltr o :=
  ⟨by decide, next_of (by decide +kernel), by decide, by decide, rfl, nofun, nofun, nofun, nofun⟩

theorem witness_NoStoreMemoryFrame :
    s0.pagingEnabled = false ∧ s0.cfg.transfers ≠ .delivered ∧
    ((∃ t, exec (.str (.reg .eax)) s0 = .next t) ∧ storesNothing (.str (.reg .eax)) = true) ∧
    ∃ t, exec (.lldt (.reg .eax)) (withEax s0 0x30) = .next t :=
  ⟨by decide, by decide, ⟨next_of (by decide +kernel), rfl⟩, next_of (by decide +kernel)⟩

/-- The bytes just below and just above the stored ones. -/
theorem witness_StoreMemoryFrame :
    sd.pagingEnabled = false ∧ sd.cfg.transfers ≠ .delivered ∧ sd.mem.wf = true ∧
    (∃ t, exec (.movFromSreg 1 (d32 0x3000)) sd = .next t) ∧ (∃ t, exec (.sldt (d32 0x3000)) sd = .next t) ∧
    (∃ t, exec (.str (d32 0x3000)) sd = .next t) ∧ (∃ t, exec (.sgdt (d32 0x3000)) sd = .next t) ∧
    (∃ t, exec (.sidt (d32 0x3000)) sd = .next t) ∧
    awayFrom (sd.eaAddr (.a32 (.direct 0x3000)) 0) 2 0x3002 = true ∧
    awayFrom (sd.eaAddr (.a32 (.direct 0x3000)) 0) 6 0x2FFF = true ∧
    awayFrom (sd.eaAddr (.a32 (.direct 0x3000)) 0) 6 0x3006 = true :=
  ⟨by decide, by decide, by decide +kernel, next_of (by decide +kernel), next_of (by decide +kernel),
    next_of (by decide +kernel), next_of (by decide +kernel), next_of (by decide +kernel), by decide, by decide,
    by decide⟩

theorem witness_SelectorLoadMemoryFrame :
    (withEax s0 0x10).pagingEnabled = false ∧ (withEax s0 0x10).cfg.transfers ≠ .delivered ∧
    (withEax s0 0x10).mem.wf = true ∧ directLoad (.movToSreg 3 (.reg .eax)) = true ∧
    (withEax s0 0x10).selectorReadable (.movToSreg 3 (.reg .eax)) = true ∧
    (∃ t, exec (.movToSreg 3 (.reg .eax)) (withEax s0 0x10) = .next t) ∧
    awayFrom ((withEax s0 0x10).accessByte ((withEax s0 0x10).loadedSelector (.movToSreg 3 (.reg .eax)))) 1
      0x1014 = true ∧ (∃ t, exec (.ltr (.reg .eax)) (withEax s0 0x28) = .next t) :=
  ⟨by decide, by decide, by decide +kernel, rfl, rfl, next_of (by decide +kernel), by decide,
    next_of (by decide +kernel)⟩

theorem witness_DirectTransferMemoryFrame :
    s0.pagingEnabled = false ∧ s0.cfg.transfers ≠ .delivered ∧ s0.mem.wf = true ∧ s0.fetchOk 8 = true ∧
    (s0.named 8).s = true ∧ awayFrom (s0.accessByte 8) 1 0x100C = true ∧
    s0.farPointerOf false (.jmpPtr 0x3000 8) = some (0x3000, 8) ∧ (∃ t, exec (.jmpPtr 0x3000 8) s0 = .next t) ∧
    s0.farPointerOf true (.callPtr 0x3000 8) = some (0x3000, 8) ∧ (∃ t, exec (.callPtr 0x3000 8) s0 = .next t) ∧
    sd.farPointerOf true (.callMem (d32 0x6008)) = some (0x3000, 8) ∧
    (∃ t, exec (.callMem (d32 0x6008)) sd = .next t) ∧
    ∀ a ∈ s0.pushSlots s0.opBytes (s0.returnWords (s0.nextPc (.callPtr 0x3000 8))),
      (awayFrom a s0.opBytes 0x7FF7 && awayFrom a s0.opBytes 0x8000) = true :=
  ⟨by decide, by decide, by decide +kernel, by decide +kernel, by decide +kernel, by decide, by decide +kernel,
    next_of (by decide +kernel), by decide +kernel, next_of (by decide +kernel), by decide +kernel,
    next_of (by decide +kernel), List.all_eq_true.1 (by decide +kernel)⟩

/-- The state with the operands of a far RET popped. -/
def retPopped (s : State) (k : DWord) : State := ((s.popped s.opBytes).popped s.opBytes).released k

/-- The state with the operands of IRET popped. -/
def iretPopped (s : State) : State := ((s.popped s.opBytes).popped s.opBytes).popped s.opBytes

theorem witness_ReturnMemoryFrame :
    s0.pagingEnabled = false ∧ s0.mem.wf = true ∧ s0.nestedTask = false ∧
    ((s0.popped s0.opBytes).popped s0.opBytes).topOk s0.opBytes = true ∧ s0.sameReturnOk s0.opBytes = true ∧
    (∃ t, exec .retFar s0 = .next t) ∧ (∃ t, exec (.retFarImm 8) s0 = .next t) ∧ (∃ t, exec .iret s0 = .next t) ∧
    awayFrom (s0.accessByte (s0.returnSel s0.opBytes)) 1 0x100C = true :=
  ⟨by decide, by decide +kernel, by decide, by decide +kernel, by decide +kernel, next_of (by decide +kernel),
    next_of (by decide +kernel), next_of (by decide +kernel), by decide +kernel⟩

theorem witness_ReturnMemoryFrame_outer :
    (withEsp s0 0x8100).outerReturnOk (iretPopped (withEsp s0 0x8100)) 4 = true ∧
    (∃ t, exec .iret (withEsp s0 0x8100) = .next t) ∧
    awayFrom ((withEsp s0 0x8100).accessByte ((withEsp s0 0x8100).returnSel 4)) 1 0x1054 = true ∧
    awayFrom ((withEsp s0 0x8100).accessByte ((iretPopped (withEsp s0 0x8100)).outerSs 4)) 1 0x1054 = true :=
  ⟨by decide +kernel, next_of (by decide +kernel), by decide +kernel, by decide +kernel⟩

/-- On a change of level and without one. -/
theorem witness_EventMemoryFrame :
    (s3.pagingEnabled = false ∧ s3.mem.wf = true ∧ s3.eventOk 0x80 true none (s3.nextPc (.int 0x80)) = true ∧
      (∃ t, exec (.int 0x80) s3 = .next t) ∧
      (∀ a ∈ s3.eventSlots 0x80 none (s3.nextPc (.int 0x80)),
        (awayFrom a (s3.gateAt 0x80).gateBytes 0x9000 && awayFrom a (s3.gateAt 0x80).gateBytes 0x8FEB) = true) ∧
      awayFrom (s3.accessByte (s3.gateAt 0x80).gateSelector) 1 0x9000 = true ∧ s3.handlerLevel 0x80 ≠ s3.cpl ∧
      awayFrom (s3.accessByte (s3.innerStack (s3.handlerLevel 0x80)).1) 1 0x9000 = true) ∧
    (s0.eventOk 0x80 true none (s0.nextPc (.int 0x80)) = true ∧ (∃ t, exec (.int 0x80) s0 = .next t) ∧
      s0.handlerLevel 0x80 = s0.cpl) :=
  ⟨⟨by decide, by decide +kernel, by decide +kernel, next_of (by decide +kernel),
    List.all_eq_true.1 (by decide +kernel), by decide +kernel, by decide +kernel, by decide +kernel⟩,
    by decide +kernel, next_of (by decide +kernel), by decide +kernel⟩

/-- `s3` with a far pointer to the call gate 60H, RPL 3, at 6020H. -/
def sg : State := { s3 with mem := s3.mem.write 0x6021 0x30 |>.write 0x6024 0x63 }

/-- Gate 60H from CPL 3 switches the stack and copies a parameter, from CPL 0 it does neither. -/
theorem witness_CallGateMemoryFrame :
    (s3.callGateOk true 0x63 = true ∧ s3.gateStackOk 0x63 = true ∧
      (s3.gateStack 0x63).pushAllOk (s3.gateLevel 0x63) (s3.named 0x63).gateBytes
        (s3.returnWords (s3.nextPc (.callPtr 0 0x63))) = true ∧ (∃ t, exec (.callPtr 0 0x63) s3 = .next t) ∧
      (∀ a ∈ s3.gateSlots 0x63 (s3.nextPc (.callPtr 0 0x63)),
        (awayFrom a (s3.named 0x63).gateBytes 0x9000 && awayFrom a (s3.named 0x63).gateBytes 0x8FDB) = true) ∧
      awayFrom (s3.accessByte (s3.named 0x63).gateSelector) 1 0x9000 = true ∧ s3.gateLevel 0x63 ≠ s3.cpl ∧
      awayFrom (s3.accessByte (s3.innerStack (s3.gateLevel 0x63)).1) 1 0x9000 = true) ∧
    (s0.farPointerOf true (.callPtr 0 0x60) = some (0, 0x60) ∧ s0.farPointerOf false (.jmpPtr 0 0x60) = some (0, 0x60) ∧
      s0.callGateOk false 0x60 = true ∧ ∃ t, exec (.jmpPtr 0 0x60) s0 = .next t) ∧
    (s0.callGateOk true 0x60 = true ∧ s0.gateStackOk 0x60 = true ∧ s0.gateLevel 0x60 = s0.cpl ∧
      (s0.gateStack 0x60).pushAllOk (s0.gateLevel 0x60) (s0.named 0x60).gateBytes
        (s0.returnWords (s0.nextPc (.callPtr 0 0x60))) = true ∧ ∃ t, exec (.callPtr 0 0x60) s0 = .next t) :=
  ⟨⟨by decide +kernel, by decide +kernel, by decide +kernel, next_of (by decide +kernel),
    List.all_eq_true.1 (by decide +kernel), by decide +kernel, by decide +kernel, by decide +kernel⟩,
    ⟨by decide +kernel, by decide +kernel, by decide +kernel, next_of (by decide +kernel)⟩,
    by decide +kernel, by decide +kernel,
    by decide +kernel, by decide +kernel, next_of (by decide +kernel)⟩

/-- Across the end of the linear address space. -/
theorem witness_StoredValueIsReadBack :
    s0.mem.wf = true ∧ 8 ≤ 8 ∧ awayFrom 0xFFFFFFFC 8 0x4 = true ∧ awayFrom 0xFFFFFFFC 8 0xFFFFFFFB = true := by
  decide +kernel

theorem witness_SelectorStoreCompletes :
    sd.pagingEnabled = false ∧ sd.destOk (.reg .eax) = true ∧ sd.destOk (d32 0x3000) = true ∧
    SReg.ofBits 0 = some .es ∧ SReg.ofBits 5 = some .gs := by decide +kernel

theorem witness_TableStoreCompletes :
    sd.pagingEnabled = false ∧ sd.eaOk (.a32 (.direct 0x3002)) 0 2 .write = true ∧
    sd.eaOk (.a32 (.direct 0x3002)) 2 4 .write = true := by decide +kernel

theorem witness_TableLoadCompletes :
    (sd.pagingEnabled = false ∧ sd.cpl = 0 ∧ sd.eaOk (.a32 (.direct 0x6018)) 0 2 .read = true ∧
      sd.eaOk (.a32 (.direct 0x6018)) 2 4 .read = true ∧ sd.mode.op32 = true ∧
      BitVec.ofNat 16 (sd.valueAt (sd.eaAddr (.a32 (.direct 0x6018)) 0) 2) = 0xFF ∧
      BitVec.ofNat 32 (sd.valueAt (sd.eaAddr (.a32 (.direct 0x6018)) 2) 4) = 0x01001000) ∧
    ((op16 sd).cpl = 0 ∧ (op16 sd).eaOk (.a32 (.direct 0x6018)) 2 4 .read = true ∧
      (op16 sd).mode.op32 = false) := by decide +kernel

theorem witness_LldtCompletes :
    s0.pagingEnabled = false ∧ s0.cpl = 0 ∧ s0.sourceOk (.reg .eax) = true ∧
    ((withEax s0 3).sourceValue (.reg .eax) = 3 ∧ isNull 3 = true) ∧
    ((withEax s0 0x30).sourceValue (.reg .eax) = 0x30 ∧ isNull 0x30 = false ∧ selTI 0x30 = false ∧
      (withEax s0 0x30).fetchOk 0x30 = true ∧ ((withEax s0 0x30).named 0x30).s = false ∧
      ((withEax s0 0x30).named 0x30).type = 0b0010 ∧ ((withEax s0 0x30).named 0x30).p = true) := by decide +kernel

/-- A 32-bit TSS, and a 16-bit one. -/
theorem witness_LtrCompletes : ∀ sel ∈ [(0x28 : Word16), 0x70],
    (withEax s0 (sel.setWidth 32)).pagingEnabled = false ∧ (withEax s0 (sel.setWidth 32)).cpl = 0 ∧
    (withEax s0 (sel.setWidth 32)).sourceValue (.reg .eax) = sel ∧ isNull sel = false ∧ selTI sel = false ∧
    s0.fetchOk sel = true ∧ (s0.named sel).s = false ∧
    ((s0.named sel).type = 0b0001 ∨ (s0.named sel).type = 0b1001) ∧ (s0.named sel).p = true ∧
    s0.ramAt (s0.accessByte sel) 1 = true :=
  fun sel h => by rcases List.mem_pair.1 h with rfl | rfl <;> decide +kernel

/-- A null selector, data, readable code and a stack. -/
theorem witness_MovToSegmentRegisterCompletes :
    s0.pagingEnabled = false ∧ SReg.ofBits 3 = some .ds ∧ SReg.ofBits 2 = some .ss ∧ s0.sourceOk (.reg .eax) = true ∧
    s0.directLoadOk .ds 3 = true ∧ s0.directLoadOk .ds 0x10 = true ∧ s0.directLoadOk .ds 8 = true ∧
    s0.directLoadOk .ss 0x40 = true ∧ (withEax s0 0x40).sourceValue (.reg .eax) = 0x40 := by decide +kernel

theorem witness_PopSegmentRegisterCompletes :
    (withEsp s0 0x8300).pagingEnabled = false ∧ (withEsp s0 0x8300).topOk 4 = true ∧
    (withEsp s0 0x8300).opBytes = 4 ∧
    (withEsp s0 0x8300).directLoadOk .ds (BitVec.ofNat 16 ((withEsp s0 0x8300).topValue 4)) = true ∧
    (withEsp s0 0x8304).topOk 4 = true ∧
    (withEsp s0 0x8304).directLoadOk .ss (BitVec.ofNat 16 ((withEsp s0 0x8304).topValue 4)) = true := by
  decide +kernel

theorem witness_FarPointerLoadCompletes :
    sd.pagingEnabled = false ∧ sd.pointerOk (.a32 (.direct 0x6010)) = true ∧
    sd.directLoadOk .gs (sd.pointerSel (.a32 (.direct 0x6010))) = true ∧
    sd.pointerOk (.a32 (.direct 0x6000)) = true ∧
    sd.directLoadOk .ss (sd.pointerSel (.a32 (.direct 0x6000))) = true := by decide +kernel

/-- A null selector and one of a data segment, from a register; the stack segment, from a far pointer. -/
theorem witness_LoadedSegmentHoldsDescriptor :
    (s0.pagingEnabled = false ∧ s0.cfg.transfers ≠ .delivered ∧ s0.mem.wf = true ∧
      directLoad (.movToSreg 3 (.reg .eax)) = true ∧ directLoadTarget (.movToSreg 3 (.reg .eax)) = some .ds ∧
      directLoadTarget (.lss .esp (d32 0x6000)) = some .ss) ∧
    ((withEax s0 3).loadedSelector (.movToSreg 3 (.reg .eax)) = 3 ∧ isNull 3 = true ∧
      ∃ t, exec (.movToSreg 3 (.reg .eax)) (withEax s0 3) = .next t) ∧
    ((withEax s0 0x10).loadedSelector (.movToSreg 3 (.reg .eax)) = 0x10 ∧ isNull 0x10 = false ∧
      s0.descriptorReadable (s0.descriptorAddr 0x10) = true ∧
      ∃ t, exec (.movToSreg 3 (.reg .eax)) (withEax s0 0x10) = .next t) ∧
    (sd.selectorReadable (.lss .esp (d32 0x6000)) = true ∧ sd.loadedSelector (.lss .esp (d32 0x6000)) = 0x40 ∧
      ∃ t, exec (.lss .esp (d32 0x6000)) sd = .next t) :=
  ⟨by decide +kernel, ⟨by decide +kernel, by decide, next_of (by decide +kernel)⟩,
    ⟨by decide +kernel, by decide, by decide +kernel, next_of (by decide +kernel)⟩,
    by decide +kernel, by decide +kernel, next_of (by decide +kernel)⟩

theorem witness_DirectJumpCompletes :
    sd.pagingEnabled = false ∧ sd.codeTargetOk sd.cpl 8 (sd.immOffset 0xFFFFFFFF) = true ∧
    s3.codeTargetOk s3.cpl 0x48 (s3.immOffset 0) = true ∧ sd.pointerOk (.a32 (.direct 0x6008)) = true ∧
    sd.pointerSel (.a32 (.direct 0x6008)) = 8 ∧
    sd.codeTargetOk sd.cpl 8 (sd.pointerOff (.a32 (.direct 0x6008))) = true := by decide +kernel

theorem witness_DirectCallCompletes :
    sd.pagingEnabled = false ∧ sd.pushReturnOk sd.cpl sd.opBytes = true ∧
    sd.codeTargetOk sd.cpl 8 (sd.immOffset 0) = true ∧ sd.pointerOk (.a32 (.direct 0x6008)) = true ∧
    sd.pointerSel (.a32 (.direct 0x6008)) = 8 ∧
    sd.codeTargetOk sd.cpl 8 (sd.pointerOff (.a32 (.direct 0x6008))) = true := by decide +kernel

theorem witness_CallGateTransferCompletes :
    s0.pagingEnabled = false ∧ s0.farPointerOf false (.jmpPtr 0 0x60) = some (0, 0x60) ∧
    s3.farPointerOf true (.callPtr 0 0x63) = some (0, 0x63) ∧ s3.farPointerOf false (.jmpPtr 0 0x6B) = some (0, 0x6B) ∧
    sg.farPointerOf false (.jmpMem (d32 0x6020)) = some (0x3000, 0x63) ∧ sg.callGateOk true 0x63 = true ∧
    sg.farPointerOf true (.callMem (d32 0x6020)) = some (0x3000, 0x63) ∧ sg.gateStackOk 0x63 = true ∧
    (sg.gateStack 0x63).pushAllOk (sg.gateLevel 0x63) (sg.named 0x63).gateBytes
      (sg.returnWords (sg.nextPc (.callMem (d32 0x6020)))) = true ∧
    s0.callGateOk false 0x60 = true ∧ s3.callGateOk false 0x6B = true ∧
    s3.callGateOk true 0x63 = true ∧ s3.gateStackOk 0x63 = true ∧
    (s3.gateStack 0x63).pushAllOk (s3.gateLevel 0x63) (s3.named 0x63).gateBytes
      (s3.returnWords (s3.nextPc (.callPtr 0 0x63))) = true := by decide +kernel

theorem witness_SameLevelReturnCompletes : s0.pagingEnabled = false ∧ s0.sameReturnOk s0.opBytes = true := by
  decide +kernel

theorem witness_OuterReturnCompletes :
    s0.pagingEnabled = false ∧
    (withEsp s0 0x8200).outerReturnOk (retPopped (withEsp s0 0x8200) 0) 4 = true ∧
    (withEsp s0 0x8100).outerReturnOk (retPopped (withEsp s0 0x8100) ((4 : Word16).setWidth 32)) 4 = true := by
  decide +kernel

theorem witness_InterruptReturnCompletes :
    s0.pagingEnabled = false ∧ s0.nestedTask = false ∧
    ((s0.popped s0.opBytes).popped s0.opBytes).topOk s0.opBytes = true ∧ s0.sameReturnOk s0.opBytes = true ∧
    (((withEsp s0 0x8100).popped 4).popped 4).topOk 4 = true ∧
    (withEsp s0 0x8100).outerReturnOk (iretPopped (withEsp s0 0x8100)) 4 = true := by decide +kernel

theorem witness_Sysenter : s0.cfg.transfers ≠ .named ∧ s0.sysenterCs.extractLsb' 2 14 = 0 ∧
    ({ s0 with sysenterCs := 4 } : State).sysenterCs.extractLsb' 2 14 ≠ 0 := by decide +kernel

theorem witness_Sysexit :
    s3.cfg.transfers ≠ .named ∧ s0.cfg.transfers ≠ .named ∧ s3.cpl ≠ 0 ∧ s0.cpl = 0 := by decide +kernel

theorem witness_SoftwareInterruptCompletes :
    s3.pagingEnabled = false ∧ s3.cfg.transfers ≠ .named ∧ s3.overflowFlag = false ∧
    s3.eventOk 0x80 true none (s3.nextPc (.int 0x80)) = true ∧ s3.eventOk 3 true none (s3.nextPc .int3) = true ∧
    ({ s3 with eflags := 0x802 } : State).overflowFlag = true ∧
    ({ s3 with eflags := 0x802 } : State).eventOk 4 true none (s3.nextPc .into) = true := by decide +kernel

theorem witness_GateEntryFlags :
    s0.pagingEnabled = false ∧ s0.cfg.transfers ≠ .named ∧
    (s0.eventOk 0x80 true none (s0.nextPc (.int 0x80)) = true ∧
      systemKind (s0.gateAt 0x80).type = .interruptGate) ∧
    (s0.eventOk 3 true none (s0.nextPc (.int 3)) = true ∧ systemKind (s0.gateAt 3).type = .trapGate) := by
  decide +kernel

theorem witness_PrefixBytesComplete :
    (s0.pfx.opSize = false ∧ s0.pfx.addrSize = false ∧ s0.pfx.seg = none) ∧
    (∃ t, exec .prefixOperandSize s0 = .next t) ∧ (∃ t, exec .prefixAddressSize s0 = .next t) ∧
    (∃ t, exec .prefixCs s0 = .next t) ∧ (∃ t, exec .prefixEs s0 = .next t) ∧ (∃ t, exec .prefixSs s0 = .next t) ∧
    (∃ t, exec .prefixDs s0 = .next t) ∧ (∃ t, exec .prefixFs s0 = .next t) ∧ (∃ t, exec .prefixGs s0 = .next t) :=
  ⟨⟨rfl, rfl, rfl⟩, ⟨_, rfl⟩, ⟨_, rfl⟩, ⟨_, rfl⟩, ⟨_, rfl⟩, ⟨_, rfl⟩, ⟨_, rfl⟩, ⟨_, rfl⟩, ⟨_, rfl⟩⟩

theorem witness_PrefixesApplyToOneInstruction :
    isPrefix .popDs = false ∧ ∃ t, exec .popDs (withEsp s0 0x8300) = .next t :=
  ⟨rfl, next_of (by decide +kernel)⟩

theorem witness_ExceptionOutcome :
    s3.cfg.transfers ≠ .delivered ∧ (under .delivered s3).cfg.transfers = .delivered ∧
    (under .delivered s3).pagingEnabled = false ∧
    ((under .delivered s3).undone.noteFault (.gp 0)).eventOk (Exn.gp 0).vector false (Exn.gp 0).errorCode
      (under .delivered s3).pcOffset = true ∧ s3.pfx.before = none ∧
    ({ s3 with pfx := { s3.pfx with before := some [] } } : State).pfx.before = some [] := by decide +kernel

theorem witness_PrivilegedInstructionsTrap : s3.cpl ≠ 0 ∧ s3.cfg.transfers ≠ .named := by decide

theorem witness_InvalidEncodingsTrap :
    SReg.ofBits 6 = none ∧ SReg.ofBits 7 = none ∧ SReg.ofBits 1 = some .cs ∧ s0.pagingEnabled = false ∧
    s0.sourceOk (.reg .eax) = true := by decide +kernel

/-- A null selector, one past the table's limit, and the last one inside it. -/
theorem witness_DataSegmentLoadChecks :
    s0.pagingEnabled = false ∧ SReg.ofBits 3 = some .ds ∧
    ((withEax s0 3).reg16 .eax = 3 ∧ isNull 3 = true) ∧
    ((withEax s0 0x80).reg16 .eax = 0x80 ∧ isNull 0x80 = false ∧ (withEax s0 0x80).inLimit 0x80 = false) ∧
    ((withEax s0 0x78).reg16 .eax = 0x78 ∧ isNull 0x78 = false ∧ (withEax s0 0x78).inLimit 0x78 = true ∧
      (withEax s0 0x78).descriptorReadable ((withEax s0 0x78).descriptorAddr 0x78) = true) := by decide +kernel

theorem witness_StackSegmentLoadChecks :
    (s0.pagingEnabled = false ∧ isNull 0 = true ∧ isNull 0x80 = false ∧ s0.inLimit 0x80 = false) ∧
    (s0.inLimit 0x18 = true ∧ s0.descriptorReadable (s0.descriptorAddr 0x18) = true ∧
      (s0.named 0x18).reservedBitSet = false ∧ writable (s0.named 0x18).type = false) ∧
    (selRPL 0x13 ≠ s0.cpl ∧ (s0.named 0x28).s = false ∧ (s0.named 0x58).dpl ≠ s0.cpl) ∧
    (selRPL 0x38 = s0.cpl ∧ (s0.named 0x38).s = true ∧ writable (s0.named 0x38).type = true ∧
      (s0.named 0x38).dpl = s0.cpl ∧ (s0.named 0x38).p = false ∧ (s0.named 0x38).reservedBitSet = false) ∧
    (selRPL 0x40 = s0.cpl ∧ (s0.named 0x40).s = true ∧ writable (s0.named 0x40).type = true ∧
      (s0.named 0x40).dpl = s0.cpl ∧ (s0.named 0x40).p = true ∧
      s0.markOk (s0.named 0x40) (s0.descriptorAddr 0x40) = true) := by decide +kernel

/-- At 08H writable data, at 10H code, at 18H an available TSS, each present and with bit 21 set. -/
def reservedBits : State :=
  { s0 with
    mem := cells 0x1008 [0xFF, 0xFF, 0, 0, 0, 0x93, 0xEF, 0, 0xFF, 0xFF, 0, 0, 0, 0x9B, 0xEF, 0,
      0x67, 0, 0, 0x40, 0, 0x89, 0x20, 0] }

/-- The descriptor a selector names is present, inside its table, readable and has the reserved bit set. -/
def hasReservedBit (s : State) (sel : Word16) : Bool :=
  !isNull sel && !selTI sel && s.inLimit sel && s.descriptorReadable (s.descriptorAddr sel) &&
    (s.named sel).reservedBitSet

/-- The clauses on the reserved bit of the statements on loads of SS, on far transfers, on LTR and LLDT, and on gates. -/
theorem witness_reservedBit :
    hasReservedBit reservedBits 8 = true ∧ hasReservedBit reservedBits 0x10 = true ∧
    hasReservedBit reservedBits 0x18 = true ∧ reservedBits.pagingEnabled = false ∧ reservedBits.cpl = 0 ∧
    (withEax reservedBits 8).reg16 .eax = 8 ∧
    reservedBits.farPointerOf true (.callPtr 0 0x10) = some (0, 0x10) ∧
    ((s0.named 0x60).type = 0b1100 ∧ (s0.named 0x60).gateSelector = 8 ∧
      ({ reservedBits with mem := reservedBits.mem ++ gdt.filter (fun c => 0x1060 ≤ c.1) } : State).named 0x60 =
        s0.named 0x60) ∧
    ((s0.gateAt 0x80).gateSelector = 8 ∧
      ({ reservedBits with mem := reservedBits.mem ++ upper } : State).gateReadable 0x80 = true ∧
      ({ reservedBits with mem := reservedBits.mem ++ upper } : State).gateAt 0x80 = s0.gateAt 0x80) := by
  decide +kernel

/-- Code that is not present at 08H, and code with a limit of 0 at 10H. -/
def oddCode : State :=
  { s0 with mem := cells 0x1008 [0xFF, 0xFF, 0, 0, 0, 0x1B, 0xCF, 0, 0, 0, 0, 0, 0, 0x9B, 0x40, 0] }

/-- A TSS at 08H and an LDT at 10H that are not present. -/
def absentSystem : State :=
  { s0 with mem := cells 0x1008 [0x67, 0, 0, 0x40, 0, 0x09, 0, 0, 0x17, 0, 0, 0x50, 0, 0x02, 0, 0] }

theorem witness_FarTransferChecks :
    (s0.pagingEnabled = false ∧ isNull 3 = true ∧ isNull 0x80 = false ∧ s0.inLimit 0x80 = false) ∧
    (s0.fetchOk 0x28 = true ∧ (s0.named 0x28).s = false ∧ (s0.named 0x28).type = 0b1001) ∧
    (s0.fetchOk 0x30 = true ∧ (s0.named 0x30).s = false ∧ (s0.named 0x30).type = 0b0010) ∧
    (s0.fetchOk 0x10 = true ∧ (s0.named 0x10).s = true ∧ isCode (s0.named 0x10).type = false) ∧
    (isCode (s3.named 8).type = true ∧ conforming (s3.named 8).type = false ∧ (s3.named 8).dpl ≠ s3.cpl) ∧
    (oddCode.fetchOk 8 = true ∧ isCode (oddCode.named 8).type = true ∧ (oddCode.named 8).s = true ∧
      (oddCode.named 8).dpl = oddCode.cpl ∧ (oddCode.named 8).p = false) ∧
    (oddCode.fetchOk 0x10 = true ∧ isCode (oddCode.named 0x10).type = true ∧ (oddCode.named 0x10).p = true ∧
      (oddCode.named 0x10).dpl = oddCode.cpl ∧
      (oddCode.named 0x10).effLimit.toNat < (oddCode.immOffset 1).toNat) ∧
    (s0.farPointerOf true (.callPtr 1 0x10) = some (s0.immOffset 1, 0x10) ∧
      s0.farPointerOf false (.jmpPtr 1 0x10) = some (s0.immOffset 1, 0x10)) := by decide +kernel

/-- A descriptor in place of the one at 08H of `s0`'s GDT. -/
def withGate (s : State) (bs : List Nat) : State := { s with mem := cells 0x1008 bs ++ gdt.filter (fun c => 0x1010 ≤ c.1) }

/-- A call gate of DPL 0, one that is not present, one with a null selector, one whose selector lies past the table, one
to a data segment; the conforming code at 48H with room for the offset; and, in `oddCode`'s style, absent and short code. -/
theorem witness_FarTransferChecks_gate :
    ((withGate s3 [0, 0x30, 0x50, 0, 0, 0x8C, 0, 0]).fetchOk 0x08 = true ∧
      ((withGate s3 [0, 0x30, 0x50, 0, 0, 0x8C, 0, 0]).named 0x08).dpl < s3.cpl) ∧
    ((withGate s3 [0, 0x30, 0x50, 0, 0, 0x6C, 0, 0]).fetchOk 0x08 = true ∧
      ((withGate s3 [0, 0x30, 0x50, 0, 0, 0x6C, 0, 0]).named 0x08).p = false) ∧
    isNull ((withGate s3 [0, 0x30, 0, 0, 0, 0xEC, 0, 0]).named 0x08).gateSelector = true ∧
    s3.inLimit ((withGate s3 [0, 0x30, 0x80, 0, 0, 0xEC, 0, 0]).named 0x08).gateSelector = false ∧
    isCode (s3.named ((withGate s3 [0, 0x30, 0x58, 0, 0, 0xEC, 0, 0]).named 0x08).gateSelector).type = false ∧
    (s3.cfg.transfers ≠ .named ∧ (s3.named 0x60).type = 0b1100 ∧ (s3.named 0x60).s = false ∧
      s3.cpl ≤ (s3.named 0x60).dpl ∧ selRPL 0x63 ≤ (s3.named 0x60).dpl ∧ (s3.named 0x60).p = true ∧
      s3.fetchOk (s3.named 0x60).gateSelector = true) ∧
    (conforming (s3.named 8).type = false ∧ (s3.named 8).dpl ≠ s3.cpl ∧ (s3.named 8).dpl ≤ s3.cpl) ∧
    (oddCode.fetchOk 8 = true ∧ (oddCode.named 8).dpl = oddCode.cpl ∧ (oddCode.named 8).p = false) ∧
    (oddCode.named 0x10).effLimit.toNat < ((withGate s0 [0, 0x30, 0x10, 0, 0, 0xEC, 0, 0]).named 8).gateOffset.toNat := by
  decide +kernel

theorem witness_SystemSegmentLoadChecks :
    (s0.pagingEnabled = false ∧ s0.cpl = 0 ∧ isNull 0 = true ∧ (withEax s0 4).reg16 .eax = 4) ∧
    (isNull 4 = false ∧ selTI 4 = true ∧ isNull 0x80 = false ∧ s0.inLimit 0x80 = false) ∧
    (selTI 0x10 = false ∧ s0.fetchOk 0x10 = true ∧ (s0.named 0x10).s = true) ∧
    (absentSystem.fetchOk 8 = true ∧ (absentSystem.named 8).s = false ∧ (absentSystem.named 8).type = 0b1001 ∧
      (absentSystem.named 8).p = false) ∧
    (absentSystem.fetchOk 0x10 = true ∧ (absentSystem.named 0x10).s = false ∧
      (absentSystem.named 0x10).type = 0b0010 ∧ (absentSystem.named 0x10).p = false) := by decide +kernel

theorem witness_InwardReturnTraps :
    s3.pagingEnabled = false ∧ s3.topOk s3.opBytes = true ∧ (s3.popped s3.opBytes).topOk s3.opBytes = true ∧
    selRPL (s3.returnSel s3.opBytes) < s3.cpl ∧ s3.nestedTask = false ∧
    ((s3.popped s3.opBytes).popped s3.opBytes).topOk s3.opBytes = true := by decide +kernel

/-- `s` with the IDT at 08H of its GDT's memory, whose vector 1 is the gate 08H of `withGate`. -/
def withIdt (s : State) : State := { s with idtr := ⟨0x1000, 0x0F⟩ }

theorem witness_InterruptGateChecks :
    (s3.pagingEnabled = false ∧ s3.cfg.transfers ≠ .named ∧ (Instr.int 13, 13) ∈ softwareInterrupts 13 ∧
      (Instr.into, 4) ∈ softwareInterrupts 0 ∧ ({ s3 with eflags := 0x802 } : State).overflowFlag = true) ∧
    (withIdt s3).idtr.limit.toNat < 8 * (2 : Byte).toNat + 7 ∧
    ((withIdt s3).gateReadable 1 = true ∧ ((withIdt s3).gateAt 1).s = true) ∧
    (s3.gateReadable 13 = true ∧ (s3.gateAt 13).s = false ∧ (s3.gateAt 13).type = 0b1110 ∧
      (s3.gateAt 13).dpl < s3.cpl) ∧
    ((withIdt (withGate s3 [0, 0x30, 0x50, 0, 0, 0x6E, 0, 0])).gateReadable 1 = true ∧
      ((withIdt (withGate s3 [0, 0x30, 0x50, 0, 0, 0x6E, 0, 0])).gateAt 1).type = 0b1110 ∧
      s3.cpl ≤ ((withIdt (withGate s3 [0, 0x30, 0x50, 0, 0, 0x6E, 0, 0])).gateAt 1).dpl ∧
      ((withIdt (withGate s3 [0, 0x30, 0x50, 0, 0, 0x6E, 0, 0])).gateAt 1).p = false) ∧
    isNull ((withIdt (withGate s3 [0, 0x30, 0, 0, 0, 0xEE, 0, 0])).gateAt 1).gateSelector = true ∧
    s3.inLimit ((withIdt (withGate s3 [0, 0x30, 0x80, 0, 0, 0xEE, 0, 0])).gateAt 1).gateSelector = false ∧
    (s3.gateReadable 0x80 = true ∧ s3.cpl ≤ (s3.gateAt 0x80).dpl ∧ (s3.gateAt 0x80).p = true ∧
      s3.fetchOk (s3.gateAt 0x80).gateSelector = true) ∧
    isCode (s3.named ((withIdt (withGate s3 [0, 0x30, 0x58, 0, 0, 0xEE, 0, 0])).gateAt 1).gateSelector).type = false ∧
    (oddCode.fetchOk 8 = true ∧ (oddCode.named 8).s = true ∧ (oddCode.named 8).dpl ≤ oddCode.cpl ∧
      (oddCode.named 8).p = false) ∧
    (oddCode.fetchOk 0x10 = true ∧ (oddCode.named 0x10).p = true ∧
      (oddCode.named 0x10).effLimit.toNat < (s0.gateAt 0x80).gateOffset.toNat) := by decide +kernel

theorem witness_RefusedByName :
    ({ s0 with cfg := { s0.cfg with numProcessors := 2 } } : State).cfg.numProcessors ≠ 1 ∧
    ({ s0 with eflags := 0x4002 } : State).nestedTask = true ∧ (under .named s0).cfg.transfers = .named ∧
    (under .named { s0 with eflags := 0x802 }).overflowFlag = true ∧
    ((withIdt (withGate s3 [0, 0, 0x28, 0, 0, 0xE5, 0, 0])).gateReadable 1 = true ∧
      ((withIdt (withGate s3 [0, 0, 0x28, 0, 0, 0xE5, 0, 0])).gateAt 1).type = 0b0101 ∧
      s3.cpl ≤ ((withIdt (withGate s3 [0, 0, 0x28, 0, 0, 0xE5, 0, 0])).gateAt 1).dpl) ∧
    ((under .named s0).farPointerOf true (.callPtr 0 0x60) = some (0, 0x60) ∧ (under .named s0).fetchOk 0x60 = true ∧
      ((under .named s0).named 0x60).type = 0b1100) ∧
    ((under .named (withEsp s0 0x8100)).topOk 4 = true ∧
      ((under .named (withEsp s0 0x8100)).popped 4).topOk 4 = true ∧
      (((under .named (withEsp s0 0x8100)).popped 4).popped 4).topOk 4 = true ∧
      (under .named (withEsp s0 0x8100)).cpl < selRPL ((under .named (withEsp s0 0x8100)).returnSel 4)) := by
  decide +kernel

/-- A GDT in ROM, and DS flat. -/
def romTable : State := { sd with gdtr := ⟨0xFFFF0000, 0xFF⟩ }

theorem witness_RomDescriptorHangs :
    s0.pagingEnabled = false ∧ s0.kindAt (((0xFFFF0000 : DWord) + 5).setWidth 36) = .rom ∧
    accessed (s0.named 0x10).type = false ∧ accessed (s0.named 0x40).type = true ∧
    (SReg.ofBits 3 = some .ds ∧ romTable.refChecked (Ea.segReg romTable (.a32 (.direct 0xFFFF0008)))
        (romTable.eaOff (.a32 (.direct 0xFFFF0008))) 2 .write romTable.cpl = true ∧
      romTable.kindAt ((romTable.eaAddr (.a32 (.direct 0xFFFF0008)) 0).setWidth 36) = .rom ∧
      romTable.descriptorByte (romTable.eaAddr (.a32 (.direct 0xFFFF0008)) 0) = true) := by decide +kernel

theorem witness_NullSegmentReferenceTraps : s0.ds.valid = false := by decide

/-- Code, and data that expands up; each accessible kind and the last byte of the segment. -/
theorem witness_ExpandUpReference :
    (s0.cs.valid = true ∧ isCode s0.cs.type = true) ∧ (s0.ss.valid = true ∧ s0.ss.type.getLsbD 2 = false) ∧
    (SegCache.load 0x18 (s0.named 0x18)).effLimit.toNat = 0xFFF ∧ 0xFFC + 4 ≤ 0xFFF + 1 := by decide +kernel

theorem witness_ExpandDownReference :
    (SegCache.load 0x20 (s0.named 0x20)).valid = true ∧ isCode (SegCache.load 0x20 (s0.named 0x20)).type = false ∧
    (SegCache.load 0x20 (s0.named 0x20)).type.getLsbD 2 = true := by decide +kernel

theorem witness_AlignmentCheck :
    Sys2Proof.Machine.translate s3.cfg .ds (s3.seg .ds) 1 2 .read = .ok 1 ∧
    Sys2Proof.Machine.translate s3.cfg .ds (s3.seg .ds) 4 4 .write = .ok 4 ∧
    ({ s3 with alignMask := true, eflags := 0x40002 } : State).alignCheckEnabled = true := by decide +kernel

theorem witness_StackPointerWidth :
    (∃ p, push 0 4 7 s0 = .ok p) ∧ (∃ p, pop 4 s0 = .ok p) ∧ s0.ss.db = true ∧ State.reset.ss.db = false :=
  ⟨ok_of (by decide +kernel), ok_of (by decide +kernel), rfl, rfl⟩

theorem witness_PagingStep :
    s0.pagingEnabled = false ∧ (∃ p, phys 0xFFFFFFFF .read 0 s0 = .ok p) ∧
    ({ s0 with pagingEnabled := true } : State).pagingEnabled = true ∧ s0.cfg.walk = .parameter :=
  ⟨rfl, ⟨_, rfl⟩, rfl, rfl⟩

end Sys2Proof.Tests
end

section
/-! SUPPORT. Relations that a sequence of operations keeps, and from them which registers a transfer leaves alone. -/

namespace Sys2Proof.Proofs

open Sys2Proof Sys2Proof.Machine Sys2Proof.Laws

/-! ### Relations that a sequence of operations keeps -/

section Steps

variable {α β : Type} {R : State → State → Prop}

/-- A relation that holds from a state to itself and passes along a sequence. -/
structure Chain (R : State → State → Prop) : Prop where
  refl : ∀ s, R s s
  trans : ∀ {s t u}, R s t → R t u → R s u

/-- Whatever state `op` answers, `R` leads to it from the one before. -/
def Steps (R : State → State → Prop) (op : Op α) : Prop := ∀ s a t, op s = .ok (a, t) → R s t

theorem Chain.bind (hR : Chain R) {op : Op α} {f : α → Op β} (h : Steps R op) (hf : ∀ a, Steps R (f a)) :
    Steps R (op >>= f) := by
  intro s b u hu
  obtain ⟨a, t, h1, h2⟩ := bind_ok.1 hu
  exact hR.trans (h s a t h1) (hf a t b u h2)

theorem Chain.pure (hR : Chain R) (a : α) : Steps R (pure a : Op α) := by
  intro s _ t h
  cases h
  exact hR.refl s

theorem Chain.get (hR : Chain R) : Steps R (get : Op State) := by
  intro s _ t h
  cases h
  exact hR.refl s

theorem Chain.raiseIf (hR : Chain R) (c : Bool) (e : Exn) : Steps R (raiseIf c e) := by
  intro s _ t h
  obtain ⟨-, rfl⟩ := raiseIf_ok.1 h
  exact hR.refl t

theorem Chain.refuseIf (hR : Chain R) (c : Bool) (r : Refusal) : Steps R (refuseIf c r) := by
  intro s _ t h
  obtain ⟨-, rfl⟩ := refuseIf_ok.1 h
  exact hR.refl t

theorem Chain.check (hR : Chain R) (r : Except Exn α) : Steps R (check r) := by
  intro s _ t h
  obtain ⟨-, rfl⟩ := check_ok.1 h
  exact hR.refl t

theorem Chain.refuseTransfer (hR : Chain R) (k : Transfer) : Steps R (refuseTransfer k) :=
  hR.bind hR.get fun _ => hR.refuseIf _ _

theorem steps_raise (e : Exn) : Steps R (raise e : Op α) := fun _ _ _ h => nomatch h

theorem steps_refuse (r : Refusal) : Steps R (refuse r : Op α) := fun _ _ _ h => nomatch h

theorem steps_ite {c : Prop} [Decidable c] {a b : Op α} (ha : Steps R a) (hb : Steps R b) :
    Steps R (if c then a else b) := by
  split
  · exact ha
  · exact hb

end Steps

/-! ### Which registers a transfer leaves alone -/

/-- From `s` to `t` only the segment registers of `segs` and the general registers of `regs` change, and EFLAGS only
where `flags` is true. -/
structure Keeps (segs : List SReg) (regs : List Reg) (flags : Bool) (s t : State) : Prop where
  seg : ∀ r, r ∉ segs → t.seg r = s.seg r
  reg : ∀ q, q ∉ regs → t.reg q = s.reg q
  eflags : flags = false → t.eflags = s.eflags

section Keeps

variable {segs : List SReg} {regs : List Reg} {flags : Bool} {s t : State}

theorem keeps_chain : Chain (Keeps segs regs flags) where
  refl _ := ⟨fun _ _ => rfl, fun _ _ => rfl, fun _ => rfl⟩
  trans h k := ⟨fun r hr => (k.seg r hr).trans (h.seg r hr), fun q hq => (k.reg q hq).trans (h.reg q hq),
    fun hf => (k.eflags hf).trans (h.eflags hf)⟩

theorem keeps_of_quiet (q : Quiet s t) : Keeps segs regs flags s t :=
  ⟨fun r _ => q.seg r, fun r _ => q.reg r, fun _ => q.eflags⟩

theorem keeps_of_stacked (hsp : .esp ∈ regs) (q : Stacked s t) : Keeps segs regs flags s t :=
  ⟨fun r _ => q.seg r, fun _ hr => q.reg fun e => hr (e ▸ hsp), fun _ => by rw [q.same]⟩

theorem keeps_of_switched {l : Level} (hss : .ss ∈ segs) (hsp : .esp ∈ regs) (q : Switched l s t) :
    Keeps segs regs flags s t := by
  rw [q.same]
  refine ⟨fun r hr => ?_, fun r hr => ?_, fun _ => rfl⟩
  · cases r <;> first | rfl | exact absurd hss hr
  · cases r <;> first | rfl | exact absurd hsp hr

theorem keeps_setSeg {r : SReg} (hr : r ∈ segs) (s : State) (c : SegCache) :
    Keeps segs regs flags s (s.setSeg r c) :=
  ⟨fun _ hq => seg_setSeg_other s c fun e => hq (e ▸ hr), fun _ _ => reg_setSeg s r c _,
    fun _ => setSeg_eflags s r c⟩

theorem keeps_setStackPtr (hsp : .esp ∈ regs) (s : State) (w : Bool) (v : DWord) :
    Keeps segs regs flags s (s.setStackPtr w v) :=
  keeps_of_stacked hsp (Stacked.ofStackPtr s w v)

theorem steps_fetchTarget (sel : Word16) : Steps (Keeps segs regs flags) (fetchTarget sel) :=
  fun _ _ _ h => keeps_of_quiet (fetchTarget_ok h).1

theorem steps_loadSs (hss : .ss ∈ segs) (l : Level) (sel : Word16) :
    Steps (Keeps segs regs flags) (loadSs l sel) := by
  intro s _ t h
  obtain ⟨d, m, -, q, rfl⟩ := loadSs_ok h
  exact keeps_chain.trans (keeps_of_quiet q) (keeps_setSeg hss m _)

theorem steps_commitCs (hcs : .cs ∈ segs) (l : Level) (sel : Word16) (d : Descriptor) (addr newPc : DWord) :
    Steps (Keeps segs regs flags) (commitCs l sel d addr newPc) := by
  intro s _ t h
  obtain ⟨m, q, rfl⟩ := commitCs_ok h
  refine keeps_chain.trans (keeps_of_quiet q) ⟨fun r hr => ?_, fun _ _ => rfl, fun _ => rfl⟩
  cases r <;> first | rfl | exact absurd hcs hr

theorem steps_checkCode (l : Level) (sel : Word16) (d : Descriptor) (newPc : DWord) :
    Steps (Keeps segs regs flags) (checkCodeDescriptor l sel d newPc) :=
  fun _ _ _ h => (checkCodeDescriptor_ok h).1 ▸ keeps_chain.refl _

theorem steps_push (hsp : .esp ∈ regs) (l : Level) (n v : Nat) : Steps (Keeps segs regs flags) (push l n v) :=
  fun _ _ _ h => keeps_of_stacked hsp (push_ok h)

theorem steps_pushReturn (hsp : .esp ∈ regs) (l : Level) (n : Nat) (retPc : DWord) :
    Steps (Keeps segs regs flags) (pushReturn l n retPc) :=
  fun _ _ _ h => keeps_of_stacked hsp (pushReturn_ok h)

theorem steps_pop (hsp : .esp ∈ regs) (n : Nat) : Steps (Keeps segs regs flags) (pop n) :=
  fun _ _ _ h => keeps_of_stacked hsp (pop_ok h)

theorem steps_release (hsp : .esp ∈ regs) (k : DWord) : Steps (Keeps segs regs flags) (release k) :=
  fun _ _ _ h => keeps_of_stacked hsp (release_ok h)

theorem steps_switchStack (hss : .ss ∈ segs) (hsp : .esp ∈ regs) (l : Level) (n : Nat) :
    Steps (Keeps segs regs flags) (switchStack l n) :=
  fun _ _ _ h => keeps_of_switched hss hsp (switchStack_ok h)

/-- A transfer through a call gate: a JMP changes CS only, a CALL the stack too. -/
theorem steps_callGate {isCall : Bool} (hcs : .cs ∈ segs) (hcall : isCall = true → .ss ∈ segs ∧ .esp ∈ regs)
    (sel : Word16) (gate : Descriptor) (retPc : DWord) :
    Steps (Keeps segs regs flags) (callGate isCall sel gate retPc) := by
  have hc : Chain (Keeps segs regs flags) := keeps_chain
  have hcommit := fun l sel d addr newPc => steps_commitCs (regs := regs) (flags := flags) hcs l sel d addr newPc
  refine hc.bind (hc.refuseTransfer _) fun _ => hc.bind hc.get fun s => hc.bind (hc.raiseIf _ _) fun _ =>
    hc.bind (hc.raiseIf _ _) fun _ => hc.bind (steps_fetchTarget _) fun p => hc.bind ?_ fun _ =>
    hc.bind (hc.raiseIf _ _) fun _ => ?_
  · exact hc.bind (hc.raiseIf _ _) fun _ => hc.bind (hc.raiseIf _ _) fun _ => hc.bind (hc.raiseIf _ _) fun _ =>
      hc.raiseIf _ _
  · by_cases h : isCall = true
    · obtain ⟨hss, hsp⟩ := hcall h
      rw [if_pos h]
      refine steps_ite ?_ (hc.bind (fun _ _ _ h => keeps_of_quiet (readParams_ok h)) fun ps =>
        hc.bind (steps_switchStack hss hsp _ _) fun _ =>
        hc.bind (fun _ _ _ h => keeps_of_stacked hsp (pushAll_ok h)) fun _ => ?_)
      all_goals exact hc.bind (steps_pushReturn hsp _ _ _) fun _ => hcommit _ _ _ _ _
    · rw [if_neg h]
      exact hcommit _ _ _ _ _

/-- A far JMP changes CS only, a far CALL the stack too. -/
theorem steps_farTransfer {isCall : Bool} (hcs : .cs ∈ segs) (hcall : isCall = true → .ss ∈ segs ∧ .esp ∈ regs)
    (sel : Word16) (off retPc : DWord) : Steps (Keeps segs regs flags) (farTransfer isCall sel off retPc) := by
  have hc : Chain (Keeps segs regs flags) := keeps_chain
  refine hc.bind hc.get fun s => hc.bind (steps_fetchTarget _) fun p => steps_ite ?_ ?_
  · refine hc.bind (steps_checkCode _ _ _ _) fun _ => ?_
    cases isCall with
    | false => exact steps_commitCs hcs _ _ _ _ _
    | true => exact hc.bind (steps_pushReturn (hcall rfl).2 _ _ _) fun _ => steps_commitCs hcs _ _ _ _ _
  · split
    · exact steps_callGate hcs hcall _ _ _
    all_goals first | exact steps_refuse _ | exact steps_raise _

/-- The passage through a gate of the IDT changes CS, the stack and EFLAGS. -/
theorem steps_takeEvent (hcs : .cs ∈ segs) (hss : .ss ∈ segs) (hsp : .esp ∈ regs) (vector : Byte)
    (software : Bool) (code : Option Nat) (retPc : DWord) :
    Steps (Keeps segs regs true) (takeEvent vector software code retPc) := by
  have hc : Chain (Keeps segs regs true) := keeps_chain
  have hframe : ∀ (l : Level) (n : Nat) (d : Descriptor) (sel : Word16) (addr off fl fl' : DWord),
      Steps (Keeps segs regs true) (push l n fl.toNat >>= fun _ => pushReturn l n retPc >>= fun _ =>
        pushErrorCode l n code >>= fun _ => commitCs l sel d addr off >>= fun _ =>
        modify fun t => { t with eflags := fl' }) := by
    intro l n d sel addr off fl fl'
    refine hc.bind (steps_push hsp _ _ _) fun _ => hc.bind (steps_pushReturn hsp _ _ _) fun _ =>
      hc.bind (fun _ _ _ h => keeps_of_stacked hsp (pushErrorCode_ok h)) fun _ =>
      hc.bind (steps_commitCs hcs _ _ _ _ _) fun _ => ?_
    intro s _ t h
    cases h
    exact ⟨fun r _ => by cases r <;> rfl, fun q _ => by cases q <;> rfl, nofun⟩
  refine hc.bind (fun _ _ _ h => keeps_of_quiet (fetchGate_ok h).1) fun gate => hc.bind hc.get fun s =>
    hc.bind (steps_fetchTarget _) fun p => hc.bind ?_ fun _ => steps_ite ?_ ?_
  · exact hc.bind (hc.raiseIf _ _) fun _ => hc.bind (hc.raiseIf _ _) fun _ => hc.bind (hc.raiseIf _ _) fun _ =>
      hc.raiseIf _ _
  · exact hframe _ _ _ _ _ _ _ _
  · exact hc.bind (steps_switchStack hss hsp _ _) fun _ => hframe _ _ _ _ _ _ _ _

/-- A far RET leaves EFLAGS. -/
theorem steps_farReturn (k : DWord) :
    Steps (Keeps [.es, .cs, .ss, .ds, .fs, .gs] [.esp] false) (farReturn k) := by
  have hc : Chain (Keeps [.es, .cs, .ss, .ds, .fs, .gs] [.esp] false) := keeps_chain
  have hsp : Reg.esp ∈ [Reg.esp] := List.mem_singleton_self _
  have hcheck : ∀ l sel d newPc, Steps (Keeps [.es, .cs, .ss, .ds, .fs, .gs] [.esp] false)
      (checkReturnDescriptor l sel d newPc) :=
    fun l sel d newPc => hc.bind (hc.raiseIf _ _) fun _ => steps_checkCode _ _ _ _
  have hcommit := fun l sel d addr newPc => steps_commitCs (segs := [.es, .cs, .ss, .ds, .fs, .gs]) (regs := [.esp])
    (flags := false) (by decide) l sel d addr newPc
  refine hc.bind hc.get fun s => hc.bind (steps_pop hsp _) fun _ => hc.bind (steps_pop hsp _) fun _ =>
    hc.bind (steps_release hsp _) fun _ => hc.bind hc.get fun t => hc.bind (hc.raiseIf _ _) fun _ => steps_ite ?_ ?_
  · exact hc.bind (steps_fetchTarget _) fun _ => hc.bind (hcheck _ _ _ _) fun _ => hcommit _ _ _ _ _
  · refine hc.bind (hc.refuseTransfer _) fun _ => hc.bind (steps_pop hsp _) fun _ => hc.bind (steps_pop hsp _) fun _ =>
      hc.bind (steps_fetchTarget _) fun _ => hc.bind (hcheck _ _ _ _) fun _ =>
      hc.bind (steps_loadSs (by decide) _ _) fun _ => hc.bind ?_ fun _ => hc.bind (steps_release hsp _) fun _ =>
      hc.bind (hcommit _ _ _ _ _) fun _ => ?_
    · intro s _ t h
      cases h
      exact keeps_setStackPtr hsp s _ _
    · intro s _ t h
      cases h
      exact ⟨fun r hr => by cases r <;> exact absurd hr (by decide), fun q _ => by cases q <;> rfl, fun _ => rfl⟩

end Keeps

end Sys2Proof.Proofs
end

section
/-! SUPPORT. The effects of the instructions: one inversion for all of them. -/

namespace Sys2Proof.Proofs

open Sys2Proof Sys2Proof.Machine Sys2Proof.Laws

/-! ### General registers that are written -/

/-- `t` is `s` but for the general registers `rs`. -/
structure RegsSet (rs : List Reg) (s t : State) : Prop where
  same : t = { s with gpr := t.gpr }
  reg : ∀ q, q ∉ rs → t.reg q = s.reg q

section RegsSet

variable {rs : List Reg}

theorem RegsSet.refl (s : State) : RegsSet rs s s := ⟨rfl, fun _ _ => rfl⟩

theorem RegsSet.seg {s t : State} (h : RegsSet rs s t) (r : SReg) : t.seg r = s.seg r := by
  rw [h.same]
  cases r <;> rfl

theorem regsSet_setReg {r : Reg} (hr : r ∈ rs) (s : State) (v : DWord) : RegsSet rs s (s.setReg r v) :=
  ⟨by cases r <;> rfl, fun _ hq => reg_setReg_other s v fun e => hq (e ▸ hr)⟩

theorem regsSet_setReg16 {r : Reg} (hr : r ∈ rs) (s : State) (v : Word16) : RegsSet rs s (s.setReg16 r v) :=
  regsSet_setReg hr s _

theorem regsSet_setStackPtr (hsp : .esp ∈ rs) (s : State) (w : Bool) (v : DWord) :
    RegsSet rs s (s.setStackPtr w v) := by
  cases w
  · exact regsSet_setReg16 hsp s _
  · exact regsSet_setReg hsp s _

theorem regsSet_regWritten {r : Reg} (hr : r ∈ rs) (s : State) (off : DWord) : RegsSet rs s (s.regWritten r off) := by
  unfold State.regWritten
  split
  · exact regsSet_setReg hr s _
  · exact regsSet_setReg16 hr s _

end RegsSet

/-! ### What each instruction can leave -/

/-- A transfer that answers: where it goes, and which registers it leaves alone. -/
structure Transferred (i : Instr) (l : Level) (s t : State) : Prop where
  implied : impliedLoad i = true
  level : lowersPrivilege i = false → l ≤ s.cpl
  moved : Moved l s t
  keeps : Keeps (segsWritten i) (regsWritten i) (writesFlags i) s t

/-- What `i` leaves when it ends without an exception being delivered. -/
inductive Effect (i : Instr) (s t : State) : Prop where
  /-- It stores, or does nothing, and the next instruction follows. -/
  | advanced (m u : State) (q : Quiet s m) (hu : RegsSet (regsWritten i) m u) (ht : t = u.advance i)
  /-- It loads the segment register `r` directly. -/
  | loaded (r : SReg) (sel : Word16) (c : SegCache) (m u : State) (hi : directLoadTarget i = some r) (hr : r ≠ .cs)
      (q : Quiet s m) (hc : LoadedSeg s r sel c) (hu : RegsSet (regsWritten i) (m.setSeg r c) u) (ht : t = u.advance i)
  | gdtr (o : RM) (v : TableReg) (m : State) (hi : i = .lgdt o) (q : Quiet s m)
      (ht : t = ({ m with gdtr := v } : State).advance i)
  | idtr (o : RM) (v : TableReg) (m : State) (hi : i = .lidt o) (q : Quiet s m)
      (ht : t = ({ m with idtr := v } : State).advance i)
  | ldtr (o : RM) (v : SysReg) (m : State) (hi : i = .lldt o) (q : Quiet s m) (hv : v.ldtInv = true)
      (ht : t = ({ m with ldtr := v } : State).advance i)
  | tr (o : RM) (v : SysReg) (m : State) (hi : i = .ltr o) (q : Quiet s m) (hv : v.tssInv = true)
      (ht : t = ({ m with tr := v } : State).advance i)
  | transferred (l : Level) (h : Transferred i l s t)
  | sysenter (hi : i = .sysenter) (ht : t = s.enterSystem)
  | sysexit (hi : i = .sysexit) (ht : t = s.exitSystem)
  /-- It is noted among the pending prefixes (R109, R110). -/
  | noted (f : Prefixes → Prefixes) (hi : isPrefix i = true) (hc : ∀ p, (f p).count = p.count)
      (hb : ∀ p, (f p).before = p.before) (ht : t = s.notePrefix f)

section Effect

variable {s t : State} {i : Instr}

theorem effect_of_pop {r : SReg} (hi : directLoadTarget i = some r) (hr : r ≠ .cs) (hsp : .esp ∈ regsWritten i)
    (he : exec i s = conclude s (popSeg r i)) (h : exec i s = .next t) : Delivered s t ∨ Effect i s t := by
  refine (conclude_cases (he ▸ h)).imp_right fun h => ?_
  obtain ⟨sel, c, m, q, hc, ht⟩ := popSeg_ok h
  exact .loaded r sel c m _ hi hr q hc (regsSet_setStackPtr hsp (m.setSeg r c) _ _) ht

theorem effect_of_loadPointer {r : SReg} {q : Reg} {src : RM} (hi : directLoadTarget i = some r) (hr : r ≠ .cs)
    (hq : q ∈ regsWritten i) (he : exec i s = conclude s (loadPointer r q src i)) (h : exec i s = .next t) :
    Delivered s t ∨ Effect i s t := by
  refine (conclude_cases (he ▸ h)).imp_right fun h => ?_
  obtain ⟨_, sel, off, c, m, -, qm, hc, ht⟩ := loadPointer_ok h
  exact .loaded r sel c m _ hi hr qm hc (regsSet_regWritten hq (m.setSeg r c) off) ht

theorem effect_of_store {v : Word16} {dst : RM} (hr : ∀ r, dst = .reg r → r ∈ regsWritten i)
    (h : SelectorStored s t v dst i) : Effect i s t := by
  rcases h with ⟨r, rfl, rfl⟩ | ⟨e, m, rfl, q, rfl⟩
  · refine .advanced s _ (Quiet.refl s) ?_ rfl
    split
    · exact regsSet_setReg (hr r rfl) s _
    · exact regsSet_setReg16 (hr r rfl) s _
  · exact .advanced m m q (RegsSet.refl m) rfl

/-- A transfer to a level that is at most the old one numerically: a JMP, a CALL or a passage through a gate. -/
theorem effect_of_inward {op : Op Unit} (hi : impliedLoad i = true) (he : exec i s = conclude s op)
    (hm : ∀ u, op s = .ok (u, t) → ∃ l, l ≤ s.cpl ∧ Moved l s t)
    (hk : Steps (Keeps (segsWritten i) (regsWritten i) (writesFlags i)) op) (h : exec i s = .next t) :
    Delivered s t ∨ Effect i s t := by
  refine (conclude_cases (he ▸ h)).imp_right fun h => ?_
  obtain ⟨l, hl, hv⟩ := hm () h
  exact .transferred l ⟨hi, fun _ => hl, hv, hk s () t h⟩

/-- A return: the privilege level may rise numerically. -/
theorem effect_of_return {op : Op Unit} (hi : impliedLoad i = true) (hp : lowersPrivilege i = true)
    (he : exec i s = conclude s op) (hm : ∀ u, op s = .ok (u, t) → ∃ l, s.cpl ≤ l ∧ Moved l s t)
    (hk : ∀ l, Moved l s t → op s = .ok ((), t) → Keeps (segsWritten i) (regsWritten i) (writesFlags i) s t)
    (h : exec i s = .next t) : Delivered s t ∨ Effect i s t := by
  refine (conclude_cases (he ▸ h)).imp_right fun h => ?_
  obtain ⟨l, -, hv⟩ := hm () h
  exact .transferred l ⟨hi, fun hf => absurd hp (by simp [hf]), hv, hk l hv h⟩

theorem steps_farMem {segs : List SReg} {regs : List Reg} {flags isCall : Bool} (hcs : .cs ∈ segs)
    (hcall : isCall = true → .ss ∈ segs ∧ .esp ∈ regs) (src : RM) (retPc : DWord) :
    Steps (Keeps segs regs flags) (memOperand src >>= fun e => readFarPointer e >>= fun p =>
      farTransfer isCall p.2 p.1 retPc) :=
  keeps_chain.bind (fun _ _ _ h => (memOperand_ok h).2 ▸ keeps_chain.refl _) fun _ =>
    keeps_chain.bind (fun _ _ _ h => keeps_of_quiet (readFarPointer_ok h)) fun _ => steps_farTransfer hcs hcall _ _ _

theorem effect_of_noted {f : Prefixes → Prefixes} (hi : isPrefix i = true)
    (he : exec i s = .next (s.notePrefix f)) (hc : ∀ p, (f p).count = p.count) (hb : ∀ p, (f p).before = p.before)
    (h : exec i s = .next t) : Delivered s t ∨ Effect i s t := by
  rw [he, Host.Outcome.next.injEq] at h
  exact .inr (.noted f hi hc hb h.symm)

/-- Every instruction that answers a next state has delivered an exception or has one of the effects. -/
theorem exec_effect (h : exec i s = .next t) : Delivered s t ∨ Effect i s t := by
  have mem : ∀ q : Reg, q ∈ [q] := List.mem_singleton_self
  have hcs : SReg.cs ∈ [SReg.cs, .ss] := by decide
  have hss : SReg.ss ∈ [SReg.cs, .ss] := by decide
  have hjmp : SReg.cs ∈ [SReg.cs] := by decide
  cases i with
  | movToSreg b src =>
    refine (movToSreg_next h).imp_right ?_
    rintro ⟨r, sel, c, m, hb, hr, q, hc, rfl⟩
    exact .loaded r sel c m _ hb hr q hc (RegsSet.refl _) rfl
  | movFromSreg b dst =>
    refine (movFromSreg_next h).imp_right ?_
    rintro ⟨r, -, hs⟩
    exact effect_of_store (by rintro q rfl; exact mem q) hs
  | popEs => exact effect_of_pop rfl nofun (mem _) rfl h
  | popSs => exact effect_of_pop rfl nofun (mem _) rfl h
  | popDs => exact effect_of_pop rfl nofun (mem _) rfl h
  | popFs => exact effect_of_pop rfl nofun (mem _) rfl h
  | popGs => exact effect_of_pop rfl nofun (mem _) rfl h
  | lds q src => exact effect_of_loadPointer rfl nofun (mem _) rfl h
  | les q src => exact effect_of_loadPointer rfl nofun (mem _) rfl h
  | lss q src => exact effect_of_loadPointer rfl nofun (mem _) rfl h
  | lfs q src => exact effect_of_loadPointer rfl nofun (mem _) rfl h
  | lgs q src => exact effect_of_loadPointer rfl nofun (mem _) rfl h
  | callPtr off sel =>
    exact effect_of_inward rfl rfl (fun _ => farTransfer_ok)
      (steps_farTransfer (isCall := true) hcs (fun _ => ⟨hss, mem _⟩) _ _ _) h
  | callMem src =>
    exact effect_of_inward rfl rfl (fun _ => farMem_ok)
      (steps_farMem (isCall := true) hcs (fun _ => ⟨hss, mem _⟩) _ _) h
  | jmpPtr off sel =>
    exact effect_of_inward rfl rfl (fun _ => farTransfer_ok) (steps_farTransfer (isCall := false) hjmp nofun _ _ _) h
  | jmpMem src =>
    exact effect_of_inward rfl rfl (fun _ => farMem_ok) (steps_farMem (isCall := false) hjmp nofun _ _) h
  | retFar =>
    exact effect_of_return rfl rfl rfl (fun _ => farReturn_ok) (fun _ _ => steps_farReturn _ s () t) h
  | retFarImm imm =>
    exact effect_of_return rfl rfl rfl (fun _ => farReturn_ok) (fun _ _ => steps_farReturn _ s () t) h
  | sysenter => exact (sysenter_next h).imp_right fun h => .sysenter rfl h.2
  | sysexit => exact (sysexit_next h).imp_right fun h => .sysexit rfl h.2
  | iret =>
    refine effect_of_return rfl rfl rfl (fun _ h => (interruptReturn_ok h).2) (fun l hv _ => ?_) h
    refine ⟨fun r hr => by cases r <;> exact absurd hr (by decide), fun q hq => ?_, nofun⟩
    rw [hv.same]
    cases q <;> first | rfl | exact absurd (mem _) hq
  | int n =>
    refine effect_of_inward rfl rfl (fun _ h => takeEvent_ok (refuseTransfer_bind_ok.1 h).2) ?_ h
    exact keeps_chain.bind (keeps_chain.refuseTransfer _) fun _ =>
      steps_takeEvent hcs hss (mem _) _ _ _ _
  | int3 =>
    refine effect_of_inward rfl rfl (fun _ h => takeEvent_ok (refuseTransfer_bind_ok.1 h).2) ?_ h
    exact keeps_chain.bind (keeps_chain.refuseTransfer _) fun _ =>
      steps_takeEvent hcs hss (mem _) _ _ _ _
  | into =>
    cases ho : s.overflowFlag with
    | false =>
      rcases into_next h with h | h | h
      · exact .inl h
      · exact absurd h.1 (by simp [ho])
      · exact .inr (.advanced s s (Quiet.refl s) (RegsSet.refl s) h.2)
    | true =>
      have he : exec .into s = conclude s (overflowTrap (s.nextPc .into)) := by
        show execInto s = _
        rw [execInto, ho, if_pos rfl]
      refine effect_of_inward rfl he (fun _ => overflowTrap_ok) ?_ h
      exact keeps_chain.bind keeps_chain.get fun _ => keeps_chain.bind (keeps_chain.raiseIf _ _) fun _ =>
        steps_takeEvent hcs hss (mem _) _ _ _ _
  | sldt dst => exact (sldt_next h).imp_right (effect_of_store (by rintro q rfl; exact mem q))
  | str dst => exact (str_next h).imp_right (effect_of_store (by rintro q rfl; exact mem q))
  | lldt src =>
    refine (lldt_next h).imp_right ?_
    rintro ⟨-, v, m, q, hv, rfl⟩
    exact .ldtr src v m rfl q hv rfl
  | ltr src =>
    refine (ltr_next h).imp_right ?_
    rintro ⟨-, v, m, q, hv, rfl⟩
    exact .tr src v m rfl q hv rfl
  | sgdt dst =>
    refine (sgdt_next h).imp_right ?_
    rintro ⟨-, m, -, q, rfl⟩
    exact .advanced m m q (RegsSet.refl m) rfl
  | sidt dst =>
    refine (sidt_next h).imp_right ?_
    rintro ⟨-, m, -, q, rfl⟩
    exact .advanced m m q (RegsSet.refl m) rfl
  | lgdt src =>
    refine (lgdt_next h).imp_right ?_
    rintro ⟨-, v, m, q, rfl⟩
    exact .gdtr src v m rfl q rfl
  | lidt src =>
    refine (lidt_next h).imp_right ?_
    rintro ⟨-, v, m, q, rfl⟩
    exact .idtr src v m rfl q rfl
  | prefixOperandSize | prefixAddressSize | prefixCs | prefixEs | prefixSs | prefixDs | prefixFs | prefixGs =>
    exact effect_of_noted rfl rfl (fun _ => rfl) (fun _ => rfl) h

end Effect

end Sys2Proof.Proofs
end

section
/-! SUPPORT and statements. The frames of the registers and the privilege level, from the effects. -/

namespace Sys2Proof.Proofs

open Sys2Proof Sys2Proof.Machine Sys2Proof.Laws

variable {s t : State} {i : Instr}

theorem effect_of_not_delivered (hn : s.cfg.transfers ≠ .delivered) (h : exec i s = .next t) : Effect i s t :=
  (exec_effect h).resolve_left fun hd => hn hd.1

/-! ### Frames of the registers -/

theorem segsWritten_of_directLoad {r : SReg} (hi : directLoadTarget i = some r) : segsWritten i = [r] := by
  cases i <;> first | exact congrArg Option.toList hi | cases hi

theorem keeps_of_regsSet {segs : List SReg} {regs : List Reg} {flags : Bool} (h : RegsSet regs s t) :
    Keeps segs regs flags s t :=
  ⟨fun r _ => h.seg r, h.reg, fun _ => by rw [h.same]⟩

theorem keeps_advance {segs : List SReg} {regs : List Reg} {flags : Bool} (s : State) (i : Instr) :
    Keeps segs regs flags s (s.advance i) :=
  ⟨fun r _ => seg_advance s i r, fun q _ => reg_advance s i q, fun _ => rfl⟩

/-- A system register that changes is no register of the frames. -/
theorem keeps_of_registers {segs : List SReg} {regs : List Reg} {flags : Bool} (hs : ∀ r, t.seg r = s.seg r)
    (hg : t.gpr = s.gpr) (hf : t.eflags = s.eflags) : Keeps segs regs flags s t :=
  ⟨fun r _ => hs r, fun q _ => by cases q <;> simp only [State.reg, hg], fun _ => hf⟩

/-- A change of CS, SS and ESP, as SYSENTER and SYSEXIT make it (R210, R211). -/
theorem keeps_of_entered {flags : Bool}
    (e : t = { s with
      cs := t.cs, ss := t.ss, gpr := { s.gpr with esp := t.gpr.esp }, pc := t.pc, eflags := t.eflags, pfx := t.pfx })
    (hf : flags = false → t.eflags = s.eflags) : Keeps [.cs, .ss] [.esp] flags s t := by
  refine ⟨fun r hr => ?_, fun q hq => ?_, hf⟩
  · rw [e]
    cases r <;> first | rfl | exact absurd hr (by decide)
  · rw [e]
    cases q <;> first | rfl | exact absurd hq (by decide)

/-- An instruction leaves the registers that it does not write (R21, R35, R190). -/
theorem Effect.keeps (h : Effect i s t) : Keeps (segsWritten i) (regsWritten i) (writesFlags i) s t := by
  have hc : Chain (Keeps (segsWritten i) (regsWritten i) (writesFlags i)) := keeps_chain
  have through : ∀ {m u : State}, Quiet s m → Keeps (segsWritten i) (regsWritten i) (writesFlags i) m u →
      t = u.advance i → Keeps (segsWritten i) (regsWritten i) (writesFlags i) s t :=
    fun q k ht => hc.trans (keeps_of_quiet q) (hc.trans k (ht ▸ keeps_advance _ i))
  have system : ∀ {m u : State}, Quiet s m → t = u.advance i → (∀ r, u.seg r = m.seg r) → u.gpr = m.gpr →
      u.eflags = m.eflags → Keeps (segsWritten i) (regsWritten i) (writesFlags i) s t :=
    fun q ht hs hg hf => through q (keeps_of_registers hs hg hf) ht
  cases h with
  | advanced m u q hu ht => exact through q (keeps_of_regsSet hu) ht
  | loaded r sel c m u hi hr q hl hu ht =>
    have hmem : r ∈ segsWritten i := by rw [segsWritten_of_directLoad hi]; exact List.mem_singleton_self r
    exact through q (hc.trans (keeps_setSeg hmem m c) (keeps_of_regsSet hu)) ht
  | gdtr o v m hi q ht | idtr o v m hi q ht => exact system q ht (fun r => by cases r <;> rfl) rfl rfl
  | ldtr o v m hi q hv ht | tr o v m hi q hv ht => exact system q ht (fun r => by cases r <;> rfl) rfl rfl
  | transferred l h => exact h.keeps
  | sysenter hi ht =>
    subst hi ht
    exact keeps_of_entered rfl nofun
  | sysexit hi ht =>
    subst hi ht
    exact keeps_of_entered rfl fun _ => rfl
  | noted f hi hc hb ht =>
    subst ht
    exact keeps_of_registers (fun r => by cases r <;> rfl) rfl rfl

/-- Settles O10: `exec_effect` names the segment registers that each instruction loads. -/
theorem segmentRegisterFrame : Obligations.SegmentRegisterFrame :=
  fun _ _ _ r hn h hr => (effect_of_not_delivered hn h).keeps.seg r hr

/-- Settles O11: `exec_effect` names the general registers that each instruction writes. -/
theorem generalRegisterFrame : Obligations.GeneralRegisterFrame :=
  fun _ _ _ q hn h hq => (effect_of_not_delivered hn h).keeps.reg q hq

/-- `t` is `s` but for the registers that programs use, memory, and the model's fields: the table registers, the control
bits, the model-specific registers and the parameters are those of `s`. -/
def SystemKept (s t : State) : Prop :=
  t = { s with
    es := t.es, cs := t.cs, ss := t.ss, ds := t.ds, fs := t.fs, gs := t.gs, gpr := t.gpr, pc := t.pc,
    eflags := t.eflags, mem := t.mem, pfx := t.pfx, freeCount := t.freeCount, stored := t.stored }

theorem SystemKept.trans {u : State} (h : SystemKept s t) (k : SystemKept t u) : SystemKept s u := by
  unfold SystemKept at *
  rw [k, h]

theorem systemKept_of_quiet (q : Quiet s t) : SystemKept s t := by
  unfold SystemKept
  rw [q.same]

theorem systemKept_of_regsSet {rs : List Reg} (h : RegsSet rs s t) : SystemKept s t := by
  unfold SystemKept
  rw [h.same]

theorem systemKept_setSeg (s : State) (r : SReg) (c : SegCache) : SystemKept s (s.setSeg r c) := by
  cases r <;> rfl

theorem systemKept_advance (s : State) (i : Instr) : SystemKept s (s.advance i) := rfl

/-- What belongs to the system stays, but for the one table register that LGDT, LIDT, LLDT and LTR load. -/
theorem Effect.systemKept (h : Effect i s t) :
    SystemKept s t ∨ (∃ o v, i = .lgdt o ∧ SystemKept { s with gdtr := v } t) ∨
      (∃ o v, i = .lidt o ∧ SystemKept { s with idtr := v } t) ∨
      (∃ o v, i = .lldt o ∧ SystemKept { s with ldtr := v } t) ∨
      ∃ o v, i = .ltr o ∧ SystemKept { s with tr := v } t := by
  cases h with
  | advanced m u q hu ht =>
    exact .inl (((systemKept_of_quiet q).trans (systemKept_of_regsSet hu)).trans (ht ▸ systemKept_advance u i))
  | loaded r sel c m u hi hr q hc hu ht =>
    exact .inl ((((systemKept_of_quiet q).trans (systemKept_setSeg m r c)).trans (systemKept_of_regsSet hu)).trans
      (ht ▸ systemKept_advance u i))
  | gdtr o v m hi q ht => exact .inr (.inl ⟨o, v, hi, by rw [ht, q.same]; rfl⟩)
  | idtr o v m hi q ht => exact .inr (.inr (.inl ⟨o, v, hi, by rw [ht, q.same]; rfl⟩))
  | ldtr o v m hi q hv ht => exact .inr (.inr (.inr (.inl ⟨o, v, hi, by rw [ht, q.same]; rfl⟩)))
  | tr o v m hi q hv ht => exact .inr (.inr (.inr (.inr ⟨o, v, hi, by rw [ht, q.same]; rfl⟩)))
  | transferred l h =>
    refine .inl ?_
    unfold SystemKept
    rw [h.moved.same]
  | sysenter hi ht | sysexit hi ht | noted f hi hc hb ht =>
    subst ht
    exact .inl rfl

/-- The fields that `SystemKept` keeps. -/
theorem SystemKept.fields (h : SystemKept s t) :
    t.gdtr = s.gdtr ∧ t.idtr = s.idtr ∧ t.ldtr = s.ldtr ∧ t.tr = s.tr ∧ t.alignMask = s.alignMask ∧
      t.pagingEnabled = s.pagingEnabled ∧ t.pagingRoot = s.pagingRoot ∧ t.cr2 = s.cr2 ∧ t.cr4 = s.cr4 ∧
      t.sysenterCs = s.sysenterCs ∧ t.sysenterEsp = s.sysenterEsp ∧ t.sysenterEip = s.sysenterEip ∧
      t.cfg = s.cfg := by
  unfold SystemKept at h
  rw [h]
  exact ⟨rfl, rfl, rfl, rfl, rfl, rfl, rfl, rfl, rfl, rfl, rfl, rfl, rfl⟩

/-- Settles O12: EFLAGS by the frame of the registers, the rest because an instruction that keeps what belongs to the
system keeps every field of it, and a load of a table register all but that one. -/
theorem systemRegisterFrame : Obligations.SystemRegisterFrame := by
  intro s t i hn h
  have he := effect_of_not_delivered hn h
  have hf := he.keeps.eflags
  rcases he.systemKept with k | ⟨o, v, hi, k⟩ | ⟨o, v, hi, k⟩ | ⟨o, v, hi, k⟩ | ⟨o, v, hi, k⟩
  all_goals obtain ⟨hgd, hid, hld, htr, hrest⟩ := k.fields
  · exact ⟨fun _ => hgd, fun _ => hid, fun _ => hld, fun _ => htr, hf, hrest⟩
  · exact ⟨fun hne => absurd hi (hne o), fun _ => hid, fun _ => hld, fun _ => htr, hf, hrest⟩
  · exact ⟨fun _ => hgd, fun hne => absurd hi (hne o), fun _ => hld, fun _ => htr, hf, hrest⟩
  · exact ⟨fun _ => hgd, fun _ => hid, fun hne => absurd hi (hne o), fun _ => htr, hf, hrest⟩
  · exact ⟨fun _ => hgd, fun _ => hid, fun _ => hld, fun hne => absurd hi (hne o), hf, hrest⟩

/-! ### The privilege level -/

theorem cpl_of_cs (h : t.cs = s.cs) : t.cpl = s.cpl := by rw [State.cpl, State.cpl, h]

theorem enterSystem_cpl (s : State) : s.enterSystem.cpl = 0 := withRPL_rpl _ 0

/-- CS stays but for a transfer (R31). -/
theorem Effect.cs (h : Effect i s t) :
    t.cs = s.cs ∨ (∃ l, Transferred i l s t) ∨ (i = .sysenter ∧ t = s.enterSystem) ∨ i = .sysexit := by
  cases h with
  | advanced m u q hu ht => exact .inl (by rw [ht, advance_cs, hu.same, q.cs])
  | loaded r sel c m u _ hr q hc hu ht =>
    have hcs : (m.setSeg r c).cs = m.cs := seg_setSeg_other m c (q := .cs) (Ne.symm hr)
    exact .inl (by rw [ht, advance_cs, hu.same, hcs, q.cs])
  | gdtr o v m _ q ht | idtr o v m _ q ht | ldtr o v m _ q _ ht | tr o v m _ q _ ht =>
    exact .inl (by rw [ht, advance_cs, q.cs])
  | transferred l h => exact .inr (.inl ⟨l, h⟩)
  | sysenter hi ht => exact .inr (.inr (.inl ⟨hi, ht⟩))
  | sysexit hi _ => exact .inr (.inr (.inr hi))
  | noted f _ _ _ ht => exact .inl (by rw [ht, notePrefix_cs])

/-- An instruction that is no transfer leaves the CPL. -/
theorem Effect.cpl_eq (h : Effect i s t) (hi : impliedLoad i = false) : t.cpl = s.cpl := by
  rcases h.cs with hcs | ⟨l, ht⟩ | ⟨rfl, -⟩ | rfl
  · exact cpl_of_cs hcs
  · exact absurd ht.implied (by simp [hi])
  all_goals cases hi

/-- An instruction that is no return leaves the CPL or lowers it numerically (R290). -/
theorem Effect.cpl_le (h : Effect i s t) (hi : lowersPrivilege i = false) : t.cpl ≤ s.cpl := by
  rcases h.cs with hcs | ⟨l, ht⟩ | ⟨-, rfl⟩ | rfl
  · exact cpl_of_cs hcs ▸ BitVec.le_refl _
  · exact ht.moved.cpl ▸ ht.level hi
  · exact enterSystem_cpl s ▸ BitVec.le_def.2 (Nat.zero_le _)
  · cases hi

/-- An exception is delivered at a level that is at most the old one numerically (R313). -/
theorem delivered_moved (h : Delivered s t) : ∃ x l, l ≤ s.cpl ∧ Moved l (s.undone.noteFault x) t := by
  obtain ⟨-, x, hx⟩ := h
  obtain ⟨l, hl, hm⟩ := takeEvent_ok hx
  have hcpl : (s.undone.noteFault x).cpl = s.cpl := cpl_of_cs (by simp)
  exact ⟨x, l, hcpl ▸ hl, hm⟩

/-- Settles O9: a delivery and every effect but those of the returns go to a level at most the old one numerically, and
the effects that are no transfers keep CS. -/
theorem privilegeIsLoweredOnlyByReturns : Obligations.PrivilegeIsLoweredOnlyByReturns := by
  intro s t i h
  refine ⟨fun hi => ?_, fun hn hi => (effect_of_not_delivered hn h).cpl_eq hi⟩
  rcases exec_effect h with hd | he
  · obtain ⟨x, l, hl, hm⟩ := delivered_moved hd
    exact hm.cpl ▸ hl
  · exact he.cpl_le hi

end Sys2Proof.Proofs
end

section
/-! SUPPORT. What the decoder accepts: a well-formed instruction, whose encoding is the bytes it consumed. -/

namespace Sys2Proof.Proofs

open Sys2Proof Sys2Proof.Laws

variable {α β : Type}

/-! ### Fields of bytes -/

theorem bytes16_word16 (b0 b1 : Byte) : bytes16 (word16 b0 b1) = [b0, b1] := by
  show [(b1 ++ b0).extractLsb' 0 8, (b1 ++ b0).extractLsb' 8 8] = _
  rw [BitVec.extractLsb'_append_eq_right, BitVec.extractLsb'_append_eq_left]

theorem bytes32_dword (b0 b1 b2 b3 : Byte) : bytes32 (dword b0 b1 b2 b3) = [b0, b1, b2, b3] := by
  show [(b3 ++ b2 ++ b1 ++ b0).extractLsb' 0 8, (b3 ++ b2 ++ b1 ++ b0).extractLsb' 8 8,
    (b3 ++ b2 ++ b1 ++ b0).extractLsb' 16 8, (b3 ++ b2 ++ b1 ++ b0).extractLsb' 24 8] = _
  simp only [BitVec.extractLsb'_append_eq_right, BitVec.extractLsb'_append_eq_of_le (show 8 ≤ 8 by decide),
    BitVec.extractLsb'_append_eq_of_le (show 8 ≤ 16 by decide),
    BitVec.extractLsb'_append_eq_of_le (show 8 ≤ 24 by decide), Nat.reduceSub, BitVec.extractLsb'_eq_self]

theorem byte233_fields (b : Byte) : byte233 (b.extractLsb' 6 2) (b.extractLsb' 3 3) (b.extractLsb' 0 3) = b := by
  unfold byte233
  rw [BitVec.extractLsb'_append_extractLsb'_eq_extractLsb' (show 6 = 3 + 3 from rfl)]
  exact (BitVec.extractLsb'_append_extractLsb'_eq_extractLsb' rfl).trans BitVec.extractLsb'_eq_self

theorem reg_toBits_ofBits (b : BitVec 3) : (Reg.ofBits b).toBits = b := by
  revert b; decide

theorem base16_toBits_ofBits (b : BitVec 3) : (Base16.ofBits b).toBits = b := by
  revert b; decide

/-! ### The pieces -/

/-- A sequence of decoders answers when its parts do. -/
theorem dec_bind_ok_iff {d : Dec α} {f : α → Dec β} {bs rest : List Byte} {b : β} :
    (d >>= f) bs = .ok (b, rest) ↔ ∃ a mid, d bs = .ok (a, mid) ∧ f a mid = .ok (b, rest) := by
  cases h : d bs with
  | error e => simp [dec_bind_error h]
  | ok p => obtain ⟨a, mid⟩ := p; simp [dec_bind_ok h]

theorem dec_map_ok_iff {d : Dec α} {g : α → β} {bs rest : List Byte} {b : β} :
    (g <$> d) bs = .ok (b, rest) ↔ ∃ a, d bs = .ok (a, rest) ∧ b = g a := by
  show (d >>= fun a => pure (g a)) bs = _ ↔ _
  constructor
  · intro h
    obtain ⟨a, mid, h1, h2⟩ := dec_bind_ok_iff.1 h
    cases h2
    exact ⟨a, h1, rfl⟩
  · rintro ⟨a, h1, rfl⟩
    exact dec_bind_ok h1

theorem dec_pure_ok_iff {a b : α} {bs rest : List Byte} :
    (pure a : Dec α) bs = .ok (b, rest) ↔ a = b ∧ bs = rest := by
  show Except.ok (a, bs) = _ ↔ _
  simp

theorem need_ok {n : Nat} {bs rest : List Byte} {u : Unit} (h : need n bs = .ok (u, rest)) : bs = rest := by
  unfold need at h
  split at h <;> cases h
  rfl

theorem next8_ok {bs rest : List Byte} {b : Byte} (h : next8 bs = .ok (b, rest)) : bs = b :: rest := by
  cases bs <;> cases h
  rfl

theorem next16_ok {bs rest : List Byte} {v : Word16} (h : next16 bs = .ok (v, rest)) : bs = bytes16 v ++ rest := by
  simp only [next16, dec_bind_ok_iff, dec_pure_ok_iff] at h
  obtain ⟨_, _, h0, b0, _, h1, b1, _, h2, rfl, rfl⟩ := h
  rw [need_ok h0, next8_ok h1, next8_ok h2, bytes16_word16]
  rfl

theorem next32_ok {bs rest : List Byte} {v : DWord} (h : next32 bs = .ok (v, rest)) : bs = bytes32 v ++ rest := by
  simp only [next32, dec_bind_ok_iff, dec_pure_ok_iff] at h
  obtain ⟨_, _, h0, b0, _, h1, b1, _, h2, b2, _, h3, b3, _, h4, rfl, rfl⟩ := h
  rw [need_ok h0, next8_ok h1, next8_ok h2, next8_ok h3, next8_ok h4, bytes32_dword]
  rfl

/-! ### ModRM, SIB and what follows them -/

/-- `mod` = 3 names a register; the other three name memory (R111). -/
theorem mod_cases {md : BitVec 2} (h : md ≠ 3) : md = 0 ∨ md = 1 ∨ md = 2 := by
  revert md; decide

theorem base16_ind_wf {rm : BitVec 3} (h : rm ≠ 6) : Ea16.wf (.ind (.ofBits rm)) = true := by
  revert rm; decide

theorem decodeEa16_ok {md : BitVec 2} {rm reg : BitVec 3} {bs rest : List Byte} {e : Ea16} (hmd : md ≠ 3)
    (h : decodeEa16 md rm bs = .ok (e, rest)) :
    e.wf = true ∧ byte233 md reg rm :: bs = encodeEa16 reg e ++ rest := by
  rcases mod_cases hmd with rfl | rfl | rfl
  · change (if rm = 6 then Ea16.direct <$> next16 else pure (.ind (.ofBits rm))) bs = _ at h
    split at h
    · rename_i hrm
      obtain ⟨d, h1, rfl⟩ := dec_map_ok_iff.1 h
      exact ⟨rfl, by rw [hrm, next16_ok h1]; rfl⟩
    · rename_i hrm
      obtain ⟨rfl, rfl⟩ := dec_pure_ok_iff.1 h
      exact ⟨base16_ind_wf hrm, by rw [encodeEa16, base16_toBits_ofBits]; rfl⟩
  · obtain ⟨d, h1, rfl⟩ := dec_map_ok_iff.1 h
    exact ⟨rfl, by rw [next8_ok h1, encodeEa16, base16_toBits_ofBits]; rfl⟩
  · obtain ⟨d, h1, rfl⟩ := dec_map_ok_iff.1 h
    exact ⟨rfl, by rw [next16_ok h1, encodeEa16, base16_toBits_ofBits]; rfl⟩

theorem reg_sib_wf {b x : Reg} {k : BitVec 2} (h : b ≠ .ebp) : Ea32.wf (.sib b x k) = true := by
  simpa [Ea32.wf] using h

theorem decodeSib_ok {md : BitVec 2} {reg : BitVec 3} {bs rest : List Byte} {e : Ea32} (hmd : md ≠ 3)
    (h : decodeSib md bs = .ok (e, rest)) : e.wf = true ∧ byte233 md reg 4 :: bs = encodeEa32 reg e ++ rest := by
  obtain ⟨_, _, h0, h⟩ := dec_bind_ok_iff.1 h
  obtain ⟨s, mid, h1, h⟩ := dec_bind_ok_iff.1 h
  rw [need_ok h0, next8_ok h1]
  have hs : byte233 (s.extractLsb' 6 2) (Reg.ofBits (s.extractLsb' 3 3)).toBits (Reg.ofBits (s.extractLsb' 0 3)).toBits
      = s := by rw [reg_toBits_ofBits, reg_toBits_ofBits, byte233_fields]
  generalize s.extractLsb' 6 2 = k at h hs
  generalize Reg.ofBits (s.extractLsb' 3 3) = x at h hs
  generalize Reg.ofBits (s.extractLsb' 0 3) = b at h hs
  rcases mod_cases hmd with rfl | rfl | rfl
  · change (if b = .ebp then Ea32.sibDirect x k <$> next32
      else pure (.sib b x k)) mid = _ at h
    split at h
    · rename_i hb
      obtain ⟨d, h2, rfl⟩ := dec_map_ok_iff.1 h
      refine ⟨rfl, ?_⟩
      rw [← hs, hb, next32_ok h2]
      rfl
    · rename_i hb
      obtain ⟨rfl, rfl⟩ := dec_pure_ok_iff.1 h
      exact ⟨reg_sib_wf hb, by rw [encodeEa32, hs]; rfl⟩
  · obtain ⟨d, h2, rfl⟩ := dec_map_ok_iff.1 h
    exact ⟨rfl, by rw [next8_ok h2, encodeEa32, hs]; rfl⟩
  · obtain ⟨d, h2, rfl⟩ := dec_map_ok_iff.1 h
    exact ⟨rfl, by rw [next32_ok h2, encodeEa32, hs]; rfl⟩

theorem reg_ind_wf {rm : BitVec 3} (h4 : rm ≠ 4) (h5 : rm ≠ 5) : Ea32.wf (.ind (.ofBits rm)) = true := by
  revert rm; decide

theorem ofBits_ne_esp {rm : BitVec 3} (h : rm ≠ 4) : (Reg.ofBits rm != .esp) = true := by
  revert rm; decide

theorem decodeEa32_ok {md : BitVec 2} {rm reg : BitVec 3} {bs rest : List Byte} {e : Ea32} (hmd : md ≠ 3)
    (h : decodeEa32 md rm bs = .ok (e, rest)) :
    e.wf = true ∧ byte233 md reg rm :: bs = encodeEa32 reg e ++ rest := by
  unfold decodeEa32 at h
  split at h
  · rename_i h4
    rw [h4]
    exact decodeSib_ok hmd h
  · rename_i h4
    rcases mod_cases hmd with rfl | rfl | rfl
    · change (if rm = 5 then Ea32.direct <$> next32 else pure (.ind (.ofBits rm))) bs = _ at h
      split at h
      · rename_i hrm
        obtain ⟨d, h1, rfl⟩ := dec_map_ok_iff.1 h
        exact ⟨rfl, by rw [hrm, next32_ok h1]; rfl⟩
      · rename_i hrm
        obtain ⟨rfl, rfl⟩ := dec_pure_ok_iff.1 h
        exact ⟨reg_ind_wf h4 hrm, by rw [encodeEa32, reg_toBits_ofBits]; rfl⟩
    · obtain ⟨d, h1, rfl⟩ := dec_map_ok_iff.1 h
      exact ⟨ofBits_ne_esp h4, by rw [next8_ok h1, encodeEa32, reg_toBits_ofBits]; rfl⟩
    · obtain ⟨d, h1, rfl⟩ := dec_map_ok_iff.1 h
      exact ⟨ofBits_ne_esp h4, by rw [next32_ok h1, encodeEa32, reg_toBits_ofBits]; rfl⟩

/-- A ModRM byte and what follows it are the encoding of the operand they name. -/
theorem decodeModRm_ok {m : Mode} {bs rest : List Byte} {reg : BitVec 3} {o : RM}
    (h : decodeModRm m bs = .ok ((reg, o), rest)) : o.wf m = true ∧ bs = encodeModRm reg o ++ rest := by
  obtain ⟨b, mid, h1, h⟩ := dec_bind_ok_iff.1 h
  obtain ⟨o', mid', h2, h⟩ := dec_bind_ok_iff.1 h
  obtain ⟨hp, rfl⟩ := dec_pure_ok_iff.1 h
  cases hp
  rw [next8_ok h1]
  have hb := byte233_fields b
  generalize b.extractLsb' 6 2 = md at *
  generalize b.extractLsb' 0 3 = rm at *
  generalize b.extractLsb' 3 3 = reg at *
  rw [← hb]
  unfold decodeRm at h2
  by_cases hmd : md = 3
  · rw [if_pos hmd] at h2
    obtain ⟨rfl, rfl⟩ := dec_pure_ok_iff.1 h2
    exact ⟨rfl, by rw [encodeModRm, reg_toBits_ofBits, hmd]; rfl⟩
  · rw [if_neg hmd] at h2
    cases ha : m.addr32 with
    | true =>
      rw [ha, if_pos rfl] at h2
      obtain ⟨e, h3, rfl⟩ := dec_map_ok_iff.1 h2
      obtain ⟨hw, he⟩ := decodeEa32_ok (reg := reg) hmd h3
      exact ⟨by simp [RM.wf, Ea.wf, ha, hw], he⟩
    | false =>
      rw [ha, if_neg (by simp)] at h2
      obtain ⟨e, h3, rfl⟩ := dec_map_ok_iff.1 h2
      obtain ⟨hw, he⟩ := decodeEa16_ok (reg := reg) hmd h3
      exact ⟨by simp [RM.wf, Ea.wf, ha, hw], he⟩

/-! ### Whole instructions -/

theorem decodeFarPointer_ok {m : Mode} {f : DWord → Word16 → Instr} {bs rest : List Byte} {i : Instr}
    (h : decodeFarPointer m f bs = .ok (i, rest)) :
    ∃ off sel, i = f off sel ∧ farOffsetWf m off = true ∧ bs = encodeFarOffset m off ++ bytes16 sel ++ rest := by
  obtain ⟨_, _, h0, h⟩ := dec_bind_ok_iff.1 h
  obtain ⟨off, mid, h1, h⟩ := dec_bind_ok_iff.1 h
  obtain ⟨sel, mid', h2, h⟩ := dec_bind_ok_iff.1 h
  obtain ⟨rfl, rfl⟩ := dec_pure_ok_iff.1 h
  refine ⟨off, sel, rfl, ?_⟩
  rw [need_ok h0, List.append_assoc, ← next16_ok h2]
  unfold decodeFarOffset at h1
  unfold farOffsetWf encodeFarOffset
  cases ho : m.op32 with
  | true =>
    rw [ho, if_pos rfl] at h1
    exact ⟨rfl, by rw [if_pos rfl]; exact next32_ok h1⟩
  | false =>
    rw [ho, if_neg (by simp)] at h1
    obtain ⟨v, h3, rfl⟩ := dec_map_ok_iff.1 h1
    refine ⟨?_, ?_⟩
    · have hv : v.toNat < 65536 := v.isLt
      simp only [Bool.false_or, decide_eq_true_eq, BitVec.toNat_setWidth]
      omega
    · rw [if_neg (by simp), BitVec.setWidth_setWidth_of_le _ (by decide), BitVec.setWidth_eq]
      exact next16_ok h3

/-- What `d` accepts behind the bytes `front` is a well-formed instruction and its encoding. -/
def Spells (m : Mode) (front : List Byte) (d : Dec Instr) : Prop :=
  ∀ bs i rest, d bs = .ok (i, rest) → i.wf m = true ∧ encode m i ++ rest = front ++ bs

section Spells

variable {m : Mode} {front : List Byte}

theorem spells_notInTable : Spells m front notInTable := fun _ _ _ h => nomatch h

theorem spells_pure {i : Instr} (hw : i.wf m = true) (he : encode m i = front) : Spells m front (pure i) := by
  intro bs j rest h
  obtain ⟨rfl, rfl⟩ := dec_pure_ok_iff.1 h
  exact ⟨hw, by rw [he]⟩

theorem spells_next8 {f : Byte → Dec Instr} (hf : ∀ b, Spells m (front ++ [b]) (f b)) :
    Spells m front (next8 >>= f) := by
  intro bs i rest h
  obtain ⟨b, mid, h1, h2⟩ := dec_bind_ok_iff.1 h
  rw [next8_ok h1]
  simpa using hf b mid i rest h2

theorem spells_next16 {f : Word16 → Dec Instr} (hf : ∀ v, Spells m (front ++ bytes16 v) (f v)) :
    Spells m front (next16 >>= f) := by
  intro bs i rest h
  obtain ⟨v, mid, h1, h2⟩ := dec_bind_ok_iff.1 h
  rw [next16_ok h1, ← List.append_assoc]
  exact hf v mid i rest h2

theorem spells_modRm {f : BitVec 3 × RM → Dec Instr}
    (hf : ∀ reg o, o.wf m = true → Spells m (front ++ encodeModRm reg o) (f (reg, o))) :
    Spells m front (decodeModRm m >>= f) := by
  intro bs i rest h
  obtain ⟨⟨reg, o⟩, mid, h1, h2⟩ := dec_bind_ok_iff.1 h
  obtain ⟨hw, hb⟩ := decodeModRm_ok h1
  rw [hb, ← List.append_assoc]
  exact hf reg o hw mid i rest h2

theorem spells_loadPointer {f : Reg → RM → Instr} (hw : ∀ r o, (f r o).wf m = o.wf m)
    (he : ∀ r o, encode m (f r o) = front ++ encodeModRm r.toBits o) : Spells m front (decodeLoadPointer m f) :=
  spells_modRm fun reg o ho => spells_pure ((hw _ _).trans ho) (by rw [he, reg_toBits_ofBits])

theorem spells_farPointer {f : DWord → Word16 → Instr} (hw : ∀ off sel, (f off sel).wf m = farOffsetWf m off)
    (he : ∀ off sel, encode m (f off sel) = front ++ (encodeFarOffset m off ++ bytes16 sel)) :
    Spells m front (decodeFarPointer m f) := by
  intro bs i rest h
  obtain ⟨off, sel, rfl, ho, rfl⟩ := decodeFarPointer_ok h
  exact ⟨(hw off sel).trans ho, by rw [he, List.append_assoc]⟩

theorem toNat_eq_lit {w : Nat} {b : BitVec w} {n : Nat} (h : b.toNat = n) : b = BitVec.ofNat w n := by
  rw [← h, BitVec.ofNat_toNat, BitVec.setWidth_eq]

theorem spells_FF : Spells m [0xFF] (decodeFF m) := by
  refine spells_modRm fun reg o ho => ?_
  simp only []
  split
  case h_3 => exact spells_notInTable
  all_goals
    rename_i hr
    obtain rfl := toNat_eq_lit hr
    exact spells_pure ho rfl

theorem spells_0F00 : Spells m [0x0F, 0x00] (decode0F00 m) := by
  refine spells_modRm fun reg o ho => ?_
  simp only []
  split
  case h_5 => exact spells_notInTable
  all_goals
    rename_i hr
    obtain rfl := toNat_eq_lit hr
    exact spells_pure ho rfl

theorem spells_0F01 : Spells m [0x0F, 0x01] (decode0F01 m) := by
  refine spells_modRm fun reg o ho => ?_
  simp only []
  split
  case h_5 => exact spells_notInTable
  all_goals
    rename_i hr
    obtain rfl := toNat_eq_lit hr
    exact spells_pure ho rfl

theorem spells_0F : Spells m [0x0F] (decode0F m) := by
  refine spells_next8 fun b => ?_
  split
  case h_10 => exact spells_notInTable
  all_goals
    rename_i hb
    obtain rfl := toNat_eq_lit hb
  case h_1 => exact spells_0F00
  case h_2 => exact spells_0F01
  case h_7 | h_8 | h_9 => exact spells_loadPointer (fun _ _ => rfl) fun _ _ => rfl
  all_goals exact spells_pure rfl rfl

/-- The decoder accepts well-formed instructions in their encoding only. -/
theorem spells_decode (m : Mode) : Spells m [] (decode m) := by
  refine spells_next8 fun b => ?_
  split
  case h_26 => exact spells_notInTable
  all_goals
    rename_i hb
    obtain rfl := toNat_eq_lit hb
  case h_2 => exact spells_0F
  case h_13 | h_14 => exact spells_modRm fun reg o ho => spells_pure ho rfl
  case h_15 | h_24 => exact spells_farPointer (fun _ _ => rfl) fun _ _ => rfl
  case h_16 | h_17 => exact spells_loadPointer (fun _ _ => rfl) fun _ _ => rfl
  case h_18 => exact spells_next16 fun v => spells_pure rfl rfl
  case h_21 => exact spells_next8 fun n => spells_pure rfl rfl
  case h_25 => exact spells_FF
  all_goals exact spells_pure rfl rfl

end Spells

/-- The bytes of an accepted instruction number at least its length. -/
theorem decode_ok {m : Mode} {bs rest : List Byte} {i : Instr} (h : decode m bs = .ok (i, rest)) :
    i.wf m = true ∧ i.length m ≤ bs.length := by
  obtain ⟨hw, he⟩ := spells_decode m bs i rest h
  refine ⟨hw, ?_⟩
  rw [← List.nil_append bs, ← he, List.length_append]
  exact Nat.le_add_right _ _

end Sys2Proof.Proofs
end

section
/-! SUPPORT and statements. The fetch: what it leaves, which instruction it finds, and where the limit of CS ends it. -/

namespace Sys2Proof.Proofs

open Sys2Proof Sys2Proof.Machine Sys2Proof.Laws

variable {s t : State} {i : Instr}

/-! ### With paging off a fetch writes nothing -/

/-- With paging off in `s`, `t` has the memory of `s` and paging off. -/
def MemoryKept (s t : State) : Prop :=
  s.pagingEnabled = false → t.mem = s.mem ∧ t.pagingEnabled = false

theorem memoryKept_chain : Chain MemoryKept where
  refl _ hp := ⟨rfl, hp⟩
  trans h k hp := ⟨(k (h hp).2).1.trans (h hp).1, (k (h hp).2).2⟩

theorem steps_physBytes_off (la : DWord) (n : Nat) (kind : AccessKind) (cpl : Level) :
    Steps MemoryKept (physBytes la n kind cpl) := by
  intro s pas t h hp
  rw [physBytes_off hp] at h
  cases h
  exact ⟨rfl, hp⟩

theorem readPhys_mem {pa : PhysAddr} {b : Byte} (h : readPhys pa s = .ok (b, t)) : t.mem = s.mem := by
  unfold readPhys at h
  split at h
  case h_1 | h_2 => cases h; rfl
  case h_3 => cases h
  case h_4 => split at h <;> cases h; rfl

theorem steps_readBytes_mem (pas : List PhysAddr) : Steps MemoryKept (readBytes pas) := by
  induction pas with
  | nil => exact memoryKept_chain.pure _
  | cons pa rest ih =>
    have hread : Steps MemoryKept (readPhys pa) := fun s _ t h hp =>
      ⟨readPhys_mem h, (readPhys_quiet h).pagingEnabled.trans hp⟩
    exact memoryKept_chain.bind hread fun _ => memoryKept_chain.bind ih fun _ => memoryKept_chain.pure _

theorem steps_fetchBytes_mem (walked k m : Nat) : Steps MemoryKept (fetchBytes walked k m) := by
  have hc := memoryKept_chain
  refine hc.bind hc.get fun s => hc.bind (hc.refuseIf _ _) fun _ => hc.bind (hc.check _) fun la =>
    hc.bind (steps_physBytes_off _ _ _ _) fun pas => hc.bind ?_ fun _ => steps_readBytes_mem _
  exact fun _ _ _ h => refuseStored_ok h ▸ hc.refl _

theorem steps_fetchFirst_mem (fuel walked : Nat) : Steps MemoryKept (fetchFirst fuel walked) := by
  have hc := memoryKept_chain
  induction fuel generalizing walked with
  | zero => exact steps_refuse _
  | succ fuel ih =>
    refine hc.bind hc.get fun s => hc.bind (steps_fetchBytes_mem _ _ _) fun bs => steps_ite ?_ (hc.pure _)
    refine hc.bind ?_ fun _ => ih _
    intro s _ t h hp
    cases h
    exact ⟨rfl, hp⟩

theorem steps_gather_mem (fuel : Nat) (bs : List Byte) : Steps MemoryKept (gather fuel bs) := by
  have hc := memoryKept_chain
  induction fuel generalizing bs with
  | zero => exact steps_refuse _
  | succ fuel ih =>
    refine hc.bind hc.get fun s => ?_
    split
    · exact hc.pure _
    · exact steps_refuse _
    · exact hc.bind (steps_fetchBytes_mem _ _ _) fun more => ih _

theorem steps_fetchAll_mem : Steps MemoryKept fetchAll :=
  memoryKept_chain.bind (steps_fetchFirst_mem _ _) fun _ => steps_gather_mem _ _

/-! ### The state in which the fetched instruction runs -/

/-- What a fetch that answers leaves: `s` but for memory, the model's two fields about it, and the prefixes, of which
the count grows by the LOCK and REP bytes and `before` keeps memory where page walks may have written. -/
structure FetchedFor (i : Instr) (s t : State) : Prop where
  same : t = { s with
    mem := t.mem, freeCount := t.freeCount, stored := t.stored,
    pfx := { s.pfx with count := t.pfx.count, before := t.pfx.before } }
  wf : s.mem.wf = true → t.mem.wf = true
  count : s.pfx.count ≤ t.pfx.count
  length : t.pfx.count + i.length s.mode ≤ maxInstrBytes
  isWf : i.wf s.mode = true
  kept : s.pagingEnabled = false ∨ isPrefix i = true → t.mem = s.mem ∧ t.pfx.before = s.pfx.before
  copied : s.pagingEnabled = true → isPrefix i = false → t.pfx.before = some s.mem

/-- The prefixes that a fetch leaves differ in their count. -/
theorem fetched_pfx (h : Fetched s t) : t.pfx = { s.pfx with count := t.pfx.count } :=
  congrArg State.pfx h.same

theorem fetchInstr_of_ok (h : fetchAll s = .ok (i, t)) : fetchInstr s = .ok (i, s.settled t i) := by
  rw [fetchInstr, h]

theorem fetchInstr_ok (h : fetchInstr s = .ok (i, t)) : FetchedFor i s t := by
  cases hf : fetchAll s with
  | error e => rw [fetchInstr, hf] at h; cases h
  | ok p =>
    obtain ⟨j, u⟩ := p
    cases (fetchInstr_of_ok hf).symm.trans h
    obtain ⟨f, bs, rest, hd, hl⟩ := fetchAll_ok hf
    obtain ⟨hw, hlen⟩ := decode_ok hd
    have hmem := steps_fetchAll_mem s i u hf
    have hlength : u.pfx.count + i.length s.mode ≤ maxInstrBytes := by omega
    have hpfx := fetched_pfx f
    have hbefore : u.pfx.before = s.pfx.before := by rw [hpfx]
    unfold State.settled
    split
    · rename_i hi
      refine ⟨?_, id, f.count, hlength, hw, fun _ => ⟨rfl, hbefore⟩, fun _ hn => absurd hi (by simp [hn])⟩
      rw [hpfx]
    · rename_i hi
      split
      · rename_i hp
        refine ⟨?_, f.wf, f.count, hlength, hw, ?_, fun _ _ => rfl⟩
        · rw [f.same]
        · rintro (hn | hn)
          · exact absurd hp (by simp [hn])
          · exact absurd hn hi
      · rename_i hp
        refine ⟨?_, f.wf, f.count, hlength, hw, fun _ => ⟨(hmem (by simpa using hp)).1, hbefore⟩,
          fun hn => absurd hn hp⟩
        rw [f.same]

/-! ### Steps -/

theorem step_of_fetch (hn : s.cfg.numProcessors = 1) (h : fetchInstr s = .ok (i, t)) : step s = exec i t := by
  rw [step, if_neg (not_not.2 hn), h]

theorem step_of_fetch_raises (hn : s.cfg.numProcessors = 1) {e : Exn} (h : fetchAll s = .error (.exn e)) :
    step s = raised s e := by
  have hf : fetchInstr s = .error (.exn e) := by rw [fetchInstr, h]
  rw [step, if_neg (not_not.2 hn), hf]
  rfl

/-- The first byte of the instruction passes the limit of CS. -/
theorem fetchAll_first_past (hv : s.cs.valid = true) (hm : s.pfx.count + 1 ≤ maxInstrBytes)
    (hl : limitOk s.cfg s.cs s.pcOffset.toNat (s.pfx.count + 1) = false) :
    fetchAll s = .error (.exn (.gp 0)) := by
  refine bind_of_error ?_
  rw [maxInstrBytes, fetchFirst, get_bind]
  exact bind_of_error (fetchBytes_past hv hm hl)

/-- The bytes in memory are a part of an instruction whose missing bytes pass the limit of CS. -/
theorem fetchAll_rest_past (hp : s.pagingEnabled = false) (hf : s.cfg.fetchSeesStores = true) {bs : List Byte} {m : Nat}
    (h : Holds s s.pfx.count bs) (hd : decode s.mode bs = .error (.short m))
    (hm : s.pfx.count + bs.length + m ≤ maxInstrBytes)
    (hl : limitOk s.cfg s.cs s.pcOffset.toNat (s.pfx.count + bs.length + m) = false) :
    fetchAll s = .error (.exn (.gp 0)) := by
  cases bs with
  | nil =>
    cases hd
    exact fetchAll_first_past h.valid hm hl
  | cons b rest =>
    have hb := decode_first (m := s.mode) (b := b) (rest := rest) (by rw [hd]; nofun)
    have hfirst := fetchFirst_off (fuel := maxInstrBytes) (walked := 0) (reps := []) hp hf (Nat.zero_le _) nofun hb
      (Holds.split (front := [b]) h).1 (Nat.le_add_right _ _)
    rw [fetchAll, bind_of_ok hfirst]
    exact gather_past (s := s) (front := [b]) (back := rest) hp hf h hd (Nat.le_refl _) hm hl

/-- Settles O2: the first clause by what every part of a fetch leaves and what the decoder accepts, the others by the
check of the limit before a byte is paged. -/
theorem fetchChecksLimitAndChangesNoRegister : Obligations.FetchChecksLimitAndChangesNoRegister := by
  intro s t i bs m
  refine ⟨fun h => ?_, fun hn hv hm hl => ?_, fun hn hp hf h hd hm hl => ?_⟩
  · have f := fetchInstr_ok h
    exact ⟨f.isWf, f.length, f.count, f.same, f.kept, f.copied, fun hn => step_of_fetch hn h⟩
  · exact step_of_fetch_raises hn (fetchAll_first_past hv hm hl)
  · exact step_of_fetch_raises hn (fetchAll_rest_past hp hf (holds_iff.1 h) hd hm hl)

/-- Settles O1: `fetchAll_off` finds the instruction, and with paging off what is settled is the count. -/
theorem stepRunsDecodedInstruction : Obligations.StepRunsDecodedInstruction := by
  intro s i idle bs hn hp hf hidle h hd
  have hreps : ∀ b ∈ idle, isLockOrRep b = true := by
    intro b hb
    rcases hidle b hb with rfl | rfl | rfl <;> rfl
  have hfetch := fetchAll_off hp hf hreps (holds_iff.1 h) hd
  have hsettled : s.settled (counted s idle.length) i = counted s idle.length := by
    unfold State.settled
    rw [if_neg (show ¬ s.pagingEnabled = true by simp [hp])]
    exact ite_self _
  exact step_of_fetch hn ((fetchInstr_of_ok hfetch).trans (by rw [hsettled]; rfl))

end Sys2Proof.Proofs
end

section
/-! SUPPORT and statement. The invariant: what of it holds between the fetch and the end of an instruction, that every
effect keeps it, and that a step does. -/

namespace Sys2Proof.Proofs

open Sys2Proof Sys2Proof.Machine Sys2Proof.Laws

variable {s t : State} {i : Instr}

/-! ### The type field with the accessed bit set -/

@[simp] theorem accessed_or_one (t : BitVec 4) : accessed (t ||| 1#4) = true := by revert t; decide

@[simp] theorem isCode_or_one (t : BitVec 4) : isCode (t ||| 1#4) = isCode t := by revert t; decide

@[simp] theorem conforming_or_one (t : BitVec 4) : conforming (t ||| 1#4) = conforming t := by revert t; decide

@[simp] theorem readable_or_one (t : BitVec 4) : readable (t ||| 1#4) = readable t := by revert t; decide

@[simp] theorem writable_or_one (t : BitVec 4) : writable (t ||| 1#4) = writable t := by revert t; decide

/-! ### The invariant while an instruction runs -/

/-- The invariant but for the prefixes: what holds of the registers and memory, of memory before the instruction too. -/
structure Sound (s : State) : Prop where
  mem : s.mem.wf = true
  before : ∀ m, s.pfx.before = some m → m.wf = true
  code : s.codeInv = true
  stack : s.stackInv = true
  ds : s.ds.dataInv = true
  es : s.es.dataInv = true
  fs : s.fs.dataInv = true
  gs : s.gs.dataInv = true
  ldtr : s.ldtr.ldtInv = true
  tr : s.tr.tssInv = true

theorem inv_iff : s.inv = true ↔ Sound s ∧ s.pfx.count ≤ maxInstrBytes ∧ s.pfx.before = none := by
  simp only [State.inv, Bool.and_eq_true, decide_eq_true_eq, Option.isNone_iff_eq_none]
  constructor
  · rintro ⟨⟨⟨⟨⟨⟨⟨⟨⟨⟨hm, hc⟩, hs⟩, hds⟩, hes⟩, hfs⟩, hgs⟩, hl⟩, ht⟩, hn⟩, hb⟩
    exact ⟨⟨hm, fun m h => by simp [hb] at h, hc, hs, hds, hes, hfs, hgs, hl, ht⟩, hn, hb⟩
  · rintro ⟨h, hn, hb⟩
    exact ⟨⟨⟨⟨⟨⟨⟨⟨⟨⟨h.mem, h.code⟩, h.stack⟩, h.ds⟩, h.es⟩, h.fs⟩, h.gs⟩, h.ldtr⟩, h.tr⟩, hn⟩, hb⟩

/-- The invariant does not speak of the general registers, GDTR, IDTR, EFLAGS, CR2 and the instruction pointer. -/
theorem Sound.of_same (h : Sound s) (e : t = { s with
      mem := t.mem, freeCount := t.freeCount, stored := t.stored, gpr := t.gpr, gdtr := t.gdtr, idtr := t.idtr,
      eflags := t.eflags, cr2 := t.cr2, pc := t.pc, pfx := t.pfx })
    (hm : t.mem.wf = true) (hb : ∀ m, t.pfx.before = some m → m.wf = true) : Sound t := by
  have hcs : t.cs = s.cs := by rw [e]
  have hss : t.ss = s.ss := by rw [e]
  have hcode : t.codeInv = s.codeInv := by simp only [State.codeInv, cpl_of_cs hcs, hcs]
  have hstack : t.stackInv = s.stackInv := by simp only [State.stackInv, cpl_of_cs hcs, hss]
  refine ⟨hm, hb, hcode.trans h.code, hstack.trans h.stack, ?_, ?_, ?_, ?_, ?_, ?_⟩
  all_goals rw [e]
  exacts [h.ds, h.es, h.fs, h.gs, h.ldtr, h.tr]

theorem Sound.of_quiet (h : Sound s) (q : Quiet s t) : Sound t :=
  h.of_same (by rw [q.same]) (q.wf h.mem) (q.pfx ▸ h.before)

theorem Sound.of_regsSet {rs : List Reg} (h : Sound s) (k : RegsSet rs s t) : Sound t :=
  h.of_same (by rw [k.same]) (by rw [k.same]; exact h.mem) (by rw [k.same]; exact h.before)

theorem Sound.advance (h : Sound s) (i : Instr) : Sound (s.advance i) :=
  h.of_same rfl h.mem nofun

theorem Sound.setTables (h : Sound s) (g d : TableReg) {l r : SysReg} (hl : l.ldtInv = true) (hr : r.tssInv = true) :
    Sound { s with gdtr := g, idtr := d, ldtr := l, tr := r } :=
  ⟨h.mem, h.before, h.code, h.stack, h.ds, h.es, h.fs, h.gs, hl, hr⟩

/-! ### What is loaded meets the invariant -/

theorem dataLoad_dataInv {cpl : Level} {sel : Word16} {d : Descriptor} (h : DataLoad cpl sel d) :
    (SegCache.load sel d).dataInv = true := by
  obtain ⟨-, hs, hc, -, hp, -⟩ := h
  have hr : readable d.type = true := by
    cases hcode : isCode d.type with
    | true => exact hc hcode
    | false => simp [readable, isData_eq, hcode]
  simp [SegCache.dataInv, SegCache.load, hs, hp, hr]

theorem loadNull_dataInv {c : SegCache} {sel : Word16} (h : isNull sel = true) : (c.loadNull sel).dataInv = true := by
  simpa [SegCache.dataInv, SegCache.loadNull] using h

theorem stackAt_stackInv {l : Level} (h : StackAt l s.ss) (hl : s.cpl = l) : s.stackInv = true := by
  obtain ⟨sel, d, hc, -, hs, hw, hr, hd, hp, -⟩ := h
  simp [State.stackInv, hc, SegCache.load, hs, hp, hw, hr, hd, hl]

theorem codeAt_codeInv {l : Level} (h : CodeAt l s.cs) (hl : s.cpl = l) : s.codeInv = true := by
  obtain ⟨sel, d, hc, hs, hcode, hp, hd⟩ := h
  cases hconf : conforming d.type with
  | true =>
    have hle : d.dpl ≤ l := by simpa [hconf] using hd
    simp [State.codeInv, hc, hl, SegCache.load, hs, hcode, hp, hconf, hle]
  | false =>
    have heq : d.dpl = l := by simpa [hconf] using hd
    simp [State.codeInv, hc, hl, SegCache.load, hs, hcode, hp, hconf, heq]

theorem dataKept_dataInv {l : Level} {c c' : SegCache} (h : DataKept l c c') (hc : c.dataInv = true) :
    c'.dataInv = true := by
  rcases h with rfl | rfl
  · exact hc
  · unfold SegCache.afterReturn
    split
    · exact hc
    · exact loadNull_dataInv rfl

/-- A direct load meets the invariant, SS at the CPL. -/
theorem Sound.setSeg (h : Sound s) {r : SReg} {c : SegCache} (hr : r ≠ .cs) (hss : r = .ss → StackAt s.cpl c)
    (hds : r ≠ .ss → c.dataInv = true) : Sound (s.setSeg r c) := by
  obtain ⟨hm, hb, hcode, hstack, hd, he, hf, hg, hl, ht⟩ := h
  cases r with
  | cs => exact absurd rfl hr
  | ss => exact ⟨hm, hb, hcode, stackAt_stackInv (s := s.setSeg .ss c) (hss rfl) rfl, hd, he, hf, hg, hl, ht⟩
  | ds => exact ⟨hm, hb, hcode, hstack, hds nofun, he, hf, hg, hl, ht⟩
  | es => exact ⟨hm, hb, hcode, hstack, hd, hds nofun, hf, hg, hl, ht⟩
  | fs => exact ⟨hm, hb, hcode, hstack, hd, he, hds nofun, hg, hl, ht⟩
  | gs => exact ⟨hm, hb, hcode, hstack, hd, he, hf, hds nofun, hl, ht⟩

theorem loadedSeg_fits {r : SReg} {sel : Word16} {c : SegCache} (h : LoadedSeg s r sel c) :
    (r = .ss → StackAt s.cpl c) ∧ (r ≠ .ss → c.dataInv = true) := by
  rcases h with ⟨hr, hn, rfl⟩ | ⟨hr, d, rfl, hd⟩ | ⟨rfl, d, rfl, hd⟩
  · exact ⟨fun e => absurd e hr, fun _ => loadNull_dataInv hn⟩
  · exact ⟨fun e => absurd e hr, fun _ => dataLoad_dataInv hd⟩
  · exact ⟨fun _ => ⟨sel, d, rfl, hd⟩, fun e => absurd rfl e⟩

/-- A transfer meets the invariant at the level it goes to. -/
theorem Sound.of_moved {l : Level} (h : Sound s) (k : Moved l s t) : Sound t := by
  have hl := k.cpl
  have hpfx : t.pfx = .none := by rw [k.same]
  have hldtr : t.ldtr = s.ldtr := by rw [k.same]
  have htr : t.tr = s.tr := by rw [k.same]
  refine ⟨k.wf h.mem, by rw [hpfx]; nofun, codeAt_codeInv k.code hl, ?_, dataKept_dataInv k.ds h.ds,
    dataKept_dataInv k.es h.es, dataKept_dataInv k.fs h.fs, dataKept_dataInv k.gs h.gs, hldtr ▸ h.ldtr, htr ▸ h.tr⟩
  rcases k.stack with hs | ⟨hs, hc⟩
  · exact stackAt_stackInv hs hl
  · have hstack : t.stackInv = s.stackInv := by simp only [State.stackInv, hs, hl.trans hc]
    exact hstack.trans h.stack

/-! ### SYSENTER and SYSEXIT -/

theorem rpl_add_eight (sel : Word16) : selRPL (sel + 8) = selRPL sel := by
  simp only [selRPL, ← BitVec.setWidth_eq_extractLsb' (show 2 ≤ 16 by decide),
    BitVec.setWidth_add _ _ (show 2 ≤ 16 by decide)]
  exact BitVec.add_zero _

theorem rpl_or_three (sel : Word16) : selRPL (sel ||| 3) = 3 := by
  have h : ∀ l : Level, l ||| 3 = 3 := by decide
  rw [selRPL, BitVec.extractLsb'_or]
  exact h _

theorem codeInv_of_flat {sel : Word16} {l : Level} (h : s.cs = .flat sel 0b1011 l) (hl : s.cpl = l) :
    s.codeInv = true := by
  simp [State.codeInv, h, hl, SegCache.flat, accessed, isCode, conforming]

theorem stackInv_of_flat {sel : Word16} {l : Level} (h : s.ss = .flat sel 0b0011 l) (hr : selRPL sel = l)
    (hl : s.cpl = l) : s.stackInv = true := by
  simp [State.stackInv, h, hr, hl, SegCache.flat, accessed, writable, isData]

theorem Sound.enterSystem (h : Sound s) : Sound s.enterSystem :=
  have hrpl : selRPL s.sysenterSelectors.2 = 0 := (rpl_add_eight _).trans (withRPL_rpl _ 0)
  ⟨h.mem, nofun, codeInv_of_flat rfl (enterSystem_cpl s), stackInv_of_flat rfl hrpl (enterSystem_cpl s),
    h.ds, h.es, h.fs, h.gs, h.ldtr, h.tr⟩

theorem Sound.exitSystem (h : Sound s) : Sound s.exitSystem :=
  ⟨h.mem, nofun, codeInv_of_flat rfl (rpl_or_three _), stackInv_of_flat rfl (rpl_or_three _) (rpl_or_three _),
    h.ds, h.es, h.fs, h.gs, h.ldtr, h.tr⟩

/-! ### Instructions and steps -/

theorem Sound.of_effect (h : Sound s) (k : Effect i s t) : Sound t := by
  cases k with
  | advanced m u q hu ht => exact ht ▸ ((h.of_quiet q).of_regsSet hu).advance i
  | loaded r sel c m u hi hr q hc hu ht =>
    have hcpl : m.cpl = s.cpl := cpl_of_cs q.cs
    obtain ⟨hss, hds⟩ := loadedSeg_fits hc
    exact ht ▸ (((h.of_quiet q).setSeg hr (hcpl ▸ hss) hds).of_regsSet hu).advance i
  | gdtr o v m hi q ht =>
    have hm := h.of_quiet q
    exact ht ▸ (hm.setTables v m.idtr hm.ldtr hm.tr).advance i
  | idtr o v m hi q ht =>
    have hm := h.of_quiet q
    exact ht ▸ (hm.setTables m.gdtr v hm.ldtr hm.tr).advance i
  | ldtr o v m hi q hv ht =>
    have hm := h.of_quiet q
    exact ht ▸ (hm.setTables m.gdtr m.idtr hv hm.tr).advance i
  | tr o v m hi q hv ht =>
    have hm := h.of_quiet q
    exact ht ▸ (hm.setTables m.gdtr m.idtr hm.ldtr hv).advance i
  | transferred l k => exact h.of_moved k.moved
  | sysenter hi ht => exact ht ▸ h.enterSystem
  | sysexit hi ht => exact ht ▸ h.exitSystem
  | noted f hi hc hb ht =>
    subst ht
    exact h.of_same rfl h.mem (by rw [State.notePrefix, hb]; exact h.before)

/-- The state that an exception is delivered from meets the invariant: memory before the instruction is in canonical
form. -/
theorem Sound.noteFault (h : Sound s) (e : Exn) : Sound (s.undone.noteFault e) := by
  refine h.of_same (by cases e <;> rfl) ?_ (by simpa using h.before)
  rw [noteFault_mem, State.undone]
  cases hb : s.pfx.before with
  | none => exact h.mem
  | some m => exact h.before m hb

theorem Sound.of_delivered (h : Sound s) (k : Delivered s t) : Sound t := by
  obtain ⟨x, l, -, hm⟩ := delivered_moved k
  exact (h.noteFault x).of_moved hm

/-- Only the bytes that `isPrefix` lists leave prefixes pending, one more than before (R109, R110). -/
theorem Effect.pfx (h : Effect i s t) : t.pfx = .none ∨
    (isPrefix i = true ∧ t.pfx.count = s.pfx.count + 1 ∧ t.pfx.before = s.pfx.before) := by
  cases h with
  | advanced _ _ _ _ ht | loaded _ _ _ _ _ _ _ _ _ _ ht => exact .inl (ht ▸ advance_pfx _ i)
  | gdtr _ _ _ _ _ ht | idtr _ _ _ _ _ ht | ldtr _ _ _ _ _ _ ht | tr _ _ _ _ _ _ ht =>
    exact .inl (ht ▸ advance_pfx _ i)
  | transferred l k => exact .inl (by rw [k.moved.same])
  | sysenter _ ht | sysexit _ ht => exact .inl (by rw [ht]; rfl)
  | noted f hi hc hb ht =>
    subst ht
    exact .inr ⟨hi, hc _, hb _⟩

theorem inv_of_pfx_none (h : Sound t) (hp : t.pfx = .none) : t.inv = true := by
  refine inv_iff.2 ⟨h, ?_, ?_⟩ <;> rw [hp]
  · exact Nat.zero_le _
  · rfl

theorem inv_of_delivered (h : Sound s) (k : Delivered s t) : t.inv = true := by
  obtain ⟨x, l, -, hm⟩ := delivered_moved k
  exact inv_of_pfx_none (h.of_delivered k) (by rw [hm.same])

theorem Sound.of_fetched (h : Sound s) (hb : s.pfx.before = none) (f : FetchedFor i s t) : Sound t := by
  refine h.of_same (by rw [f.same]) (f.wf h.mem) fun m hm => ?_
  by_cases hk : s.pagingEnabled = false ∨ isPrefix i = true
  · rw [(f.kept hk).2, hb] at hm
    cases hm
  · rw [f.copied (by simp_all) (by simp_all)] at hm
    cases hm
    exact h.mem

/-- A fetched instruction has a byte of its own within the 15, so that counting it among the prefixes keeps
the bound. -/
theorem inv_of_exec {u : State} (h : Sound s) (hb : s.pfx.before = none) (f : FetchedFor i s t)
    (he : exec i t = .next u) : u.inv = true := by
  have ht := h.of_fetched hb f
  rcases exec_effect he with k | k
  · exact inv_of_delivered ht k
  · have hu := ht.of_effect k
    rcases k.pfx with hp | ⟨hi, hc, hbefore⟩
    · exact inv_of_pfx_none hu hp
    · have hlen : i.length s.mode = 1 := by cases i <;> first | rfl | cases hi
      have hmax := f.length
      refine inv_iff.2 ⟨hu, by omega, ?_⟩
      rw [hbefore, (f.kept (.inr hi)).2, hb]

/-- Settles O8: the invariant but for the prefixes passes from the state before the fetch to the one the instruction
runs in, through each of its effects, and through the delivery of an exception. -/
theorem stepKeepsInvariant : Obligations.StepKeepsInvariant := by
  intro s t hinv h
  obtain ⟨hs, -, hb⟩ := inv_iff.1 hinv
  unfold step at h
  split at h
  · cases h
  · split at h
    · rename_i i u hf
      exact inv_of_exec hs hb (fetchInstr_ok hf) h
    · obtain ⟨hd, x, -, hx⟩ := stopped_next.1 h
      exact inv_of_delivered hs ⟨hd, x, hx⟩

end Sys2Proof.Proofs
end

section
/-! SUPPORT and statements. The stack pointer, and the pending prefixes. -/

namespace Sys2Proof.Proofs

open Sys2Proof Sys2Proof.Machine Sys2Proof.Laws

variable {s t : State}

/-! ### The stack pointer -/

/-- The low half of a sum is the sum of the low halves. -/
theorem low_add (x y : DWord) : (x + y).extractLsb' 0 16 = x.extractLsb' 0 16 + y.extractLsb' 0 16 := by
  simp only [← BitVec.setWidth_eq_extractLsb' (show 16 ≤ 32 by decide)]
  exact BitVec.setWidth_add x y (by decide)

theorem low_setWidth (x : Word16) : (x.setWidth 32).extractLsb' 0 16 = x := by
  rw [← BitVec.setWidth_eq_extractLsb' (by decide), BitVec.setWidth_setWidth_of_le _ (by decide), BitVec.setWidth_eq]

/-- The stack pointer moves as ESP where SS.B is 1, and as SP where it is 0 (R172). -/
theorem stackMoved_eq (s : State) (k : DWord) :
    s.stackMoved k = if s.ss.db then s.gpr.esp + k
      else (s.gpr.esp.extractLsb' 0 16 + k.extractLsb' 0 16).setWidth 32 := by
  unfold State.stackMoved State.stackPtr
  cases s.ss.db
  · simp only [Bool.false_eq_true, if_false, low_add, low_setWidth]
  · rfl

/-- A new stack pointer is all of ESP, or leaves its upper half (R172). -/
theorem setStackPtr_esp (s : State) (wide : Bool) (v : DWord) :
    (s.setStackPtr wide v).gpr.esp = if wide then v else s.gpr.esp.extractLsb' 16 16 ++ v.extractLsb' 0 16 := by
  cases wide <;> rfl

/-- ESP once the stack pointer is moved by `k` bytes. -/
def espMoved (s : State) (k : DWord) : DWord :=
  if s.ss.db then s.gpr.esp + k
  else s.gpr.esp.extractLsb' 16 16 ++ (s.gpr.esp.extractLsb' 0 16 + k.extractLsb' 0 16)

theorem setStackPtr_stackMoved {m : State} (q : Quiet s m) (k : DWord) :
    (m.setStackPtr m.ss.db (s.stackMoved k)).gpr.esp = espMoved s k := by
  rw [setStackPtr_esp, q.ss, q.gpr, stackMoved_eq, espMoved]
  cases s.ss.db
  · simp only [Bool.false_eq_true, if_false, low_setWidth]
  · rfl

theorem push_esp {cpl : Level} {n v : Nat} (h : push cpl n v s = .ok ((), t)) :
    t.gpr.esp = espMoved s (-(BitVec.ofNat 32 n)) := by
  simp only [push, get_bind, bind_ok, modify_run, Except.ok.injEq, Prod.mk.injEq, true_and] at h
  obtain ⟨_, m, h1, rfl⟩ := h
  exact setStackPtr_stackMoved (segWrite_quiet h1) _

theorem pop_esp {n v : Nat} (h : pop n s = .ok (v, t)) : t.gpr.esp = espMoved s (BitVec.ofNat 32 n) := by
  simp only [pop, release, bind_ok, modify_run, pure_run, Except.ok.injEq, Prod.mk.injEq, true_and] at h
  obtain ⟨_, m, h1, _, _, rfl, -, rfl⟩ := h
  have q := stackTop_ok h1
  have hm : m.stackMoved (BitVec.ofNat 32 n) = s.stackMoved (BitVec.ofNat 32 n) := by
    rw [stackMoved_eq, stackMoved_eq, q.ss, q.gpr]
  rw [hm]
  exact setStackPtr_stackMoved q _

theorem low_ofNat (n : Nat) : (BitVec.ofNat 32 n).extractLsb' 0 16 = BitVec.ofNat 16 n := by
  rw [← BitVec.setWidth_eq_extractLsb' (by decide), BitVec.setWidth_ofNat_of_le (by decide)]

theorem low_neg_ofNat (n : Nat) : (-(BitVec.ofNat 32 n)).extractLsb' 0 16 = -(BitVec.ofNat 16 n) := by
  rw [← low_ofNat]
  simp only [← BitVec.setWidth_eq_extractLsb' (show 16 ≤ 32 by decide)]
  exact BitVec.setWidth_neg_of_le (by decide)

/-- Settles O57: push and pop move ESP by `espMoved`, and a push writes at the moved stack pointer. -/
theorem stackPointerWidth : Obligations.StackPointerWidth := by
  intro s t cpl n v
  refine ⟨fun h => ?_, fun h => ?_, fun hb => ?_, fun hb => ?_⟩
  · rw [push_esp h, espMoved, low_neg_ofNat, ← BitVec.sub_eq_add_neg, ← BitVec.sub_eq_add_neg]
  · rw [pop_esp h, espMoved, low_ofNat]
  · rw [State.pushPtr, stackMoved_eq, hb, if_neg (by simp), low_neg_ofNat, ← BitVec.sub_eq_add_neg]
  · rw [State.pushPtr, stackMoved_eq, hb, if_pos rfl, ← BitVec.sub_eq_add_neg]

/-! ### The pending prefixes -/

/-- The segment of a memory operand is the override, whatever else is pending (R110). -/
theorem segReg_of_seg_eq {s t : State} (h : t.pfx.seg = s.pfx.seg) (e : Ea) : Ea.segReg t e = Ea.segReg s e := by
  rw [Ea.segReg, Ea.segReg, h]

/-- Settles O40: what each of the eight bytes notes, and what the sizes and the segment of a memory operand are
by it. -/
theorem prefixBytesComplete : Obligations.PrefixBytesComplete := by
  intro s
  refine ⟨rfl, rfl, ?_, ?_, ?_, ?_, ?_⟩
  · intro p hp
    have he : exec p.1 s = .next { s with pfx := { s.pfx with seg := some p.2, count := s.pfx.count + 1 } } := by
      simp only [List.mem_cons, List.not_mem_nil, or_false] at hp
      rcases hp with rfl | rfl | rfl | rfl | rfl | rfl <;> rfl
    refine ⟨he, fun t e ht => ?_⟩
    cases he.symm.trans ht
    exact ⟨rfl, rfl⟩
  · intro ho ha
    simp [State.mode, ho, ha]
  · intro t ht
    cases ht
    refine ⟨?_, segReg_of_seg_eq rfl⟩
    simp [State.mode, State.notePrefix]
  · intro t ht
    cases ht
    refine ⟨?_, segReg_of_seg_eq rfl⟩
    simp [State.mode, State.notePrefix]
  · intro hseg
    have hdefault : ∀ e, Ea.segReg s e = Ea.defaultSeg e := fun e => by rw [Ea.segReg, hseg]; rfl
    refine ⟨fun d => hdefault _, fun b d8 d e he => ?_, fun x k d e he => ?_, fun b x k d8 d e he => ?_⟩
    all_goals
      rw [hdefault]
      simp only [List.mem_cons, List.not_mem_nil, or_false] at he
    · rcases he with rfl | rfl | rfl <;> cases b <;> rfl
    · rcases he with rfl | rfl <;> rfl
    · rcases he with rfl | rfl | rfl | rfl | rfl | rfl <;> cases b <;> rfl

end Sys2Proof.Proofs
end

section
/-! SUPPORT and statement. What a direct load that completes leaves in its segment register and in memory, with
paging off. -/

namespace Sys2Proof.Proofs

open Sys2Proof Sys2Proof.Machine Sys2Proof.Laws

variable {s t : State}

/-! ### The accessed bit in memory -/

/-- Bit 0 of the second of four bytes is bit 8 of their value. -/
theorem testBit_leValue_second (b0 b1 b2 b3 : Byte) :
    (leValue [b0, b1, b2, b3]).testBit 8 = b1.getLsbD 0 := by
  have hlt := b0.isLt
  have h1 : leValue [b0, b1, b2, b3] / 2 ^ 8 % 2 = b1.toNat % 2 := by
    simp only [leValue]
    omega
  rw [Nat.testBit_eq_decide_div_mod_eq, h1, BitVec.getLsbD, Nat.testBit_zero]

/-- The accessed bit of a descriptor in memory is bit 0 of its byte 5 (R96, R104). -/
theorem accessed_descriptorAt (s : State) (addr : DWord) :
    accessed (s.descriptorAt addr).type = (s.byteAt (addr + 5)).getLsbD 0 := by
  have hb : (s.valueAt (addr + 4) 4).testBit 8 = (s.byteAt (addr + 5)).getLsbD 0 := by
    rw [show addr + 5 = addr + 4 + 1 by rw [BitVec.add_assoc]; rfl]
    exact testBit_leValue_second _ _ _ _
  rw [← hb, accessed, Descriptor.type, BitVec.getLsbD_extractLsb', State.descriptorAt, BitVec.getLsbD_ofNat]
  simp

/-- Byte 5 of a descriptor that can be read stands in RAM or ROM. -/
theorem kindAt_accessByte {addr : DWord} (h : s.descriptorReadable addr = true) :
    s.kindAt ((addr + 5).setWidth 36) = .ram ∨ s.kindAt ((addr + 5).setWidth 36) = .rom := by
  simp only [State.descriptorReadable, State.readableAt, Bool.and_eq_true, Bool.or_eq_true, beq_iff_eq] at h
  obtain ⟨-, -, h5, -⟩ := h
  rwa [BitVec.add_assoc] at h5

/-- In ROM the processor's write of byte 5 hangs (R347). -/
theorem setAccessByte_rom (hp : s.pagingEnabled = false) {addr : DWord} {bits : Byte}
    (h : s.kindAt ((addr + 5).setWidth 36) = .rom) : setAccessByte addr bits s = .error (.fault .hang) := by
  have hr : s.readableAt (addr + 5) 1 = true := by rw [State.readableAt, h]; rfl
  have hang : ∀ b, writePhys .processor (addr + 5) ((addr + 5).setWidth 36) b s = .error (.fault .hang) := by
    intro b
    simp only [writePhys, h, decide_true, Bool.true_or, if_true]
  rw [setAccessByte, bind_of_ok (linRead_off hp supervisor hr), linWrite,
    bind_of_ok (physBytes_off hp (addr + 5) 1 .write supervisor)]
  exact bind_of_error (hang _)

/-- `SetAccessed` that completes leaves the accessed bit in memory (R195). -/
theorem setAccessed_holds (hp : s.pagingEnabled = false) (hw : s.mem.wf = true) {addr : DWord} {u : Unit}
    (hr : s.descriptorReadable addr = true) (h : setAccessed (s.descriptorAt addr) addr s = .ok (u, t)) :
    accessed (t.descriptorAt addr).type = true := by
  unfold setAccessed at h
  split at h
  · rename_i ha
    cases h
    exact ha
  · rcases kindAt_accessByte hr with hk | hk
    · rw [setAccessByte_off hp (by rw [State.ramAt, hk]; rfl)] at h
      cases h
      rw [accessed_descriptorAt, State.byteAt, State.accessByteSet, storeByte_mem, read_write_same _ _ hw]
      simp
    · rw [setAccessByte_rom hp hk] at h
      cases h

/-! ### The load -/

/-- A descriptor that can be read is the one fetched. -/
theorem fetchDescriptor_named (hp : s.pagingEnabled = false) {sel : Word16} {p : Descriptor × DWord}
    (hr : s.descriptorReadable (s.descriptorAddr sel) = true) (h : fetchDescriptor sel s = .ok (p, t)) :
    p = (s.named sel, s.descriptorAddr sel) ∧ t = s := by
  rw [fetchDescriptor, get_bind, raiseIf_bind_ok, raiseIf_bind_ok, bind_of_ok (readDescriptor_off hp hr),
    refuseIf_bind_ok] at h
  obtain ⟨-, -, -, h⟩ := h
  cases h
  exact ⟨rfl, rfl⟩

/-- What a load of segment register `r` with the selector `sel` from `s` leaves in `t`. -/
def LoadHolds (s t : State) (r : SReg) (sel : Word16) : Prop :=
  (isNull sel = true → r ≠ .ss ∧ t.seg r = (s.seg r).loadNull sel) ∧
    (isNull sel = false → s.descriptorReadable (s.descriptorAddr sel) = true →
      t.seg r = .load sel (s.named sel) ∧ accessed (t.descriptorAt (s.descriptorAddr sel)).type = true)

/-- The tail that both loads share: the accessed bit, then the register. -/
theorem loadHolds_of_marked (hp : s.pagingEnabled = false) (hw : s.mem.wf = true) {r : SReg} {sel : Word16} {u : Unit}
    (hr : s.descriptorReadable (s.descriptorAddr sel) = true)
    (h : (setAccessed (s.named sel) (s.descriptorAddr sel) >>= fun _ => putSeg r (.load sel (s.named sel))) s
      = .ok (u, t)) :
    t.seg r = .load sel (s.named sel) ∧ accessed (t.descriptorAt (s.descriptorAddr sel)).type = true := by
  obtain ⟨_, m, h1, h2⟩ := bind_ok.1 h
  cases h2
  refine ⟨seg_setSeg_same m r _, ?_⟩
  have hm : ∀ c addr, (m.setSeg r c).descriptorAt addr = m.descriptorAt addr := by
    intro c addr
    cases r <;> rfl
  rw [hm]
  exact setAccessed_holds hp hw hr h1

theorem loadDataSeg_holds (hp : s.pagingEnabled = false) (hw : s.mem.wf = true) {r : SReg} (hss : r ≠ .ss)
    {sel : Word16} {u : Unit} (h : loadDataSeg r sel s = .ok (u, t)) : LoadHolds s t r sel := by
  rw [loadDataSeg, get_bind] at h
  split at h
  · rename_i hn
    cases h
    exact ⟨fun _ => ⟨hss, seg_setSeg_same s r _⟩, fun hf => absurd hn (by simp [hf])⟩
  · rename_i hn
    refine ⟨fun hf => absurd hf hn, fun _ hr => ?_⟩
    obtain ⟨p, m, h1, h⟩ := bind_ok.1 h
    obtain ⟨rfl, rfl⟩ := fetchDescriptor_named hp hr h1
    obtain ⟨_, m', h2, h⟩ := bind_ok.1 h
    simp only [checkDataDescriptor, raiseIf_bind_ok, raiseIf_ok] at h2
    obtain ⟨-, -, -, -, rfl⟩ := h2
    exact loadHolds_of_marked hp hw hr h

theorem loadSs_holds (hp : s.pagingEnabled = false) (hw : s.mem.wf = true) {cpl : Level} {sel : Word16} {u : Unit}
    (h : loadSs cpl sel s = .ok (u, t)) : LoadHolds s t .ss sel := by
  rw [loadSs, get_bind, raiseIf_bind_ok] at h
  obtain ⟨hn, h⟩ := h
  refine ⟨fun hf => absurd hf (by simp [hn]), fun _ hr => ?_⟩
  obtain ⟨p, m, h1, h⟩ := bind_ok.1 h
  obtain ⟨rfl, rfl⟩ := fetchDescriptor_named hp hr h1
  obtain ⟨_, m', h2, h⟩ := bind_ok.1 h
  simp only [checkStackDescriptor, raiseIf_bind_ok, raiseIf_ok] at h2
  obtain ⟨-, -, -, -, rfl⟩ := h2
  exact loadHolds_of_marked hp hw hr h

theorem loadSeg_holds (hp : s.pagingEnabled = false) (hw : s.mem.wf = true) {r : SReg} {sel : Word16} {u : Unit}
    (h : loadSeg r sel s = .ok (u, t)) : LoadHolds s t r sel := by
  rw [loadSeg, get_bind] at h
  split at h
  · rename_i hr
    subst hr
    exact loadSs_holds hp hw h
  · rename_i hr
    exact loadDataSeg_holds hp hw hr h

/-- What follows the load changes neither the segment registers nor memory. -/
theorem LoadHolds.after {m : State} {r : SReg} {sel : Word16} (h : LoadHolds s m r sel) (hs : t.seg r = m.seg r)
    (hm : t.mem = m.mem) : LoadHolds s t r sel := by
  have hd : ∀ addr, t.descriptorAt addr = m.descriptorAt addr := by
    intro addr
    simp only [State.descriptorAt, State.valueAt, State.bytesAt, State.byteAt, hm]
  unfold LoadHolds
  simp only [hs, hd]
  exact h

/-! ### The instructions that load directly -/

theorem popSeg_holds (hp : s.pagingEnabled = false) (hw : s.mem.wf = true) {r : SReg} {i : Instr} {u : Unit}
    (ht : s.topOk s.opBytes = true) (h : popSeg r i s = .ok (u, t)) :
    LoadHolds s t r (BitVec.ofNat 16 (s.topValue s.opBytes)) := by
  rw [popSeg, get_bind, bind_of_ok (stackTop_off hp ht)] at h
  obtain ⟨_, m, h1, h2⟩ := bind_ok.1 h
  cases h2
  exact (loadSeg_holds hp hw h1).after (by simp) (by simp)

theorem loadPointer_holds (hp : s.pagingEnabled = false) (hw : s.mem.wf = true) {r : SReg} {q : Reg} {e : Ea}
    {i : Instr} {u : Unit} (he : s.pointerOk e = true) (h : loadPointer r q (.mem e) i s = .ok (u, t)) :
    LoadHolds s t r (s.pointerSel e) := by
  have hmem : memOperand (.mem e) s = .ok (e, s) := rfl
  rw [loadPointer, bind_of_ok hmem, bind_of_ok (readFarPointer_off hp he)] at h
  obtain ⟨_, m, h1, h2⟩ := bind_ok.1 h
  cases h2
  have hk : RegsSet [q] m (m.regWritten q (s.pointerOff e)) := regsSet_regWritten (List.mem_singleton_self q) m _
  have hm : (m.regWritten q (s.pointerOff e)).mem = m.mem := by rw [hk.same]
  exact (loadSeg_holds hp hw h1).after ((seg_advance _ _ _).trans (hk.seg r)) hm

theorem movToSreg_holds (hp : s.pagingEnabled = false) (hw : s.mem.wf = true) {b : BitVec 3} {r : SReg} {src : RM}
    (hb : SReg.ofBits b = some r) (hs : s.sourceOk src = true) (hn : s.cfg.transfers ≠ .delivered)
    (h : exec (.movToSreg b src) s = .next t) : LoadHolds s t r (s.sourceValue src) := by
  have h := (conclude_cases h).resolve_left fun hd => hn hd.1
  rw [bind_of_ok (readRm16_off hp hs)] at h
  have h' : (loadSeg r (s.sourceValue src) >>= fun _ => advance (.movToSreg b src)) s = .ok ((), t) := by
    cases r
    case cs => simp only [hb] at h; cases h
    all_goals (simp only [hb] at h; exact h)
  obtain ⟨_, m, h1, h2⟩ := bind_ok.1 h'
  cases h2
  exact (loadSeg_holds hp hw h1).after (seg_advance _ _ _) rfl

theorem directLoad_holds {i : Instr} {r : SReg} (hp : s.pagingEnabled = false) (hn : s.cfg.transfers ≠ .delivered)
    (hw : s.mem.wf = true) (hi : directLoadTarget i = some r) (hr : s.selectorReadable i = true)
    (h : exec i s = .next t) : LoadHolds s t r (s.loadedSelector i) := by
  have run : ∀ {op : Op Unit}, exec i s = conclude s op → op s = .ok ((), t) := fun he =>
    (conclude_cases (he ▸ h)).resolve_left fun hd => hn hd.1
  cases i with
  | movToSreg b src => exact movToSreg_holds hp hw hi hr hn h
  | popEs | popSs | popDs | popFs | popGs =>
    cases hi
    exact popSeg_holds hp hw hr (run rfl)
  | lds q src | les q src | lss q src | lfs q src | lgs q src =>
    cases hi
    obtain ⟨e, _, _, _, _, rfl, -⟩ := loadPointer_ok (run rfl)
    exact loadPointer_holds hp hw hr (run rfl)
  | _ => cases hi

/-- Settles O29: `loadSeg_holds` for the selector that the operand gives, and what follows the load keeps it. -/
theorem loadedSegmentHoldsDescriptor : Obligations.LoadedSegmentHoldsDescriptor := by
  intro s t i r sel d hp hn hw _ hi hr hsel hd h
  subst hsel hd
  exact directLoad_holds hp hn hw hi hr h

end Sys2Proof.Proofs
end

section
/-! SUPPORT and statements. Memory: what is stored is read back, a data access is checked for alignment, and what the
paging step answers. -/

namespace Sys2Proof.Proofs

open Sys2Proof Sys2Proof.Machine Sys2Proof.Laws

variable {s t : State}

/-! ### What is stored is read back (R65, R71, R170) -/

theorem awayFrom_iff {la : DWord} {n : Nat} {pa : PhysAddr} :
    awayFrom la n pa = true ↔ ∀ k < n, pa ≠ (la + BitVec.ofNat 32 k).setWidth 36 := by
  simp only [awayFrom, List.all_eq_true, List.mem_range, bne_iff_ne]

/-- Away from `n + 1` bytes is away from the first one and from the `n` behind it. -/
theorem awayFrom_succ {la : DWord} {n : Nat} {pa : PhysAddr} :
    awayFrom la (n + 1) pa = true ↔ pa ≠ la.setWidth 36 ∧ awayFrom (la + 1) n pa = true := by
  have hfirst : la + BitVec.ofNat 32 0 = la := by simp
  have hnext : ∀ k, la + BitVec.ofNat 32 (k + 1) = la + 1 + BitVec.ofNat 32 k := fun k => by bv_omega
  simp only [awayFrom_iff, Nat.forall_lt_succ_left', hfirst, hnext]

/-- A byte lies away from the ones behind it, as long as these do not go once around the address space. -/
theorem awayFrom_behind (la : DWord) {n : Nat} (hn : n < 2 ^ 32) : awayFrom (la + 1) n (la.setWidth 36) = true := by
  refine awayFrom_iff.2 fun k hk h => ?_
  bv_omega

theorem storeBytes_wf (h : s.mem.wf = true) (la : DWord) (bs : List Byte) : (s.storeBytes la bs).mem.wf = true :=
  (storeBytes_quiet s la bs).wf h

/-- Bytes stored leave every other byte alone. -/
theorem read_storeBytes_away (hw : s.mem.wf = true) {la : DWord} {bs : List Byte} {pa : PhysAddr}
    (h : awayFrom la bs.length pa = true) : (s.storeBytes la bs).mem.read pa = s.mem.read pa := by
  induction bs generalizing s la with
  | nil => rfl
  | cons b rest ih =>
    obtain ⟨hne, hrest⟩ := awayFrom_succ.1 h
    calc ((s.storeByte (la.setWidth 36) b).storeBytes (la + 1) rest).mem.read pa
        = (s.storeByte (la.setWidth 36) b).mem.read pa := ih (write_wf _ b hw) hrest
      _ = s.mem.read pa := read_write_other b hne hw

/-- The first bytes of those stored are read back. -/
theorem bytesAt_storeBytes (hw : s.mem.wf = true) (la : DWord) {bs : List Byte} {m : Nat} (hm : m ≤ bs.length)
    (hl : bs.length ≤ 2 ^ 32) : (s.storeBytes la bs).bytesAt la m = bs.take m := by
  induction bs generalizing s la m with
  | nil =>
    obtain rfl : m = 0 := by simpa using hm
    rfl
  | cons b rest ih =>
    cases m with
    | zero => rfl
    | succ m =>
      rw [List.length_cons] at hm hl
      have hw' : (s.storeByte (la.setWidth 36) b).mem.wf = true := write_wf _ b hw
      have hfirst : (s.storeBytes la (b :: rest)).byteAt la = b :=
        (read_storeBytes_away hw' (awayFrom_behind la (by omega))).trans (read_write_same _ b hw)
      rw [State.bytesAt, hfirst, List.take_succ_cons]
      exact congrArg _ (ih hw' (la + 1) (by omega) (by omega))

/-- The low bytes of fewer are the first of the low bytes. -/
theorem take_leBytes {m n : Nat} (h : m ≤ n) (v : Nat) : (leBytes n v).take m = leBytes m v := by
  induction n generalizing m v with
  | zero =>
    obtain rfl : m = 0 := by omega
    rfl
  | succ n ih =>
    cases m with
    | zero => rfl
    | succ m => rw [leBytes, leBytes, List.take_succ_cons, ih (by omega)]

/-- A read of the low-order bytes of a stored value. -/
theorem valueAt_storeValue (hw : s.mem.wf = true) (la : DWord) {m n : Nat} (v : Nat) (hm : m ≤ n)
    (hn : n ≤ 2 ^ 32) : (s.storeValue la n v).valueAt la m = v % 256 ^ m := by
  rw [State.valueAt, State.storeValue, bytesAt_storeBytes hw la (by simpa using hm) (by simpa using hn),
    take_leBytes hm, leValue_leBytes]

/-- Settles O20: by induction on the bytes stored, the first of which the others leave alone. -/
theorem storedValueIsReadBack : Obligations.StoredValueIsReadBack := by
  intro s la n m v hw hm hn
  refine ⟨valueAt_storeValue hw la v hm (by omega), storeBytes_wf hw la _, fun pa h => ?_⟩
  exact read_storeBytes_away hw (by simpa using h)

/-! ### The alignment check of a data access (R72, R305, R311) -/

theorem misaligned_iff {enabled : Bool} {cpl : Level} {la : DWord} {n : Nat} (hn : n = 2 ∨ n = 4) :
    misaligned enabled cpl la n = true ↔ enabled = true ∧ cpl = 3 ∧ la.toNat % n ≠ 0 := by
  have hsize : (n == 2 || n == 4) = true := by simpa using hn
  simp only [misaligned, hsize, Bool.and_true, Bool.and_eq_true, beq_iff_eq, bne_iff_ne, and_assoc]

/-- What a check puts before an operation. -/
theorem raiseIf_bind {α : Type} {c : Bool} {e : Exn} {f : Unit → Op α} :
    (raiseIf c e >>= f) s = if c = true then .error (.exn e) else f () s := by
  cases c <;> rfl

theorem segRead_of_translate {r : SReg} {off n : Nat} {cpl : Level} {la : DWord}
    (h : Machine.translate s.cfg r (s.seg r) off n .read = .ok la) :
    segRead r off n cpl s = if misaligned s.alignCheckEnabled cpl la n = true then .error (.exn .ac)
      else linRead la n cpl s := by
  rw [segRead, get_bind, bind_of_ok (check_ok.2 ⟨h, rfl⟩), raiseIf_bind]

theorem segWrite_of_translate {r : SReg} {off n v : Nat} {cpl : Level} {la : DWord}
    (h : Machine.translate s.cfg r (s.seg r) off n .write = .ok la) :
    segWrite r off n v cpl s = if misaligned s.alignCheckEnabled cpl la n = true then .error (.exn .ac)
      else linWrite .program la n v cpl s := by
  rw [segWrite, get_bind, bind_of_ok (check_ok.2 ⟨h, rfl⟩), raiseIf_bind]

/-- Settles O56: behind the segment checks a read and a write test `misaligned` and then go to the linear address. -/
theorem alignmentCheck : Obligations.AlignmentCheck := by
  intro s r off n v la hn
  refine ⟨fun h => ?_, fun h => ?_⟩
  · exact (segRead_of_translate h).trans (if_congr (misaligned_iff hn) rfl rfl)
  · exact (segWrite_of_translate h).trans (if_congr (misaligned_iff hn) rfl rfl)

/-! ### The paging step (R63 to R67, R304) -/

/-- With paging on and the walk a parameter, the step is that walk (R67). -/
theorem phys_parameter (hp : s.pagingEnabled = true) (hw : s.cfg.walk = .parameter) (la : DWord) (kind : AccessKind)
    (cpl : Level) : phys la kind cpl s = parameterWalk la kind cpl s := by
  rw [phys, if_pos hp, pageWalk, hw]

theorem parameterWalk_of_some {la : DWord} {kind : AccessKind} {cpl : Level} {pa : PhysAddr}
    (h : (Config.pageWalk s.pagingRoot s.cr4 la kind cpl s.mem).result = some pa) :
    parameterWalk la kind cpl s = .ok (s.cutPhys pa,
      s.walkWrites (Config.pageWalk s.pagingRoot s.cr4 la kind cpl s.mem).writes) := by
  simp only [parameterWalk, h]

theorem parameterWalk_of_none {la : DWord} {kind : AccessKind} {cpl : Level}
    (h : (Config.pageWalk s.pagingRoot s.cr4 la kind cpl s.mem).result = none) :
    parameterWalk la kind cpl s = .error (.exn (.pf la kind cpl
      (Config.pageWalk s.pagingRoot s.cr4 la kind cpl s.mem).protection)) := by
  simp only [parameterWalk, h]

/-- Settles O58: paging off, the answer of the parameter, and the frame that every way of it keeps. -/
theorem pagingStep : Obligations.PagingStep := by
  intro s la kind cpl
  refine ⟨fun hp => phys_off hp la kind cpl, fun hp hw => ?_, fun pa t h => (phys_quiet h).same⟩
  rw [phys_parameter hp hw]
  split
  · rw [parameterWalk_of_some ‹_›]
    rfl
  · rw [parameterWalk_of_none ‹_›]
    rfl

end Sys2Proof.Proofs
end

section
/-! SUPPORT and statement. What is refused by name: task switches, and the transfers that the policy `named` refuses. -/

namespace Sys2Proof.Proofs

open Sys2Proof Sys2Proof.Machine Sys2Proof.Laws

variable {s : State} {i : Instr}

/-! ### The policy that follows R295 to the letter -/

theorem refuseTransfer_named (h : s.cfg.transfers = .named) (k : Transfer) :
    refuseTransfer k s = .error (.refused (.transfer k)) := by
  rw [refuseTransfer, get_bind, refuseIf_run, h]
  rfl

theorem raised_named (h : s.cfg.transfers = .named) (e : Exn) : raised s e = .fault (.exception e) := by
  rw [raised, h]

/-- An instruction that begins with the refusal of its transfer. -/
theorem conclude_refuseTransfer (h : s.cfg.transfers = .named) (k : Transfer) (f : Unit → Op Unit) :
    conclude s (refuseTransfer k >>= f) = .refused (.transfer k) :=
  conclude_of_error (bind_of_error (refuseTransfer_named h k))

/-- INTO with OF = 1 raises #OF (R214, R306). -/
theorem exec_into_named (h : s.cfg.transfers = .named) (ho : s.overflowFlag = true) :
    exec .into s = .fault (.exception .of) := by
  have hop : overflowTrap (s.nextPc .into) s = .error (.exn .of) := by
    rw [overflowTrap, get_bind, raiseIf_bind_true (by rw [h]; rfl)]
  have hexec : exec .into s = conclude s (overflowTrap (s.nextPc .into)) := by
    change conclude s (if s.overflowFlag then _ else _) = _
    rw [if_pos ho]
  rw [hexec, conclude_of_error hop]
  exact raised_named h .of

/-! ### Software interrupts (R213 to R215) -/

theorem conclude_congr {op op' : Op Unit} (h : op s = op' s) : conclude s op = conclude s op' := by
  rw [conclude, conclude, h]

/-- INT n, INT3 and INTO with OF = 1 go through the gate of their vector. -/
theorem exec_softwareInterrupt {n v : Byte} (hn : s.cfg.transfers ≠ .named) (hi : (i, v) ∈ softwareInterrupts n)
    (ho : i = .into → s.overflowFlag = true) : exec i s = conclude s (takeEvent v true none (s.nextPc i)) := by
  have hpol : (s.cfg.transfers == .named) = false := by simpa using hn
  have hpass : refuseTransfer .throughIdt s = .ok ((), s) := by rw [refuseTransfer, get_bind, refuseIf_run, hpol]; rfl
  simp only [softwareInterrupts, List.mem_cons, Prod.mk.injEq, List.not_mem_nil, or_false] at hi
  rcases hi with ⟨rfl, rfl⟩ | ⟨rfl, rfl⟩ | ⟨rfl, rfl⟩
  · exact conclude_congr (bind_of_ok hpass)
  · exact conclude_congr (bind_of_ok hpass)
  · refine conclude_congr ?_
    rw [if_pos (ho rfl), overflowTrap, get_bind, raiseIf_bind_false hpol]
    rfl

/-- A task gate that the instruction may use asks for a task switch (R286). -/
theorem fetchGate_taskGate (hp : s.pagingEnabled = false) {vector : Byte} {software : Bool}
    (hr : s.gateReadable vector = true) (hs : (s.gateAt vector).s = false) (ht : (s.gateAt vector).type = 0b0101)
    (hd : software = true → s.cpl ≤ (s.gateAt vector).dpl) (hgp : (s.gateAt vector).p = true) :
    fetchGate vector software s = .error (.refused .taskSwitch) := by
  simp only [State.gateReadable, Bool.and_eq_true, decide_eq_true_eq] at hr
  obtain ⟨hl, hr⟩ := hr
  have hkind : systemKind (s.gateAt vector).type = .taskGate := by rw [ht]; rfl
  have hread : readDescriptor (s.idtr.base + BitVec.ofNat 32 (8 * vector.toNat)) s = .ok (s.gateAt vector, s) :=
    readDescriptor_off hp hr
  have hlevel : (software && decide ((s.gateAt vector).dpl < s.cpl)) = false := by
    cases software
    · rfl
    · simpa using hd rfl
  rw [fetchGate, get_bind, raiseIf_bind_false (by simpa using hl), bind_of_ok hread,
    raiseIf_bind_false (by simp [Descriptor.isIdtGate, hs, hkind]), raiseIf_bind_false hlevel,
    raiseIf_bind_false (by simp [hgp]), refuseIf_bind_true (by rw [hkind]; rfl)]

/-! ### Call gates (R207, R208, R281) -/

/-- The operations of a far JMP or CALL through memory (R108). -/
theorem farMem_off (hp : s.pagingEnabled = false) {e : Ea} (h : s.pointerOk e = true) (isCall : Bool) (retPc : DWord) :
    (memOperand (.mem e) >>= fun e => readFarPointer e >>= fun p => farTransfer isCall p.2 p.1 retPc) s =
      farTransfer isCall (s.pointerSel e) (s.pointerOff e) retPc s := by
  have hmem : memOperand (.mem e) s = .ok (e, s) := rfl
  rw [bind_of_ok hmem, bind_of_ok (readFarPointer_off hp h)]

/-- A far JMP or CALL transfers to its pointer, be it immediate or in memory. -/
theorem exec_farPointer (hp : s.pagingEnabled = false) {isCall : Bool} {off : DWord} {sel : Word16}
    (h : s.farPointerOf isCall i = some (off, sel)) :
    exec i s = conclude s (farTransfer isCall sel off (s.nextPc i)) := by
  cases i with
  | jmpPtr o q | callPtr o q =>
    cases isCall <;> cases h
    rfl
  | jmpMem src | callMem src =>
    cases src with
    | reg r => cases h
    | mem e =>
      simp only [State.farPointerOf, Option.ite_none_right_eq_some, Option.some.injEq, Prod.mk.injEq, Bool.and_eq_true,
        Bool.not_eq_true'] at h
      obtain ⟨⟨rfl, hm⟩, rfl, rfl⟩ := h
      exact conclude_congr (farMem_off hp hm _ _)
  | _ => cases h

/-- A far transfer whose selector names a call gate goes through it. -/
theorem farTransfer_callGate (hp : s.pagingEnabled = false) {isCall : Bool} {sel : Word16} {off retPc : DWord}
    (hn : isNull sel = false) (hf : s.fetchOk sel = true) (hs : (s.named sel).s = false)
    (hk : systemKind (s.named sel).type = .callGate) :
    farTransfer isCall sel off retPc s = callGate isCall sel (s.named sel) retPc s := by
  rw [farTransfer, get_bind, bind_of_ok (fetchTarget_off hp hn hf)]
  dsimp only
  rw [if_neg (by simp [hs]), hk]

theorem callGate_named (h : s.cfg.transfers = .named) (isCall : Bool) (sel : Word16) (gate : Descriptor)
    (retPc : DWord) : callGate isCall sel gate retPc s = .error (.refused (.transfer .callGate)) :=
  bind_of_error (refuseTransfer_named h .callGate)

/-! ### Returns (R209, R212) -/

/-- A far RET pops its operands, releases `k` bytes and then returns. -/
theorem farReturn_popped (hp : s.pagingEnabled = false) (k : DWord) (h1 : s.topOk s.opBytes = true)
    (h2 : (s.popped s.opBytes).topOk s.opBytes = true) :
    farReturn k s = returnTo s.opBytes (s.returnSel s.opBytes) (s.returnPc s.opBytes) k
      (((s.popped s.opBytes).popped s.opBytes).released k) := by
  have p1 : (s.popped s.opBytes).pagingEnabled = false := by rw [State.popped, released_pagingEnabled, hp]
  rw [farReturn, get_bind, bind_of_ok (pop_off hp h1)]
  exact bind_of_ok (pop_off p1 h2)

/-- An IRET with NT = 0 pops its three operands and then returns; where the return stops, it stops. -/
theorem interruptReturn_stops (hp : s.pagingEnabled = false) (hn : s.nestedTask = false)
    (h1 : s.topOk s.opBytes = true) (h2 : (s.popped s.opBytes).topOk s.opBytes = true)
    (h3 : ((s.popped s.opBytes).popped s.opBytes).topOk s.opBytes = true) {e : Stop}
    (h : returnTo s.opBytes (s.returnSel s.opBytes) (s.returnPc s.opBytes) 0
      (((s.popped s.opBytes).popped s.opBytes).popped s.opBytes) = .error e) : interruptReturn s = .error e := by
  have p1 : (s.popped s.opBytes).pagingEnabled = false := by rw [State.popped, released_pagingEnabled, hp]
  have p2 : ((s.popped s.opBytes).popped s.opBytes).pagingEnabled = false := by
    rw [State.popped, released_pagingEnabled, p1]
  rw [interruptReturn, get_bind, refuseIf_bind_false hn, bind_of_ok (pop_off hp h1)]
  refine (bind_of_ok (pop_off p1 h2)).trans ?_
  refine (bind_of_ok (pop_off p2 h3)).trans ?_
  exact bind_of_error h

/-- An IRET with NT = 1 asks for a task switch before anything is popped (R212). -/
theorem exec_iret_nestedTask (hn : s.nestedTask = true) : exec .iret s = .refused .taskSwitch := by
  have hop : interruptReturn s = .error (.refused .taskSwitch) := by
    rw [interruptReturn, get_bind, refuseIf_bind_true hn]
  exact conclude_of_error hop

/-- A return to an outer level is refused before anything more is popped. -/
theorem returnTo_outer_named (h : s.cfg.transfers = .named) {n : Nat} {sel : Word16} {newPc k : DWord}
    (hr : s.cpl < selRPL sel) : returnTo n sel newPc k s = .error (.refused (.transfer .outerReturn)) := by
  have hlt : ¬ selRPL sel < s.cpl := by bv_omega
  have hne : ¬ selRPL sel = s.cpl := by bv_omega
  rw [returnTo, get_bind, raiseIf_bind_false (by simpa using hlt), if_neg hne]
  exact bind_of_error (refuseTransfer_named h .outerReturn)

/-! ### The statement -/

theorem exec_softwareInterrupt_taskGate (hp : s.pagingEnabled = false) {n v : Byte} (hn : s.cfg.transfers ≠ .named)
    (hi : (i, v) ∈ softwareInterrupts n) (ho : i = .into → s.overflowFlag = true) (hr : s.gateReadable v = true)
    (hs : (s.gateAt v).s = false) (ht : (s.gateAt v).type = 0b0101) (hd : s.cpl ≤ (s.gateAt v).dpl)
    (hgp : (s.gateAt v).p = true) : exec i s = .refused .taskSwitch := by
  rw [exec_softwareInterrupt hn hi ho]
  exact conclude_of_error (bind_of_error (fetchGate_taskGate hp hr hs ht (fun _ => hd) hgp))

theorem exec_callGate_named (hp : s.pagingEnabled = false) (h : s.cfg.transfers = .named) {isCall : Bool} {off : DWord}
    {sel : Word16} (hi : s.farPointerOf isCall i = some (off, sel)) (hn : isNull sel = false)
    (hf : s.fetchOk sel = true) (hs : (s.named sel).s = false) (ht : (s.named sel).type ∈ [0b0100#4, 0b1100#4]) :
    exec i s = .refused (.transfer .callGate) := by
  have hk : systemKind (s.named sel).type = .callGate := by
    simp only [List.mem_cons, List.not_mem_nil, or_false] at ht
    rcases ht with ht | ht <;> rw [ht] <;> rfl
  rw [exec_farPointer hp hi]
  exact conclude_of_error ((farTransfer_callGate hp hn hf hs hk).trans (callGate_named h ..))

theorem farReturn_outer_named (hp : s.pagingEnabled = false) (h : s.cfg.transfers = .named) (k : DWord)
    (h1 : s.topOk s.opBytes = true) (h2 : (s.popped s.opBytes).topOk s.opBytes = true)
    (hr : s.cpl < selRPL (s.returnSel s.opBytes)) :
    conclude s (farReturn k) = .refused (.transfer .outerReturn) := by
  refine conclude_of_error ((farReturn_popped hp k h1 h2).trans (returnTo_outer_named ?_ ?_))
  · simpa [State.popped, State.released] using h
  · simpa only [State.popped, released_cpl] using hr

theorem exec_iret_outer_named (hp : s.pagingEnabled = false) (h : s.cfg.transfers = .named) (hn : s.nestedTask = false)
    (h1 : s.topOk s.opBytes = true) (h2 : (s.popped s.opBytes).topOk s.opBytes = true)
    (h3 : ((s.popped s.opBytes).popped s.opBytes).topOk s.opBytes = true)
    (hr : s.cpl < selRPL (s.returnSel s.opBytes)) : exec .iret s = .refused (.transfer .outerReturn) := by
  refine conclude_of_error (interruptReturn_stops hp hn h1 h2 h3 (returnTo_outer_named ?_ ?_))
  · simpa [State.popped, State.released] using h
  · simpa only [State.popped, released_cpl] using hr

/-- Settles O50: each operation stops at its own refusal, behind the reads that the hypotheses let pass. -/
theorem refusedByName : Obligations.RefusedByName := by
  intro s n v i isCall off sel imm
  refine ⟨fun hn => if_pos hn, exec_iret_nestedTask, ?_, fun h => ?_⟩
  · intro hp hn hi ho hr hs ht hd hgp
    exact exec_softwareInterrupt_taskGate hp hn hi ho hr hs ht hd hgp
  · refine ⟨conclude_refuseTransfer h _ _, conclude_refuseTransfer h _ _, conclude_refuseTransfer h _ _,
      conclude_refuseTransfer h _ _, exec_into_named h, ?_, ?_⟩
    · intro hp hi hn hf hs ht
      exact exec_callGate_named hp h hi hn hf hs ht
    · intro hp h1 h2 hr
      refine ⟨farReturn_outer_named hp h 0 h1 h2 hr, farReturn_outer_named hp h _ h1 h2 hr, fun hnt h3 => ?_⟩
      exact exec_iret_outer_named hp h hnt h1 h2 h3 hr

end Sys2Proof.Proofs
end

section
/-! SUPPORT and statements. The encoding and the decoder are inverse to each other. -/

namespace Sys2Proof.Proofs

open Sys2Proof Sys2Proof.Laws

variable {α β : Type}

/-! ### Fields of bytes -/

/-- The fields of a ModRM or SIB byte, put together and read again (R111). -/
theorem fields_byte233 (hi : BitVec 2) (mid lo : BitVec 3) :
    (byte233 hi mid lo).extractLsb' 6 2 = hi ∧ (byte233 hi mid lo).extractLsb' 3 3 = mid ∧
      (byte233 hi mid lo).extractLsb' 0 3 = lo := by
  have hlow : 3 ≤ 3 := Nat.le_refl 3
  have hhigh : 3 ≤ 6 := by decide
  simp only [byte233, BitVec.extractLsb'_append_eq_of_le hlow, BitVec.extractLsb'_append_eq_of_le hhigh,
    BitVec.extractLsb'_append_eq_right, Nat.reduceSub, BitVec.extractLsb'_eq_self, and_self]

theorem reg_ofBits_toBits (r : Reg) : Reg.ofBits r.toBits = r := by cases r <;> rfl

theorem base16_ofBits_toBits (b : Base16) : Base16.ofBits b.toBits = b := by cases b <;> rfl

/-- Different registers have different numbers (R35). -/
theorem reg_toBits_injective : Function.Injective Reg.toBits := Function.LeftInverse.injective reg_ofBits_toBits

theorem base16_toBits_injective : Function.Injective Base16.toBits :=
  Function.LeftInverse.injective base16_ofBits_toBits

theorem toBits_ne_bp {b : Base16} (h : b ≠ .bp) : b.toBits ≠ 6 := base16_toBits_injective.ne h

theorem toBits_ne_esp {b : Reg} (h : b ≠ .esp) : b.toBits ≠ 4 := reg_toBits_injective.ne h

theorem toBits_ne_ebp {b : Reg} (h : b ≠ .ebp) : b.toBits ≠ 5 := reg_toBits_injective.ne h

/-- The bytes of a word, put together again (R71). -/
theorem word16_byteOf (v : Word16) : word16 (byteOf 16 v 0) (byteOf 16 v 1) = v :=
  (BitVec.extractLsb'_append_extractLsb'_eq_extractLsb' rfl).trans BitVec.extractLsb'_eq_self

/-- The bytes of a doubleword, put together again (R71). -/
theorem dword_byteOf (v : DWord) :
    dword (byteOf 32 v 0) (byteOf 32 v 1) (byteOf 32 v 2) (byteOf 32 v 3) = v := by
  show v.extractLsb' 24 8 ++ v.extractLsb' 16 8 ++ v.extractLsb' 8 8 ++ v.extractLsb' 0 8 = v
  rw [BitVec.extractLsb'_append_extractLsb'_eq_extractLsb' (show 24 = 16 + 8 from rfl),
    BitVec.extractLsb'_append_extractLsb'_eq_extractLsb' (show 16 = 8 + 8 from rfl)]
  exact (BitVec.extractLsb'_append_extractLsb'_eq_extractLsb' rfl).trans BitVec.extractLsb'_eq_self

/-! ### The pieces -/

/-- `d` consumes the bytes `bs` and nothing behind them, and answers `a`. -/
def Reads (d : Dec α) (bs : List Byte) (a : α) : Prop := ∀ rest, d (bs ++ rest) = .ok (a, rest)

section Reads

variable {d : Dec α} {bs bs' : List Byte} {a : α}

theorem reads_pure (a : α) : Reads (pure a : Dec α) [] a := fun _ => rfl

theorem Reads.bind {f : α → Dec β} {b : β} (h : Reads d bs a) (hf : Reads (f a) bs' b) :
    Reads (d >>= f) (bs ++ bs') b := by
  intro rest
  rw [List.append_assoc, dec_bind_ok (h _)]
  exact hf rest

/-- What is left of a decoder that has consumed its last byte only answers. -/
theorem Reads.bind_pure {f : α → Dec β} {b : β} (h : Reads d bs a) (hf : f a = pure b) : Reads (d >>= f) bs b := by
  intro rest
  rw [dec_bind_ok (h _), hf]
  rfl

theorem Reads.map (h : Reads d bs a) (g : α → β) : Reads (g <$> d) bs (g a) :=
  h.bind_pure (f := fun a => pure (g a)) rfl

/-- An announced number of bytes, where that many follow. -/
theorem Reads.need {f : Unit → Dec α} {n : Nat} (hn : n ≤ bs.length) (h : Reads (f ()) bs a) :
    Reads (need n >>= f) bs a := by
  intro rest
  have hneed : Sys2Proof.need n (bs ++ rest) = .ok ((), bs ++ rest) := if_neg (by rw [List.length_append]; omega)
  rw [dec_bind_ok hneed]
  exact h rest

theorem reads_next8 (b : Byte) : Reads next8 [b] b := fun _ => rfl

/-- A byte that decides what follows. -/
theorem Reads.next8 {f : Byte → Dec α} {b : Byte} (h : Reads (f b) bs a) : Reads (next8 >>= f) (b :: bs) a :=
  (reads_next8 b).bind h

theorem reads_next16 (v : Word16) : Reads next16 (bytes16 v) v :=
  .need (Nat.le_refl 2) (.next8 (.next8 fun _ => by rw [word16_byteOf]; rfl))

theorem reads_next32 (v : DWord) : Reads next32 (bytes32 v) v :=
  .need (Nat.le_refl 4) (.next8 (.next8 (.next8 (.next8 fun _ => by rw [dword_byteOf]; rfl))))

end Reads

/-! ### ModRM, SIB and what follows them -/

section Operands

variable {m : Mode} {reg rm : BitVec 3} {md : BitVec 2} {bs : List Byte}

/-- A ModRM byte and the operand that its `mod` and `rm` name (R111). -/
theorem reads_modRm_of {o : RM} (h : Reads (decodeRm m md rm) bs o) :
    Reads (decodeModRm m) (byte233 md reg rm :: bs) (reg, o) := by
  obtain ⟨hmd, hreg, hrm⟩ := fields_byte233 md reg rm
  refine Reads.next8 ?_
  rw [hmd, hreg, hrm]
  exact h.bind_pure rfl

theorem reads_modRm16 {e : Ea16} (ha : m.addr32 = false) (hmd : md ≠ 3) (h : Reads (decodeEa16 md rm) bs e) :
    Reads (decodeModRm m) (byte233 md reg rm :: bs) (reg, .mem (.a16 e)) := by
  refine reads_modRm_of ?_
  rw [decodeRm, if_neg hmd, ha, if_neg (by decide)]
  exact h.map _

theorem reads_modRm32 {e : Ea32} (ha : m.addr32 = true) (hmd : md ≠ 3) (h : Reads (decodeEa32 md rm) bs e) :
    Reads (decodeModRm m) (byte233 md reg rm :: bs) (reg, .mem (.a32 e)) := by
  refine reads_modRm_of ?_
  rw [decodeRm, if_neg hmd, ha, if_pos rfl]
  exact h.map _

/-- A memory operand with 16-bit addressing (log entry 14). -/
theorem reads_ea16 {e : Ea16} (ha : m.addr32 = false) (hw : e.wf = true) :
    Reads (decodeModRm m) (encodeEa16 reg e) (reg, .mem (.a16 e)) := by
  cases e with
  | direct d => exact reads_modRm16 ha (by decide) ((reads_next16 d).map _)
  | ind b =>
    have hbp : b ≠ .bp := by simpa [Ea16.wf] using hw
    refine reads_modRm16 ha (by decide) ?_
    rw [decodeEa16, if_neg (toBits_ne_bp hbp), base16_ofBits_toBits]
    exact reads_pure _
  | ind8 b d =>
    refine reads_modRm16 ha (by decide) ?_
    rw [decodeEa16, base16_ofBits_toBits]
    exact (reads_next8 d).map _
  | ind16 b d =>
    refine reads_modRm16 ha (by decide) ?_
    rw [decodeEa16, base16_ofBits_toBits]
    exact (reads_next16 d).map _

/-- What follows a SIB byte with scale `k`, index `x` and base `b` (log entry 14). -/
def sibTail (md k : BitVec 2) (x b : Reg) : Dec Ea32 :=
  match md.toNat with
  | 0 => if b = .ebp then .sibDirect x k <$> next32 else pure (.sib b x k)
  | 1 => .sib8 b x k <$> next8
  | _ => .sib32 b x k <$> next32

theorem decodeSib_eq (md : BitVec 2) :
    decodeSib md = (do
      need (sibBytes md)
      let s ← next8
      sibTail md (s.extractLsb' 6 2) (.ofBits (s.extractLsb' 3 3)) (.ofBits (s.extractLsb' 0 3))) := rfl

theorem reads_sib {b x : Reg} {k : BitVec 2} {e : Ea32} (ha : m.addr32 = true) (hmd : md ≠ 3)
    (hn : sibBytes md ≤ bs.length + 1) (h : Reads (sibTail md k x b) bs e) :
    Reads (decodeModRm m) (byte233 md reg 4 :: byte233 k x.toBits b.toBits :: bs) (reg, .mem (.a32 e)) := by
  refine reads_modRm32 ha hmd ?_
  rw [decodeEa32, if_pos rfl, decodeSib_eq]
  refine Reads.need hn (Reads.next8 ?_)
  obtain ⟨hk, hx, hb⟩ := fields_byte233 k x.toBits b.toBits
  rw [hk, hx, hb, reg_ofBits_toBits, reg_ofBits_toBits]
  exact h

/-- A memory operand with 32-bit addressing (log entry 14). -/
theorem reads_ea32 {e : Ea32} (ha : m.addr32 = true) (hw : e.wf = true) :
    Reads (decodeModRm m) (encodeEa32 reg e) (reg, .mem (.a32 e)) := by
  cases e with
  | direct d => exact reads_modRm32 ha (by decide) ((reads_next32 d).map _)
  | ind b =>
    simp only [Ea32.wf, Bool.and_eq_true, bne_iff_ne] at hw
    obtain ⟨hsp, hbp⟩ := hw
    refine reads_modRm32 ha (by decide) ?_
    rw [decodeEa32, if_neg (toBits_ne_esp hsp), if_neg (toBits_ne_ebp hbp), reg_ofBits_toBits]
    exact reads_pure _
  | ind8 b d =>
    have hsp : b ≠ .esp := by simpa [Ea32.wf] using hw
    refine reads_modRm32 ha (by decide) ?_
    rw [decodeEa32, if_neg (toBits_ne_esp hsp), reg_ofBits_toBits]
    exact (reads_next8 d).map _
  | ind32 b d =>
    have hsp : b ≠ .esp := by simpa [Ea32.wf] using hw
    refine reads_modRm32 ha (by decide) ?_
    rw [decodeEa32, if_neg (toBits_ne_esp hsp), reg_ofBits_toBits]
    exact (reads_next32 d).map _
  | sib b x k =>
    have hbp : b ≠ .ebp := by simpa [Ea32.wf] using hw
    refine reads_sib ha (by decide) (by decide) ?_
    rw [sibTail, if_neg hbp]
    exact reads_pure _
  | sibDirect x k d => exact reads_sib (b := .ebp) ha (by decide) (Nat.le_add_left 1 4) ((reads_next32 d).map _)
  | sib8 b x k d => exact reads_sib ha (by decide) (Nat.le_refl 2) ((reads_next8 d).map _)
  | sib32 b x k d => exact reads_sib ha (by decide) (Nat.le_refl 5) ((reads_next32 d).map _)

/-- A ModRM byte and what follows it, for every well-formed operand (R111). -/
theorem reads_modRm (reg : BitVec 3) {o : RM} (hw : o.wf m = true) :
    Reads (decodeModRm m) (encodeModRm reg o) (reg, o) := by
  rcases o with r | (e | e)
  · refine reads_modRm_of ?_
    rw [decodeRm, if_pos rfl, reg_ofBits_toBits]
    exact reads_pure _
  · simp only [RM.wf, Ea.wf, Bool.and_eq_true, Bool.not_eq_true'] at hw
    exact reads_ea16 hw.1 hw.2
  · simp only [RM.wf, Ea.wf, Bool.and_eq_true] at hw
    exact reads_ea32 hw.1 hw.2

end Operands

/-! ### Whole instructions -/

section Instructions

variable {m : Mode}

/-- An opcode whose ModRM `reg` field is `reg`, a register's number or an opcode extension (R113). -/
theorem reads_extension {f : BitVec 3 × RM → Dec Instr} {reg : BitVec 3} {o : RM} {i : Instr} (hw : o.wf m = true)
    (hf : f (reg, o) = pure i) : Reads (decodeModRm m >>= f) (encodeModRm reg o) i :=
  (reads_modRm reg hw).bind_pure hf

theorem reads_loadPointer {f : Reg → RM → Instr} {o : RM} (r : Reg) (hw : o.wf m = true) :
    Reads (decodeLoadPointer m f) (encodeModRm r.toBits o) (f r o) :=
  reads_extension hw (by simp only [reg_ofBits_toBits])

/-- An immediate far pointer (R108). -/
theorem reads_farPointer {f : DWord → Word16 → Instr} {off : DWord} (sel : Word16) (hw : farOffsetWf m off = true) :
    Reads (decodeFarPointer m f) (encodeFarOffset m off ++ bytes16 sel) (f off sel) := by
  have hoff : Reads (decodeFarOffset m) (encodeFarOffset m off) off ∧
      (encodeFarOffset m off ++ bytes16 sel).length = if m.op32 then 6 else 4 := by
    unfold decodeFarOffset encodeFarOffset
    cases ho : m.op32 with
    | true => exact ⟨reads_next32 off, rfl⟩
    | false =>
      simp only [farOffsetWf, ho, Bool.false_or, decide_eq_true_eq] at hw
      have hlow : (off.setWidth 16).setWidth 32 = off := by bv_omega
      have h := (reads_next16 (off.setWidth 16)).map fun v => v.setWidth 32
      rw [hlow] at h
      exact ⟨h, rfl⟩
  exact .need (Nat.le_of_eq hoff.2.symm) (hoff.1.bind ((reads_next16 sel).bind_pure rfl))

/-- The decoder reads the encoding of every well-formed instruction. -/
theorem reads_decode {i : Instr} (hw : i.wf m = true) : Reads (decode m) (encode m i) i := by
  cases i with
  | movToSreg | movFromSreg => exact .next8 (reads_extension hw rfl)
  | popEs | popSs | popDs => exact .next8 (reads_pure _)
  | popFs | popGs => exact .next8 (.next8 (reads_pure _))
  | lds r | les r => exact .next8 (reads_loadPointer r hw)
  | lss r | lfs r | lgs r => exact .next8 (.next8 (reads_loadPointer r hw))
  | callPtr _ sel | jmpPtr _ sel => exact .next8 (reads_farPointer sel hw)
  | callMem | jmpMem => exact .next8 (reads_extension hw rfl)
  | retFarImm imm => exact .next8 ((reads_next16 imm).map _)
  | sysenter | sysexit => exact .next8 (.next8 (reads_pure _))
  | int n => exact .next8 ((reads_next8 n).map _)
  | retFar | iret | into | int3 => exact .next8 (reads_pure _)
  | sldt | str | lldt | ltr | sgdt | sidt | lgdt | lidt => exact .next8 (.next8 (reads_extension hw rfl))
  | prefixOperandSize | prefixAddressSize | prefixCs | prefixEs | prefixSs | prefixDs | prefixFs | prefixGs =>
    exact .next8 (reads_pure _)

end Instructions

/-! ### The statements -/

/-- Settles O4: by the cases of the instruction and of its operand, each piece of the decoder consumes what the encoder
wrote for it. -/
theorem decodeOfEncode : Obligations.DecodeOfEncode := fun _ _ rest hw => reads_decode hw rest

/-- Settles O5: what the decoder accepts is spelled by the encoder, opcode by opcode. -/
theorem encodeOfDecode : Obligations.EncodeOfDecode := fun m i bs rest h => spells_decode m bs i rest h

/-- Settles O3: each string is the encoding of its instruction (R109 to R113), and encodings are decoded. -/
theorem specWordsDecode : Obligations.SpecWordsDecode :=
  ⟨decodeOfEncode _ (.movToSreg 3 (.reg .eax)) [] rfl,
    decodeOfEncode _ (.lds .ebx (.mem (.a32 (.direct 0x2000)))) [] rfl,
    decodeOfEncode _ (.callPtr 0x3000 0x0008) [] rfl,
    decodeOfEncode _ (.sgdt (.mem (.a32 (.direct 0x3002)))) [] rfl,
    decodeOfEncode _ (.int 0x80) [] rfl,
    decodeOfEncode _ .prefixOperandSize [] rfl⟩

end Sys2Proof.Proofs
end

section
/-! SUPPORT and statements. What the instructions that store or load a selector or a table register leave, with paging
off; and that an instruction forgets the prefixes before it. -/

namespace Sys2Proof.Proofs

open Sys2Proof Sys2Proof.Machine Sys2Proof.Laws

variable {s t : State}

/-! ### The prefixes after an instruction (R109) -/

/-- Settles O41: only the effect `noted` leaves a byte pending, and a delivery leaves none. -/
theorem prefixesApplyToOneInstruction : Obligations.PrefixesApplyToOneInstruction := by
  intro s t i hi h
  rcases exec_effect h with hd | he
  · obtain ⟨_, _, -, hm⟩ := delivered_moved hd
    rw [hm.same]
  · rcases he.pfx with hp | ⟨hf, -⟩
    · exact hp
    · exact absurd hf (by simp [hi])

/-! ### Where a store can store (R65, R66, R170) -/

/-- A write of one byte that answers stored it, or was dropped. -/
theorem writePhys_ok {who : Writer} {la : DWord} {pa : PhysAddr} {b : Byte} {u : Unit}
    (h : writePhys who la pa b s = .ok (u, t)) : t = s.storeByte pa b ∨ t = s := by
  unfold writePhys at h
  split at h
  · cases h; exact .inl rfl
  · split at h
    · cases h
    · split at h <;> cases h
      exact .inr rfl
  · cases h
  · split at h <;> cases h
    exact .inr rfl

theorem writePhys_away (hw : s.mem.wf = true) {who : Writer} {la : DWord} {x pa : PhysAddr} {b : Byte} {u : Unit}
    (hx : x ≠ pa) (h : writePhys who la pa b s = .ok (u, t)) : t.mem.read x = s.mem.read x := by
  rcases writePhys_ok h with rfl | rfl
  · exact read_write_other b hx hw
  · rfl

theorem writeBytes_away (hw : s.mem.wf = true) {who : Writer} {la la' : DWord} {n : Nat} {bs : List Byte}
    {x : PhysAddr} {u : Unit} (hx : awayFrom la n x = true)
    (h : writeBytes who la' (linearBytes la n) bs s = .ok (u, t)) : t.mem.read x = s.mem.read x := by
  induction n generalizing s la la' bs with
  | zero => cases h; rfl
  | succ n ih =>
    cases bs with
    | nil => cases h; rfl
    | cons b rest =>
      obtain ⟨hfirst, hrest⟩ := awayFrom_succ.1 hx
      obtain ⟨_, m, h1, h2⟩ := bind_ok.1 h
      exact (ih ((writePhys_quiet h1).wf hw) hrest h2).trans (writePhys_away hw hfirst h1)

theorem linWrite_away (hp : s.pagingEnabled = false) (hw : s.mem.wf = true) {who : Writer} {la : DWord} {n v : Nat}
    {cpl : Level} {x : PhysAddr} {u : Unit} (hx : awayFrom la n x = true)
    (h : linWrite who la n v cpl s = .ok (u, t)) : t.mem.read x = s.mem.read x := by
  rw [linWrite, bind_of_ok (physBytes_off hp la n .write cpl)] at h
  exact writeBytes_away hw hx h

/-- A reference that passes its checks has base plus offset as its linear address (R170). -/
theorem translate_ok {cfg : Config} {r : SReg} {c : SegCache} {off n : Nat} {kind : AccessKind} {la : DWord}
    (h : Machine.translate cfg r c off n kind = .ok la) : la = c.base + BitVec.ofNat 32 off := by
  unfold Machine.translate at h
  split at h
  · cases h
  · split at h
    · cases h
    · split at h <;> cases h
      rfl

/-- A store through a segment register leaves every byte but its own alone. -/
theorem segWrite_away (hp : s.pagingEnabled = false) (hw : s.mem.wf = true) {r : SReg} {off n v : Nat} {cpl : Level}
    {x : PhysAddr} {u : Unit} (hx : awayFrom (s.refAddr r off) n x = true)
    (h : segWrite r off n v cpl s = .ok (u, t)) : t.mem.read x = s.mem.read x := by
  rw [segWrite, get_bind] at h
  obtain ⟨la, m, h1, h2⟩ := bind_ok.1 h
  obtain ⟨htr, rfl⟩ := check_ok.1 h1
  obtain ⟨-, h3⟩ := raiseIf_bind_ok.1 h2
  obtain rfl := translate_ok htr
  exact linWrite_away hp hw hx h3

/-! ### A selector or a pseudo-descriptor stored to memory (R107, R200, R252 to R255) -/

/-- Away from `k + n` bytes is away from the first `k` and from the `n` behind them. -/
theorem awayFrom_split {la : DWord} {k n : Nat} {pa : PhysAddr} (h : awayFrom la (k + n) pa = true) :
    awayFrom la k pa = true ∧ awayFrom (la + BitVec.ofNat 32 k) n pa = true := by
  rw [awayFrom_iff] at h
  refine ⟨awayFrom_iff.2 fun j hj => h j (by omega), awayFrom_iff.2 fun j hj => ?_⟩
  rw [BitVec.add_assoc, ← BitVec.ofNat_add]
  exact h (k + j) (by omega)

/-- The linear addresses of a memory operand follow each other (R170). -/
theorem eaAddr_add (s : State) (e : Ea) (k : Nat) : s.eaAddr e 0 + BitVec.ofNat 32 k = s.eaAddr e k := by
  simp only [State.eaAddr, State.refAddr, Nat.add_zero, BitVec.ofNat_add, BitVec.add_assoc]

/-- A change of memory moves no segment. -/
theorem quiet_refAddr (q : Quiet s t) (r : SReg) (off : Nat) : t.refAddr r off = s.refAddr r off := by
  rw [State.refAddr, State.refAddr, q.seg]

theorem writeSelector_mem (e : Ea) (v : Word16) :
    writeSelector (.mem e) v s = segWrite (Ea.segReg s e) (s.eaOff e + 0) 2 v.toNat s.cpl s := rfl

/-- The limit is stored first, then the base two bytes behind it (R107). -/
theorem storeTable_mem (r : TableReg) (e : Ea) :
    storeTable r (.mem e) s = (segWrite (Ea.segReg s e) (s.eaOff e + 0) 2 r.limit.toNat s.cpl >>= fun _ =>
      segWrite (Ea.segReg s e) (s.eaOff e + 2) 4 r.base.toNat s.cpl) s := rfl

theorem writeSelector_away (hp : s.pagingEnabled = false) (hw : s.mem.wf = true) {e : Ea} {v : Word16} {i : Instr}
    {x : PhysAddr} (hx : awayFrom (s.eaAddr e 0) 2 x = true)
    (h : (writeSelector (.mem e) v >>= fun _ => advance i) s = .ok ((), t)) : t.mem.read x = s.mem.read x := by
  obtain ⟨_, m, h1, h2⟩ := bind_ok.1 h
  cases h2
  rw [writeSelector_mem] at h1
  show m.mem.read x = s.mem.read x
  exact segWrite_away hp hw hx h1

theorem storeTable_away (hp : s.pagingEnabled = false) (hw : s.mem.wf = true) {r : TableReg} {e : Ea} {i : Instr}
    {x : PhysAddr} (hx : awayFrom (s.eaAddr e 0) (2 + 4) x = true)
    (h : (storeTable r (.mem e) >>= fun _ => advance i) s = .ok ((), t)) : t.mem.read x = s.mem.read x := by
  obtain ⟨_, m, h1, h2⟩ := bind_ok.1 h
  cases h2
  rw [storeTable_mem] at h1
  obtain ⟨_, k, hlimit, hbase⟩ := bind_ok.1 h1
  obtain ⟨hx2, hx4⟩ := awayFrom_split hx
  have q := segWrite_quiet hlimit
  rw [eaAddr_add, State.eaAddr, ← quiet_refAddr q] at hx4
  exact (segWrite_away (q.pagingEnabled.trans hp) (q.wf hw) hx4 hbase).trans (segWrite_away hp hw hx2 hlimit)

/-- Settles O14: each store writes only the bytes at its own linear address. -/
theorem storeMemoryFrame : Obligations.StoreMemoryFrame := by
  intro s t i e pa hp hn hw h
  have run : ∀ {op : Op Unit}, exec i s = conclude s op → op s = .ok ((), t) := fun he =>
    (conclude_cases (he ▸ h)).resolve_left fun hd => hn hd.1
  refine ⟨?_, ?_⟩
  · rintro (⟨b, rfl⟩ | rfl | rfl) hx
    · have hop := run rfl
      cases hb : SReg.ofBits b with
      | none => simp only [hb] at hop; cases hop
      | some r => simp only [hb] at hop; exact writeSelector_away hp hw hx hop
    · exact writeSelector_away hp hw hx (run rfl)
    · exact writeSelector_away hp hw hx (run rfl)
  · rintro (rfl | rfl) hx
    · exact storeTable_away hp hw hx (run rfl)
    · exact storeTable_away hp hw hx (run rfl)

/-! ### SGDT and SIDT complete (R253, R254) -/

/-- A change of memory leaves a reference as good as it was. -/
theorem quiet_refOk (q : Quiet s t) (r : SReg) (off n : Nat) (kind : AccessKind) (cpl : Level) :
    t.refOk r off n kind cpl = s.refOk r off n kind cpl := by
  simp only [State.refOk, State.refChecked, quiet_refAddr q, State.alignCheckEnabled, q.seg, q.cfg, q.alignMask,
    q.eflags, ramAt_cfg q.cfg, readableAt_cfg q.cfg]

theorem storeTable_off (hp : s.pagingEnabled = false) {e : Ea} (r : TableReg) (h2 : s.eaOk e 0 2 .write = true)
    (h4 : s.eaOk e 2 4 .write = true) :
    storeTable r (.mem e) s =
      .ok ((), (s.storeValue (s.eaAddr e 0) 2 r.limit.toNat).storeValue (s.eaAddr e 2) 4 r.base.toNat) := by
  have q : Quiet s (s.storeValue (s.eaAddr e 0) 2 r.limit.toNat) := storeValue_quiet s _ 2 _
  have hbase := segWrite_off (q.pagingEnabled.trans hp) r.base.toNat ((quiet_refOk q _ _ _ _ _).trans h4)
  rw [quiet_refAddr q] at hbase
  rw [storeTable_mem, bind_of_ok (segWrite_off hp r.limit.toNat h2)]
  exact hbase

/-- Settles O22: the two stores of `storeTable_off`, then the next instruction. -/
theorem tableStoreCompletes : Obligations.TableStoreCompletes := by
  intro s e hp h2 h4
  exact ⟨conclude_of_ok (bind_of_ok (storeTable_off hp s.gdtr h2 h4)),
    conclude_of_ok (bind_of_ok (storeTable_off hp s.idtr h2 h4))⟩

/-! ### The far-pointer loads complete (R202 to R206) -/

theorem loadPointer_off (hp : s.pagingEnabled = false) {r : SReg} {q : Reg} {e : Ea} {i : Instr}
    (he : s.pointerOk e = true) (hl : s.directLoadOk r (s.pointerSel e) = true) :
    loadPointer r q (.mem e) i s =
      .ok ((), ((s.directLoaded r (s.pointerSel e)).regWritten q (s.pointerOff e)).advance i) := by
  have hmem : memOperand (.mem e) s = .ok (e, s) := rfl
  rw [loadPointer, bind_of_ok hmem, bind_of_ok (readFarPointer_off hp he)]
  exact bind_of_ok (loadSeg_off hp hl)

/-- Settles O28: the five instructions differ in the segment register only. -/
theorem farPointerLoadCompletes : Obligations.FarPointerLoadCompletes := by
  intro s q e i r hp hi he hl
  have hexec : exec i s = conclude s (loadPointer r q (.mem e) i) := by
    simp only [List.mem_cons, Prod.mk.injEq, List.not_mem_nil, or_false] at hi
    rcases hi with ⟨rfl, rfl⟩ | ⟨rfl, rfl⟩ | ⟨rfl, rfl⟩ | ⟨rfl, rfl⟩ | ⟨rfl, rfl⟩ <;> rfl
  exact hexec.trans (conclude_of_ok (loadPointer_off hp he hl))

end Sys2Proof.Proofs
end

section
/-! SUPPORT and statements. Where the loads of SS, TR and LDTR and the invalid operand forms stop: each list of checks
as one decision, and the descriptor fetch that fails. -/

namespace Sys2Proof.Proofs

open Sys2Proof Sys2Proof.Machine Sys2Proof.Laws

variable {s : State} {sel : Word16} {d : Descriptor} {cpl : Level} {e : Stop}

/-! ### Checks in a row -/

/-- Two checks that raise the same exception are one. -/
theorem raiseIf_raiseIf {α : Type} {c c' : Bool} {x : Exn} {f : Unit → Op α} :
    (raiseIf c x >>= fun _ => raiseIf c' x >>= f) = (raiseIf (c || c') x >>= f) := by
  cases c <;> rfl

/-- The checks of R193, all but the last of which raise #GP(sel). -/
theorem checkStackDescriptor_run (cfg : Config) :
    checkStackDescriptor cfg cpl sel d s =
      if selRPL sel ≠ cpl ∨ d.s = false ∨ writable d.type = false ∨ d.dpl ≠ cpl then
        .error (.exn (.gp (selCode sel)))
      else if d.p = false then .error (.exn (notPresentSs cfg sel)) else .ok ((), s) := by
  have hcode : (isCode d.type || !writable d.type) = !writable d.type := by
    rw [writable, isData_eq]
    cases isCode d.type <;> rfl
  simp only [checkStackDescriptor, raiseIf_raiseIf, Bool.or_assoc, hcode]
  rw [raiseIf_bind, raiseIf_run]
  exact if_congr (by simp) rfl (if_congr (by simp) rfl rfl)

/-- The checks of R251. -/
theorem checkTssDescriptor_run :
    checkTssDescriptor sel d s =
      if d.s = true ∨ (d.type ≠ 0b0001 ∧ d.type ≠ 0b1001) then .error (.exn (.gp (selCode sel)))
      else if d.p = false then .error (.exn (.np (selCode sel))) else .ok ((), s) := by
  rw [checkTssDescriptor, raiseIf_bind, raiseIf_run]
  exact if_congr (by simp [availableTss]) rfl (if_congr (by simp) rfl rfl)

theorem systemKind_ldt_iff {ty : BitVec 4} : systemKind ty = .ldt ↔ ty = 0b0010 := by
  revert ty; decide

/-- The checks of R258. -/
theorem checkLdtDescriptor_run :
    checkLdtDescriptor sel d s =
      if d.s = true ∨ d.type ≠ 0b0010 then .error (.exn (.gp (selCode sel)))
      else if d.p = false then .error (.exn (.np (selCode sel))) else .ok ((), s) := by
  rw [checkLdtDescriptor, raiseIf_bind, raiseIf_run]
  exact if_congr (by simp [systemKind_ldt_iff]) rfl (if_congr (by simp) rfl rfl)

/-! ### The descriptor fetch (R191) -/

/-- A selector whose table may not be used, or past its limit. -/
theorem fetchDescriptor_past (h : s.inLimit sel = false) :
    fetchDescriptor sel s = .error (.exn (.gp (selCode sel))) := by
  have hpast : (!(s.table sel).2.2 || decide (selIndex sel * 8 + 7 > (s.table sel).2.1.toNat)) = true := by
    cases hv : (s.table sel).2.2
    · rfl
    · simpa [State.inLimit, hv] using h
  rw [fetchDescriptor, get_bind, raiseIf_raiseIf, raiseIf_bind_true hpast]

theorem fetchOk_intro (hl : s.inLimit sel = true) (hr : s.descriptorReadable (s.descriptorAddr sel) = true)
    (hb : (s.named sel).reservedBitSet = false) : s.fetchOk sel = true := by
  rw [State.fetchOk, hl, hr, hb]
  rfl

/-! ### The load of SS (R193) -/

theorem loadSs_null (h : isNull sel = true) : loadSs cpl sel s = .error (.exn (.gp 0)) := by
  rw [loadSs, get_bind, raiseIf_bind_true h]

theorem loadSs_unfetched (hn : isNull sel = false) (h : fetchDescriptor sel s = .error e) :
    loadSs cpl sel s = .error e := by
  rw [loadSs, get_bind, raiseIf_bind_false hn, bind_of_error h]

theorem loadSs_checked (hp : s.pagingEnabled = false) (hn : isNull sel = false) (hf : s.fetchOk sel = true)
    (h : checkStackDescriptor s.cfg cpl sel (s.named sel) s = .error e) : loadSs cpl sel s = .error e := by
  rw [loadSs, get_bind, raiseIf_bind_false hn, bind_of_ok (fetchDescriptor_off hp hf)]
  exact bind_of_error h

theorem loadSeg_ss : loadSeg .ss sel s = loadSs s.cpl sel s := by
  rw [loadSeg, get_bind, if_pos rfl]

/-- MOV to SS from a register is the load and then the next instruction. -/
theorem exec_movToSs (q : Reg) :
    exec (.movToSreg 2 (.reg q)) s =
      conclude s (loadSeg .ss (s.reg16 q) >>= fun _ => advance (.movToSreg 2 (.reg q))) := by
  have hss : SReg.ofBits 2 = some .ss := rfl
  have hread : readRm16 (.reg q) s = .ok (s.reg16 q, s) := rfl
  refine conclude_congr ((bind_of_ok hread).trans ?_)
  simp only [hss]

theorem exec_movToSs_stops {q : Reg} (h : loadSs s.cpl (s.reg16 q) s = .error e) :
    exec (.movToSreg 2 (.reg q)) s = stopped s e := by
  rw [exec_movToSs, conclude_of_error (bind_of_error (loadSeg_ss.trans h))]

/-- Settles O46: the null selector, the fetch, then `checkStackDescriptor_run`; where nothing stops, `loadSs_off`. -/
theorem stackSegmentLoadChecks : Obligations.StackSegmentLoadChecks := by
  intro s q sel d hp hq hd
  subst hq hd
  refine ⟨fun hn => ?_, fun hn hl => ?_, fun hn hl hr hb => ?_, fun hn hl hr hb => ?_⟩
  · exact exec_movToSs_stops (loadSs_null hn)
  · exact exec_movToSs_stops (loadSs_unfetched hn (fetchDescriptor_past hl))
  · exact exec_movToSs_stops (loadSs_unfetched hn (fetchDescriptor_reserved hp hl hr hb))
  · have hf := fetchOk_intro hl hr hb
    refine ⟨fun hbad => ?_, fun hrpl hs hw hdpl hnp => ?_, fun hrpl hs hw hdpl hpr hm => ?_⟩
    · exact exec_movToSs_stops (loadSs_checked hp hn hf ((checkStackDescriptor_run _).trans (if_pos hbad)))
    · refine exec_movToSs_stops (loadSs_checked hp hn hf (e := .exn (notPresentSs _ _)) ?_)
      rw [checkStackDescriptor_run, if_neg (by simp [hrpl, hs, hw, hdpl]), if_pos hnp]
    · have hok : s.ssLoadOk s.cpl (s.reg16 q) = true := by
        simp [State.ssLoadOk, hn, hf, hrpl, hs, hw, hdpl, hpr, hm]
      rw [exec_movToSs]
      exact conclude_of_ok (bind_of_ok (loadSeg_ss.trans (loadSs_off hp hok)))

/-! ### The loads of TR and LDTR (R251, R258) -/

section Global

variable {f : Descriptor × DWord → Op Unit}

/-- LTR and LLDT fetch their descriptor from the GDT only. -/
theorem fetchGlobal_past (h : selTI sel = true ∨ s.inLimit sel = false) :
    (raiseIf (selTI sel) (.gp (selCode sel)) >>= fun _ => fetchDescriptor sel >>= f) s =
      .error (.exn (.gp (selCode sel))) := by
  cases hti : selTI sel with
  | true => rfl
  | false =>
    rw [raiseIf_bind_false rfl]
    exact bind_of_error (fetchDescriptor_past (h.resolve_left (by simp [hti])))

theorem fetchGlobal_reserved (hp : s.pagingEnabled = false) (hti : selTI sel = false) (hl : s.inLimit sel = true)
    (hr : s.descriptorReadable (s.descriptorAddr sel) = true) (hb : (s.named sel).reservedBitSet = true) :
    (raiseIf (selTI sel) (.gp (selCode sel)) >>= fun _ => fetchDescriptor sel >>= f) s =
      .error (.refused .reservedDescriptorBit) := by
  rw [raiseIf_bind_false hti, bind_of_error (fetchDescriptor_reserved hp hl hr hb)]

theorem fetchGlobal_off (hp : s.pagingEnabled = false) (hti : selTI sel = false) (hf : s.fetchOk sel = true) :
    (raiseIf (selTI sel) (.gp (selCode sel)) >>= fun _ => fetchDescriptor sel >>= f) s =
      f (s.named sel, s.descriptorAddr sel) s := by
  rw [raiseIf_bind_false hti, bind_of_ok (fetchDescriptor_off hp hf)]

end Global

theorem loadTr_checked (hp : s.pagingEnabled = false) (hn : isNull sel = false) (hti : selTI sel = false)
    (hf : s.fetchOk sel = true) (h : checkTssDescriptor sel (s.named sel) s = .error e) : loadTr sel s = .error e := by
  rw [loadTr, raiseIf_bind_false hn, fetchGlobal_off hp hti hf]
  exact bind_of_error h

/-- LLDT of a selector that is not null (R258). -/
theorem loadLdtr_selector (hn : isNull sel = false) :
    loadLdtr sel s = (raiseIf (selTI sel) (.gp (selCode sel)) >>= fun _ => fetchDescriptor sel >>= fun p =>
      checkLdtDescriptor sel p.1 >>= fun _ =>
        modify fun s => { s with ldtr := .load s.cfg sel p.1 p.1.type }) s := by
  rw [loadLdtr, if_neg (by simp [hn])]

theorem loadLdtr_checked (hp : s.pagingEnabled = false) (hn : isNull sel = false) (hti : selTI sel = false)
    (hf : s.fetchOk sel = true) (h : checkLdtDescriptor sel (s.named sel) s = .error e) :
    loadLdtr sel s = .error e := by
  rw [loadLdtr_selector hn, fetchGlobal_off hp hti hf]
  exact bind_of_error h

/-- At CPL 0 a register operand leaves only the load to stop. -/
theorem exec_ltr_stops {q : Reg} (hc : s.cpl = 0) (h : loadTr (s.reg16 q) s = .error e) :
    exec (.ltr (.reg q)) s = stopped s e := by
  have hread : readRm16 (.reg q) s = .ok (s.reg16 q, s) := rfl
  refine conclude_of_error ?_
  rw [raiseIf_bind_false (by simp [hc]), bind_of_ok hread]
  exact bind_of_error h

theorem exec_lldt_stops {q : Reg} (hc : s.cpl = 0) (h : loadLdtr (s.reg16 q) s = .error e) :
    exec (.lldt (.reg q)) s = stopped s e := by
  have hread : readRm16 (.reg q) s = .ok (s.reg16 q, s) := rfl
  refine conclude_of_error ?_
  rw [raiseIf_bind_false (by simp [hc]), bind_of_ok hread]
  exact bind_of_error h

/-- Settles O48: the null selector, the fetch from the GDT, then the checks of each descriptor. -/
theorem systemSegmentLoadChecks : Obligations.SystemSegmentLoadChecks := by
  intro s q sel d hp hc hq hd
  subst hq hd
  refine ⟨fun hn => ?_, fun hn hl => ⟨?_, ?_⟩, fun hn hti hl hr hb => ⟨?_, ?_⟩,
    fun hn hti hf => ⟨fun hbad => ?_, fun hbad => ?_, fun hs ht hnp => ?_, fun hs ht hnp => ?_⟩⟩
  · exact exec_ltr_stops hc (raiseIf_bind_true hn)
  · exact exec_ltr_stops hc ((raiseIf_bind_false hn).trans (fetchGlobal_past hl))
  · exact exec_lldt_stops hc ((loadLdtr_selector hn).trans (fetchGlobal_past hl))
  · exact exec_ltr_stops hc ((raiseIf_bind_false hn).trans (fetchGlobal_reserved hp hti hl hr hb))
  · exact exec_lldt_stops hc ((loadLdtr_selector hn).trans (fetchGlobal_reserved hp hti hl hr hb))
  · exact exec_ltr_stops hc (loadTr_checked hp hn hti hf (checkTssDescriptor_run.trans (if_pos hbad)))
  · exact exec_lldt_stops hc (loadLdtr_checked hp hn hti hf (checkLdtDescriptor_run.trans (if_pos hbad)))
  · refine exec_ltr_stops hc (loadTr_checked hp hn hti hf (e := .exn (.np (selCode _))) ?_)
    rw [checkTssDescriptor_run, if_neg (by rw [hs]; tauto), if_pos hnp]
  · refine exec_lldt_stops hc (loadLdtr_checked hp hn hti hf (e := .exn (.np (selCode _))) ?_)
    rw [checkLdtDescriptor_run, if_neg (by simp [hs, ht]), if_pos hnp]

/-! ### Invalid operand forms (R112, R114) -/

/-- The instructions that have no register form stop at `memOperand`, before they read, check or store anything. -/
theorem memoryForms_reg {q p : Reg} {i : Instr}
    (hi : i ∈ [Instr.lds q (.reg p), .les q (.reg p), .lss q (.reg p), .lfs q (.reg p), .lgs q (.reg p),
      .callMem (.reg p), .jmpMem (.reg p), .sgdt (.reg p), .sidt (.reg p), .lgdt (.reg p), .lidt (.reg p)]) :
    exec i s = raised s .ud := by
  simp only [List.mem_cons, List.not_mem_nil, or_false] at hi
  rcases hi with rfl | rfl | rfl | rfl | rfl | rfl | rfl | rfl | rfl | rfl | rfl <;> rfl

/-- Settles O44: a register where memory is needed, and segment registers that R112 does not allow. -/
theorem invalidEncodingsTrap : Obligations.InvalidEncodingsTrap := by
  intro s q p b o
  refine ⟨fun i hi => memoryForms_reg hi, fun hb => ?_, fun hb hp hs => ?_⟩
  · refine conclude_of_error (e := .exn .ud) ?_
    rw [hb]
    rfl
  · refine conclude_of_error (e := .exn .ud) ((bind_of_ok (readRm16_off hp hs)).trans ?_)
    rcases hb with hb | hb <;> rw [hb] <;> rfl

end Sys2Proof.Proofs
end

section
/-! SUPPORT and statements. Where the far transfers and the software interrupts stop, with paging off: the checks on the
target, on a call gate and on a gate of the IDT, each list as one decision. -/

namespace Sys2Proof.Proofs

open Sys2Proof Sys2Proof.Machine Sys2Proof.Laws

variable {s : State} {sel : Word16} {d : Descriptor} {cpl : Level} {e : Stop}

/-! ### The target of a transfer (R194, R294) -/

theorem fetchTarget_null (h : isNull sel = true) : fetchTarget sel s = .error (.exn (.gp 0)) := by
  rw [fetchTarget, raiseIf_bind_true h]

theorem fetchTarget_past (hn : isNull sel = false) (h : s.inLimit sel = false) :
    fetchTarget sel s = .error (.exn (.gp (selCode sel))) := by
  rw [fetchTarget, raiseIf_bind_false hn, fetchDescriptor_past h]

/-- The offset lies past the limit of the target. -/
theorem not_targetInLimit_iff {off : DWord} :
    (!targetInLimit d off) = true ↔ d.effLimit.toNat < off.toNat := by
  simp [targetInLimit]

theorem codePrivilegeOk_eq_true_iff :
    codePrivilegeOk cpl sel d = true ↔
      if conforming d.type then d.dpl ≤ cpl else d.dpl = cpl ∧ selRPL sel ≤ cpl := by
  unfold codePrivilegeOk
  split <;> simp

theorem codePrivilegeOk_eq_false_iff :
    codePrivilegeOk cpl sel d = false ↔
      if conforming d.type then cpl < d.dpl else d.dpl ≠ cpl ∨ cpl < selRPL sel := by
  unfold codePrivilegeOk
  split
  · simp
  · simp [imp_iff_not_or]

/-- The checks of R194 on a descriptor that is no system descriptor. -/
theorem checkCodeDescriptor_run {off : DWord} :
    checkCodeDescriptor cpl sel d off s =
      if isCode d.type = false ∨ codePrivilegeOk cpl sel d = false then .error (.exn (.gp (selCode sel)))
      else if d.p = false then .error (.exn (.np (selCode sel)))
      else if d.effLimit.toNat < off.toNat then .error (.exn (.gp 0)) else .ok ((), s) := by
  simp only [checkCodeDescriptor, raiseIf_raiseIf]
  rw [raiseIf_bind, raiseIf_bind, raiseIf_run]
  exact if_congr (by simp [isData_eq]) rfl (if_congr (by simp) rfl (if_congr not_targetInLimit_iff rfl rfl))

/-- Behind the type and the privilege only presence and the limit are left. -/
theorem checkCodeDescriptor_allowed {off : DWord} (ht : isCode d.type = true) (hq : codePrivilegeOk cpl sel d = true) :
    checkCodeDescriptor cpl sel d off s =
      if d.p = false then .error (.exn (.np (selCode sel)))
      else if d.effLimit.toNat < off.toNat then .error (.exn (.gp 0)) else .ok ((), s) :=
  checkCodeDescriptor_run.trans (if_neg (by simp [ht, hq]))

section FarTransfer

variable {isCall : Bool} {off retPc : DWord}

theorem farTransfer_unfetched (h : fetchTarget sel s = .error e) : farTransfer isCall sel off retPc s = .error e := by
  rw [farTransfer, get_bind, bind_of_error h]

theorem farTransfer_checked (hp : s.pagingEnabled = false) (hn : isNull sel = false) (hf : s.fetchOk sel = true)
    (hs : (s.named sel).s = true) (h : checkCodeDescriptor s.cpl sel (s.named sel) off s = .error e) :
    farTransfer isCall sel off retPc s = .error e := by
  rw [farTransfer, get_bind, bind_of_ok (fetchTarget_off hp hn hf)]
  dsimp only
  rw [if_pos hs, bind_of_error h]

theorem taskKind {ty : BitVec 4} (h : ty ∈ [0b0101#4, 0b0001#4, 0b1001#4, 0b0011#4, 0b1011#4]) :
    systemKind ty = .taskGate ∨ systemKind ty = .tss := by
  revert ty; decide

/-- A task gate or a TSS asks for a task switch (R194, R286). -/
theorem farTransfer_taskSwitch (hp : s.pagingEnabled = false) (hn : isNull sel = false) (hf : s.fetchOk sel = true)
    (hs : (s.named sel).s = false)
    (ht : (s.named sel).type ∈ [0b0101#4, 0b0001#4, 0b1001#4, 0b0011#4, 0b1011#4]) :
    farTransfer isCall sel off retPc s = .error (.refused .taskSwitch) := by
  rw [farTransfer, get_bind, bind_of_ok (fetchTarget_off hp hn hf)]
  dsimp only
  rw [if_neg (by simp [hs])]
  rcases taskKind ht with hk | hk <;> rw [hk] <;> rfl

theorem noTargetKind {ty : BitVec 4}
    (h : ty ∈ [0b0000#4, 0b0010#4, 0b0110#4, 0b0111#4, 0b1000#4, 0b1010#4, 0b1101#4, 0b1110#4, 0b1111#4]) :
    systemKind ty = .ldt ∨ systemKind ty = .interruptGate ∨ systemKind ty = .trapGate ∨
      systemKind ty = .reserved := by
  revert ty; decide

/-- An LDT, a gate of the IDT or a reserved type is no target (R194). -/
theorem farTransfer_noTarget (hp : s.pagingEnabled = false) (hn : isNull sel = false) (hf : s.fetchOk sel = true)
    (hs : (s.named sel).s = false) (ht : (s.named sel).type ∈ [0b0000#4, 0b0010#4, 0b0110#4, 0b0111#4, 0b1000#4,
      0b1010#4, 0b1101#4, 0b1110#4, 0b1111#4]) :
    farTransfer isCall sel off retPc s = .error (.exn (.gp (selCode sel))) := by
  rw [farTransfer, get_bind, bind_of_ok (fetchTarget_off hp hn hf)]
  dsimp only
  rw [if_neg (by simp [hs])]
  rcases noTargetKind ht with hk | hk | hk | hk <;> rw [hk] <;> rfl

end FarTransfer

/-! ### Call gates (R282, R287, R289, R290, R293) -/

theorem callGateKind {ty : BitVec 4} (h : ty ∈ [0b0100#4, 0b1100#4]) : systemKind ty = .callGate := by
  revert ty; decide

theorem refuseTransfer_pass (h : s.cfg.transfers ≠ .named) (k : Transfer) : refuseTransfer k s = .ok ((), s) := by
  rw [refuseTransfer, get_bind, refuseIf_run, if_neg (by simpa using h)]

theorem lt_maxLevel_iff {l a b : Level} : l < maxLevel a b ↔ l < a ∨ l < b := by
  unfold maxLevel
  split <;> bv_omega

/-- The checks on the target that a call gate names, with the limit check behind them. -/
theorem checkGateTarget_run {isCall : Bool} {off : DWord} :
    (checkGateTarget isCall cpl sel d >>= fun _ => raiseIf (!targetInLimit d off) (.gp 0)) s =
      if d.s = false ∨ isCode d.type = false ∨ cpl < d.dpl ∨
          (isCall = false ∧ conforming d.type = false ∧ d.dpl ≠ cpl) then .error (.exn (.gp (selCode sel)))
      else if d.p = false then .error (.exn (.np (selCode sel)))
      else if d.effLimit.toNat < off.toNat then .error (.exn (.gp 0)) else .ok ((), s) := by
  simp only [checkGateTarget, bind_assoc, raiseIf_raiseIf, Bool.or_assoc]
  rw [raiseIf_bind, raiseIf_bind, raiseIf_run]
  refine if_congr ?_ rfl (if_congr (by simp) rfl (if_congr not_targetInLimit_iff rfl rfl))
  simp [isData_eq, and_assoc]

theorem checkGateTarget_allowed {isCall : Bool} {off : DWord} (hs : d.s = true) (ht : isCode d.type = true)
    (hd : d.dpl ≤ cpl) (hcall : isCall = true ∨ conforming d.type = true ∨ d.dpl = cpl) :
    (checkGateTarget isCall cpl sel d >>= fun _ => raiseIf (!targetInLimit d off) (.gp 0)) s =
      if d.p = false then .error (.exn (.np (selCode sel)))
      else if d.effLimit.toNat < off.toNat then .error (.exn (.gp 0)) else .ok ((), s) := by
  refine checkGateTarget_run.trans (if_neg ?_)
  rintro (h | h | h | ⟨h1, h2, h3⟩)
  · simp [hs] at h
  · simp [ht] at h
  · exact BitVec.not_lt.2 hd h
  · simp [h1, h2, h3] at hcall

section CallGate

variable {isCall : Bool} {gate : Descriptor} {retPc : DWord}

theorem callGate_level (hpol : s.cfg.transfers ≠ .named) (h : gate.dpl < s.cpl ∨ gate.dpl < selRPL sel) :
    callGate isCall sel gate retPc s = .error (.exn (.gp (selCode sel))) := by
  rw [callGate, bind_of_ok (refuseTransfer_pass hpol _), get_bind,
    raiseIf_bind_true (decide_eq_true (lt_maxLevel_iff.2 h))]

/-- The gate may be used by this CPL and RPL. -/
theorem gate_levelOk (hc : s.cpl ≤ gate.dpl) (hr : selRPL sel ≤ gate.dpl) :
    decide (maxLevel s.cpl (selRPL sel) > gate.dpl) = false := by
  refine decide_eq_false fun h => ?_
  rcases lt_maxLevel_iff.1 h with h | h <;> bv_omega

theorem callGate_absent (hpol : s.cfg.transfers ≠ .named) (hc : s.cpl ≤ gate.dpl) (hr : selRPL sel ≤ gate.dpl)
    (hpr : gate.p = false) : callGate isCall sel gate retPc s = .error (.exn (.np (selCode sel))) := by
  rw [callGate, bind_of_ok (refuseTransfer_pass hpol _), get_bind, raiseIf_bind_false (gate_levelOk hc hr),
    raiseIf_bind_true (by simp [hpr])]

theorem callGate_unfetched (hpol : s.cfg.transfers ≠ .named) (hc : s.cpl ≤ gate.dpl) (hr : selRPL sel ≤ gate.dpl)
    (hpr : gate.p = true) (h : fetchTarget gate.gateSelector s = .error e) :
    callGate isCall sel gate retPc s = .error e := by
  rw [callGate, bind_of_ok (refuseTransfer_pass hpol _), get_bind, raiseIf_bind_false (gate_levelOk hc hr),
    raiseIf_bind_false (by simp [hpr])]
  exact bind_of_error h

/-- Behind the fetch of its target a gate checks it, then the limit. -/
theorem callGate_checked (hp : s.pagingEnabled = false) (hpol : s.cfg.transfers ≠ .named) (hc : s.cpl ≤ gate.dpl)
    (hr : selRPL sel ≤ gate.dpl) (hpr : gate.p = true) (hn : isNull gate.gateSelector = false)
    (hf : s.fetchOk gate.gateSelector = true)
    (h : (checkGateTarget isCall s.cpl gate.gateSelector (s.named gate.gateSelector) >>= fun _ =>
      raiseIf (!targetInLimit (s.named gate.gateSelector) gate.gateOffset) (.gp 0)) s = .error e) :
    callGate isCall sel gate retPc s = .error e := by
  rw [callGate, bind_of_ok (refuseTransfer_pass hpol _), get_bind, raiseIf_bind_false (gate_levelOk hc hr),
    raiseIf_bind_false (by simp [hpr])]
  refine (bind_of_ok (fetchTarget_off hp hn hf)).trans ?_
  dsimp only
  rw [← bind_assoc, bind_of_error h]

end CallGate

/-! ### The far transfers -/

/-- Settles O47: the fetch of the target, the checks on a code segment, the kinds of system descriptors, and for a call
gate the checks on it and on its own target. -/
theorem farTransferChecks : Obligations.FarTransferChecks := by
  intro s isCall off sel d c i hp hi hd hc
  subst hd hc
  have raises : ∀ x, farTransfer isCall sel off (s.nextPc i) s = .error (.exn x) → exec i s = raised s x :=
    fun x h => (exec_farPointer hp hi).trans (conclude_of_error h)
  have refuses : ∀ r, farTransfer isCall sel off (s.nextPc i) s = .error (.refused r) → exec i s = .refused r :=
    fun r h => (exec_farPointer hp hi).trans (conclude_of_error h)
  refine ⟨fun hn => raises _ (farTransfer_unfetched (fetchTarget_null hn)),
    fun hn hl => raises _ (farTransfer_unfetched (fetchTarget_past hn hl)),
    fun hn hl hr hb => refuses _ (farTransfer_unfetched (fetchTarget_reserved hp hn hl hr hb)), fun hn hf => ?_⟩
  refine ⟨fun hs ht => refuses _ (farTransfer_taskSwitch hp hn hf hs ht),
    fun hs ht => raises _ (farTransfer_noTarget hp hn hf hs ht), fun hs ht => ?_, fun hs ht hq => ?_,
    fun hs ht hq => ?_, fun hs ht hpol => ?_⟩
  · exact raises _ (farTransfer_checked hp hn hf hs (checkCodeDescriptor_run.trans (if_pos (.inl ht))))
  · have hbad := codePrivilegeOk_eq_false_iff.2 hq
    exact raises _ (farTransfer_checked hp hn hf hs (checkCodeDescriptor_run.trans (if_pos (.inr hbad))))
  · have hq := codePrivilegeOk_eq_true_iff.2 hq
    have hrun := checkCodeDescriptor_allowed (s := s) (off := off) ht hq
    refine ⟨fun hnp => ?_, fun hpr hl => ?_⟩
    · exact raises _ (farTransfer_checked hp hn hf hs (hrun.trans (if_pos hnp)))
    · exact raises _ (farTransfer_checked hp hn hf hs (hrun.trans ((if_neg (by simp [hpr])).trans (if_pos hl))))
  · have hgate : farTransfer isCall sel off (s.nextPc i) s = _ := farTransfer_callGate hp hn hf hs (callGateKind ht)
    refine ⟨fun h => raises _ (hgate.trans (callGate_level hpol h)), fun hcl hrl => ⟨?_, ?_, ?_, ?_, ?_⟩⟩
    · exact fun hnp => raises _ (hgate.trans (callGate_absent hpol hcl hrl hnp))
    · exact fun hpr hn' => raises _ (hgate.trans (callGate_unfetched hpol hcl hrl hpr (fetchTarget_null hn')))
    · exact fun hpr hn' hl => raises _ (hgate.trans (callGate_unfetched hpol hcl hrl hpr (fetchTarget_past hn' hl)))
    · exact fun hpr hn' hl hr hb =>
        refuses _ (hgate.trans (callGate_unfetched hpol hcl hrl hpr (fetchTarget_reserved hp hn' hl hr hb)))
    · intro hpr hn' hf'
      have hcheck := fun x h => raises x (hgate.trans (callGate_checked hp hpol hcl hrl hpr hn' hf' h))
      refine ⟨fun hbad => hcheck _ (checkGateTarget_run.trans (if_pos hbad)), fun hs' ht' hd' hcall => ?_⟩
      have hrun := checkGateTarget_allowed (s := s) (sel := (s.named sel).gateSelector)
        (off := (s.named sel).gateOffset) hs' ht' hd' hcall
      refine ⟨fun hnp => hcheck _ (hrun.trans (if_pos hnp)), fun hpr' hl => ?_⟩
      exact hcheck _ (hrun.trans ((if_neg (by simp [hpr'])).trans (if_pos hl)))

end Sys2Proof.Proofs
end

section
/-! SUPPORT and statement. Where INT n, INT3 and INTO stop, with paging off: the checks on the gate of the vector and on
the handler it names. -/

namespace Sys2Proof.Proofs

open Sys2Proof Sys2Proof.Machine Sys2Proof.Laws

variable {s : State} {v : Byte} {e : Stop}

/-! ### The gate of a vector (R213, R260, R293) -/

/-- The IDT may hold interrupt, trap and task gates (R105, R260). -/
theorem isIdtGate_iff {d : Descriptor} :
    d.isIdtGate = true ↔ d.s = false ∧ d.type ∈ [0b0101#4, 0b0110#4, 0b0111#4, 0b1110#4, 0b1111#4] := by
  unfold Descriptor.isIdtGate
  generalize d.s = b
  generalize d.type = ty
  revert b ty
  decide

theorem fetchGate_past (h : s.idtr.limit.toNat < 8 * v.toNat + 7) (software : Bool) :
    fetchGate v software s = .error (.exn (.gp (idtCode v))) := by
  rw [fetchGate, get_bind, raiseIf_bind_true (by simpa using h)]

/-- The checks on a gate that a software interrupt names, once it is read. -/
theorem fetchGate_run (hp : s.pagingEnabled = false) (hr : s.gateReadable v = true) :
    fetchGate v true s =
      if (s.gateAt v).isIdtGate = false ∨ (s.gateAt v).dpl < s.cpl then .error (.exn (.gp (idtCode v)))
      else if (s.gateAt v).p = false then .error (.exn (.np (idtCode v)))
      else if systemKind (s.gateAt v).type = .taskGate then .error (.refused .taskSwitch)
      else .ok (s.gateAt v, s) := by
  simp only [State.gateReadable, Bool.and_eq_true, decide_eq_true_eq] at hr
  obtain ⟨hl, hr⟩ := hr
  have hread : readDescriptor (s.idtr.base + BitVec.ofNat 32 (8 * v.toNat)) s = .ok (s.gateAt v, s) :=
    readDescriptor_off hp hr
  rw [fetchGate, get_bind, raiseIf_bind_false (by simpa using hl), bind_of_ok hread, raiseIf_raiseIf, raiseIf_bind,
    raiseIf_bind]
  refine if_congr (by simp) rfl (if_congr (by simp) rfl ?_)
  by_cases hk : systemKind (s.gateAt v).type = .taskGate
  · rw [if_pos hk, refuseIf_bind_true (by simp [hk])]
  · rw [if_neg hk, refuseIf_bind_false (by simpa using hk)]
    rfl

/-- Interrupt and trap gates are gates of the IDT and no task gates (R105). -/
theorem handlerGateKind {ty : BitVec 4} (h : ty ∈ [0b0110#4, 0b0111#4, 0b1110#4, 0b1111#4]) :
    ty ∈ [0b0101#4, 0b0110#4, 0b0111#4, 0b1110#4, 0b1111#4] ∧ systemKind ty ≠ .taskGate := by
  revert ty; decide

/-- A present interrupt or trap gate that the CPL may use passes. -/
theorem fetchGate_off (hp : s.pagingEnabled = false) (hr : s.gateReadable v = true) (hs : (s.gateAt v).s = false)
    (ht : (s.gateAt v).type ∈ [0b0110#4, 0b0111#4, 0b1110#4, 0b1111#4]) (hd : s.cpl ≤ (s.gateAt v).dpl)
    (hpr : (s.gateAt v).p = true) : fetchGate v true s = .ok (s.gateAt v, s) := by
  obtain ⟨hidt, hk⟩ := handlerGateKind ht
  have hgate : (s.gateAt v).isIdtGate = true := isIdtGate_iff.2 ⟨hs, hidt⟩
  rw [fetchGate_run hp hr, if_neg (by simp [hgate, BitVec.not_lt.2 hd]), if_neg (by simp [hpr]), if_neg hk]

/-! ### The handler (R290, R313) -/

theorem checkHandler_run {cpl : Level} {sel : Word16} {d : Descriptor} {off : DWord} :
    checkHandler cpl sel d off s =
      if d.s = false ∨ isCode d.type = false ∨ cpl < d.dpl then .error (.exn (.gp (selCode sel)))
      else if d.p = false then .error (.exn (.np (selCode sel)))
      else if d.effLimit.toNat < off.toNat then .error (.exn (.gp 0)) else .ok ((), s) := by
  simp only [checkHandler, raiseIf_raiseIf, Bool.or_assoc]
  rw [raiseIf_bind, raiseIf_bind, raiseIf_run]
  exact if_congr (by simp [isData_eq]) rfl (if_congr (by simp) rfl (if_congr not_targetInLimit_iff rfl rfl))

theorem checkHandler_allowed {cpl : Level} {sel : Word16} {d : Descriptor} {off : DWord} (hs : d.s = true)
    (ht : isCode d.type = true) (hd : d.dpl ≤ cpl) :
    checkHandler cpl sel d off s =
      if d.p = false then .error (.exn (.np (selCode sel)))
      else if d.effLimit.toNat < off.toNat then .error (.exn (.gp 0)) else .ok ((), s) :=
  checkHandler_run.trans (if_neg (by simp [hs, ht, BitVec.not_lt.2 hd]))

section TakeEvent

variable {software : Bool} {code : Option Nat} {retPc : DWord} {gate : Descriptor}

theorem takeEvent_noGate (h : fetchGate v software s = .error e) : takeEvent v software code retPc s = .error e :=
  bind_of_error h

theorem takeEvent_unfetched (hg : fetchGate v software s = .ok (gate, s))
    (h : fetchTarget gate.gateSelector s = .error e) : takeEvent v software code retPc s = .error e := by
  rw [takeEvent, bind_of_ok hg, get_bind]
  exact bind_of_error h

theorem takeEvent_checked (hp : s.pagingEnabled = false) (hg : fetchGate v software s = .ok (gate, s))
    (hn : isNull gate.gateSelector = false) (hf : s.fetchOk gate.gateSelector = true)
    (h : checkHandler s.cpl gate.gateSelector (s.named gate.gateSelector) gate.gateOffset s = .error e) :
    takeEvent v software code retPc s = .error e := by
  rw [takeEvent, bind_of_ok hg, get_bind]
  refine (bind_of_ok (fetchTarget_off hp hn hf)).trans ?_
  exact bind_of_error h

end TakeEvent

/-! ### The software interrupts -/

/-- Settles O60: the checks on the gate by `fetchGate_run`, then the fetch of the handler and `checkHandler_run`. -/
theorem interruptGateChecks : Obligations.InterruptGateChecks := by
  intro s n v i g c h code hp hpol hi ho hg hh hc hcode
  subst hg hh hc hcode
  have raises : ∀ x, takeEvent v true none (s.nextPc i) s = .error (.exn x) → exec i s = raised s x :=
    fun x h => (exec_softwareInterrupt hpol hi ho).trans (conclude_of_error h)
  have refuses : ∀ r, takeEvent v true none (s.nextPc i) s = .error (.refused r) → exec i s = .refused r :=
    fun r h => (exec_softwareInterrupt hpol hi ho).trans (conclude_of_error h)
  refine ⟨fun hl => raises _ (takeEvent_noGate (fetchGate_past hl true)), fun hr => ?_⟩
  have hrun := fetchGate_run hp hr
  refine ⟨fun hbad => ?_, fun hs ht => ⟨fun hd => ?_, fun hd hnp => ?_⟩, fun hs ht hd hpr => ?_⟩
  · have hgate : (s.gateAt v).isIdtGate = false := by
      rw [← Bool.not_eq_true, isIdtGate_iff]
      rintro ⟨hs, ht⟩
      exact hbad.elim (by simp [hs]) fun hk => hk ht
    exact raises _ (takeEvent_noGate (hrun.trans (if_pos (.inl hgate))))
  · exact raises _ (takeEvent_noGate (hrun.trans (if_pos (.inr hd))))
  · have hgate : (s.gateAt v).isIdtGate = true := isIdtGate_iff.2 ⟨hs, ht⟩
    have hpass := hrun.trans (if_neg (by simp [hgate, BitVec.not_lt.2 hd]))
    exact raises _ (takeEvent_noGate (hpass.trans (if_pos hnp)))
  · have hgate := fetchGate_off hp hr hs ht hd hpr
    refine ⟨fun hn => raises _ (takeEvent_unfetched hgate (fetchTarget_null hn)),
      fun hn hl => raises _ (takeEvent_unfetched hgate (fetchTarget_past hn hl)),
      fun hn hl hm hb => refuses _ (takeEvent_unfetched hgate (fetchTarget_reserved hp hn hl hm hb)), fun hn hf => ?_⟩
    have hcheck := fun x h => raises x (takeEvent_checked hp hgate hn hf h)
    refine ⟨fun hbad => hcheck _ (checkHandler_run.trans (if_pos hbad)), fun hs' ht' hd' hnp => ?_,
      fun hs' ht' hd' hpr' hl => ?_⟩
    · exact hcheck _ ((checkHandler_allowed hs' ht' hd').trans (if_pos hnp))
    · exact hcheck _ ((checkHandler_allowed hs' ht' hd').trans ((if_neg (by simp [hpr'])).trans (if_pos hl)))

end Sys2Proof.Proofs
end

section
/-! SUPPORT and statements. The effective limit, and what a reference through a segment register answers. -/

namespace Sys2Proof.Proofs

open Sys2Proof Sys2Proof.Machine Sys2Proof.Laws

variable {cfg : Config} {r : SReg} {c : SegCache} {off n : Nat} {kind : AccessKind}

/-! ### The effective limit (R165) -/

theorem effLimit_toNat (g : Bool) (limit : BitVec 20) :
    (effLimit g limit).toNat = if g then limit.toNat * 4096 + 4095 else limit.toNat := by
  cases g
  · exact BitVec.toNat_setWidth_of_le (show 20 ≤ 32 by decide)
  · rw [if_pos rfl]
    calc (limit ++ (0xFFF : BitVec 12)).toNat
        = limit.toNat <<< 12 ||| 4095 := BitVec.toNat_append limit _
      _ = limit.toNat <<< 12 + 4095 := (Nat.shiftLeft_add_eq_or_of_lt (show 4095 < 2 ^ 12 by decide) _).symm
      _ = limit.toNat * 4096 + 4095 := by rw [Nat.shiftLeft_eq]

/-- Settles O52: the limit is the upper 20 bits of the effective one, whose low 12 bits are ones. -/
theorem effectiveLimitValue : Obligations.EffectiveLimitValue := by
  intro g limit off
  refine ⟨effLimit_toNat g limit, ?_⟩
  have hpage : (off.extractLsb' 12 20).toNat = off.toNat / 4096 := by
    have hoff := off.isLt
    rw [BitVec.extractLsb'_toNat, Nat.shiftRight_eq_div_pow]
    omega
  rw [hpage, effLimit_toNat, if_pos rfl]
  omega

/-! ### The segment step as one decision (R164, R168 to R171) -/

/-- Settles O53: the valid bit is tested first. -/
theorem nullSegmentReferenceTraps : Obligations.NullSegmentReferenceTraps := by
  intro cfg r c off n kind hv
  rw [Machine.translate, hv]
  rfl

/-- Behind the valid bit, a limit violation and a type violation raise the same exception. -/
theorem translate_valid (hv : c.valid = true) :
    Machine.translate cfg r c off n kind =
      if limitOk cfg c off n = true ∧ typeOk c kind = true then .ok (c.base + BitVec.ofNat 32 off)
      else .error (segFault r) := by
  rw [Machine.translate, hv]
  cases limitOk cfg c off n <;> cases typeOk c kind <;> rfl

theorem typeOk_iff :
    typeOk c kind = true ↔ (kind = .write → writable c.type = true) ∧ (kind = .read → readable c.type = true) := by
  cases kind <;> simp [typeOk]

/-- A data segment may be read (R169). -/
theorem readable_of_data {ty : BitVec 4} (h : isCode ty = false) : readable ty = true := by
  rw [readable, isData_eq, h]
  rfl

/-! ### The limit checks (R166, R167) -/

/-- Expand-down is bit 2 of the type of a data segment (R104). -/
theorem expandDown_eq_false_iff {ty : BitVec 4} :
    expandDown ty = false ↔ isCode ty = true ∨ ty.getLsbD 2 = false := by
  rw [expandDown, isData_eq, Bool.and_eq_false_iff, Bool.not_eq_false']

/-- The last byte of an access lies below `k` exactly if the access ends there. -/
theorem lastByte_le_iff {k : Nat} (hn : 1 ≤ n) : off + (n - 1) ≤ k ↔ off + n ≤ k + 1 := by
  omega

theorem limitOk_expandUp (h : expandDown c.type = false) (hn : 1 ≤ n) :
    limitOk cfg c off n = true ↔ off + n ≤ c.effLimit.toNat + 1 := by
  rw [limitOk, h, if_neg (by simp), expandUpOk, decide_eq_true_iff, lastByte_le_iff hn]

/-- With G = 1 the inclusive reading compares pages (R165, R167). -/
theorem limitOk_expandDown (h : expandDown c.type = true) (hn : 1 ≤ n) :
    limitOk cfg c off n = true ↔
      (if cfg.expandDownLimitInclusive then
          (if c.g then c.limit.toNat * 4096 ≤ off else c.limit.toNat ≤ off)
        else c.effLimit.toNat < off) ∧
        off + n ≤ if c.db then 2 ^ 32 else 2 ^ 16 := by
  have hupper : off + (n - 1) ≤ (if c.db then 0xFFFFFFFF else 0x0000FFFF) ↔
      off + n ≤ if c.db then 2 ^ 32 else 2 ^ 16 := by
    cases c.db <;> exact lastByte_le_iff hn
  rw [limitOk, if_pos h, expandDownOk, Bool.and_eq_true, decide_eq_true_iff, hupper]
  refine and_congr_left' ?_
  cases cfg.expandDownLimitInclusive
  · exact decide_eq_true_iff
  · cases c.g
    · exact decide_eq_true_iff
    · exact decide_eq_true_iff.trans (Nat.le_div_iff_mul_le (by decide))

/-! ### The statements -/

/-- Settles O54: the limit check of R166 and the type check. -/
theorem expandUpReference : Obligations.ExpandUpReference := by
  intro cfg r c off n kind hv hn ht
  rw [translate_valid hv]
  exact if_congr (and_congr (limitOk_expandUp (expandDown_eq_false_iff.2 ht) hn) typeOk_iff) rfl rfl

/-- Settles O55: the limit check of R167 and the type check, which lets a data segment be read. -/
theorem expandDownReference : Obligations.ExpandDownReference := by
  intro cfg r c off n kind hv hn hc hb
  have hdown : expandDown c.type = true := by rw [expandDown, isData_eq, hc, hb]; rfl
  have htype : typeOk c kind = true ↔ (kind = .write → writable c.type = true) :=
    typeOk_iff.trans (and_iff_left fun _ => readable_of_data hc)
  rw [translate_valid hv]
  refine if_congr ?_ rfl rfl
  rw [limitOk_expandDown hdown hn, htype, and_assoc]

end Sys2Proof.Proofs
end

section
/-! SUPPORT and statement. POP of a segment register completes, with paging off. -/

namespace Sys2Proof.Proofs

open Sys2Proof Sys2Proof.Machine Sys2Proof.Laws

variable {s : State}

/-! ### POP of a segment register (R201) -/

theorem popSeg_off (hp : s.pagingEnabled = false) {r : SReg} {i : Instr} (ht : s.topOk s.opBytes = true)
    (hl : s.directLoadOk r (BitVec.ofNat 16 (s.topValue s.opBytes)) = true) :
    popSeg r i s = .ok ((), ((s.directLoaded r (BitVec.ofNat 16 (s.topValue s.opBytes))).setStackPtr s.ss.db
      (s.stackMoved (BitVec.ofNat 32 s.opBytes))).advance i) := by
  rw [popSeg, get_bind, bind_of_ok (stackTop_off hp ht)]
  exact bind_of_ok (loadSeg_off hp hl)

/-- Settles O27: the five instructions differ in the segment register only. -/
theorem popSegmentRegisterCompletes : Obligations.PopSegmentRegisterCompletes := by
  intro s i r hp hi ht hl
  have hexec : exec i s = conclude s (popSeg r i) := by
    simp only [List.mem_cons, Prod.mk.injEq, List.not_mem_nil, or_false] at hi
    rcases hi with ⟨rfl, rfl⟩ | ⟨rfl, rfl⟩ | ⟨rfl, rfl⟩ | ⟨rfl, rfl⟩ | ⟨rfl, rfl⟩ <;> rfl
  exact hexec.trans (conclude_of_ok (popSeg_off hp ht hl))

end Sys2Proof.Proofs
end

section
/-! SUPPORT and statement. Where the pushes and the accessed bit of a direct far transfer can store, with paging off. -/

namespace Sys2Proof.Proofs

open Sys2Proof Sys2Proof.Machine Sys2Proof.Laws

variable {s t : State}

/-! ### Where pushes store (R172) -/

theorem pushed_ss (s : State) (n v : Nat) : (s.pushed n v).ss = s.ss := by
  rw [State.pushed, setStackPtr_ss, (storeValue_quiet s _ n v).ss]

theorem pushed_esp (s : State) (n v : Nat) : (s.pushed n v).gpr.esp = espMoved s (-(BitVec.ofNat 32 n)) := by
  have q := storeValue_quiet s (s.refAddr .ss (s.pushPtr n).toNat) n v
  rw [State.pushed, ← q.ss]
  exact setStackPtr_stackMoved q _

/-- The slots of pushes are found from SS and ESP alone. -/
theorem pushSlots_congr (hss : t.ss = s.ss) (hesp : t.gpr.esp = s.gpr.esp) (n : Nat) (vs : List Nat) :
    t.pushSlots n vs = s.pushSlots n vs := by
  induction vs generalizing s t with
  | nil => rfl
  | cons v rest ih =>
    have hptr : t.pushPtr n = s.pushPtr n := by
      rw [State.pushPtr, State.pushPtr, stackMoved_eq, stackMoved_eq, hss, hesp]
    have hslot : t.refAddr .ss (t.pushPtr n).toNat = s.refAddr .ss (s.pushPtr n).toNat := by
      simp only [State.refAddr, State.seg, hss, hptr]
    have hrest : (t.pushed n v).pushSlots n rest = (s.pushed n v).pushSlots n rest := by
      refine ih ?_ ?_
      · rw [pushed_ss, pushed_ss, hss]
      · rw [pushed_esp, pushed_esp, espMoved, espMoved, hss, hesp]
    rw [State.pushSlots, State.pushSlots, hslot, hrest]

theorem push_away (hp : s.pagingEnabled = false) (hw : s.mem.wf = true) {cpl : Level} {n v : Nat} {x : PhysAddr}
    (hx : awayFrom (s.refAddr .ss (s.pushPtr n).toNat) n x = true) (h : push cpl n v s = .ok ((), t)) :
    t.mem.read x = s.mem.read x := by
  rw [push, get_bind] at h
  obtain ⟨_, m, h1, h2⟩ := bind_ok.1 h
  cases h2
  rw [setStackPtr_mem]
  exact segWrite_away hp hw hx h1

/-- Pushes leave every byte outside their slots alone. -/
theorem pushAll_away (hp : s.pagingEnabled = false) (hw : s.mem.wf = true) {cpl : Level} {n : Nat} {vs : List Nat}
    {x : PhysAddr} (hx : ∀ a ∈ s.pushSlots n vs, awayFrom a n x = true) (h : pushAll cpl n vs s = .ok ((), t)) :
    t.mem.read x = s.mem.read x := by
  induction vs generalizing s with
  | nil => cases h; rfl
  | cons v rest ih =>
    obtain ⟨_, m, h1, h2⟩ := bind_ok.1 h
    have k := push_ok h1
    have hslots : m.pushSlots n rest = (s.pushed n v).pushSlots n rest :=
      pushSlots_congr (k.ss.trans (pushed_ss s n v).symm) ((push_esp h1).trans (pushed_esp s n v).symm) n rest
    obtain ⟨hfirst, hrest⟩ := List.forall_mem_cons.1 hx
    calc t.mem.read x = m.mem.read x := ih (by rw [k.same]; exact hp) (k.wf hw) (hslots ▸ hrest) h2
      _ = s.mem.read x := push_away hp hw hfirst h1

/-- CS and a return address are pushed as two words are. -/
theorem pushReturn_eq_pushAll (cpl : Level) (n : Nat) (retPc : DWord) :
    pushReturn cpl n retPc s = pushAll cpl n (s.returnWords retPc) s := by
  rw [pushReturn, get_bind, State.returnWords, pushAll, pushAll, pushAll]
  simp only [bind_pure_comp, id_map']

/-! ### Where the accessed bit is stored (R195) -/

theorem steps_linRead_mem (la : DWord) (n : Nat) (cpl : Level) : Steps MemoryKept (linRead la n cpl) :=
  memoryKept_chain.bind (steps_physBytes_off _ _ _ _) fun _ =>
    memoryKept_chain.bind (steps_readBytes_mem _) fun _ => memoryKept_chain.pure _

theorem setAccessByte_away (hp : s.pagingEnabled = false) (hw : s.mem.wf = true) {addr : DWord} {bits : Byte}
    {x : PhysAddr} {u : Unit} (hx : awayFrom (addr + 5) 1 x = true) (h : setAccessByte addr bits s = .ok (u, t)) :
    t.mem.read x = s.mem.read x := by
  obtain ⟨_, m, h1, h2⟩ := bind_ok.1 h
  obtain ⟨hmem, hpm⟩ := steps_linRead_mem _ _ _ _ _ _ h1 hp
  rw [← hmem]
  exact linWrite_away hpm (hmem ▸ hw) hx h2

theorem setAccessed_away (hp : s.pagingEnabled = false) (hw : s.mem.wf = true) {d : Descriptor} {addr : DWord}
    {x : PhysAddr} {u : Unit} (hx : awayFrom (addr + 5) 1 x = true) (h : setAccessed d addr s = .ok (u, t)) :
    t.mem.read x = s.mem.read x := by
  unfold setAccessed at h
  split at h
  · cases h; rfl
  · exact setAccessByte_away hp hw hx h

theorem commitCs_away (hp : s.pagingEnabled = false) (hw : s.mem.wf = true) {cpl : Level} {sel : Word16}
    {d : Descriptor} {addr newPc : DWord} {x : PhysAddr} (hx : awayFrom (addr + 5) 1 x = true)
    (h : commitCs cpl sel d addr newPc s = .ok ((), t)) : t.mem.read x = s.mem.read x := by
  obtain ⟨_, m, h1, h2⟩ := bind_ok.1 h
  cases h2
  show m.mem.read x = s.mem.read x
  exact setAccessed_away hp hw hx h1

/-! ### Direct far transfers (R207, R208) -/

theorem farTransfer_away (hp : s.pagingEnabled = false) (hw : s.mem.wf = true) {isCall : Bool} {sel : Word16}
    {off retPc : DWord} {x : PhysAddr} (hf : s.fetchOk sel = true) (hs : (s.named sel).s = true)
    (hx : awayFrom (s.accessByte sel) 1 x = true)
    (hslots : isCall = true → ∀ a ∈ s.pushSlots s.opBytes (s.returnWords retPc), awayFrom a s.opBytes x = true)
    (h : farTransfer isCall sel off retPc s = .ok ((), t)) : t.mem.read x = s.mem.read x := by
  have hn : isNull sel = false := by
    cases hn : isNull sel with
    | false => rfl
    | true => cases (farTransfer_unfetched (fetchTarget_null hn)).symm.trans h
  rw [farTransfer, get_bind, bind_of_ok (fetchTarget_off hp hn hf)] at h
  dsimp only at h
  rw [if_pos hs] at h
  obtain ⟨_, m, hcheck, h⟩ := bind_ok.1 h
  obtain ⟨rfl, -⟩ := checkCodeDescriptor_ok hcheck
  cases isCall with
  | false => exact commitCs_away hp hw hx h
  | true =>
    obtain ⟨_, k, hpush, hcommit⟩ := bind_ok.1 h
    have q := pushReturn_ok hpush
    rw [pushReturn_eq_pushAll] at hpush
    calc t.mem.read x = k.mem.read x := commitCs_away (by rw [q.same]; exact hp) (q.wf hw) hx hcommit
      _ = m.mem.read x := pushAll_away hp hw (hslots rfl) hpush

/-- Settles O16: the pushes of a CALL, then the accessed bit. -/
theorem directTransferMemoryFrame : Obligations.DirectTransferMemoryFrame := by
  intro s t i isCall off sel x hp hn hw hi hf hs hx h hslots
  rw [exec_farPointer hp hi] at h
  exact farTransfer_away hp hw hf hs hx hslots ((conclude_cases h).resolve_left fun hd => hn hd.1)

end Sys2Proof.Proofs
end

section
/-! SUPPORT and statements. What the stores of a selector, MOV to a segment register, the far transfers, the returns and
the software interrupts answer where they complete, with paging off; and a return to an inner level. -/

namespace Sys2Proof.Proofs

open Sys2Proof Sys2Proof.Machine Sys2Proof.Laws

variable {s : State}

/-! ### A selector stored (R200, R252, R255) -/

theorem storeSelector_off (hp : s.pagingEnabled = false) {dst : RM} (v : Word16) (i : Instr)
    (hd : s.destOk dst = true) :
    conclude s (writeSelector dst v >>= fun _ => advance i) = .next ((s.destWritten v dst).advance i) :=
  conclude_of_ok (bind_of_ok (writeSelector_off hp v hd))

/-- MOV from one of the six segment registers is the store of its selector. -/
theorem exec_movFromSreg {b : BitVec 3} {r : SReg} (hb : SReg.ofBits b = some r) (dst : RM) :
    exec (.movFromSreg b dst) s =
      conclude s (writeSelector dst (s.seg r).sel >>= fun _ => advance (.movFromSreg b dst)) := by
  change conclude s _ = _
  simp only [hb]

/-- Settles O21: the three instructions differ in the selector only. -/
theorem selectorStoreCompletes : Obligations.SelectorStoreCompletes := by
  intro s b r dst hp hd
  refine ⟨fun hb => ?_, storeSelector_off hp _ _ hd, storeSelector_off hp _ _ hd⟩
  rw [exec_movFromSreg hb]
  exact storeSelector_off hp _ _ hd

/-! ### MOV to a segment register (R199) -/

/-- MOV to a segment register other than CS loads the selector it reads. -/
theorem exec_movToSreg (hp : s.pagingEnabled = false) {b : BitVec 3} {r : SReg} {src : RM}
    (hb : SReg.ofBits b = some r) (hr : r ≠ .cs) (hs : s.sourceOk src = true) :
    exec (.movToSreg b src) s =
      conclude s (loadSeg r (s.sourceValue src) >>= fun _ => advance (.movToSreg b src)) := by
  refine conclude_congr ((bind_of_ok (readRm16_off hp hs)).trans ?_)
  cases r with
  | cs => exact absurd rfl hr
  | es | ss | ds | fs | gs => simp only [hb]

/-- Settles O26: `loadSeg_off` for the selector read, then the next instruction. -/
theorem movToSegmentRegisterCompletes : Obligations.MovToSegmentRegisterCompletes := by
  intro s b r src hp hb hr hs hl
  rw [exec_movToSreg hp hb hr hs]
  exact conclude_of_ok (bind_of_ok (loadSeg_off hp hl))

/-! ### Direct far transfers (R207, R208) -/

theorem exec_jump_off (hp : s.pagingEnabled = false) {i : Instr} {off : DWord} {sel : Word16}
    (hi : s.farPointerOf false i = some (off, sel)) (h : s.codeTargetOk s.cpl sel off = true) :
    exec i s = .next (s.transferred s.cpl sel (s.named sel) (s.descriptorAddr sel) off) := by
  rw [exec_farPointer hp hi]
  exact conclude_of_ok (farTransfer_off hp _ h (fun hf => nomatch hf))

theorem exec_call_off (hp : s.pagingEnabled = false) {i : Instr} {off : DWord} {sel : Word16}
    (hi : s.farPointerOf true i = some (off, sel)) (hpush : s.pushReturnOk s.cpl s.opBytes = true)
    (h : s.codeTargetOk s.cpl sel off = true) :
    exec i s = .next ((s.returnPushed s.opBytes (s.nextPc i)).transferred s.cpl sel (s.named sel)
      (s.descriptorAddr sel) off) := by
  rw [exec_farPointer hp hi]
  exact conclude_of_ok (farTransfer_off hp _ h (fun _ => hpush))

theorem farPointerOf_jmpMem {e : Ea} (he : s.pointerOk e = true) :
    s.farPointerOf false (.jmpMem (.mem e)) = some (s.pointerOff e, s.pointerSel e) := by
  simp [State.farPointerOf, he]

theorem farPointerOf_callMem {e : Ea} (he : s.pointerOk e = true) :
    s.farPointerOf true (.callMem (.mem e)) = some (s.pointerOff e, s.pointerSel e) := by
  simp [State.farPointerOf, he]

/-- Settles O30: the immediate pointer and the one in memory by one lemma. -/
theorem directJumpCompletes : Obligations.DirectJumpCompletes := by
  intro s off sel e hp
  refine ⟨fun h => exec_jump_off hp rfl h, fun he hsel h => ?_⟩
  subst hsel
  exact exec_jump_off hp (farPointerOf_jmpMem he) h

/-- Settles O31: as O30, with the return address pushed before CS is loaded. -/
theorem directCallCompletes : Obligations.DirectCallCompletes := by
  intro s off sel e hp hpush
  refine ⟨fun h => exec_call_off hp rfl hpush h, fun he hsel h => ?_⟩
  subst hsel
  exact exec_call_off hp (farPointerOf_callMem he) hpush h

/-! ### Returns (R209, R212) -/

/-- Settles O33: RET is RET with nothing to release. -/
theorem sameLevelReturnCompletes : Obligations.SameLevelReturnCompletes := by
  intro s imm hp h
  exact ⟨conclude_of_ok (farReturn_same hp h), conclude_of_ok (farReturn_same hp h)⟩

/-- Settles O34: as O33, to an outer level. -/
theorem outerReturnCompletes : Obligations.OuterReturnCompletes := by
  intro s imm hp
  exact ⟨fun h => conclude_of_ok (farReturn_outer hp h), fun h => conclude_of_ok (farReturn_outer hp h)⟩

/-- Settles O35: the two ways of `interruptReturn`. -/
theorem interruptReturnCompletes : Obligations.InterruptReturnCompletes := by
  intro s hp hn htop
  exact ⟨fun h => conclude_of_ok (interruptReturn_same hp hn htop h),
    fun h => conclude_of_ok (interruptReturn_outer hp hn htop h)⟩

/-- A selector whose RPL is below the CPL is the first thing a return refuses (R209; for IRET log entry 37). -/
theorem returnTo_inward {n : Nat} {sel : Word16} {newPc k : DWord} (h : selRPL sel < s.cpl) :
    returnTo n sel newPc k s = .error (.exn (.gp (selCode sel))) := by
  rw [returnTo, get_bind, raiseIf_bind_true (by simpa using h)]

/-- Settles O49: the operands are popped, and `returnTo` stops. -/
theorem inwardReturnTraps : Obligations.InwardReturnTraps := by
  intro s imm hp h1 h2 hr
  have far : ∀ k, farReturn k s = .error (.exn (.gp (selCode (s.returnSel s.opBytes)))) := fun k =>
    (farReturn_popped hp k h1 h2).trans (returnTo_inward (by simpa only [State.popped, released_cpl] using hr))
  refine ⟨conclude_of_error (far _), conclude_of_error (far _), fun hn h3 => ?_⟩
  refine conclude_of_error (e := .exn (.gp (selCode _))) (interruptReturn_stops hp hn h1 h2 h3 (returnTo_inward ?_))
  simpa only [State.popped, released_cpl] using hr

/-! ### Software interrupts (R213 to R215) -/

theorem exec_into_no_overflow (h : s.overflowFlag = false) : exec .into s = .next (s.advance .into) := by
  refine conclude_of_ok ?_
  rw [if_neg (by simp [h])]
  rfl

theorem exec_softwareInterrupt_off (hp : s.pagingEnabled = false) (hn : s.cfg.transfers ≠ .named) {i : Instr}
    {n v : Byte} (hi : (i, v) ∈ softwareInterrupts n) (ho : i = .into → s.overflowFlag = true)
    (h : s.eventOk v true none (s.nextPc i) = true) : exec i s = .next (s.eventTaken v none (s.nextPc i)) := by
  rw [exec_softwareInterrupt hn hi ho]
  exact conclude_of_ok (takeEvent_off hp h)

/-- Settles O38: the three instructions differ in the vector only. -/
theorem softwareInterruptCompletes : Obligations.SoftwareInterruptCompletes := by
  intro s n
  refine ⟨exec_into_no_overflow, fun hp hn => ⟨fun h => ?_, fun h => ?_, fun ho h => ?_⟩⟩
  · exact exec_softwareInterrupt_off hp hn (n := n) (by simp [softwareInterrupts]) (fun hf => nomatch hf) h
  · exact exec_softwareInterrupt_off hp hn (n := n) (by simp [softwareInterrupts]) (fun hf => nomatch hf) h
  · exact exec_softwareInterrupt_off hp hn (n := n) (by simp [softwareInterrupts]) (fun _ => ho) h

end Sys2Proof.Proofs
end

section
/-! SUPPORT and statements. SYSENTER and SYSEXIT, and the privileged instructions at a CPL other than 0. -/

namespace Sys2Proof.Proofs

open Sys2Proof Sys2Proof.Machine Sys2Proof.Laws

variable {s : State}

/-! ### SYSENTER and SYSEXIT (R210, R211) -/

/-- Bits 15:2 of IA32_SYSENTER_CS decide whether its selector is null (R91). -/
theorem isNull_low (v : DWord) : isNull (v.extractLsb' 0 16) = (v.extractLsb' 2 14 == 0) := by
  have hbits : (v.extractLsb' 0 16).extractLsb' 2 14 = v.extractLsb' 2 14 := by
    ext k hk
    simp only [BitVec.getElem_extractLsb', BitVec.getLsbD_extractLsb', Nat.zero_add, Bool.and_eq_right_iff_imp,
      decide_eq_true_eq]
    omega
  rw [isNull, hbits]

/-- Clearing the RPL field is masking it (R210). -/
theorem withRPL_zero (sel : Word16) : withRPL sel 0 = sel &&& 0xFFFC := by
  have hmask : (0xFFFC : Word16) = BitVec.allOnes 14 ++ (0 : BitVec 2) := rfl
  ext k hk
  rw [withRPL, hmask, BitVec.getElem_and, BitVec.getElem_append, BitVec.getElem_append]
  split
  · simp
  · rw [BitVec.getElem_allOnes, BitVec.getElem_extractLsb', Nat.add_sub_cancel' (by omega), Bool.and_true,
      BitVec.getLsbD_eq_getElem]

theorem getLsbD_clearBit (v : DWord) (j k : Nat) :
    (clearBit v k).getLsbD j = (v.getLsbD j && !decide (j = k)) := by
  by_cases hj : j < 32
  · simp only [clearBit, BitVec.getLsbD_and, BitVec.getLsbD_not, BitVec.getLsbD_ofNat, Nat.testBit_two_pow, hj,
      decide_true, Bool.true_and, eq_comm]
  · rw [BitVec.getLsbD_of_ge (clearBit v k) j (by omega), BitVec.getLsbD_of_ge v j (by omega), Bool.false_and]

theorem exec_sysenter_null (hn : s.cfg.transfers ≠ .named) (h : isNull (s.sysenterCs.extractLsb' 0 16) = true) :
    exec .sysenter s = raised s (.gp 0) :=
  conclude_of_error (e := .exn (.gp 0)) ((bind_of_ok (refuseTransfer_pass hn _)).trans (raiseIf_bind_true h))

theorem exec_sysenter_off (hn : s.cfg.transfers ≠ .named) (h : isNull (s.sysenterCs.extractLsb' 0 16) = false) :
    exec .sysenter s = .next s.enterSystem :=
  conclude_of_ok ((bind_of_ok (refuseTransfer_pass hn _)).trans (raiseIf_bind_false h))

/-- Settles O36: the check on IA32_SYSENTER_CS, then the fields of `enterSystem`. -/
theorem sysenterEntersLevelZero : Obligations.SysenterEntersLevelZero := by
  intro s hn
  refine ⟨fun h => exec_sysenter_null hn (by simp [isNull_low, h]), fun h => ⟨s.enterSystem, ?_⟩⟩
  have hcs : s.enterSystem.cs.sel = s.sysenterCs.extractLsb' 0 16 &&& 0xFFFC := withRPL_zero _
  refine ⟨exec_sysenter_off hn (by simpa [isNull_low] using h), ?_, rfl, rfl, rfl, enterSystem_cpl s, ?_, ?_, rfl,
    rfl, rfl, rfl, rfl, rfl⟩
  · rw [← hcs]
    rfl
  · exact (getLsbD_clearBit _ _ _).trans (by simp)
  · exact fun k hk => (getLsbD_clearBit _ _ _).trans (by simp [hk])

theorem exec_sysexit_off (hn : s.cfg.transfers ≠ .named) (hc : s.cpl = 0) : exec .sysexit s = .next s.exitSystem :=
  conclude_of_ok ((bind_of_ok (refuseTransfer_pass hn _)).trans (raiseIf_bind_false (by simp [hc])))

theorem exec_sysexit_privilege (hn : s.cfg.transfers ≠ .named) (hc : s.cpl ≠ 0) :
    exec .sysexit s = raised s (.gp 0) :=
  conclude_of_error (e := .exn (.gp 0))
    ((bind_of_ok (refuseTransfer_pass hn _)).trans (raiseIf_bind_true (by simpa using hc)))

/-- Settles O37: the privilege check, then the fields of `exitSystem`. -/
theorem sysexitReturnsToLevelThree : Obligations.SysexitReturnsToLevelThree := by
  intro s hn
  refine ⟨exec_sysexit_privilege hn, fun hc => ⟨s.exitSystem, exec_sysexit_off hn hc, ?_⟩⟩
  exact ⟨rfl, rfl, rfl, rfl, rpl_or_three _, rfl, rfl, rfl, rfl, rfl, rfl, rfl⟩

/-! ### Privilege (R262, R319) -/

/-- Settles O43: the privilege is checked before anything is read, for LGDT and LIDT behind the operand form. -/
theorem privilegedInstructionsTrap : Obligations.PrivilegedInstructionsTrap := by
  intro s e src hc
  have hcpl : (s.cpl != 0) = true := by simpa using hc
  have htable : readTable (.mem e) s = .error (.exn (.gp 0)) := by
    rw [readTable, bind_of_ok (a := e) (t := s) rfl, get_bind, raiseIf_bind_true hcpl]
  refine ⟨fun i hi => ?_, fun hn => exec_sysexit_privilege hn hc⟩
  simp only [List.mem_cons, List.not_mem_nil, or_false] at hi
  rcases hi with rfl | rfl | rfl | rfl
  · exact conclude_of_error (bind_of_error htable)
  · exact conclude_of_error (bind_of_error htable)
  · exact conclude_of_error (raiseIf_bind_true hcpl)
  · exact conclude_of_error (raiseIf_bind_true hcpl)

end Sys2Proof.Proofs
end

section
/-! SUPPORT and statement. A write to a descriptor in ROM hangs, the processor's and a program's. -/

namespace Sys2Proof.Proofs

open Sys2Proof Sys2Proof.Machine Sys2Proof.Laws

variable {s : State}

/-! ### A descriptor in ROM (R195, R347) -/

theorem setAccessed_rom (hp : s.pagingEnabled = false) {d : Descriptor} {addr : DWord}
    (h : s.kindAt ((addr + 5).setWidth 36) = .rom) (ha : accessed d.type = false) :
    setAccessed d addr s = .error (.fault .hang) := by
  rw [setAccessed, if_neg (by simp [ha])]
  exact setAccessByte_rom hp h

theorem setAccessed_already {d : Descriptor} (addr : DWord) (ha : accessed d.type = true) :
    setAccessed d addr s = .ok ((), s) := by
  rw [setAccessed, if_pos ha]
  rfl

theorem writePhys_descriptor {la : DWord} {pa : PhysAddr} {b : Byte} (hk : s.kindAt pa = .rom)
    (hd : s.descriptorByte la = true) : writePhys .program la pa b s = .error (.fault .hang) := by
  simp [writePhys, hk, hd]

theorem translate_of_refChecked {r : SReg} {off n : Nat} {kind : AccessKind} {cpl : Level}
    (h : s.refChecked r off n kind cpl = true) :
    Machine.translate s.cfg r (s.seg r) off n kind = .ok (s.refAddr r off) ∧
      misaligned s.alignCheckEnabled cpl (s.refAddr r off) n = false := by
  simp only [State.refChecked, Bool.and_eq_true, Bool.not_eq_true'] at h
  obtain ⟨⟨⟨hv, hl⟩, ht⟩, ha⟩ := h
  exact ⟨by simp [Machine.translate, hv, hl, ht, State.refAddr], ha⟩

/-- A program's store hangs at its first byte where that is a descriptor byte in ROM (log entry 35). -/
theorem segWrite_descriptor (hp : s.pagingEnabled = false) {r : SReg} {off n v : Nat} {cpl : Level}
    (h : s.refChecked r off (n + 1) .write cpl = true) (hk : s.kindAt ((s.refAddr r off).setWidth 36) = .rom)
    (hd : s.descriptorByte (s.refAddr r off) = true) :
    segWrite r off (n + 1) v cpl s = .error (.fault .hang) := by
  obtain ⟨htr, ha⟩ := translate_of_refChecked h
  rw [segWrite_of_translate htr, if_neg (by simp [ha]), linWrite, bind_of_ok (physBytes_off hp _ _ _ _)]
  exact bind_of_error (writePhys_descriptor hk hd)

theorem storeSelector_descriptor (hp : s.pagingEnabled = false) {e : Ea} (v : Word16) (i : Instr)
    (h : s.refChecked (Ea.segReg s e) (s.eaOff e) 2 .write s.cpl = true)
    (hk : s.kindAt ((s.eaAddr e 0).setWidth 36) = .rom) (hd : s.descriptorByte (s.eaAddr e 0) = true) :
    conclude s (writeSelector (.mem e) v >>= fun _ => advance i) = .fault .hang :=
  conclude_of_error (bind_of_error ((writeSelector_mem e v).trans (segWrite_descriptor hp h hk hd)))

/-- Settles O51: the processor's writes, a program's, and the three instructions that make one. -/
theorem romDescriptorHangs : Obligations.RomDescriptorHangs := by
  intro s d addr e n r hp
  refine ⟨fun hk => ⟨setAccessed_rom hp hk, setAccessed_already addr, setAccessByte_rom hp hk⟩,
    fun la pa b hk hd => writePhys_descriptor hk hd, fun hr h hk hd i hi => ?_⟩
  simp only [List.mem_cons, List.not_mem_nil, or_false] at hi
  rcases hi with rfl | rfl | rfl
  · rw [exec_movFromSreg hr]
    exact storeSelector_descriptor hp _ _ h hk hd
  · exact storeSelector_descriptor hp _ _ h hk hd
  · exact storeSelector_descriptor hp _ _ h hk hd

end Sys2Proof.Proofs
end

section
/-! SUPPORT and statement. MOV to DS, ES, FS or GS, whatever the selector, with paging off. -/

namespace Sys2Proof.Proofs

open Sys2Proof Sys2Proof.Machine Sys2Proof.Laws

variable {s : State}

/-! ### MOV to a data segment register (R191, R192, R198) -/

section DataLoad

variable {r : SReg} {sel : Word16}

/-- `SetAccessed` on a descriptor that can be read, and what follows it (R195, R347). -/
theorem setAccessed_bind (hp : s.pagingEnabled = false) {d : Descriptor} {addr : DWord} {f : Unit → Op Unit}
    (hr : s.descriptorReadable addr = true) :
    (setAccessed d addr >>= f) s =
      if accessed d.type then f () s
      else if s.kindAt ((addr + 5).setWidth 36) = .ram then f () (s.accessByteSet addr 1)
      else .error (.fault .hang) := by
  rw [setAccessed]
  split
  · rfl
  split
  · exact bind_of_ok (setAccessByte_off hp (by simpa [State.ramAt] using ‹_›))
  · exact bind_of_error (setAccessByte_rom hp ((kindAt_accessByte hr).resolve_left ‹_›))

theorem not_dataPrivilegeOk (cpl : Level) (d : Descriptor) :
    (!dataPrivilegeOk cpl sel d) =
      (!conforming d.type && (decide (d.dpl < cpl) || decide (d.dpl < selRPL sel))) := by
  rw [dataPrivilegeOk, Bool.not_or, Bool.eq_iff_iff]
  simp [lt_maxLevel_iff]

theorem loadDataSeg_null (h : isNull sel = true) :
    loadDataSeg r sel s = .ok ((), s.setSeg r ((s.seg r).loadNull sel)) := by
  rw [loadDataSeg, get_bind, if_pos h]
  rfl

theorem loadDataSeg_past (hn : isNull sel = false) (hl : s.inLimit sel = false) :
    loadDataSeg r sel s = .error (.exn (.gp (selCode sel))) := by
  rw [loadDataSeg, get_bind, if_neg (by simp [hn])]
  exact bind_of_error (fetchDescriptor_past hl)

/-- A load of a data segment register with a selector inside its table: the reserved bit, the checks of R192, then the
accessed bit and the register. -/
theorem loadDataSeg_run (hp : s.pagingEnabled = false) (hn : isNull sel = false) (hl : s.inLimit sel = true)
    (hr : s.descriptorReadable (s.descriptorAddr sel) = true) {d : Descriptor} (hd : s.named sel = d) :
    loadDataSeg r sel s =
      if d.reservedBitSet then .error (.refused .reservedDescriptorBit)
      else if !d.s then .error (.exn (.gp (selCode sel)))
      else if isCode d.type && !readable d.type then .error (.exn (.gp (selCode sel)))
      else if !conforming d.type && (decide (d.dpl < s.cpl) || decide (d.dpl < selRPL sel)) then
        .error (.exn (.gp (selCode sel)))
      else if !d.p then .error (.exn (.np (selCode sel)))
      else if accessed d.type then .ok ((), s.setSeg r (.load sel d))
      else if s.kindAt ((s.accessByte sel).setWidth 36) = .ram then
        .ok ((), (s.accessByteSet (s.descriptorAddr sel) 1).setSeg r (.load sel d))
      else .error (.fault .hang) := by
  subst hd
  rw [loadDataSeg, get_bind, if_neg (by simp [hn])]
  split
  · exact bind_of_error (fetchDescriptor_reserved hp hl hr ‹_›)
  · rename_i hb
    refine (bind_of_ok (fetchDescriptor_off hp (fetchOk_intro hl hr (Bool.eq_false_iff.2 hb)))).trans ?_
    simp only [checkDataDescriptor, bind_assoc]
    rw [raiseIf_bind, raiseIf_bind, not_dataPrivilegeOk, raiseIf_bind, raiseIf_bind, setAccessed_bind hp hr]
    rfl

end DataLoad

/-- How an instruction ends whose load ended with `x`. -/
def afterLoad (s : State) (i : Instr) : Except Stop (Unit × State) → Outcome
  | .ok p => .next (p.2.advance i)
  | .error e => stopped s e

theorem conclude_afterLoad (op : Op Unit) (i : Instr) :
    conclude s (op >>= fun _ => advance i) = afterLoad s i (op s) := by
  cases h : op s with
  | ok p => exact conclude_of_ok (bind_of_ok h)
  | error e => exact conclude_of_error (bind_of_error h)

/-- MOV to DS, ES, FS or GS ends as its load does. -/
theorem exec_movToData (hp : s.pagingEnabled = false) {b : BitVec 3} {r : SReg} (hb : SReg.ofBits b = some r)
    (hcs : r ≠ .cs) (hss : r ≠ .ss) (q : Reg) :
    exec (.movToSreg b (.reg q)) s =
      afterLoad s (.movToSreg b (.reg q)) (loadDataSeg r (s.reg16 q) s) := by
  have hload : loadSeg r (s.reg16 q) s = loadDataSeg r (s.reg16 q) s := by rw [loadSeg, get_bind, if_neg hss]
  rw [exec_movToSreg hp hb hcs rfl, conclude_afterLoad, ← hload]
  rfl

/-- Settles O45: the null selector, the selector past its table, and `loadDataSeg_run` for every other. -/
theorem dataSegmentLoadChecks : Obligations.DataSegmentLoadChecks := by
  intro s b r q sel d hp hb hcs hss hq hd
  subst hq
  rw [exec_movToData hp hb hcs hss]
  refine ⟨fun hn => ?_, fun hn hl => ?_, fun hn hl hr => ?_⟩
  · rw [loadDataSeg_null hn]
    rfl
  · rw [loadDataSeg_past hn hl]
    rfl
  · rw [loadDataSeg_run hp hn hl hr hd]
    simp only [apply_ite (afterLoad s _)]
    rfl

end Sys2Proof.Proofs
end

section
/-! SUPPORT and statements. Memory frames, paging off: the instructions that store nothing, and the loads that store at
most the byte 5 of a descriptor. -/

namespace Sys2Proof.Proofs

open Sys2Proof Sys2Proof.Machine Sys2Proof.Laws

variable {s t : State} {x : PhysAddr}

/-! ### With paging off a read writes nothing (R66) -/

theorem steps_modify_mem {f : State → State} (hm : ∀ s, (f s).mem = s.mem)
    (hp : ∀ s, (f s).pagingEnabled = s.pagingEnabled) : Steps MemoryKept (modify f : Op Unit) := by
  intro s _ t h hs
  cases h
  exact ⟨hm s, (hp s).trans hs⟩

theorem steps_advance_mem (i : Instr) : Steps MemoryKept (advance i) :=
  steps_modify_mem (fun _ => rfl) (fun _ => rfl)

theorem steps_putSeg_mem (r : SReg) (c : SegCache) : Steps MemoryKept (putSeg r c) :=
  steps_modify_mem (fun _ => setSeg_mem _ _ _) (fun _ => setSeg_pagingEnabled _ _ _)

theorem steps_memOperand_mem (o : RM) : Steps MemoryKept (memOperand o) := by
  cases o with
  | reg r => exact steps_raise _
  | mem e => exact memoryKept_chain.pure e

theorem steps_segRead_mem (r : SReg) (off n : Nat) (cpl : Level) : Steps MemoryKept (segRead r off n cpl) :=
  memoryKept_chain.bind memoryKept_chain.get fun _ => memoryKept_chain.bind (memoryKept_chain.check _) fun _ =>
    memoryKept_chain.bind (memoryKept_chain.raiseIf _ _) fun _ => steps_linRead_mem _ _ _

theorem steps_readRm16_mem (o : RM) : Steps MemoryKept (readRm16 o) := by
  refine memoryKept_chain.bind memoryKept_chain.get fun s => ?_
  cases o with
  | reg r => exact memoryKept_chain.pure _
  | mem e => exact memoryKept_chain.bind (steps_segRead_mem _ _ _ _) fun _ => memoryKept_chain.pure _

theorem steps_readTable_mem (o : RM) : Steps MemoryKept (readTable o) :=
  memoryKept_chain.bind (steps_memOperand_mem o) fun _ => memoryKept_chain.bind memoryKept_chain.get fun _ =>
    memoryKept_chain.bind (memoryKept_chain.raiseIf _ _) fun _ =>
      memoryKept_chain.bind (steps_segRead_mem _ _ _ _) fun _ =>
        memoryKept_chain.bind (steps_segRead_mem _ _ _ _) fun _ => memoryKept_chain.pure _

theorem steps_fetchDescriptor_mem (sel : Word16) : Steps MemoryKept (fetchDescriptor sel) :=
  memoryKept_chain.bind memoryKept_chain.get fun _ => memoryKept_chain.bind (memoryKept_chain.raiseIf _ _) fun _ =>
    memoryKept_chain.bind (memoryKept_chain.raiseIf _ _) fun _ =>
      memoryKept_chain.bind (memoryKept_chain.bind (steps_linRead_mem _ _ _) fun _ =>
        memoryKept_chain.bind (steps_linRead_mem _ _ _) fun _ => memoryKept_chain.pure _) fun _ =>
          memoryKept_chain.bind (memoryKept_chain.refuseIf _ _) fun _ => memoryKept_chain.pure _

/-! ### The instructions that store nothing -/

/-- A selector stored to a register. -/
theorem steps_storeRegister_mem (r : Reg) (v : Word16) (i : Instr) :
    Steps MemoryKept (writeSelector (.reg r) v >>= fun _ => advance i) := by
  refine memoryKept_chain.bind (fun s _ t h hp => ?_) fun _ => steps_advance_mem i
  cases h
  split
  · exact ⟨setReg_mem _ _ _, (setReg_pagingEnabled _ _ _).trans hp⟩
  · exact ⟨setReg16_mem _ _ _, (setReg16_pagingEnabled _ _ _).trans hp⟩

/-- The load of LDTR writes no descriptor: an LDT has no accessed and no busy bit (R258). -/
theorem steps_loadLdtr_mem (sel : Word16) : Steps MemoryKept (loadLdtr sel) :=
  steps_ite (steps_modify_mem (fun _ => rfl) (fun _ => rfl)) <|
    memoryKept_chain.bind (memoryKept_chain.raiseIf _ _) fun _ =>
      memoryKept_chain.bind (steps_fetchDescriptor_mem sel) fun _ =>
        memoryKept_chain.bind (memoryKept_chain.bind (memoryKept_chain.raiseIf _ _) fun _ =>
          memoryKept_chain.raiseIf _ _) fun _ => steps_modify_mem (fun _ => rfl) (fun _ => rfl)

/-- An exception leads to a next state only where it is delivered. -/
theorem delivered_of_raised {e : Exn} (h : raised s e = .next t) : s.cfg.transfers = .delivered :=
  ((stopped_next (e := .exn e)).1 h).1

theorem storesNothing_mem {i : Instr} (hp : s.pagingEnabled = false) (hn : s.cfg.transfers ≠ .delivered)
    (hi : storesNothing i = true) (h : exec i s = .next t) : t.mem = s.mem := by
  have kept : ∀ {op : Op Unit}, exec i s = conclude s op → Steps MemoryKept op → t.mem = s.mem := fun he hop =>
    (hop s () t ((conclude_cases (he ▸ h)).resolve_left fun hd => hn hd.1) hp).1
  cases i with
  | movFromSreg b dst =>
    cases dst with
    | mem e => cases hi
    | reg r =>
      cases hb : SReg.ofBits b with
      | none =>
        have hud : exec (.movFromSreg b (.reg r)) s = raised s .ud := (invalidEncodingsTrap s r r b (.reg r)).2.1 hb
        exact absurd (delivered_of_raised (hud ▸ h)) hn
      | some q => exact kept (exec_movFromSreg hb _) (steps_storeRegister_mem _ _ _)
  | sldt dst | str dst =>
    cases dst with
    | mem e => cases hi
    | reg r => exact kept rfl (steps_storeRegister_mem _ _ _)
  | lgdt src | lidt src =>
    exact kept rfl (memoryKept_chain.bind (steps_readTable_mem src) fun _ =>
      memoryKept_chain.bind (steps_modify_mem (fun _ => rfl) (fun _ => rfl)) fun _ => steps_advance_mem _)
  | sysenter =>
    obtain ⟨-, rfl⟩ := (sysenter_next h).resolve_left fun hd => hn hd.1
    rfl
  | sysexit =>
    obtain ⟨-, rfl⟩ := (sysexit_next h).resolve_left fun hd => hn hd.1
    rfl
  | prefixOperandSize | prefixAddressSize | prefixCs | prefixEs | prefixSs | prefixDs | prefixFs | prefixGs =>
    cases h
    rfl
  | _ => cases hi

theorem lldt_mem {o : RM} (hp : s.pagingEnabled = false) (hn : s.cfg.transfers ≠ .delivered)
    (h : exec (.lldt o) s = .next t) : t.mem = s.mem := by
  have hop := (conclude_cases h).resolve_left fun hd => hn hd.1
  refine (memoryKept_chain.bind (memoryKept_chain.raiseIf _ _) (fun _ => ?_) s () t hop hp).1
  exact memoryKept_chain.bind (steps_readRm16_mem o) fun sel =>
    memoryKept_chain.bind (steps_loadLdtr_mem sel) fun _ => steps_advance_mem _

/-- Settles O13: each of these is a sequence of operations that keep memory. -/
theorem noStoreMemoryFrame : Obligations.NoStoreMemoryFrame := by
  rintro s t i x hp hn h (hi | ⟨o, rfl⟩)
  · rw [storesNothing_mem hp hn hi h]
  · rw [lldt_mem hp hn h]

/-! ### A byte that an operation leaves alone -/

/-- With paging off and canonical memory in `s`, so has `t`, and the byte at `x` is the same. -/
def LeavesByte (x : PhysAddr) (s t : State) : Prop :=
  s.pagingEnabled = false → s.mem.wf = true →
    t.mem.read x = s.mem.read x ∧ t.mem.wf = true ∧ t.pagingEnabled = false

theorem leavesByte_chain : Chain (LeavesByte x) where
  refl _ hp hw := ⟨rfl, hw, hp⟩
  trans h k hp hw :=
    have ⟨hx, hw', hp'⟩ := h hp hw
    have ⟨kx, kw, kp⟩ := k hp' hw'
    ⟨kx.trans hx, kw, kp⟩

theorem leavesByte_of_memoryKept (h : MemoryKept s t) : LeavesByte x s t := by
  intro hp hw
  obtain ⟨hm, hpt⟩ := h hp
  rw [hm]
  exact ⟨rfl, hw, hpt⟩

theorem Steps.leavesByte {α : Type} {op : Op α} (h : Steps MemoryKept op) : Steps (LeavesByte x) op :=
  fun s a t hr => leavesByte_of_memoryKept (h s a t hr)

/-- The byte 5 of a descriptor is the only one that the accessed or the busy bit is written to (R195, R251). -/
theorem steps_setAccessByte_leaves {addr : DWord} (bits : Byte) (hx : awayFrom (addr + 5) 1 x = true) :
    Steps (LeavesByte x) (setAccessByte addr bits) := fun _ _ _ h hp hw =>
  have q := setAccessByte_quiet h
  ⟨setAccessByte_away hp hw hx h, q.wf hw, q.pagingEnabled.trans hp⟩

theorem steps_setAccessed_leaves {addr : DWord} (d : Descriptor) (hx : awayFrom (addr + 5) 1 x = true) :
    Steps (LeavesByte x) (setAccessed d addr) :=
  steps_ite (leavesByte_chain.pure _) (steps_setAccessByte_leaves 1 hx)

/-! ### The loads of a segment register and of TR -/

section Loads

variable {sel : Word16} {u : Unit}

/-- A fetch, and then what writes to the descriptor fetched at most its byte 5. -/
theorem fetched_leaves {f : Descriptor × DWord → Op Unit}
    (hf : ∀ d, Steps (LeavesByte x) (f (d, s.descriptorAddr sel)))
    (h : (fetchDescriptor sel >>= f) s = .ok (u, t)) : LeavesByte x s t := by
  obtain ⟨⟨d, addr⟩, m, h1, h2⟩ := bind_ok.1 h
  obtain ⟨-, rfl, -⟩ := fetchDescriptor_ok h1
  exact leavesByte_chain.trans ((steps_fetchDescriptor_mem sel).leavesByte _ _ _ h1) (hf d _ _ _ h2)

theorem loadDataSeg_leaves {r : SReg} (hx : awayFrom (s.accessByte sel) 1 x = true)
    (h : loadDataSeg r sel s = .ok (u, t)) : LeavesByte x s t := by
  rw [loadDataSeg, get_bind] at h
  split at h
  · exact (steps_putSeg_mem r _).leavesByte _ _ _ h
  · refine fetched_leaves (fun d => ?_) h
    refine leavesByte_chain.bind ?_ fun _ => leavesByte_chain.bind (steps_setAccessed_leaves d hx) fun _ =>
      (steps_putSeg_mem r _).leavesByte
    exact leavesByte_chain.bind (leavesByte_chain.raiseIf _ _) fun _ =>
      leavesByte_chain.bind (leavesByte_chain.raiseIf _ _) fun _ =>
        leavesByte_chain.bind (leavesByte_chain.raiseIf _ _) fun _ => leavesByte_chain.raiseIf _ _

theorem loadSs_leaves {cpl : Level} (hx : awayFrom (s.accessByte sel) 1 x = true)
    (h : loadSs cpl sel s = .ok (u, t)) : LeavesByte x s t := by
  rw [loadSs, get_bind, raiseIf_bind_ok] at h
  refine fetched_leaves (fun d => ?_) h.2
  refine leavesByte_chain.bind ?_ fun _ => leavesByte_chain.bind (steps_setAccessed_leaves d hx) fun _ =>
    (steps_putSeg_mem .ss _).leavesByte
  exact leavesByte_chain.bind (leavesByte_chain.raiseIf _ _) fun _ =>
    leavesByte_chain.bind (leavesByte_chain.raiseIf _ _) fun _ =>
      leavesByte_chain.bind (leavesByte_chain.raiseIf _ _) fun _ => leavesByte_chain.raiseIf _ _

theorem loadSeg_leaves {r : SReg} (hx : awayFrom (s.accessByte sel) 1 x = true)
    (h : loadSeg r sel s = .ok (u, t)) : LeavesByte x s t := by
  rw [loadSeg, get_bind] at h
  split at h
  · exact loadSs_leaves hx h
  · exact loadDataSeg_leaves hx h

theorem loadTr_leaves (hx : awayFrom (s.accessByte sel) 1 x = true) (h : loadTr sel s = .ok (u, t)) :
    LeavesByte x s t := by
  rw [loadTr, raiseIf_bind_ok, raiseIf_bind_ok] at h
  refine fetched_leaves (fun d => ?_) h.2.2
  refine leavesByte_chain.bind ?_ fun _ => leavesByte_chain.bind (steps_setAccessByte_leaves 2 hx) fun _ =>
    Steps.leavesByte (steps_modify_mem (fun _ => rfl) (fun _ => rfl))
  exact leavesByte_chain.bind (leavesByte_chain.raiseIf _ _) fun _ => leavesByte_chain.raiseIf _ _

/-- A load, and then what keeps memory. -/
theorem loadSeg_bind_leaves {r : SReg} {f : Unit → Op Unit} (hx : awayFrom (s.accessByte sel) 1 x = true)
    (hf : Steps MemoryKept (f ())) (h : (loadSeg r sel >>= f) s = .ok (u, t)) : LeavesByte x s t := by
  obtain ⟨_, m, h1, h2⟩ := bind_ok.1 h
  exact leavesByte_chain.trans (loadSeg_leaves hx h1) (hf.leavesByte _ _ _ h2)

end Loads

/-! ### The instructions that load directly, and LTR -/

theorem popSeg_leaves (hp : s.pagingEnabled = false) {r : SReg} {i : Instr} (ht : s.topOk s.opBytes = true)
    (hx : awayFrom (s.accessByte (BitVec.ofNat 16 (s.topValue s.opBytes))) 1 x = true)
    (h : popSeg r i s = .ok ((), t)) : LeavesByte x s t := by
  rw [popSeg, get_bind, bind_of_ok (stackTop_off hp ht)] at h
  exact loadSeg_bind_leaves hx (memoryKept_chain.bind
    (steps_modify_mem (fun _ => setStackPtr_mem _ _ _) (fun _ => setStackPtr_pagingEnabled _ _ _))
    fun _ => steps_advance_mem i) h

theorem steps_writeOffset_mem (q : Reg) (off : DWord) : Steps MemoryKept (writeOffset q off) := by
  intro s _ t h hp
  cases h
  have k : RegsSet [q] s (s.regWritten q off) := regsSet_regWritten (List.mem_singleton_self q) s off
  change (s.regWritten q off).mem = s.mem ∧ (s.regWritten q off).pagingEnabled = false
  rw [k.same]
  exact ⟨rfl, hp⟩

theorem loadPointer_leaves (hp : s.pagingEnabled = false) {r : SReg} {q : Reg} {e : Ea} {i : Instr}
    (he : s.pointerOk e = true) (hx : awayFrom (s.accessByte (s.pointerSel e)) 1 x = true)
    (h : loadPointer r q (.mem e) i s = .ok ((), t)) : LeavesByte x s t := by
  have hmem : memOperand (.mem e) s = .ok (e, s) := rfl
  rw [loadPointer, bind_of_ok hmem, bind_of_ok (readFarPointer_off hp he)] at h
  exact loadSeg_bind_leaves hx (memoryKept_chain.bind (steps_writeOffset_mem q _) fun _ => steps_advance_mem i) h

theorem movToSreg_leaves (hp : s.pagingEnabled = false) (hn : s.cfg.transfers ≠ .delivered) {b : BitVec 3} {src : RM}
    (hs : s.sourceOk src = true) (hx : awayFrom (s.accessByte (s.sourceValue src)) 1 x = true)
    (h : exec (.movToSreg b src) s = .next t) : LeavesByte x s t := by
  obtain ⟨r, hb, hr⟩ : ∃ r, SReg.ofBits b = some r ∧ r ≠ .cs := by
    by_contra hbad
    have hud : exec (.movToSreg b src) s = raised s .ud := by
      refine (invalidEncodingsTrap s .eax .eax b src).2.2 ?_ hp hs
      cases hb : SReg.ofBits b with
      | none => exact .inl rfl
      | some r => exact .inr (congrArg some (not_not.1 fun hr => hbad ⟨r, hb, hr⟩))
    exact hn (delivered_of_raised (hud ▸ h))
  rw [exec_movToSreg hp hb hr hs] at h
  exact loadSeg_bind_leaves hx (steps_advance_mem _) ((conclude_cases h).resolve_left fun hd => hn hd.1)

theorem ltr_leaves (hp : s.pagingEnabled = false) (hn : s.cfg.transfers ≠ .delivered) {src : RM}
    (hs : s.sourceOk src = true) (hx : awayFrom (s.accessByte (s.sourceValue src)) 1 x = true)
    (h : exec (.ltr src) s = .next t) : LeavesByte x s t := by
  have hop := (conclude_cases h).resolve_left fun hd => hn hd.1
  rw [raiseIf_bind_ok, bind_of_ok (readRm16_off hp hs)] at hop
  obtain ⟨_, m, h1, h2⟩ := bind_ok.1 hop.2
  exact leavesByte_chain.trans (loadTr_leaves hx h1) ((steps_advance_mem _).leavesByte _ _ _ h2)

theorem directLoad_leaves {i : Instr} (hp : s.pagingEnabled = false) (hn : s.cfg.transfers ≠ .delivered)
    (hi : directLoad i = true) (hr : s.selectorReadable i = true)
    (hx : awayFrom (s.accessByte (s.loadedSelector i)) 1 x = true) (h : exec i s = .next t) : LeavesByte x s t := by
  have run : ∀ {op : Op Unit}, exec i s = conclude s op → op s = .ok ((), t) := fun he =>
    (conclude_cases (he ▸ h)).resolve_left fun hd => hn hd.1
  cases i with
  | movToSreg b src => exact movToSreg_leaves hp hn hr hx h
  | popEs | popSs | popDs | popFs | popGs => exact popSeg_leaves hp hr hx (run rfl)
  | lds q src | les q src | lss q src | lfs q src | lgs q src =>
    obtain ⟨e, _, _, _, _, rfl, -⟩ := loadPointer_ok (run rfl)
    exact loadPointer_leaves hp hr hx (run rfl)
  | _ => cases hi

/-- Settles O15: the operand is only read, and the load leaves every byte but the access byte. -/
theorem selectorLoadMemoryFrame : Obligations.SelectorLoadMemoryFrame := by
  rintro s t i x hp hn hw (hi | ⟨o, rfl⟩) hr h hx
  · exact (directLoad_leaves hp hn hi hr hx h hp hw).1
  · exact (ltr_leaves hp hn hr hx h hp hw).1

end Sys2Proof.Proofs
end

section
/-! SUPPORT and statements. Memory frames, paging off: the returns, the software interrupts and the call gates, from the
states that they answer. -/

namespace Sys2Proof.Proofs

open Sys2Proof Sys2Proof.Machine Sys2Proof.Laws

variable {s t u : State} {x : PhysAddr}

/-! ### What a load and a transfer leave of memory (R195) -/

theorem read_marked_away (hw : s.mem.wf = true) (d : Descriptor) {addr : DWord} (hx : awayFrom (addr + 5) 1 x = true) :
    (s.marked d addr).mem.read x = s.mem.read x := by
  unfold State.marked
  split
  · rfl
  · exact read_write_other _ (awayFrom_succ.1 hx).1 hw

theorem read_transferred_away (hw : s.mem.wf = true) {cpl : Level} {sel : Word16} {d : Descriptor}
    {addr newPc : DWord} (hx : awayFrom (addr + 5) 1 x = true) :
    (s.transferred cpl sel d addr newPc).mem.read x = s.mem.read x :=
  read_marked_away hw d hx

theorem segLoaded_wf (hw : s.mem.wf = true) (r : SReg) (sel : Word16) : (s.segLoaded r sel).mem.wf = true := by
  rw [State.segLoaded, setSeg_mem]
  exact (marked_quiet s _ _).wf hw

theorem read_segLoaded_away (hw : s.mem.wf = true) (r : SReg) {sel : Word16}
    (hx : awayFrom (s.accessByte sel) 1 x = true) : (s.segLoaded r sel).mem.read x = s.mem.read x := by
  rw [State.segLoaded, setSeg_mem]
  exact read_marked_away hw _ hx

/-! ### Returns (R209, R212) -/

theorem read_sameReturned_away {n : Nat} (hm : u.mem = s.mem) (hw : s.mem.wf = true)
    (hx : awayFrom (s.accessByte (s.returnSel n)) 1 x = true) :
    (s.sameReturned u n).mem.read x = s.mem.read x := by
  rw [State.sameReturned, read_transferred_away (hm ▸ hw) hx, hm]

theorem read_outerReturned_away {n : Nat} (k : DWord) (e : SameTables s u) (hw : s.mem.wf = true)
    (hx : awayFrom (s.accessByte (s.returnSel n)) 1 x = true)
    (hss : awayFrom (s.accessByte (u.outerSs n)) 1 x = true) :
    (s.outerReturned u n k).mem.read x = s.mem.read x := by
  have ep : SameTables s ((u.popped n).popped n) := (e.trans (.ofReleased _ _)).trans (.ofReleased _ _)
  have hwp : ((u.popped n).popped n).mem.wf = true := ep.mem ▸ hw
  have hbyte : ((u.popped n).popped n).accessByte (u.outerSs n) = s.accessByte (u.outerSs n) := by
    rw [State.accessByte, State.accessByte, ep.descriptorAddr]
  have hload := read_segLoaded_away hwp .ss (hbyte ▸ hss)
  rw [State.outerReturned, nullOuter_mem, read_transferred_away _ hx, State.released, setStackPtr_mem,
    setStackPtr_mem, hload, ep.mem]
  rw [State.released, setStackPtr_mem, setStackPtr_mem]
  exact segLoaded_wf hwp _ _

/-- Settles O17: the states of `sameLevelReturnCompletes`, `outerReturnCompletes` and `interruptReturnCompletes`. -/
theorem returnMemoryFrame : Obligations.ReturnMemoryFrame := by
  intro s t u i imm x hp hw hi h hx
  have next : ∀ {v : State}, exec i s = .next v → t = v := fun hv => Host.Outcome.next.inj (h.symm.trans hv)
  have e : SameTables s u := by
    rcases hi with ⟨-, rfl⟩ | ⟨-, rfl⟩ | ⟨-, rfl, -⟩ <;>
      exact ((SameTables.ofReleased _ _).trans (.ofReleased _ _)).trans (.ofReleased _ _)
  refine ⟨fun hok => ?_, fun hok hss => ?_⟩
  · have hmem : t.mem = (s.sameReturned u s.opBytes).mem := by
      rcases hi with ⟨rfl, rfl⟩ | ⟨rfl, rfl⟩ | ⟨rfl, rfl, hnt, htop⟩
      · rw [next (sameLevelReturnCompletes s imm hp hok).1]
      · rw [next (sameLevelReturnCompletes s imm hp hok).2]
      · rw [next ((interruptReturnCompletes s hp hnt htop).1 hok)]
    rw [hmem]
    exact read_sameReturned_away e.mem hw hx
  · have hmem : ∃ k, t.mem = (s.outerReturned u s.opBytes k).mem := by
      rcases hi with ⟨rfl, rfl⟩ | ⟨rfl, rfl⟩ | ⟨rfl, rfl, hnt, htop⟩
      · exact ⟨_, by rw [next ((outerReturnCompletes s imm hp).1 hok)]⟩
      · exact ⟨_, by rw [next ((outerReturnCompletes s imm hp).2 hok)]⟩
      · exact ⟨_, by rw [next ((interruptReturnCompletes s hp hnt htop).2 hok)]⟩
    obtain ⟨k, hk⟩ := hmem
    rw [hk]
    exact read_outerReturned_away k e hw hx hss

/-! ### Pushes (R172, R313) -/

theorem pushed_wf (hw : s.mem.wf = true) (n v : Nat) : (s.pushed n v).mem.wf = true := by
  rw [State.pushed, setStackPtr_mem]
  exact (storeValue_quiet s _ n v).wf hw

theorem pushedAll_wf (hw : s.mem.wf = true) (n : Nat) (vs : List Nat) : (s.pushedAll n vs).mem.wf = true := by
  induction vs generalizing s with
  | nil => exact hw
  | cons v rest ih => exact ih (pushed_wf hw n v)

theorem pushedAll_append (s : State) (n : Nat) (vs ws : List Nat) :
    s.pushedAll n (vs ++ ws) = (s.pushedAll n vs).pushedAll n ws := by
  induction vs generalizing s with
  | nil => rfl
  | cons v rest ih => exact ih _

theorem read_pushedAll_away (hw : s.mem.wf = true) {n : Nat} {vs : List Nat}
    (hx : ∀ a ∈ s.pushSlots n vs, awayFrom a n x = true) : (s.pushedAll n vs).mem.read x = s.mem.read x := by
  induction vs generalizing s with
  | nil => rfl
  | cons v rest ih =>
    obtain ⟨hfirst, hrest⟩ := List.forall_mem_cons.1 hx
    have hpush : (s.pushed n v).mem.read x = s.mem.read x := by
      rw [State.pushed, setStackPtr_mem]
      exact read_storeBytes_away hw (by simpa using hfirst)
    exact (ih (pushed_wf hw n v) hrest).trans hpush

/-- Pushes on the stack of an inner level: the old SS and ESP come first. -/
theorem innerStack_pushedAll {l : Level} (hl : l ≠ s.cpl) (n : Nat) (vs : List Nat) :
    (s.handlerStack l n).pushedAll n vs = (s.innerSs l).pushedAll n (s.ss.sel.toNat :: s.gpr.esp.toNat :: vs) := by
  rw [State.handlerStack, if_neg hl]
  rfl

theorem innerSs_wf (hw : s.mem.wf = true) (l : Level) : (s.innerSs l).mem.wf = true := by
  rw [State.innerSs, setStackPtr_mem]
  exact segLoaded_wf hw _ _

theorem read_innerSs_away (hw : s.mem.wf = true) {l : Level}
    (hx : awayFrom (s.accessByte (s.innerStack l).1) 1 x = true) :
    (s.innerSs l).mem.read x = s.mem.read x := by
  rw [State.innerSs, setStackPtr_mem]
  exact read_segLoaded_away hw _ hx

/-- On the stack of an inner level only the slots and the access byte of its SS are stored to. -/
theorem read_innerPushed_away (hw : s.mem.wf = true) {l : Level} (hl : l ≠ s.cpl) {n : Nat} {vs : List Nat}
    (hx : awayFrom (s.accessByte (s.innerStack l).1) 1 x = true)
    (hslots : ∀ a ∈ (s.innerSs l).pushSlots n (s.ss.sel.toNat :: s.gpr.esp.toNat :: vs), awayFrom a n x = true) :
    ((s.handlerStack l n).pushedAll n vs).mem.wf = true ∧
      ((s.handlerStack l n).pushedAll n vs).mem.read x = s.mem.read x := by
  rw [innerStack_pushedAll hl]
  exact ⟨pushedAll_wf (innerSs_wf hw l) _ _,
    (read_pushedAll_away (innerSs_wf hw l) hslots).trans (read_innerSs_away hw hx)⟩

/-! ### Software interrupts (R213) -/

/-- The memory in which the frame of a gate's passage is pushed. -/
theorem frame_away (hw : s.mem.wf = true) {v : Byte} {code : Option Nat} {retPc : DWord}
    (hslots : ∀ a ∈ s.eventSlots v code retPc, awayFrom a (s.gateAt v).gateBytes x = true)
    (hss : s.handlerLevel v ≠ s.cpl → awayFrom (s.accessByte (s.innerStack (s.handlerLevel v)).1) 1 x = true) :
    ((s.frameStack v).pushedAll (s.gateAt v).gateBytes (s.frameWords code retPc)).mem.wf = true ∧
      ((s.frameStack v).pushedAll (s.gateAt v).gateBytes (s.frameWords code retPc)).mem.read x = s.mem.read x := by
  rw [State.eventSlots] at hslots
  rw [State.frameStack]
  by_cases hl : s.handlerLevel v = s.cpl
  · rw [if_pos hl] at hslots
    rw [State.handlerStack, if_pos hl]
    exact ⟨pushedAll_wf hw _ _, read_pushedAll_away hw hslots⟩
  · rw [if_neg hl] at hslots
    exact read_innerPushed_away hw hl (hss hl) hslots

theorem read_eventTaken_away (hw : s.mem.wf = true) {v : Byte} {code : Option Nat} {retPc : DWord}
    (hslots : ∀ a ∈ s.eventSlots v code retPc, awayFrom a (s.gateAt v).gateBytes x = true)
    (hx : awayFrom (s.accessByte (s.gateAt v).gateSelector) 1 x = true)
    (hss : s.handlerLevel v ≠ s.cpl → awayFrom (s.accessByte (s.innerStack (s.handlerLevel v)).1) 1 x = true) :
    (s.eventTaken v code retPc).mem.read x = s.mem.read x := by
  obtain ⟨hwf, hframe⟩ := frame_away hw hslots hss
  exact (read_marked_away hwf _ hx).trans hframe

/-- Settles O18: the state of `exec_softwareInterrupt_off`; where R295 is followed to the letter there is none. -/
theorem eventMemoryFrame : Obligations.EventMemoryFrame := by
  intro s t n x hp hw hok h hslots hx hss
  have hn : s.cfg.transfers ≠ .named := by
    intro hf
    have hr : exec (.int n) s = .refused (.transfer .throughIdt) := conclude_refuseTransfer hf _ _
    cases hr.symm.trans h
  have hv := exec_softwareInterrupt_off (i := .int n) (n := n) hp hn (by simp [softwareInterrupts])
    (fun hf => nomatch hf) hok
  rw [Host.Outcome.next.inj (h.symm.trans hv)]
  exact read_eventTaken_away hw hslots hx hss

/-! ### Call gates (R281) -/

/-- The memory in which a CALL through a gate has pushed its return address. -/
theorem gateFrame_away (hw : s.mem.wf = true) {sel : Word16} {retPc : DWord}
    (hslots : ∀ a ∈ s.gateSlots sel retPc, awayFrom a (s.named sel).gateBytes x = true)
    (hss : s.gateLevel sel ≠ s.cpl → awayFrom (s.accessByte (s.innerStack (s.gateLevel sel)).1) 1 x = true) :
    ((s.gateStack sel).pushedAll (s.named sel).gateBytes (s.returnWords retPc)).mem.wf = true ∧
      ((s.gateStack sel).pushedAll (s.named sel).gateBytes (s.returnWords retPc)).mem.read x = s.mem.read x := by
  rw [State.gateSlots] at hslots
  rw [State.gateStack]
  by_cases hl : s.gateLevel sel = s.cpl
  · rw [if_pos hl] at hslots
    rw [if_pos hl]
    exact ⟨pushedAll_wf hw _ _, read_pushedAll_away hw hslots⟩
  · rw [if_neg hl] at hslots
    rw [if_neg hl, ← pushedAll_append]
    exact read_innerPushed_away hw hl (hss hl) hslots

theorem read_gateEntered_away (hw : u.mem.wf = true) {sel : Word16}
    (hx : awayFrom (s.accessByte (s.named sel).gateSelector) 1 x = true) :
    (s.gateEntered u sel).mem.read x = u.mem.read x :=
  read_transferred_away hw hx

/-- Settles O19: the state of `callGate_off`, with the pushes of a CALL. -/
theorem callGateMemoryFrame : Obligations.CallGateMemoryFrame := by
  intro s t i isCall off sel x hp hw hi hok h hx hcall
  rw [exec_farPointer hp hi] at h
  have hv := callGate_off (off := off) hp (s.nextPc i) hok fun hc =>
    have ⟨hstack, hpush, _⟩ := hcall hc
    ⟨hstack, hpush⟩
  rw [Host.Outcome.next.inj (h.symm.trans (conclude_of_ok hv))]
  cases isCall with
  | false => exact read_gateEntered_away hw hx
  | true =>
    obtain ⟨-, -, hslots, hss⟩ := hcall rfl
    obtain ⟨hwf, hframe⟩ := gateFrame_away hw hslots hss
    exact (read_gateEntered_away hwf hx).trans hframe

end Sys2Proof.Proofs
end

section
/-! SUPPORT and statements. What LGDT, LIDT, LLDT and LTR answer at CPL 0 where they complete, with paging off. -/

namespace Sys2Proof.Proofs

open Sys2Proof Sys2Proof.Machine Sys2Proof.Laws

variable {s : State} {src : RM} {sel : Word16}

/-! ### LGDT and LIDT (R256, R257) -/

/-- The low `k` of `w` bits, extended again, are what a mask of `k` ones keeps. -/
theorem extractLsb'_setWidth_eq_and {w : Nat} (k : Nat) (v : BitVec w) :
    (v.extractLsb' 0 k).setWidth w = v &&& (BitVec.allOnes k).setWidth w := by
  ext i hi
  simp [hi, Bool.and_comm]

/-- The base of a pseudo-descriptor under a 16-bit operand size is its low 24 bits (R256). -/
theorem tableBase_eq (op32 : Bool) (v : Nat) :
    tableBase op32 v = if op32 then BitVec.ofNat 32 v else BitVec.ofNat 32 v &&& 0x00FFFFFF := by
  have hmask : (0x00FFFFFF : DWord) = (BitVec.allOnes 24).setWidth 32 := rfl
  rw [tableBase, hmask, extractLsb'_setWidth_eq_and]

/-- The limit is read first, then the base two bytes behind it (R107). -/
theorem readTable_off (hp : s.pagingEnabled = false) (hc : s.cpl = 0) {e : Ea} (hlimit : s.eaOk e 0 2 .read = true)
    (hbase : s.eaOk e 2 4 .read = true) :
    readTable (.mem e) s = .ok (⟨tableBase s.mode.op32 (s.valueAt (s.eaAddr e 2) 4),
      BitVec.ofNat 16 (s.valueAt (s.eaAddr e 0) 2)⟩, s) := by
  have hmem : memOperand (.mem e) s = .ok (e, s) := rfl
  rw [readTable, bind_of_ok hmem, get_bind, raiseIf_bind_false (by simp [hc])]
  exact (bind_of_ok (segRead_off hp hlimit)).trans (bind_of_ok (segRead_off hp hbase))

/-- Settles O23: both instructions read the same pseudo-descriptor. -/
theorem tableLoadCompletes : Obligations.TableLoadCompletes := by
  intro s e t hp hc h2 h4 hlimit hbase
  have hread : readTable (.mem e) s = .ok (t, s) := by
    rw [readTable_off hp hc h2 h4, tableBase_eq, ← hlimit, ← hbase]
  exact ⟨conclude_of_ok (bind_of_ok hread), conclude_of_ok (bind_of_ok hread)⟩

/-! ### LLDT and LTR -/

/-- At CPL 0 LLDT and LTR are the load of the selector they read, and then the next instruction. -/
theorem atLevelZero_off (hp : s.pagingEnabled = false) (hc : s.cpl = 0) (hs : s.sourceOk src = true)
    {load : Word16 → Op Unit} {i : Instr} {t : State} (hl : load (s.sourceValue src) s = .ok ((), t)) :
    (raiseIf (s.cpl != 0) (.gp 0) >>= fun _ => readRm16 src >>= fun sel => load sel >>= fun _ => advance i) s =
      .ok ((), t.advance i) := by
  rw [raiseIf_bind_false (by simp [hc]), bind_of_ok (readRm16_off hp hs)]
  exact bind_of_ok hl

/-! ### LLDT (R258) -/

theorem loadLdtr_null (hn : isNull sel = true) :
    loadLdtr sel s = .ok ((), { s with ldtr := { s.ldtr with sel := sel, valid := false } }) := by
  rw [loadLdtr, if_pos hn]
  rfl

theorem loadLdtr_off (hp : s.pagingEnabled = false) (hn : isNull sel = false) (hti : selTI sel = false)
    (hf : s.fetchOk sel = true) (hs : (s.named sel).s = false) (ht : (s.named sel).type = 0b0010)
    (hpr : (s.named sel).p = true) :
    loadLdtr sel s = .ok ((), { s with ldtr := .load s.cfg sel (s.named sel) 0b0010 }) := by
  have hcheck : checkLdtDescriptor sel (s.named sel) s = .ok ((), s) := by
    rw [checkLdtDescriptor_run, if_neg (by simp [hs, ht]), if_neg (by simp [hpr])]
  rw [loadLdtr_selector hn, fetchGlobal_off hp hti hf, bind_of_ok hcheck, modify_run, ht]

/-- Settles O24: the null selector, and the descriptor that passes the checks of R258. -/
theorem lldtCompletes : Obligations.LldtCompletes := by
  intro s src sel hp hc hs hsel
  subst hsel
  refine ⟨fun hn => ?_, fun hn hti hf hsys ht hpr => ?_⟩
  · exact conclude_of_ok (atLevelZero_off hp hc hs (loadLdtr_null hn))
  · exact conclude_of_ok (atLevelZero_off hp hc hs (loadLdtr_off hp hn hti hf hsys ht hpr))

/-! ### LTR (R251) -/

/-- The busy bit is written to memory before TR receives the descriptor with it. -/
theorem loadTr_off (hp : s.pagingEnabled = false) (hn : isNull sel = false) (hti : selTI sel = false)
    (hf : s.fetchOk sel = true) (hs : (s.named sel).s = false)
    (ht : (s.named sel).type = 0b0001 ∨ (s.named sel).type = 0b1001) (hpr : (s.named sel).p = true)
    (hram : s.ramAt (s.accessByte sel) 1 = true) :
    loadTr sel s = .ok ((), { s.accessByteSet (s.descriptorAddr sel) 2 with
      tr := .load s.cfg sel (s.named sel) ((s.named sel).type ||| 2) }) := by
  have hcheck : checkTssDescriptor sel (s.named sel) s = .ok ((), s) := by
    rw [checkTssDescriptor_run, if_neg (by rw [hs]; tauto), if_neg (by simp [hpr])]
  rw [loadTr, raiseIf_bind_false hn, fetchGlobal_off hp hti hf]
  exact (bind_of_ok hcheck).trans (bind_of_ok (setAccessByte_off hp hram))

/-- Settles O25: the load of `loadTr_off` for the selector read, then the next instruction. -/
theorem ltrCompletes : Obligations.LtrCompletes := by
  intro s src sel hp hc hs hsel hn hti hf hsys ht hpr hram
  subst hsel
  exact conclude_of_ok (atLevelZero_off hp hc hs (loadTr_off hp hn hti hf hsys ht hpr hram))

end Sys2Proof.Proofs
end

section
/-! SUPPORT and statements. What a transfer through a call gate answers where it completes, and the flags behind a gate
of the IDT, with paging off. -/

namespace Sys2Proof.Proofs

open Sys2Proof Sys2Proof.Machine Sys2Proof.Laws

variable {s : State}

/-! ### Call gates (R281, R282, R287, R290) -/

/-- A far pointer to a call gate enters the gate's target, with the offset of the pointer ignored. -/
theorem exec_callGate_off (hp : s.pagingEnabled = false) {isCall : Bool} {i : Instr} {off : DWord} {sel : Word16}
    (hi : s.farPointerOf isCall i = some (off, sel)) (h : s.callGateOk isCall sel = true)
    (hc : isCall = true → s.gateStackOk sel = true ∧ (s.gateStack sel).pushAllOk (s.gateLevel sel)
      (s.named sel).gateBytes (s.returnWords (s.nextPc i)) = true) :
    exec i s = .next (s.gateEntered (if isCall then (s.gateStack sel).pushedAll (s.named sel).gateBytes
      (s.returnWords (s.nextPc i)) else s) sel) := by
  rw [exec_farPointer hp hi]
  exact conclude_of_ok (callGate_off hp _ h hc)

/-- Settles O32: a JMP pushes nothing, a CALL its return address on the gate's stack. -/
theorem callGateTransferCompletes : Obligations.CallGateTransferCompletes := by
  intro s i off sel hp
  exact ⟨fun hi h => exec_callGate_off hp hi h (fun hf => nomatch hf),
    fun hi h hstack hpush => exec_callGate_off hp hi h (fun _ => ⟨hstack, hpush⟩)⟩

/-! ### The flags behind a gate (R284, R285, R313) -/

/-- TF, NT, RF and VM are cleared through every gate, IF through an interrupt gate. -/
theorem getLsbD_entryFlags (interruptGate : Bool) (fl : DWord) (k : Nat) :
    (entryFlags interruptGate fl).getLsbD k =
      (fl.getLsbD k && !decide (k ∈ [flagTF, flagNT, flagRF, flagVM]) && !(interruptGate && decide (k = flagIF))) := by
  cases interruptGate with
  | false => simp [entryFlags, getLsbD_clearBit, Bool.and_assoc]
  | true => simp [entryFlags, getLsbD_clearBit, Bool.and_assoc]

theorem eventTaken_eflags (v : Byte) (code : Option Nat) (retPc : DWord) :
    (s.eventTaken v code retPc).eflags =
      entryFlags (systemKind (s.gateAt v).type == .interruptGate) s.eflags := rfl

/-- Settles O39: the bits of `entryFlags` in the state that O38 gives. -/
theorem gateEntryFlags : Obligations.GateEntryFlags := by
  intro s n hp hn h
  obtain ⟨hint, -⟩ := (softwareInterruptCompletes s n).2 hp hn
  refine ⟨_, hint h, fun hk => ?_, fun hk => ?_, fun k hk => ?_, fun k hk => ?_⟩
  · rw [State.interruptFlag, eventTaken_eflags, getLsbD_entryFlags]
    simp [hk]
  · rw [State.interruptFlag, State.interruptFlag, eventTaken_eflags, getLsbD_entryFlags, hk]
    simp [flagTF, flagIF, flagNT, flagRF, flagVM]
  · rw [eventTaken_eflags, getLsbD_entryFlags]
    simp [hk]
  · have hif : k ≠ flagIF := fun he => hk (by simp [he])
    have hsub : [flagTF, flagNT, flagRF, flagVM] ⊆ [flagTF, flagIF, flagNT, flagRF, flagVM] := by decide
    have hother : k ∉ [flagTF, flagNT, flagRF, flagVM] := fun hm => hk (hsub hm)
    rw [eventTaken_eflags, getLsbD_entryFlags]
    simp [hif, hother]

end Sys2Proof.Proofs
end

section
/-! SUPPORT and statements. What an exception does under each policy; vectors and error codes. -/

namespace Sys2Proof.Proofs

open Sys2Proof Sys2Proof.Machine Sys2Proof.Laws

variable {s : State} {e : Exn}

/-! ### The numbers of an exception (R304, R307, R308) -/

/-- The error code of a page fault has three bits: protection violation, write, user access (R304). -/
theorem pageFaultCode_bits (kind : AccessKind) (cpl : Level) (protection : Bool) :
    pageFaultCode kind cpl protection < 8 ∧
    (pageFaultCode kind cpl protection).testBit 0 = protection ∧
    (pageFaultCode kind cpl protection).testBit 1 = (kind == .write) ∧
    (pageFaultCode kind cpl protection).testBit 2 = userAccess cpl := by
  rw [pageFaultCode]
  generalize (kind == .write) = write
  generalize userAccess cpl = user
  revert protection write user
  decide

/-- Settles O59: the table of R307 and R308 row by row, and the bits of a page fault's code by `pageFaultCode_bits`. -/
theorem exceptionNumbers : Obligations.ExceptionNumbers := by
  intro s code la kind cpl prot
  exact ⟨rfl, rfl, ⟨pageFaultCode kind cpl prot, rfl, pageFaultCode_bits kind cpl prot⟩, rfl⟩

/-! ### The end of a step by an exception (R7, R312, R313, R326) -/

theorem raised_not_delivered (h : s.cfg.transfers ≠ .delivered) (e : Exn) : raised s e = .fault (.exception e) := by
  rw [raised]
  cases hc : s.cfg.transfers with
  | named => rfl
  | performed => rfl
  | delivered => exact absurd hc h

/-- The delivery of an exception runs from memory before the instruction, with CR2 noted. -/
theorem raised_delivered {t : State} (hc : s.cfg.transfers = .delivered)
    (h : takeEvent e.vector false e.errorCode s.pcOffset (s.undone.noteFault e) = .ok ((), t)) :
    raised s e = .next t :=
  (stopped_next (e := .exn e)).2 ⟨hc, e, rfl, h⟩

theorem undone_of_before {m : Memory} (h : s.pfx.before = some m) : s.undone = { s with mem := m } := by
  rw [State.undone, h, Option.getD_some]

theorem undone_of_no_before (h : s.pfx.before = none) : s.undone = s := by
  rw [State.undone, h, Option.getD_none]

/-- Settles O42: under `delivered` the exception passes through its gate as `takeEvent_off` says. -/
theorem exceptionOutcome : Obligations.ExceptionOutcome := by
  intro s e
  refine ⟨fun hn => raised_not_delivered hn e, fun hc hp hok => ?_, fun _ => undone_of_before, undone_of_no_before⟩
  have hpaging : (s.undone.noteFault e).pagingEnabled = false := by
    rw [noteFault_pagingEnabled, undone_pagingEnabled, hp]
  exact raised_delivered hc (takeEvent_off hpaging hok)

end Sys2Proof.Proofs
end

section
/-! SUPPORT and statements. The state right after reset: where it fetches, and that it has the invariant. -/

namespace Sys2Proof.Proofs

open Sys2Proof Sys2Proof.Machine Sys2Proof.Laws

/-! ### The first fetch (R340, R341) -/

/-- The reset base of CS and the reset instruction pointer together are 16 bytes below 4 GB. -/
theorem reset_codeAt : codeAt State.reset 0 = 0xFFFFFFF0 := by decide

/-- The byte fetched first stands in the ROM of the default address map (log entry 7). -/
theorem reset_readable_firstByte : State.reset.readableAt (codeAt State.reset 0) 1 = true := by decide

theorem reset_limitOk_firstByte :
    limitOk State.reset.cfg State.reset.cs State.reset.pcOffset.toNat 1 = true := by decide

/-- Settles O6: with paging off the byte fetched is the one at `reset_codeAt`, in ROM, whatever memory holds. -/
theorem resetFetchesAtTopOfMemory : Obligations.ResetFetchesAtTopOfMemory := by
  refine ⟨fun m => ?_, rfl⟩
  have hread : State.readableAt { State.reset with mem := m } (codeAt State.reset 0) 1 = true :=
    (readableAt_cfg rfl _ _).trans reset_readable_firstByte
  have hfetch : fetchBytes 0 0 1 { State.reset with mem := m }
      = .ok ([m.read ((codeAt State.reset 0).setWidth 36)], { State.reset with mem := m }) :=
    fetchBytes_off rfl rfl rfl (Nat.le_refl 0) (by decide) reset_limitOk_firstByte hread
  rw [hfetch, reset_codeAt]
  rfl

/-! ### The invariant (R41) -/

/-- A segment register as reset leaves it passes for a loaded one where its type is accessed and readable. -/
theorem atReset_dataInv {type : BitVec 4} (ha : accessed type = true) (hr : readable type = true) (sel : Word16)
    (base : DWord) : (SegCache.atReset sel base type).dataInv = true := by
  simp [SegCache.dataInv, SegCache.atReset, ha, hr]

/-- LDTR and TR are not valid right after reset, so that they need not cache anything (R249). -/
theorem atReset_ldtInv (type : BitVec 4) : (SysReg.atReset type).ldtInv = true := rfl

theorem atReset_tssInv (type : BitVec 4) : (SysReg.atReset type).tssInv = true := rfl

/-- At reset CS is a nonconforming code segment and SS a writable one, both of CPL 0. -/
theorem reset_sound : Sound State.reset :=
  have hdata : (SegCache.atReset 0 0 0b0011).dataInv = true := atReset_dataInv (by decide) (by decide) 0 0
  { mem := reset_memory_wf
    before := nofun
    code := by decide
    stack := by decide
    ds := hdata
    es := hdata
    fs := hdata
    gs := hdata
    ldtr := atReset_ldtInv 0b0010
    tr := atReset_tssInv 0b1011 }

/-- Settles O7: `reset_sound`, with no prefix byte read and no copy of memory kept. -/
theorem resetHoldsInvariant : Obligations.ResetHoldsInvariant :=
  inv_iff.2 ⟨reset_sound, Nat.zero_le _, rfl⟩

end Sys2Proof.Proofs
end
